-- ==== Sys2Proof/Word.lean ====
section
/-! DEFINITION. The word types of the part: bytes, the 8-byte word of one data beat, and the 16-byte cipher block. -/

namespace Sys2Proof

/-- One byte. -/
abbrev Byte := BitVec 8

/-- A word: 8 bytes, the width of one data beat; byte 0 is the least significant byte (Conventions, "Addresses and
words"). -/
abbrev Word := BitVec 64

/-- A cipher block or a key: 16 bytes numbered 0 to 15 in the order in which the cipher consumes them (section 3.1).
Byte 0 is the MOST significant byte here, so that `++` writes the fields of a block in the order of the spec's tables. -/
abbrev Block := BitVec 128

end Sys2Proof
end

