-- ==== Sys2Proof/Syntax.lean ====
section
/-! DEFINITION. The commands of the part: one constructor of `Instr` for each row of spec/opcode_table.json, with the
operands its step takes from outside, and the plain types those operands have. -/

namespace Sys2Proof

/-- One of the four bus masters, 0 to 3: the top two bits of a request ID (R135). -/
abbrev Initiator := Fin 4

/-- A slot is named by its group number and its index (R1). -/
structure SlotRef where
  group : Fin 16
  index : Fin 32
  deriving DecidableEq, Repr

/-- The burst types of AXI4 (R134). -/
inductive BurstType where
  | fixed | incr | wrap
  deriving DecidableEq, Repr

/-- The AXI4 response codes (R134). -/
inductive Resp where
  | okay | exokay | slverr | decerr
  deriving DecidableEq, Repr

/-- The direction of a request. -/
inductive Direction where
  | read | write
  deriving DecidableEq, Repr

/-- One address phase at the system port (R134, R135). `len` is the number of beats less one, `size` the base-2 logarithm
of the beat size, `prot` bit 0 the privileged bit; `idRest` and `attrs` (AxCACHE, AxQOS and similar) are carried
unchanged. -/
structure Request where
  initiator : Initiator
  dir : Direction
  addr : BitVec 32
  len : BitVec 8
  size : BitVec 3
  burst : BurstType
  exclusive : Bool
  prot : BitVec 3
  idRest : Nat
  attrs : Nat
  deriving DecidableEq, Repr

/-- One write data beat: 8 data bytes and 8 byte strobes, bit j for byte j. -/
structure WriteBeat where
  data : Word
  strobes : BitVec 8
  deriving DecidableEq, Repr

/-- One read data beat: 8 data bytes and its response code. -/
structure ReadBeat where
  data : Word
  resp : Resp
  deriving DecidableEq, Repr

/-- The two equivalent command words of a slot record, offsets 0x40 and 0x68 (R2, section 1.5). -/
inductive CommandWord where
  | a | b
  deriving DecidableEq, Repr

/-- The commands of the TG20: the rows of spec/opcode_table.json, in the table's order. An `upper` operand is bytes 1 to 7
of a written command word (byte 0, the code, is fixed by the row). -/
inductive Instr where
  /-- POWER_ON_RESET (R166); the operand is the level of the straps CB1 (bit 1) and CB0 (bit 0), sampled here (R149). -/
  | powerOnReset (straps : BitVec 2)
  /-- TICK (R115). -/
  | tick
  /-- SYNC_EDGE (R120). -/
  | syncEdge
  /-- TAMPER_SAMPLE (R173); the operand is the sampled level of TAMPER. -/
  | tamperSample (asserted : Bool)
  /-- DEADLINE_REACHED (R21) of one slot. -/
  | deadlineReached (slot : SlotRef)
  /-- READ_HOLD_LIMIT (R25) of one initiator's held read. -/
  | readHoldLimit (initiator : Initiator)
  /-- REQUEST_ACCEPT (R136). -/
  | requestAccept (req : Request)
  /-- READ_TAKEN (R143). -/
  | readTaken (initiator : Initiator)
  /-- WRITE_TAKEN (R142), with the data beats that have arrived. -/
  | writeTaken (initiator : Initiator) (beats : List WriteBeat)
  /-- MEMORY_READ_RESPONSE (R143) to the request at a place of an initiator's order queue. -/
  | memoryReadResponse (initiator : Initiator) (place : Fin 8) (beats : List ReadBeat)
  /-- MEMORY_WRITE_RESPONSE (R142) to the request at a place of an initiator's order queue. -/
  | memoryWriteResponse (initiator : Initiator) (place : Fin 8) (resp : Resp)
  /-- INBOUND_SHADOW_WRITE (R18): a beat to inbound word 0 to 3 (inbound word, tag ID, nonce, authenticator). -/
  | inboundShadowWrite (slot : SlotRef) (word : Fin 4) (beat : WriteBeat)
  /-- PAYLOAD_SHADOW_WRITE (R19): a beat to payload word 0 to 3. -/
  | payloadShadowWrite (slot : SlotRef) (word : Fin 4) (beat : WriteBeat)
  /-- OPEN (R12). -/
  | openSlot (initiator : Initiator) (slot : SlotRef) (cw : CommandWord) (upper : BitVec 56)
  /-- ARM (R13). -/
  | arm (initiator : Initiator) (slot : SlotRef) (cw : CommandWord) (upper : BitVec 56)
  /-- SEAL (R14). -/
  | sealSlot (initiator : Initiator) (slot : SlotRef) (cw : CommandWord) (upper : BitVec 56)
  /-- RELEASE (R15). -/
  | release (initiator : Initiator) (slot : SlotRef) (cw : CommandWord) (upper : BitVec 56)
  /-- ABORT (R16). -/
  | abort (initiator : Initiator) (slot : SlotRef) (cw : CommandWord) (upper : BitVec 56)
  /-- ENGINE_TAKE_JOB (R40). -/
  | engineTakeJob
  /-- VERIFY_COMPLETE (R46). -/
  | verifyComplete
  /-- SEAL_COMPLETE (R48). -/
  | sealComplete
  /-- IMPORT_COMPLETE (R53). -/
  | importComplete
  /-- CHECK_COMPLETE (R54). -/
  | checkComplete
  /-- BLOB_WRITE (R96): a beat to blob word 0 to 4 or spare blob word 5 to 7. -/
  | blobWrite (word : Fin 8) (beat : WriteBeat)
  /-- LOAD_PLAIN (R102). -/
  | loadPlain (upper : BitVec 56)
  /-- LOAD (R103). -/
  | load (upper : BitVec 56)
  /-- REVOKE (R105). -/
  | revoke (upper : BitVec 56)
  /-- ERASE (R106). -/
  | erase (upper : BitVec 56)
  /-- INQUIRE (R108). -/
  | inquire (upper : BitVec 56)
  /-- SET_READER (R109). -/
  | setReader (upper : BitVec 56)
  /-- FIELD_LOCK (R110). -/
  | fieldLock (upper : BitVec 56)
  /-- ZEROIZE (R111). -/
  | zeroize (upper : BitVec 56)
  /-- NV_OPERATION_END (R92, R93); the operand says whether its verify passed. -/
  | nvOperationEnd (passed : Bool)
  /-- NV_ZEROIZE_ATTEMPT_END (R176); the operand says whether the attempt passed. -/
  | nvZeroizeAttemptEnd (passed : Bool)
  /-- NV_READ_END (R167). -/
  | nvReadEnd
  /-- MAP_TABLE_READ_START (R146). -/
  | mapTableReadStart
  /-- MAP_TABLE_READ_END (R156), with the beats of the two bursts as memory returned them. -/
  | mapTableReadEnd (first second : List ReadBeat)
  /-- MAP_WORD_WRITE (R155). -/
  | mapWordWrite (data : Word)
  /-- PRE_WRITE (R116). -/
  | preWrite (data : Word)
  /-- EPOCH_SCHEDULE_WRITE (R125). -/
  | epochScheduleWrite (data : Word)
  /-- SWITCH_NOW (R128): the epoch control word written 0x01. -/
  | switchNow
  /-- CANCEL (R128): the epoch control word written 0x02. -/
  | cancel
  /-- ATTENTION_CAUSES_WRITE (R186). -/
  | attentionCausesWrite (data : Word)
  /-- ATTENTION_ENABLES_WRITE (R187). -/
  | attentionEnablesWrite (data : Word)
  /-- UNMAPPED_RIGHTS_WRITE (R153). -/
  | unmappedRightsWrite (data : Word)
  /-- DUPLICATE_INTERVAL_WRITE (R70). -/
  | duplicateIntervalWrite (data : Word)
  /-- HOLD_TIME_WRITE (R70). -/
  | holdTimeWrite (data : Word)
  /-- HOLD_SET (R192): the hold word written with bit 0 set; the operand is bits 1 to 63. -/
  | holdSet (upper : BitVec 63)
  /-- HOLD_CLEAR (R194): the hold word written with bit 0 clear; the operand is bits 1 to 63. -/
  | holdClear (upper : BitVec 63)
  /-- COUNTER_CLEAR (R190). -/
  | counterClear (data : Word)
  /-- RESET_N_RELEASE (R115). -/
  | resetNRelease
  /-- NV_ZEROIZE_STAGE_END (R176): a stage of the NV zeroize ends with its verify passing. -/
  | nvZeroizeStageEnd
  deriving DecidableEq, Repr

end Sys2Proof
end

