-- ==== Sys2Proof/Decode.lean ====
section
/-! DEFINITION. The decoder of the table's bits. No row of spec/opcode_table.json gives a bit: the part's commands come to it
as events and as beats of bus requests, which `Machine` takes by their places (log entry 9). -/

/-- The command that a word spells by the table's bits: none, since no row gives any. -/
def Sys2Proof.decodeTableWord (_nbits _w : Nat) : Option Sys2Proof.Instr := none
end

