-- ==== Sys2Proof/Machine/Aes.lean ====
section
/-! DEFINITION. The AES-128 block cipher. The spec names the cipher ("every cryptographic computation of the part, on one
AES-128 core") and does not print its tables; they are PRESUMED here from FIPS 197 (log entry 6). -/

namespace Sys2Proof.Machine

/-- The S-box, one row of sixteen bytes for each upper digit (FIPS 197, Figure 7; PRESUMED). -/
def sboxRows : List (BitVec 128) :=
    [0x637c777bf26b6fc53001672bfed7ab76#128,
     0xca82c97dfa5947f0add4a2af9ca472c0#128,
     0xb7fd9326363ff7cc34a5e5f171d83115#128,
     0x04c723c31896059a071280e2eb27b275#128,
     0x09832c1a1b6e5aa0523bd6b329e32f84#128,
     0x53d100ed20fcb15b6acbbe394a4c58cf#128,
     0xd0efaafb434d338545f9027f503c9fa8#128,
     0x51a3408f929d38f5bcb6da2110fff3d2#128,
     0xcd0c13ec5f974417c4a77e3d645d1973#128,
     0x60814fdc222a908846eeb814de5e0bdb#128,
     0xe0323a0a4906245cc2d3ac629195e479#128,
     0xe7c8376d8dd54ea96c56f4ea657aae08#128,
     0xba78252e1ca6b4c6e8dd741f4bbd8b8a#128,
     0x703eb5664803f60e613557b986c11d9e#128,
     0xe1f8981169d98e949b1e87e9ce5528df#128,
     0x8ca1890dbfe6426841992d0fb054bb16#128]

/-- SubBytes of one byte: row by the upper digit, column by the lower one. -/
def subByte (b : Byte) : Byte :=
  (sboxRows.getD (b.toNat / 16) 0#128).extractLsb' (8 * (15 - b.toNat % 16)) 8

/-- Multiplication by x in GF(2^8). -/
def xtime (b : Byte) : Byte := (b <<< 1) ^^^ (if b.getLsbD 7 then 0x1B#8 else 0#8)

/-- The sixteen bytes of a block, byte 0 first. -/
def blockBytes (b : Block) : List Byte := (List.range 16).map fun i => b.extractLsb' (8 * (15 - i)) 8

/-- The block of a list of bytes, byte 0 first. -/
def blockOfBytes (l : List Byte) : Block := l.foldl (fun (acc : Block) b => (acc <<< 8) ||| b.setWidth 128) 0#128

/-- SubBytes and ShiftRows together: byte i of the result is the S-box of byte i + 4 (i mod 4), modulo 16. -/
def subShift (s : List Byte) : List Byte :=
  (List.range 16).map fun i => subByte (s.getD ((i + 4 * (i % 4)) % 16) 0#8)

/-- MixColumns of one column. -/
def mixColumn : List Byte → List Byte
  | [a, b, c, d] =>
    [xtime a ^^^ (xtime b ^^^ b) ^^^ c ^^^ d, a ^^^ xtime b ^^^ (xtime c ^^^ c) ^^^ d,
      a ^^^ b ^^^ xtime c ^^^ (xtime d ^^^ d), (xtime a ^^^ a) ^^^ b ^^^ c ^^^ xtime d]
  | l => l

/-- MixColumns of a state of four columns. -/
def mixColumns (s : List Byte) : List Byte :=
  mixColumn (s.take 4) ++ mixColumn ((s.drop 4).take 4) ++ mixColumn ((s.drop 8).take 4) ++ mixColumn (s.drop 12)

/-- The next round key from the one before it and the round constant. -/
def nextRoundKey (rcon : Byte) (k : Block) : Block :=
  let w3 := k.extractLsb' 0 32
  let g : BitVec 32 := (subByte (w3.extractLsb' 16 8) ^^^ rcon) ++ subByte (w3.extractLsb' 8 8) ++
    subByte (w3.extractLsb' 0 8) ++ subByte (w3.extractLsb' 24 8)
  let n0 := k.extractLsb' 96 32 ^^^ g
  let n1 := k.extractLsb' 64 32 ^^^ n0
  let n2 := k.extractLsb' 32 32 ^^^ n1
  n0 ++ n1 ++ n2 ++ (w3 ^^^ n2)

/-- The rounds after the first key addition: one for each round constant, the last without MixColumns. -/
def aesRounds : List Byte → Block → Block → Block
  | [], _, s => s
  | rcon :: rest, k, s =>
    let k' := nextRoundKey rcon k
    let t := subShift (blockBytes s)
    aesRounds rest k' (blockOfBytes (if rest.isEmpty then t else mixColumns t) ^^^ k')

/-- The round constants of the ten rounds. -/
def roundConstants : List Byte := [0x01#8, 0x02#8, 0x04#8, 0x08#8, 0x10#8, 0x20#8, 0x40#8, 0x80#8, 0x1B#8, 0x36#8]

/-- E(K, B): the encryption of block B under the 16-byte key K by AES-128. -/
def aes128 (key block : Block) : Block := aesRounds roundConstants key (block ^^^ key)

end Sys2Proof.Machine
end

