-- ==== Sys2Proof/Machine/Bytes.lean ====
section
/-! DEFINITION. Byte order and byte strobes: how words of memory, byte strings and cipher blocks are made of bytes. -/

namespace Sys2Proof.Machine

/-- Byte `k` of a word; byte 0 is the least significant and lies at the lowest address ("Addresses and words"). -/
def byteOf (w : Word) (k : Nat) : Byte := w.extractLsb' (8 * k) 8

/-- The eight bytes of a word as a byte string, lowest address first (section 3.1); its own inverse. -/
def addressOrder (w : Word) : BitVec 64 :=
  byteOf w 0 ++ byteOf w 1 ++ byteOf w 2 ++ byteOf w 3 ++ byteOf w 4 ++ byteOf w 5 ++ byteOf w 6 ++ byteOf w 7

/-- Byte `k` of a merge: the new byte where strobe `k` is present, the old one where it is not (R18). -/
def mergedByte (old new : Word) (strobes : BitVec 8) (k : Nat) : Byte :=
  if strobes.getLsbD k then byteOf new k else byteOf old k

/-- Merging under byte strobes: bytes whose strobe is present take the written value, the others keep theirs (R18). -/
def mergeBytes (old new : Word) (strobes : BitVec 8) : Word :=
  mergedByte old new strobes 7 ++ mergedByte old new strobes 6 ++ mergedByte old new strobes 5 ++
    mergedByte old new strobes 4 ++ mergedByte old new strobes 3 ++ mergedByte old new strobes 2 ++
    mergedByte old new strobes 1 ++ mergedByte old new strobes 0

/-- A beat's eight strobes are all present (R139). -/
def allStrobes (strobes : BitVec 8) : Bool := strobes == 0xFF#8

/-- Two words laid end to end in address order make a block (R56, byte strings). -/
def blockOfWords (lo hi : Word) : Block := addressOrder lo ++ addressOrder hi

/-- The first eight bytes of a block, as the word that holds them in address order (R60, R63, R64). -/
def wordOfFirstBytes (y : Block) : Word := addressOrder (y.extractLsb' 64 64)

end Sys2Proof.Machine
end

