-- ==== Sys2Proof/Config.lean ====
section
/-! DEFINITION. What one TG20 fixes for good (numbers the spec states), and the free values that it leaves open. -/

namespace Sys2Proof.Config

/-- Family code of the identity word (R202). -/
def familyCode : BitVec 16 := 0x7C20#16

/-- Revision number of the identity word (R202). -/
def revision : Byte := 0x02#8

/-- The SYNC glitch window in ticks (R120). -/
def glitchWindow : Word := 500000#64

/-- PRE after power-on reset (R116). -/
def preReset : Byte := 24#8

/-- The duplicate interval D after power-on reset (R70). -/
def dReset : Word := 2000000#64

/-- The hold time H after power-on reset (R70). -/
def hReset : Word := 600000000#64

/-- The ceiling of a stored H: 2^40 ticks (R70). -/
def hMax : Word := 0x10000000000#64

/-- The end of the challenge counter, 2^48 (R32). -/
def counterEnd : Nat := 2 ^ 48

/-- How many challenge values one reservation adds (R34). -/
def reserveStep : Nat := 4096

/-- A reservation is asked for when ceiling − counter is this or less (R34). -/
def reserveBelow : Nat := 1024

/-- CHALLENGE_LOW is judged against this margin (R35). -/
def lowMargin : Nat := 256

/-- Most requests of one initiator in its order queue (R136). -/
def queueLimit : Nat := 8

/-- Most slots in the loaded map (R154). -/
def slotLimit : Nat := 64

/-- The fixed pattern of a ZEROIZE word, its upper six bytes read as one number (R111). -/
def zeroizePattern : BitVec 48 := 0xA5F0C3963C5A#48

/-- FREE VALUE. The sixteen key bytes that an NV entry record holds after an entry program or entry erase whose verify
failed: R89 states only that the record's state is DAMAGED. The argument is the model's counter of free values, so that
two failures need not leave the same bytes. It has no body: nothing can be proved of its value (log entry 8). -/
opaque freeKey : Nat → Block

/-- FREE VALUE. The bits of entry record `i` after stage 2 of an NV zeroize has failed its verify: R176 states that the
records change as a whole at the stage's end and not what a failed verify leaves in them. The first argument is the
model's counter of free values (log entry 20). -/
opaque freeRecord : Nat → Nat → BitVec 216

/-- FREE VALUE. The epoch record after stage 3 of an NV zeroize has failed its verify (R176; log entry 20). -/
opaque freeEpoch : Nat → BitVec 16

end Sys2Proof.Config
end

