-- ==== Sys2Proof/Machine/State.lean ====
section
/-! DEFINITION. The state of the TG20, one structure per block of the part (00_scope.md, "Blocks of the part"), and the
state right after power-on reset. Plain data throughout. -/

namespace Sys2Proof.Machine

/-- Why a step stops with a fault. There is no constructor: the spec calls no command of the table undefined, so no
meaning of this model ends in a fault. -/
inductive Fault where
  deriving DecidableEq, Repr

/-- Why a command is refused. -/
inductive Refusal where
  /-- Raised by `exec` alone, for a row of the table that has no meaning yet (no row is left so). Safe: the model stops. -/
  | notModelled (mnemonic : String)
  deriving DecidableEq, Repr

/-! ### The Slot Unit (chapter 1) -/

/-- The ten slot states (R5, section 1.4). -/
inductive SlotState where
  | free | open' | queued | busy | verified | rejected | sealed | expired | faulted | aborting
  deriving DecidableEq, Repr

/-- The two job kinds of a slot (R5). -/
inductive JobKind where
  | verify | sealing
  deriving DecidableEq, Repr

/-- The five slot commands (section 1.5). -/
inductive SlotCmd where
  | open' | arm | sealing | release | abort
  deriving DecidableEq, Repr

/-- The last command result of a slot (R5, R198); `none` before the first command evaluated. -/
inductive SlotResult where
  | none | ok | held | badCommand | notPermitted | stale | wrongState | noService | exhausted | challengeWait
  deriving DecidableEq, Repr

/-- The verdict of a slot (R5). -/
inductive Verdict where
  | accept | reject
  deriving DecidableEq, Repr

/-- The reason of a REJECTED or FAULTED slot (R5). -/
inductive Reason where
  | keyAbsent | keyRevoked | keyDamaged | keyOutOfEpoch | badMac | duplicate | replay | badInbound | keyWithdrawn
  | noRecordKey
  deriving DecidableEq, Repr

/-- A reading's reference: the slot, its generation, and the antenna (R68, R73). -/
structure ReadingRef where
  slot : SlotRef
  generation : BitVec 8
  antenna : BitVec 3
  deriving DecidableEq, Repr

/-- The duplicate reference with its ordinal (R80). -/
structure DuplicateInfo where
  first : ReadingRef
  ordinal : BitVec 8
  deriving DecidableEq, Repr

/-- One slot context (R5). `inbound` holds the shadows of the four inbound words, offset 0x20 first; `payload` those of the
four payload words, offset 0x48 first; `mac` and `recordSeal` hold the words as offsets 0x70 and 0x78 answer them. -/
structure SlotCtx where
  state : SlotState
  jobKind : Option JobKind
  generation : BitVec 8
  lastResult : SlotResult
  challenge : Option Word
  arrival : Option Word
  deadline : Option Word
  late : Bool
  inbound : Vector Word 4
  payload : Vector Word 4
  tagEntry : Option (Fin 64)
  recordEntry : Option (Fin 64)
  derivedKey : Option Block
  withdrawn : Bool
  verdict : Option Verdict
  reason : Option Reason
  duplicate : Option DuplicateInfo
  mac : Option Word
  recordSeal : Option Word
  deriving DecidableEq, Repr

/-- A context as a map reload creates it: FREE, generation 0, no last command result, no late flag (R5, R28). -/
def SlotCtx.fresh : SlotCtx :=
  { state := .free, jobKind := none, generation := 0#8, lastResult := .none, challenge := none, arrival := none,
    deadline := none, late := false, inbound := Vector.replicate 4 0#64, payload := Vector.replicate 4 0#64,
    tagEntry := none, recordEntry := none, derivedKey := none, withdrawn := false, verdict := none, reason := none,
    duplicate := none, mac := none, recordSeal := none }

/-- The Slot Unit: the contexts of the loaded map's slots, by group and index, and the challenge counter (R5, R32). -/
structure SlotUnit where
  contexts : List (SlotRef × SlotCtx)
  counter : Nat
  ceiling : Nat
  exhausted : Bool
  reservationPending : Bool
  deriving DecidableEq, Repr

/-! ### The Derivation Engine (chapter 2) -/

/-- The two kinds of import job (R42). -/
inductive ImportKind where
  | load | loadPlain
  deriving DecidableEq, Repr

/-- The work of a job in work, with its target and its working values (R37): for a slot job the slot, its generation and
the active epoch when the job was taken, with the derived tag key (VERIFY: the master-key copy is cleared once the key is
derived, R44) or the record-key copy (SEAL); for IMPORT the inputs of R42; for CHECK the directory index and the entry's
key. -/
inductive Work where
  | verify (slot : SlotRef) (generation : BitVec 8) (epoch : BitVec 16) (tagKey : Block)
  | sealing (slot : SlotRef) (generation : BitVec 8) (epoch : BitVec 16) (recordKey : Block)
  | importing (kind : ImportKind) (header wrapped : Block) (blobMac : Word) (transportKey : Option Block)
  | checking (index : Fin 64) (key : Option Block)
  deriving DecidableEq, Repr

/-- The job-in-work record (R37). -/
structure Job where
  work : Work
  discard : Bool
  deriving DecidableEq, Repr

/-- The Derivation Engine: IDLE when `job` is absent (R37), its FIFO (R38), the import waiting place and wait count
(R39). -/
structure Engine where
  fifo : List SlotRef
  importPlace : Option ImportKind
  waitCount : Nat
  job : Option Job
  deriving DecidableEq, Repr

/-! ### The Passage Filter (chapter 4) -/

/-- One entry of the passage filter (R68). -/
structure FilterEntry where
  keySet : Byte
  tagId : Word
  lastCounter : BitVec 24
  lastTime : Word
  first : ReadingRef
  duplicates : BitVec 8
  deriving DecidableEq, Repr

/-- The Passage Filter: 256 positions, a clear in-use flag being `none`, and the stored D and H (R68, R70). -/
structure Filter where
  positions : Vector (Option FilterEntry) 256
  d : Word
  h : Word
  deriving DecidableEq, Repr

/-! ### The Key Store (chapter 5) -/

/-- What a key is for (R87). -/
inductive Usage where
  | none | transport | tag | record
  deriving DecidableEq, Repr

/-- The state of a directory entry (R87). -/
inductive EntryState where
  | empty | loaded | revoked | damaged
  deriving DecidableEq, Repr

/-- One entry of the key directory (R87). -/
structure DirEntry where
  state : EntryState
  usage : Usage
  keySet : BitVec 5
  version : BitVec 4
  validFrom : BitVec 16
  validUntil : BitVec 16
  check : BitVec 24
  key : Option Block
  deriving DecidableEq, Repr

/-- An EMPTY entry: no key, every other field zero (R87). -/
def DirEntry.emptied : DirEntry :=
  { state := .empty, usage := .none, keySet := 0#5, version := 0#4, validFrom := 0#16, validUntil := 0#16,
    check := 0#24, key := none }

/-- The import state (R98). -/
inductive ImportState where
  | idle | queued | working | nvWriting
  deriving DecidableEq, Repr

/-- The eight import commands (section 5.5). -/
inductive ImportCmd where
  | loadPlain | load | revoke | erase | inquire | setReader | fieldLock | zeroize
  deriving DecidableEq, Repr

/-- The result code of an import command (R98, R200). -/
inductive ImportCode where
  | none | ok | busy | held | badCommand | badHeader | wrongLifecycle | noTransport | exists' | full | badBlob
  | checkMismatch | notFound | protected' | nvFault
  deriving DecidableEq, Repr

/-- The import result, less the import state (R98). -/
structure ImportResult where
  command : Byte
  code : ImportCode
  index : Fin 64
  check : BitVec 24
  deriving DecidableEq, Repr

/-- The inquiry record: an entry without its key, and its index (R99). -/
structure Inquiry where
  index : Fin 64
  state : EntryState
  usage : Usage
  keySet : BitVec 5
  version : BitVec 4
  validFrom : BitVec 16
  validUntil : BitVec 16
  check : BitVec 24
  deriving DecidableEq, Repr

/-- The inquiry record with every field zero (R99). -/
def Inquiry.zero : Inquiry :=
  { index := 0, state := .empty, usage := .none, keySet := 0#5, version := 0#4, validFrom := 0#16, validUntil := 0#16,
    check := 0#24 }

/-- The Key Store: the directory (R87), the import buffer as the five blob words (R97), the import state and result (R98),
the code of the command in flight (R98: "its own code"; DEDUCED, log entry 27), and the inquiry record (R99). -/
structure KeyStore where
  dir : Vector DirEntry 64
  buffer : Vector Word 5
  importState : ImportState
  inFlight : Byte
  result : ImportResult
  inquiry : Inquiry
  deriving DecidableEq, Repr

/-! ### The NV array and the NV writer (sections 5.2 and 5.3) -/

/-- One entry record of the NV array as raw bytes (R89): NV_READ judges whether they are in range (R167). -/
structure NvRecord where
  state : Byte
  usage : Byte
  keySet : Byte
  version : Byte
  validFrom : BitVec 16
  validUntil : BitVec 16
  check : BitVec 24
  key : Block
  deriving DecidableEq, Repr

/-- An entry record made EMPTY, its key erased (R92). -/
def NvRecord.erased : NvRecord :=
  { state := 0#8, usage := 0#8, keySet := 0#8, version := 0#8, validFrom := 0#16, validUntil := 0#16, check := 0#24,
    key := 0#128 }

/-- The NV array (R89). -/
structure NvArray where
  records : Vector NvRecord 64
  lifeWord : Byte
  reader : BitVec 16
  epoch : BitVec 16
  highWater : Nat
  deriving DecidableEq, Repr

/-- An entry record as 216 bits, in the order of its fields. -/
def NvRecord.ofBits (b : BitVec 216) : NvRecord :=
  { state := b.extractLsb' 208 8, usage := b.extractLsb' 200 8, keySet := b.extractLsb' 192 8,
    version := b.extractLsb' 184 8, validFrom := b.extractLsb' 168 16, validUntil := b.extractLsb' 152 16,
    check := b.extractLsb' 128 24, key := b.extractLsb' 0 128 }

/-- The NV array of a part that has never been programmed (R89). -/
def NvArray.blank : NvArray :=
  { records := Vector.replicate 64 NvRecord.erased, lifeWord := 0#8, reader := 0#16, epoch := 0#16, highWater := 0 }

/-- The operations an admin request may ask for (R90), with what the request carries. -/
inductive AdminOp where
  /-- Entry program of a LOAD, or of a LOAD_PLAIN, which a life-cycle word follows (R104). -/
  | program (index : Fin 64) (entry : DirEntry) (thenPersonalize : Bool)
  /-- The life-cycle word PERSONALIZED that follows a LOAD_PLAIN's entry program (R104). -/
  | personalize (index : Fin 64) (check : BitVec 24)
  /-- Entry program of a REVOKE (R105). -/
  | markRevoked (index : Fin 64)
  /-- Entry erase, with the fields kept for the command's end: usage, key set, version, epochs and check value, no key
  (R106). -/
  | eraseEntry (index : Fin 64) (kept : DirEntry)
  /-- Reader number (R109). -/
  | writeReader (value : BitVec 16)
  /-- Life-cycle word FIELD (R110). -/
  | lockField
  deriving DecidableEq, Repr

/-- The three kinds of request to the NV writer (R90). -/
inductive NvRequest where
  | admin (op : AdminOp)
  | epochRecord (value : BitVec 16)
  | reservation (value : Nat)
  deriving DecidableEq, Repr

/-- The running operation of the NV writer: a request, the start-up program of RESERVE (R170), the life-cycle word BLANK
that ends an interrupted zeroization (R168), or the NV zeroize with the stages it has passed (R176). -/
inductive NvOp where
  | request (r : NvRequest)
  | reserve (value : Nat)
  | blankWord
  | nvZeroize (stagesPassed : Fin 4)
  deriving DecidableEq, Repr

/-- The NV writer (R90, R184). -/
structure NvWriter where
  running : Option NvOp
  waiting : List NvRequest
  zeroizeWaiting : Bool
  attemptsFailed : BitVec 8
  deriving DecidableEq, Repr

/-! ### The Time Unit (chapter 6) -/

/-- The schedule reason (R125). -/
inductive ScheduleReason where
  | none | scheduled | rejected
  deriving DecidableEq, Repr

/-- A pending schedule: its epoch and its countdown (R125). -/
structure Schedule where
  epoch : BitVec 16
  countdown : BitVec 16
  deriving DecidableEq, Repr

/-- The Time Unit (the state table of chapter 6). -/
structure TimeUnit where
  pre : Byte
  pendingPre : Option Byte
  prescale : Byte
  lt : Word
  ltHigh : BitVec 32
  capture : Option Word
  pulses : BitVec 16
  epoch : BitVec 16
  schedule : Option Schedule
  reason : ScheduleReason
  deriving DecidableEq, Repr

/-! ### The Memory Path (chapter 7) -/

/-- The words of the status block (R201). -/
inductive StatusWord where
  | identity | ltLow | ltHigh | pre | pulseCapture | pulseCount | epoch | epochControl | causes | enables | mapWord
  | unmappedRights | dInterval | holdTime | occupancy | hold | counters (pair : Fin 6) | counterClear | refusalAddress
  | refusalDetail | challengeStatus | nvState | unassigned
  deriving DecidableEq, Repr

/-- What a beat of a request reaches: plain memory (all that is passed both ways), a word of a slot record by its word
number (offset / 8), a word of the status block, or a word of the import area by its word number. -/
inductive Place where
  | memory
  | slot (ref : SlotRef) (word : Fin 16)
  | status (word : StatusWord)
  | importArea (word : Fin 16)
  deriving DecidableEq, Repr

/-- The refusal reasons (R141, R145). -/
inductive RefusalReason where
  | limit | form | permission | privilege | resultWrite | reserved
  deriving DecidableEq, Repr

/-- The response the part gives at the system port: a read's beats or a write's response code. -/
inductive Reply where
  | read (beats : List ReadBeat)
  | write (resp : Resp)
  deriving DecidableEq, Repr

/-- Where a request in an order queue stands: not taken; a read taken and held (the LT at which its limit ends, its words,
and the slot jobs that still hold it, R24 and R25); forwarded, memory's response awaited (the answered words already formed;
for a write, whether a table read waits for it, R146); or its response ready, waiting for earlier ones (R137). -/
inductive Stage where
  | untaken
  | held (endsAt : Word) (places : List Place) (waits : List (SlotRef × JobKind))
  | forwarded (answers : List (Option Word)) (awaited : Bool)
  | ready (reply : Reply)
  deriving DecidableEq, Repr

/-- One entry of an order queue (R136). -/
structure QueueEntry where
  req : Request
  stage : Stage
  deriving DecidableEq, Repr

/-- The first-refusal record (R145). -/
structure RefusalRecord where
  valid : Bool
  addr : BitVec 32
  initiator : Initiator
  dir : Direction
  privileged : Bool
  reason : Option RefusalReason
  deriving DecidableEq, Repr

/-- The Memory Path: one order queue per initiator, in order of arrival, and the first-refusal record. -/
structure MemoryPath where
  queues : Vector (List QueueEntry) 4
  refusal : RefusalRecord
  deriving DecidableEq, Repr

/-- What the part sends out of the memory port: a forwarded read or write burst, one forwarded beat of a burst whose beats
are taken one by one, or a burst of the part's own table read (by its start address). The record is the model's own (log
entry 5). -/
inductive MemOut where
  | read (req : Request)
  | write (req : Request) (beats : List WriteBeat)
  | beat (addr : Nat) (beat : WriteBeat)
  | tableRead (addr : Nat)
  deriving DecidableEq, Repr

/-- What the part gives back at the system port: the response of a request. -/
structure SysOut where
  req : Request
  reply : Reply
  deriving DecidableEq, Repr

/-! ### The Window Map (chapter 8) -/

/-- One descriptor as its two words (R151, R199). -/
structure Descriptor where
  word0 : Word
  word1 : Word
  deriving DecidableEq, Repr

/-- The map state (R154). -/
inductive MapState where
  | empty | loading | loaded | fault
  deriving DecidableEq, Repr

/-- The fault reason of the Window Map (R154). -/
inductive MapFault where
  | none | readError | spareBits | badKind | badField | outOfSpace | controlOverlap | overlap | tooManySlots
  deriving DecidableEq, Repr

/-- Where a load of the window table stands: waiting for earlier forwarded writes, or reading (R146). -/
inductive LoadStage where
  | draining | reading
  deriving DecidableEq, Repr

/-- The Window Map (R154), with the sampled straps (R149) and the unmapped rights (R153). -/
structure WindowMap where
  straps : BitVec 2
  table : Vector Descriptor 16
  requested : BitVec 16
  installed : BitVec 16
  state : MapState
  fault : MapFault
  faultIndex : Fin 16
  load : Option LoadStage
  unmappedRead : BitVec 4
  unmappedWrite : BitVec 4
  deriving DecidableEq, Repr

/-! ### The Life-cycle Unit (chapter 9) and the Status Unit (chapter 10) -/

/-- The life-cycle states (R163). -/
inductive LifeCycle where
  | blank | personalized | field | zeroizing | zeroized
  deriving DecidableEq, Repr

/-- The start-up phases (R163). -/
inductive Phase where
  | nvRead | keyCheck | reserve | mapLoad | running
  deriving DecidableEq, Repr

/-- The Life-cycle Unit (R163); `resetAsserted` is the level of RESET_N between POWER_ON_RESET and RESET_N_RELEASE
(log entry 18). -/
structure LifeUnit where
  cycle : LifeCycle
  reader : BitVec 16
  phase : Phase
  tamperCount : BitVec 4
  armed : Bool
  tamperSeen : Bool
  deferred : Bool
  resetAsserted : Bool
  deriving DecidableEq, Repr

/-- The eleven counters, in the order of the counter words (R188, R202). -/
inductive Counter where
  | accept | duplicate | replay | badMac | key | expired | late | faulted | refusals | evictions | pulseGlitches
  deriving DecidableEq, Repr

/-- The 26 attention causes (R185). -/
inductive Cause where
  | slotDone (group : Fin 16)
  | importDone | epochSwitched | scheduleRejected | mapLoaded | mapFault | refusal | tamper | nvFault | challengeLow
  | zeroized
  deriving DecidableEq, Repr

/-- The Status Unit: the 26 attention causes and enables in the bit places of R202, the counters, and the hold flag. -/
structure StatusUnit where
  causes : BitVec 26
  enables : BitVec 26
  counters : Vector (BitVec 32) 11
  hold : Bool
  deriving DecidableEq, Repr

end Sys2Proof.Machine

namespace Sys2Proof.Machine

/-- The state of the TG20. The last four fields are the model's own: what has left the two ports since power-on reset
(`memOut`, `sysOut`, in order), the count of free values drawn so far, and the queue of waiting commands (log entries 5, 8
and 3). -/
structure State where
  life : LifeUnit
  time : TimeUnit
  status : StatusUnit
  path : MemoryPath
  map : WindowMap
  slots : SlotUnit
  engine : Engine
  filter : Filter
  keys : KeyStore
  nv : NvArray
  writer : NvWriter
  memOut : List MemOut
  sysOut : List SysOut
  freeCount : Nat
  pending : List Instr
  deriving DecidableEq, Repr

/-- The filter with every position clear (section 4.6). -/
def Filter.cleared (f : Filter) : Filter := { f with positions := Vector.replicate 256 none }

/-- The state right after power-on reset of a part whose NV array holds `nv` and whose straps are sampled as `straps`
(R166 and the power-on values of each chapter): RESET_N is still asserted, and nothing waits. -/
def State.powerOn (nv : NvArray) (straps : BitVec 2) : State :=
  { life := { cycle := .blank, reader := 0#16, phase := .nvRead, tamperCount := 0#4, armed := true, tamperSeen := false,
              deferred := false, resetAsserted := true }
    time := { pre := Config.preReset, pendingPre := none, prescale := 0#8, lt := 0#64, ltHigh := 0#32, capture := none,
              pulses := 0#16, epoch := 0#16, schedule := none, reason := .none }
    status := { causes := 0#26, enables := 0#26, counters := Vector.replicate 11 0#32, hold := false }
    path := { queues := Vector.replicate 4 [],
              refusal := { valid := false, addr := 0#32, initiator := 0, dir := .read, privileged := false,
                           reason := none } }
    map := { straps := straps, table := Vector.replicate 16 { word0 := 0#64, word1 := 0#64 }, requested := 0#16,
             installed := 0#16, state := .empty, fault := .none, faultIndex := 0, load := none, unmappedRead := 0xF#4,
             unmappedWrite := 0xF#4 }
    slots := { contexts := [], counter := 0, ceiling := 0, exhausted := false, reservationPending := false }
    engine := { fifo := [], importPlace := none, waitCount := 0, job := none }
    filter := { positions := Vector.replicate 256 none, d := Config.dReset, h := Config.hReset }
    keys := { dir := Vector.replicate 64 DirEntry.emptied, buffer := Vector.replicate 5 0#64, importState := .idle,
              inFlight := 0#8, result := { command := 0#8, code := .none, index := 0, check := 0#24 },
              inquiry := Inquiry.zero }
    nv := nv
    writer := { running := none, waiting := [], zeroizeWaiting := false, attemptsFailed := 0#8 }
    memOut := []
    sysOut := []
    freeCount := 0
    pending := [] }

/-- The machine right after power-on reset: a part that has never been programmed (R89), straps at 0 (log entries 1
and 2). -/
def State.reset : State := State.powerOn NvArray.blank 0#2

end Sys2Proof.Machine
end

