-- ==== Sys2Proof/Machine/Operands.lean ====
section
/-! DEFINITION. The fields of the words that the part takes: slot command words, the inbound word, import command words
and the import header, descriptors, and NV records (chapter 11, R65, R151, R167). -/

namespace Sys2Proof.Machine

/-! ### Slot records -/

/-- The code of a slot command (R198). -/
def slotCode : SlotCmd → Byte
  | .open' => 0x01#8
  | .arm => 0x02#8
  | .sealing => 0x03#8
  | .release => 0x04#8
  | .abort => 0x05#8

/-- The slot command a code names, if any (R198). -/
def slotCommandOf (code : Byte) : Option SlotCmd :=
  [SlotCmd.open', .arm, .sealing, .release, .abort].find? fun c => slotCode c == code

/-- The inbound word of a shadow (offset 0x20). -/
def inboundWord (c : SlotCtx) : Word := c.inbound[0]

/-- The tag counter: bits 0 to 23 of the inbound word (R198). -/
def tagCounter (c : SlotCtx) : BitVec 24 := (inboundWord c).extractLsb' 0 24

/-- The key version: bits 24 to 27 (R198). -/
def tagVersion (c : SlotCtx) : BitVec 4 := (inboundWord c).extractLsb' 24 4

/-- The key set: bits 32 to 39, 0 to 255 as written (R198). -/
def tagKeySet (c : SlotCtx) : Byte := (inboundWord c).extractLsb' 32 8

/-- The antenna: bits 40 to 42 (R198). -/
def tagAntenna (c : SlotCtx) : BitVec 3 := (inboundWord c).extractLsb' 40 3

/-- The tag-ID word of the shadow (offset 0x28). -/
def tagId (c : SlotCtx) : Word := c.inbound[1]

/-- The tag-nonce word of the shadow (offset 0x30). -/
def tagNonce (c : SlotCtx) : Word := c.inbound[2]

/-- The tag-authenticator word of the shadow (offset 0x38). -/
def tagAuthenticator (c : SlotCtx) : Word := c.inbound[3]

/-- What ARM requires of the inbound word: spare bits 28 to 31 and 43 to 63 zero, key set at most 31 (R13, R198). -/
def inboundValid (c : SlotCtx) : Bool :=
  (inboundWord c).extractLsb' 28 4 == 0#4 && (inboundWord c).extractLsb' 43 21 == 0#21 && decide (tagKeySet c ≤ 31#8)

/-! ### Window descriptors (R199) -/

def Descriptor.present (d : Descriptor) : Bool := d.word0.getLsbD 0
def Descriptor.kind (d : Descriptor) : BitVec 2 := d.word0.extractLsb' 1 2
def Descriptor.privilegedOnly (d : Descriptor) : Bool := d.word0.getLsbD 3
def Descriptor.readMask (d : Descriptor) : BitVec 4 := d.word0.extractLsb' 4 4

/-- Bits 8 to 11 of word 0: the write mask of a PLAIN window, the fill mask of a SLOTS window. -/
def Descriptor.writeMask (d : Descriptor) : BitVec 4 := d.word0.extractLsb' 8 4
def Descriptor.manageMask (d : Descriptor) : BitVec 4 := d.word0.extractLsb' 12 4

/-- The base in 4 KiB units. -/
def Descriptor.base (d : Descriptor) : Nat := (d.word0.extractLsb' 16 20).toNat

/-- The size of a PLAIN window in 4 KiB units: the field is the size less one. -/
def Descriptor.size (d : Descriptor) : Nat := (d.word1.extractLsb' 0 16).toNat + 1
def Descriptor.slotCount (d : Descriptor) : Nat := (d.word1.extractLsb' 0 6).toNat
def Descriptor.macLength (d : Descriptor) : Nat := (d.word1.extractLsb' 8 4).toNat
def Descriptor.budget (d : Descriptor) : BitVec 16 := d.word1.extractLsb' 16 16
def Descriptor.holdLimit (d : Descriptor) : BitVec 16 := d.word1.extractLsb' 32 16

/-- A present PLAIN descriptor (kind code 1). -/
def Descriptor.isPlain (d : Descriptor) : Bool := d.present && d.kind == 1#2

/-- A present SLOTS descriptor (kind code 2). -/
def Descriptor.isSlots (d : Descriptor) : Bool := d.present && d.kind == 2#2

/-! ### Import command words and the import header -/

/-- The code of an import command (R200). -/
def importCode : ImportCmd → Byte
  | .loadPlain => 0x01#8
  | .load => 0x02#8
  | .revoke => 0x03#8
  | .erase => 0x04#8
  | .inquire => 0x05#8
  | .setReader => 0x06#8
  | .fieldLock => 0x07#8
  | .zeroize => 0x08#8

/-- The import command a code names, if any (R200). -/
def importCommandOf (code : Byte) : Option ImportCmd :=
  [ImportCmd.loadPlain, .load, .revoke, .erase, .inquire, .setReader, .fieldLock, .zeroize].find? fun c =>
    importCode c == code

/-- The operand bytes of an import command are in form: every byte not assigned as an operand is zero, an INQUIRE index is
at most 63, and a ZEROIZE carries its pattern (step 4 of R100, R111). -/
def importFormGood (cmd : ImportCmd) (upper : BitVec 56) : Bool :=
  match cmd with
  | .inquire => upper.extractLsb' 8 48 == 0#48 && decide (upper.extractLsb' 0 8 ≤ 63#8)
  | .setReader => upper.extractLsb' 0 8 == 0#8 && upper.extractLsb' 24 32 == 0#32
  | .zeroize => upper.extractLsb' 0 8 == 0#8 && upper.extractLsb' 8 48 == Config.zeroizePattern
  | _ => upper == 0#56

/-- The index of an INQUIRE: byte 1 of the word (R108). -/
def inquireIndex (upper : BitVec 56) : Fin 64 := Fin.ofNat 64 (upper.extractLsb' 0 8).toNat

/-- The reader number of a SET_READER: bytes 2 and 3 of the word, byte 2 least significant (R109). -/
def readerOperand (upper : BitVec 56) : BitVec 16 := upper.extractLsb' 8 16

/-- The header H of the import buffer as a block (R65). -/
def importHeader (k : KeyStore) : Block := blockOfWords k.buffer[0] k.buffer[1]

/-- The wrapped key W of the import buffer as a block (R65). -/
def wrappedKey (k : KeyStore) : Block := blockOfWords k.buffer[2] k.buffer[3]

/-- The blob MAC T of the import buffer, as its word (R65). -/
def blobMac (k : KeyStore) : Word := k.buffer[4]

/-- Header byte 0 (R65). -/
def headerUsage (h : Block) : Byte := h.extractLsb' 120 8

/-- Header byte 1 (R65). -/
def headerKeySet (h : Block) : Byte := h.extractLsb' 112 8

/-- Header byte 2 (R65). -/
def headerVersion (h : Block) : Byte := h.extractLsb' 104 8

/-- Header byte 3 (R65). -/
def headerTransportVersion (h : Block) : Byte := h.extractLsb' 96 8

/-- Header bytes 4 to 5, big-endian (R65). -/
def headerValidFrom (h : Block) : BitVec 16 := h.extractLsb' 80 16

/-- Header bytes 6 to 7, big-endian (R65). -/
def headerValidUntil (h : Block) : BitVec 16 := h.extractLsb' 64 16

/-- Header bytes 8 to 10, big-endian (R65). -/
def headerCheck (h : Block) : BitVec 24 := h.extractLsb' 40 24

/-- Header bytes 11 to 15 are zero (R102, R103). -/
def headerTailZero (h : Block) : Bool := h.extractLsb' 0 40 == 0#40

/-- The usage a code names; 0 and every other code name none (R65, R200). -/
def usageOf (code : Byte) : Usage :=
  if code = 0x01#8 then .transport else if code = 0x02#8 then .tag else if code = 0x03#8 then .record else .none

/-- The code of a usage (R200). -/
def usageCode : Usage → Byte
  | .none => 0#8
  | .transport => 0x01#8
  | .tag => 0x02#8
  | .record => 0x03#8

/-- Header bytes 0 to 2 are in range, as REVOKE, ERASE and LOAD require (R103, R105): a usage, a key set of 0 to 31 and 0
for TRANSPORT, a version of 0 to 15. -/
def headerTripleGood (h : Block) : Bool :=
  usageOf (headerUsage h) != .none && decide (headerKeySet h ≤ 31#8) && decide (headerVersion h ≤ 15#8) &&
    (usageOf (headerUsage h) != .transport || headerKeySet h == 0#8)

/-- The header conditions of LOAD_PLAIN (R102). -/
def headerGoodPlain (h : Block) : Bool :=
  usageOf (headerUsage h) == .transport && headerKeySet h == 0#8 && decide (headerVersion h ≤ 15#8) &&
    headerTransportVersion h == 0#8 && headerValidFrom h == 0#16 && headerValidUntil h == 0xFFFF#16 && headerTailZero h

/-- The header conditions of LOAD (R103). -/
def headerGoodLoad (h : Block) : Bool :=
  headerTripleGood h && decide (headerTransportVersion h ≤ 15#8) && headerTailZero h &&
    (if usageOf (headerUsage h) == .transport then headerValidFrom h == 0#16 && headerValidUntil h == 0xFFFF#16
     else decide (headerValidFrom h ≤ headerValidUntil h))

/-- The entry a header describes, with the key and the check value the engine hands over (R53, R104). -/
def entryOfHeader (h : Block) (key : Block) (check : BitVec 24) : DirEntry :=
  { state := .loaded, usage := usageOf (headerUsage h), keySet := (headerKeySet h).setWidth 5,
    version := (headerVersion h).setWidth 4, validFrom := headerValidFrom h, validUntil := headerValidUntil h,
    check := check, key := some key }

/-! ### NV records (R89, R167) -/

/-- The state code of a directory entry or record (R200; the NV encoding is PRESUMED equal, log entry 7). -/
def entryStateCode : EntryState → Byte
  | .empty => 0#8
  | .loaded => 1#8
  | .revoked => 2#8
  | .damaged => 3#8

/-- The state a code names, if any. -/
def entryStateOf (code : Byte) : Option EntryState :=
  [EntryState.empty, .loaded, .revoked, .damaged].find? fun e => entryStateCode e == code

/-- The record that an entry program writes for an entry (R92). -/
def recordOfEntry (e : DirEntry) : NvRecord :=
  { state := entryStateCode e.state, usage := usageCode e.usage, keySet := e.keySet.setWidth 8,
    version := e.version.setWidth 8, validFrom := e.validFrom, validUntil := e.validUntil, check := e.check,
    key := e.key.getD 0#128 }

/-- The key set of a record is in range: 0 to 31, and 0 for TRANSPORT (R87). -/
def recordKeySetGood (r : NvRecord) : Bool :=
  decide (r.keySet ≤ 31#8) && (usageOf r.usage != .transport || r.keySet == 0#8)

/-- The fields of a non-EMPTY record are in the ranges of R87. -/
def recordFieldsGood (r : NvRecord) : Bool :=
  usageOf r.usage != .none && recordKeySetGood r && decide (r.version ≤ 15#8) &&
    (usageOf r.usage != .transport || (r.validFrom == 0#16 && r.validUntil == 0xFFFF#16))

/-- Every field of a record but its state and key is zero, as R87 says of an EMPTY entry. -/
def recordFieldsZero (r : NvRecord) : Bool :=
  r.usage == 0#8 && r.keySet == 0#8 && r.version == 0#8 && r.validFrom == 0#16 && r.validUntil == 0#16 &&
    r.check == 0#24

/-- The DAMAGED entry without a key that NV_READ places for a record out of form: usage, key set and version are kept where
they are in range and are zero otherwise (R167). -/
def damagedOfRecord (r : NvRecord) : DirEntry :=
  { state := .damaged, usage := usageOf r.usage,
    keySet := if recordKeySetGood r then r.keySet.setWidth 5 else 0#5,
    version := if r.version ≤ 15#8 then r.version.setWidth 4 else 0#4,
    validFrom := r.validFrom, validUntil := r.validUntil, check := r.check, key := none }

/-- The entry that NV_READ places for one record, before duplicate triples are judged (R167; what an EMPTY record with
other fields set gives is DEDUCED, log entry 23). -/
def entryOfRecord (r : NvRecord) : DirEntry :=
  match entryStateOf r.state with
  | none => damagedOfRecord r
  | some .empty => if recordFieldsZero r then DirEntry.emptied else damagedOfRecord r
  | some st =>
    if recordFieldsGood r then
      { state := st, usage := usageOf r.usage, keySet := r.keySet.setWidth 5, version := r.version.setWidth 4,
        validFrom := r.validFrom, validUntil := r.validUntil, check := r.check, key := some r.key }
    else damagedOfRecord r

/-- The code of a life cycle (R202; the NV life-cycle word is PRESUMED to use the same codes, log entry 7). -/
def lifeCode : LifeCycle → Byte
  | .blank => 0#8
  | .personalized => 1#8
  | .field => 2#8
  | .zeroizing => 3#8
  | .zeroized => 4#8

/-- The life cycle that NV_READ reads from the NV life-cycle word; a value that is none of BLANK, PERSONALIZED, FIELD and
ZEROIZED is treated as ZEROIZED (R167). -/
def lifeOfWord (w : Byte) : LifeCycle :=
  if w = 0#8 then .blank else if w = 1#8 then .personalized else if w = 2#8 then .field else .zeroized

end Sys2Proof.Machine
end

