-- ==== Sys2Proof/Machine/Formats.lean ====
section
/-! DEFINITION. The cryptographic constructions of chapter 3: check value, tag key derivation, the chained MAC, the tag
authenticator, the tag-write MAC, the record seal and the import constructions. Each block is written field by field in the
order of the spec's table, byte 0 first. -/

namespace Sys2Proof.Machine

/-- CV(K): the first 3 bytes of E(K, Z), byte 0 of the output most significant (R58). -/
def checkValue (key : Block) : BitVec 24 := (aes128 key 0#128).extractLsb' 104 24

/-- The chained MAC before truncation: Yi = E(K, Yi−1 XOR Xi), from Y0 = 0 (R60). -/
def chainedMac (key : Block) (blocks : List Block) : Block := blocks.foldl (fun y x => aes128 key (y ^^^ x)) 0#128

/-- The block B_d (R59). -/
def deriveBlock (c : SlotCtx) : Block :=
  0x44#8 ++ tagKeySet c ++ (tagVersion c).setWidth 8 ++ 0#40 ++ addressOrder (tagId c)

/-- K_tag = E(K_master, B_d) (R59). -/
def deriveTagKey (master : Block) (c : SlotCtx) : Block := aes128 master (deriveBlock c)

/-- X1 of the tag authenticator (R61). -/
def authBlock1 (c : SlotCtx) : Block :=
  0x41#8 ++ tagKeySet c ++ (tagVersion c).setWidth 8 ++ tagCounter c ++ 0#16 ++ addressOrder (tagId c)

/-- X2 of the tag authenticator (R61). -/
def authBlock2 (c : SlotCtx) : Block := c.challenge.getD 0#64 ++ addressOrder (tagNonce c)

/-- The tag authenticator, as the word that holds it in address order (R61, R62). -/
def tagAuth (tagKey : Block) (c : SlotCtx) : Word := wordOfFirstBytes (chainedMac tagKey [authBlock1 c, authBlock2 c])

/-- Payload bytes 0 to 15 (offsets 0x48 to 0x57). -/
def payloadLow (c : SlotCtx) : Block := blockOfWords c.payload[0] c.payload[1]

/-- Payload bytes 16 to 31 (offsets 0x58 to 0x67). -/
def payloadHigh (c : SlotCtx) : Block := blockOfWords c.payload[2] c.payload[3]

/-- X1 of the tag-write MAC (R63). -/
def writeMacBlock (c : SlotCtx) : Block :=
  0x57#8 ++ tagKeySet c ++ (tagVersion c).setWidth 8 ++ tagCounter c ++ (tagAntenna c).setWidth 8 ++ 0#8 ++
    c.challenge.getD 0#64

/-- The first `length` bytes of a MAC in the low-order bytes of a word, zero above; `length` is 4 or 8 (R63). -/
def truncateMac (length : Nat) (w : Word) : Word := if length = 4 then (w.extractLsb' 0 32).setWidth 64 else w

/-- The tag-write MAC as offset 0x70 answers it (R63). -/
def tagWriteMac (length : Nat) (tagKey : Block) (c : SlotCtx) : Word :=
  truncateMac length (wordOfFirstBytes (chainedMac tagKey [writeMacBlock c, payloadLow c, payloadHigh c]))

/-- X1 of the record seal; the verdict code is that of ACCEPT (R64). -/
def sealBlock1 (c : SlotCtx) : Block :=
  0x52#8 ++ tagKeySet c ++ (tagVersion c).setWidth 8 ++ (tagAntenna c).setWidth 8 ++
    (c.arrival.getD 0#64).extractLsb' 0 32 ++ tagCounter c ++ 0x01#8 ++ 0#32

/-- X2 of the record seal (R64). -/
def sealBlock2 (c : SlotCtx) : Block := c.challenge.getD 0#64 ++ addressOrder (tagId c)

/-- The record seal as offset 0x78 answers it (R64). -/
def recordSealOf (recordKey : Block) (c : SlotCtx) : Word :=
  wordOfFirstBytes (chainedMac recordKey [sealBlock1 c, sealBlock2 c, payloadLow c, payloadHigh c])

/-- H with byte 15 replaced (R66, R67). -/
def headerWithTail (h : Block) (tail : Byte) : Block := h.extractLsb' 8 120 ++ tail

/-- The blob MAC as the word that holds it in address order, over H_t and W (R66). -/
def blobMacOf (transport h w : Block) : Word := wordOfFirstBytes (chainedMac transport [headerWithTail h 0x54#8, w])

/-- The key a LOAD unwraps: W XOR E(K_t, H_s) (R67). -/
def unwrapKey (transport h w : Block) : Block := w ^^^ aes128 transport (headerWithTail h 0x4B#8)

end Sys2Proof.Machine
end

