-- ==== Sys2Proof/Machine/Flags.lean ====
section
/-! DEFINITION. The flags the part raises and counts: attention causes, ATTN, the counters, CHALLENGE_LOW and the
first-refusal record (sections 10.3, 10.4, 7.5). -/

namespace Sys2Proof.Machine

/-- The bit of a cause in the causes and enables words (R202). -/
def causeBit : Cause → Nat
  | .slotDone g => g.val
  | .importDone => 16
  | .epochSwitched => 17
  | .scheduleRejected => 18
  | .mapLoaded => 19
  | .mapFault => 20
  | .refusal => 21
  | .tamper => 22
  | .nvFault => 23
  | .challengeLow => 24
  | .zeroized => 25

/-- A cause is set (R185). -/
def State.causeSet (s : State) (c : Cause) : Bool := s.status.causes.getLsbD (causeBit c)

/-- Raising a cause: it becomes set, and a set cause stays set (R185). -/
def State.raise (c : Cause) (s : State) : State :=
  { s with status := { s.status with causes := s.status.causes ||| BitVec.twoPow 26 (causeBit c) } }

/-- Raising each cause of a list (R185). -/
def State.raiseAll (cs : List Cause) (s : State) : State :=
  let next := cs.foldl (fun m c => m ||| BitVec.twoPow 26 (causeBit c)) s.status.causes
  { s with status := { s.status with causes := next } }

/-- ATTN is asserted while at least one cause is set whose enable is also set, and never while RESET_N is asserted
(R187). -/
def State.attn (s : State) : Bool := !s.life.resetAsserted && s.status.causes &&& s.status.enables != 0#26

/-- The place of a counter in the order of the counter words (R202). -/
def counterIndex : Counter → Fin 11
  | .accept => 0
  | .duplicate => 1
  | .replay => 2
  | .badMac => 3
  | .key => 4
  | .expired => 5
  | .late => 6
  | .faulted => 7
  | .refusals => 8
  | .evictions => 9
  | .pulseGlitches => 10

/-- The value of a counter (R188). -/
def State.counter (s : State) (c : Counter) : BitVec 32 := s.status.counters[counterIndex c]

/-- `n` increments of a counter, which stays at 2^32 − 1 once there (R188). -/
def saturate (v : BitVec 32) (n : Nat) : BitVec 32 := BitVec.ofNat 32 (min (v.toNat + n) (2 ^ 32 - 1))

/-- Incrementing a counter by the number of slots or readings an event concerns (R188). -/
def State.bump (c : Counter) (n : Nat) (s : State) : State :=
  let next := s.status.counters.set (counterIndex c).val (saturate (s.counter c) n) (counterIndex c).isLt
  { s with status := { s.status with counters := next } }

/-- "ceiling − counter below 256 and no reservation pending", taken as false before RESERVE ends (R185). -/
def State.challengeLow (s : State) : Bool :=
  (s.life.phase == .mapLoad || s.life.phase == .running) &&
    decide (s.slots.ceiling - s.slots.counter < Config.lowMargin) && !s.slots.reservationPending

/-- Raising CHALLENGE_LOW when its condition goes from `was` false to true (R185). -/
def State.raiseLow (was : Bool) (s : State) : State :=
  { s with status := if !was && s.challengeLow then (s.raise .challengeLow).status else s.status }

/-- The life cycle is ZEROIZING or ZEROIZED. -/
def State.zeroing (s : State) : Bool := s.life.cycle == .zeroizing || s.life.cycle == .zeroized

/-- Recording and counting one refusal: REFUSALS, REFUSAL, and the record if it is clear (R145). -/
def State.recordRefusal (req : Request) (reason : RefusalReason) (s : State) : State :=
  let record : RefusalRecord :=
    { valid := true, addr := req.addr, initiator := req.initiator, dir := req.dir,
      privileged := req.prot.getLsbD 0, reason := some reason }
  { s with
    status := ((s.bump .refusals 1).raise .refusal).status
    path := { s.path with refusal := if s.path.refusal.valid then s.path.refusal else record } }

end Sys2Proof.Machine
end

