-- ==== Sys2Proof/Machine/Answer.lean ====
section
/-! DEFINITION. The answered words: slot words, the words of the import area and of the status block, each formed from its
owner's state (R6, R198, R98, R99, R200, R180, R202). -/

namespace Sys2Proof.Machine

/-- One bit as a field. -/
def bit (b : Bool) : BitVec 1 := BitVec.ofBool b

/-! ### Codes (R198) -/

def slotStateCode : SlotState → Byte
  | .free => 0#8
  | .open' => 1#8
  | .queued => 2#8
  | .busy => 3#8
  | .verified => 4#8
  | .rejected => 5#8
  | .sealed => 6#8
  | .expired => 7#8
  | .faulted => 8#8
  | .aborting => 9#8

def jobKindCode : Option JobKind → Byte
  | none => 0#8
  | some .verify => 1#8
  | some .sealing => 2#8

def slotResultCode : SlotResult → Byte
  | .none => 0#8
  | .ok => 1#8
  | .held => 2#8
  | .badCommand => 3#8
  | .notPermitted => 4#8
  | .stale => 5#8
  | .wrongState => 6#8
  | .noService => 7#8
  | .exhausted => 8#8
  | .challengeWait => 9#8

def verdictCode : Option Verdict → Byte
  | none => 0#8
  | some .accept => 1#8
  | some .reject => 2#8

def reasonCode : Option Reason → Byte
  | none => 0#8
  | some .keyAbsent => 1#8
  | some .keyRevoked => 2#8
  | some .keyDamaged => 3#8
  | some .keyOutOfEpoch => 4#8
  | some .badMac => 5#8
  | some .duplicate => 6#8
  | some .replay => 7#8
  | some .badInbound => 8#8
  | some .keyWithdrawn => 9#8
  | some .noRecordKey => 10#8

/-! ### Slot words (R6, R198) -/

/-- The state word (offset 0x00). -/
def stateWord (c : SlotCtx) : Word :=
  0#31 ++ bit c.late ++ slotResultCode c.lastResult ++ c.generation ++ jobKindCode c.jobKind ++ slotStateCode c.state

/-- The times word (offset 0x10): low halves of deadline and arrival LT. -/
def timesWord (c : SlotCtx) : Word :=
  (c.deadline.getD 0#64).extractLsb' 0 32 ++ (c.arrival.getD 0#64).extractLsb' 0 32

/-- The duplicate reference and ordinal of the verdict detail word, bytes 2 to 6, or zero. -/
def duplicateField : Option DuplicateInfo → BitVec 40
  | none => 0#40
  | some d =>
    d.ordinal ++ d.first.antenna.setWidth 8 ++ d.first.generation ++ (BitVec.ofNat 8 d.first.slot.index.val) ++
      (BitVec.ofNat 8 d.first.slot.group.val)

/-- The verdict detail word (offset 0x18). -/
def verdictWord (c : SlotCtx) : Word := 0#8 ++ duplicateField c.duplicate ++ reasonCode c.reason ++ verdictCode c.verdict

/-- A command word as it is read (offsets 0x40 and 0x68). -/
def commandAnswer (c : SlotCtx) : Word := 0#48 ++ c.generation ++ slotResultCode c.lastResult

/-- The MAC and seal words answer their bytes in SEALED and zero in every other state (R63, R64). -/
def sealedOnly (c : SlotCtx) (w : Option Word) : Word := if c.state = .sealed then w.getD 0#64 else 0#64

/-- The answered words of a slot record by word number (offset / 8); `none` for the data words (R2). -/
def slotAnswer (c : SlotCtx) (word : Fin 16) : Option Word :=
  match word.val with
  | 0 => some (stateWord c)
  | 1 => some (c.challenge.getD 0#64)
  | 2 => some (timesWord c)
  | 3 => some (verdictWord c)
  | 8 => some (commandAnswer c)
  | 13 => some (commandAnswer c)
  | 14 => some (sealedOnly c c.mac)
  | 15 => some (sealedOnly c c.recordSeal)
  | _ => none

/-- The context of a slot, if the slot exists (R5). -/
def State.ctx? (s : State) (r : SlotRef) : Option SlotCtx := (s.slots.contexts.find? fun p => p.1 == r).map (·.2)

/-! ### Import area words (R98, R99, R200) -/

def importStateCode : ImportState → Byte
  | .idle => 0#8
  | .queued => 1#8
  | .working => 2#8
  | .nvWriting => 3#8

def importResultCode : ImportCode → Byte
  | .none => 0#8
  | .ok => 1#8
  | .busy => 2#8
  | .held => 3#8
  | .badCommand => 4#8
  | .badHeader => 5#8
  | .wrongLifecycle => 6#8
  | .noTransport => 7#8
  | .exists' => 8#8
  | .full => 9#8
  | .badBlob => 10#8
  | .checkMismatch => 11#8
  | .notFound => 12#8
  | .protected' => 13#8
  | .nvFault => 14#8

/-- The result word (import-area offset 0x48). -/
def resultWord (k : KeyStore) : Word :=
  0#8 ++ k.result.check ++ BitVec.ofNat 8 k.result.index.val ++ importResultCode k.result.code ++ k.result.command ++
    importStateCode k.importState

/-- The first inquiry word (offset 0x50). -/
def inquiryWord1 (q : Inquiry) : Word :=
  q.check ++ q.version.setWidth 8 ++ q.keySet.setWidth 8 ++ usageCode q.usage ++ entryStateCode q.state ++
    BitVec.ofNat 8 q.index.val

/-- The second inquiry word (offset 0x58). -/
def inquiryWord2 (q : Inquiry) : Word := 0#32 ++ q.validUntil ++ q.validFrom

/-- The answered words of the import area by word number; `none` for its plain memory (R95). -/
def importAnswer (k : KeyStore) (word : Fin 16) : Option Word :=
  if word.val < 9 then some 0#64
  else if word.val = 9 then some (resultWord k)
  else if word.val = 10 then some (inquiryWord1 k.inquiry)
  else if word.val = 11 then some (inquiryWord2 k.inquiry)
  else none

/-! ### Status words (R202) -/

def phaseCode : Phase → Byte
  | .nvRead => 0#8
  | .keyCheck => 1#8
  | .reserve => 2#8
  | .mapLoad => 3#8
  | .running => 4#8

def scheduleReasonCode : ScheduleReason → Byte
  | .none => 0#8
  | .scheduled => 1#8
  | .rejected => 2#8

def mapStateCode : MapState → Byte
  | .empty => 0#8
  | .loading => 1#8
  | .loaded => 2#8
  | .fault => 3#8

def mapFaultCode : MapFault → Byte
  | .none => 0#8
  | .readError => 1#8
  | .spareBits => 2#8
  | .badKind => 3#8
  | .badField => 4#8
  | .outOfSpace => 5#8
  | .controlOverlap => 6#8
  | .overlap => 7#8
  | .tooManySlots => 8#8

def refusalCode : Option RefusalReason → Byte
  | none => 0#8
  | some .limit => 1#8
  | some .form => 2#8
  | some .permission => 3#8
  | some .privilege => 4#8
  | some .resultWrite => 5#8
  | some .reserved => 6#8

/-- The number of positions in use (R81). -/
def occupancy (f : Filter) : Nat := (f.positions.toList.filter Option.isSome).length

/-- Two counters of a counter word; the twelfth place answers zero (R202). -/
def counterPair (s : State) (pair : Fin 6) : Word :=
  (s.status.counters.toList.getD (2 * pair.val + 1) 0#32) ++ (s.status.counters.toList.getD (2 * pair.val) 0#32)

/-- The code of the NV writer's running operation (R184, R202). -/
def nvOpCode : NvOp → Byte
  | .request (.admin (.program _ _ _)) => 2#8
  | .request (.admin (.markRevoked _)) => 2#8
  | .request (.admin (.eraseEntry _ _)) => 3#8
  | .request (.admin (.personalize _ _)) => 4#8
  | .request (.admin .lockField) => 4#8
  | .request (.admin (.writeReader _)) => 5#8
  | .request (.epochRecord _) => 6#8
  | .request (.reservation _) => 7#8
  | .reserve _ => 7#8
  | .blankWord => 4#8
  | .nvZeroize _ => 8#8

/-- The running-operation field: NV_READ is shown during the reads of that phase (R184), which begin at the release of
RESET_N (log entry 11). -/
def runningCode (s : State) : Byte :=
  match s.writer.running with
  | some op => nvOpCode op
  | none => if s.life.phase = .nvRead ∧ s.life.resetAsserted = false then 1#8 else 0#8

/-- The kind of a request to the NV writer: 0 admin, 1 epoch record, 2 reservation (R90). -/
def requestKind : NvRequest → Nat
  | .admin _ => 0
  | .epochRecord _ => 1
  | .reservation _ => 2

/-- The place of the waiting request of a kind: 1 is the head of the list, 0 says that none waits (R184). -/
def waitingPlace (w : NvWriter) (kind : Nat) : Byte :=
  match w.waiting.findIdx? (fun r => requestKind r == kind) with
  | some i => BitVec.ofNat 8 (i + 1)
  | none => 0#8

/-- The PRE word: setting in force, pending value and pending flag (R116). -/
def preWord (t : TimeUnit) : Word := 0#47 ++ bit t.pendingPre.isSome ++ t.pendingPre.getD 0#8 ++ t.pre

/-- The epoch word (R126). -/
def epochWord (t : TimeUnit) : Word :=
  let p := t.schedule.getD { epoch := 0#16, countdown := 0#16 }
  0#8 ++ scheduleReasonCode t.reason ++ p.countdown ++ p.epoch ++ t.epoch

/-- The map word (R154). -/
def mapWord (m : WindowMap) : Word :=
  0#8 ++ BitVec.ofNat 8 m.faultIndex.val ++ mapFaultCode m.fault ++ mapStateCode m.state ++ m.installed ++ m.requested

/-- The first-refusal detail word (R145). -/
def refusalDetail (r : RefusalRecord) : Word :=
  0#32 ++ refusalCode r.reason ++ (0#6 ++ bit r.privileged ++ bit (r.dir == .write)) ++
    (0#6 ++ BitVec.ofNat 2 r.initiator.val) ++ (0#7 ++ bit r.valid)

/-- The challenge status word (R183). -/
def challengeStatus (u : SlotUnit) : Word :=
  0#6 ++ bit u.reservationPending ++ bit u.exhausted ++ 0#7 ++ BitVec.ofNat 49 (u.ceiling - u.counter)

/-- The answer of a status word (R180, R202); an unassigned word, the epoch control word and the counter-clear word answer
zero. -/
def statusAnswer (s : State) : StatusWord → Word
  | .identity =>
    (0#7 ++ bit s.life.tamperSeen) ++ phaseCode s.life.phase ++ s.life.reader ++ lifeCode s.life.cycle ++
      Config.revision ++ Config.familyCode
  | .ltLow => 0#32 ++ s.time.lt.extractLsb' 0 32
  | .ltHigh => 0#32 ++ s.time.ltHigh
  | .pre => preWord s.time
  | .pulseCapture => s.time.capture.getD 0#64
  | .pulseCount => s.counter .pulseGlitches ++ 0#16 ++ s.time.pulses
  | .epoch => epochWord s.time
  | .epochControl => 0#64
  | .causes => 0#38 ++ s.status.causes
  | .enables => 0#38 ++ s.status.enables
  | .mapWord => mapWord s.map
  | .unmappedRights => 0#52 ++ s.map.unmappedWrite ++ 0#4 ++ s.map.unmappedRead
  | .dInterval => s.filter.d
  | .holdTime => s.filter.h
  | .occupancy => BitVec.ofNat 64 (occupancy s.filter)
  | .hold => 0#63 ++ bit s.status.hold
  | .counters pair => counterPair s pair
  | .counterClear => 0#64
  | .refusalAddress => 0#32 ++ s.path.refusal.addr
  | .refusalDetail => refusalDetail s.path.refusal
  | .challengeStatus => challengeStatus s.slots
  | .nvState =>
    0#16 ++ s.writer.attemptsFailed ++ (0#7 ++ bit s.writer.zeroizeWaiting) ++ waitingPlace s.writer 2 ++
      waitingPlace s.writer 1 ++ waitingPlace s.writer 0 ++ runningCode s
  | .unassigned => 0#64

/-- The answer of one beat of a read; `none` where memory supplies it. The answered words of a slot that no longer exists
are zero (R25). -/
def answer (s : State) : Place → Option Word
  | .memory => none
  | .slot r word => (slotAnswer ((s.ctx? r).getD SlotCtx.fresh) word).map fun w => if (s.ctx? r).isSome then w else 0#64
  | .status word => some (statusAnswer s word)
  | .importArea word => importAnswer s.keys word

end Sys2Proof.Machine
end

