-- ==== Sys2Proof/Machine/Path.lean ====
section
/-! DEFINITION. The Memory Path: classification of a request, its checks in their order, the order queues, and the holding
and ending of held reads (chapter 7, sections 1.8 and 8.1). -/

namespace Sys2Proof.Machine

/-! ### Regions and places -/

/-- The regions of classification (R138). -/
inductive Region where
  | control
  | group (g : Fin 16)
  | plain (i : Fin 16)
  | unmapped
  deriving DecidableEq, Repr

/-- The base of the control region for the sampled straps, CB1 in bit 1 and CB0 in bit 0 (R149). -/
def controlBase (straps : BitVec 2) : Nat :=
  if straps = 0#2 then 0x1FFFF000 else if straps = 1#2 then 0x3FFFF000 else if straps = 2#2 then 0x7FFFF000
  else 0xFFFFF000

/-- The base address of the control region. -/
def State.base (s : State) : Nat := controlBase s.map.straps

/-- Descriptor `i` of the loaded map (R154). -/
def State.descriptor (s : State) (i : Fin 16) : Descriptor := s.map.table[i]

/-- The number of beats of a request. -/
def beatCount (r : Request) : Nat := r.len.toNat + 1

/-- The beat size of a request in bytes. -/
def beatBytes (r : Request) : Nat := 2 ^ r.size.toNat

/-- The bytes a request touches: its first byte and the byte after its last (R138); an end past 2^32 does not wrap (DEDUCED,
log entry 24). -/
def byteRange (r : Request) : Nat × Nat :=
  let a := r.addr.toNat
  let bb := beatBytes r
  let total := beatCount r * bb
  match r.burst with
  | .incr => (a, a / bb * bb + total)
  | .wrap => (a / total * total, a / total * total + total)
  | .fixed => (a, a / bb * bb + bb)

/-- The window a present descriptor gives for classification: the extent of a slot group (R1) or the range of a PLAIN
window (R152), as first byte and byte after the last. -/
def regionOfDescriptor (i : Fin 16) (d : Descriptor) : Option (Region × Nat × Nat) :=
  if d.isSlots then some (.group i, d.base * 4096, d.base * 4096 + d.slotCount * 128)
  else if d.isPlain then some (.plain i, d.base * 4096, (d.base + d.size) * 4096)
  else none

/-- The regions of the address space but for `unmapped` (R138). -/
def State.regions (s : State) : List (Region × Nat × Nat) :=
  (.control, s.base, s.base + 4096) :: (List.finRange 16).filterMap fun i => regionOfDescriptor i (s.descriptor i)

/-- The one region a range of bytes lies in, or none where it lies in two (R138). -/
def State.regionOf (s : State) (lo hi : Nat) : Option Region :=
  match s.regions.filter fun x => decide (lo < x.2.2) && decide (x.2.1 < hi) with
  | [] => some .unmapped
  | [x] => if x.2.1 ≤ lo ∧ hi ≤ x.2.2 then some x.1 else none
  | _ => none

/-- The status word at a word number of the status block (R201). -/
def statusWordAt (n : Nat) : StatusWord :=
  match n with
  | 0 => .identity
  | 1 => .ltLow
  | 2 => .ltHigh
  | 3 => .pre
  | 4 => .pulseCapture
  | 5 => .pulseCount
  | 6 => .epoch
  | 7 => .epochControl
  | 8 => .causes
  | 9 => .enables
  | 10 => .mapWord
  | 11 => .unmappedRights
  | 12 => .dInterval
  | 13 => .holdTime
  | 14 => .occupancy
  | 15 => .hold
  | 16 => .counters 0
  | 17 => .counters 1
  | 18 => .counters 2
  | 19 => .counters 3
  | 20 => .counters 4
  | 21 => .counters 5
  | 22 => .counterClear
  | 23 => .refusalAddress
  | 24 => .refusalDetail
  | 25 => .challengeStatus
  | 26 => .nvState
  | _ => .unassigned

/-- What a word of the control region is, by its offset (R149). -/
def controlPlace (off : Nat) : Place :=
  if off < 0x200 then .status (statusWordAt (off / 8))
  else if 0x300 ≤ off ∧ off < 0x380 then .importArea (Fin.ofNat 16 ((off - 0x300) / 8))
  else .memory

/-- What a word of slot group `g` is, by its offset from the group's base (R1, R2). -/
def slotPlace (g : Fin 16) (off : Nat) : Place :=
  .slot { group := g, index := Fin.ofNat 32 (off / 128) } (Fin.ofNat 16 (off % 128 / 8))

/-- The address of beat `k` of a request in the control region or a slot group (R139: 8-byte beats). -/
def beatAddr (r : Request) (k : Nat) : Nat := r.addr.toNat + 8 * k

/-- What each beat of a request reaches, in ascending address order (R4, R142). -/
def State.placesOf (s : State) (region : Region) (r : Request) : List Place :=
  (List.range (beatCount r)).map fun k =>
    match region with
    | .control => controlPlace (beatAddr r k - s.base)
    | .group g => slotPlace g (beatAddr r k - (s.descriptor g).base * 4096)
    | _ => .memory

/-! ### Rights and checks -/

/-- What the rights of a word say of a request (R140). -/
inductive Right where
  | allowed | permission | privilege
  deriving DecidableEq, Repr

/-- A request is privileged when AxPROT bit 0 is 1 (R135). -/
def privileged (r : Request) : Bool := r.prot.getLsbD 0

/-- An initiator's bit in a mask. -/
def inMask (m : BitVec 4) (i : Initiator) : Bool := m.getLsbD i.val

/-- Rights of a region that has a mask and may be privileged-only (R140). -/
def maskRight (admitted : Bool) (privilegedOnly : Bool) (r : Request) : Right :=
  if !admitted then .permission else if privilegedOnly && !privileged r then .privilege else .allowed

/-- The words of a slot record that the part takes as commands (offsets 0x40 and 0x68). -/
def isCommandWord (word : Fin 16) : Bool := word.val == 8 || word.val == 13

/-- The inbound words of a slot record (offsets 0x20 to 0x38). -/
def isInboundWord (word : Fin 16) : Bool := decide (4 ≤ word.val) && decide (word.val ≤ 7)

/-- The payload words of a slot record (offsets 0x48 to 0x60). -/
def isPayloadWord (word : Fin 16) : Bool := decide (9 ≤ word.val) && decide (word.val ≤ 12)

/-- The result words of a slot record (R2). -/
def isResultWord (word : Fin 16) : Bool := decide (word.val ≤ 3) || decide (14 ≤ word.val)

/-- Rights of one word of a slot group (R3, R140). -/
def groupRight (d : Descriptor) (r : Request) (word : Fin 16) : Right :=
  let admitted :=
    match r.dir with
    | .read => inMask d.readMask r.initiator
    | .write =>
      if isInboundWord word || isPayloadWord word then inMask d.writeMask r.initiator
      else inMask d.writeMask r.initiator || inMask d.manageMask r.initiator
  maskRight admitted d.privilegedOnly r

/-- Only initiator 0 is admitted, and only when privileged (R95, R150). -/
def privilegedZero (r : Request) : Right :=
  if r.initiator ≠ 0 then .permission else if privileged r then .allowed else .privilege

/-- The built-in rights of the control region, by offset (R95, R150). -/
def controlRight (r : Request) (off : Nat) : Right :=
  if off < 0x300 then
    match r.dir with
    | .read => .allowed
    | .write => privilegedZero r
  else if off < 0x380 then privilegedZero r
  else if r.initiator = 0 then .allowed else .permission

/-- The rights of a request at each word it touches; one entry in a PLAIN window or unmapped (R140). -/
def State.rightsOf (s : State) (region : Region) (r : Request) : List Right :=
  match region with
  | .control => (List.range (beatCount r)).map fun k => controlRight r (beatAddr r k - s.base)
  | .group g =>
    (s.placesOf region r).map fun p =>
      match p with
      | .slot _ word => groupRight (s.descriptor g) r word
      | _ => .allowed
  | .plain i =>
    let d := s.descriptor i
    [maskRight (match r.dir with
      | .read => inMask d.readMask r.initiator
      | .write => inMask d.writeMask r.initiator) d.privilegedOnly r]
  | .unmapped =>
    [maskRight (match r.dir with
      | .read => inMask s.map.unmappedRead r.initiator
      | .write => inMask s.map.unmappedWrite r.initiator) false r]

/-- The burst form asked of requests in the control region or a slot group (R139). -/
def formGood (r : Request) : Bool :=
  r.burst == .incr && decide (beatCount r ≤ 16) && r.size == 3#3 && r.addr.extractLsb' 0 3 == 0#3 && !r.exclusive

/-- The region is checked word by word: the control region or a slot group. -/
def Region.wordwise : Region → Bool
  | .control => true
  | .group _ => true
  | _ => false

/-- A status word that refuses writes: read-only or unassigned (R181, R201). -/
def statusReserved : StatusWord → Bool
  | .pre => false
  | .epoch => false
  | .epochControl => false
  | .causes => false
  | .enables => false
  | .mapWord => false
  | .unmappedRights => false
  | .dInterval => false
  | .holdTime => false
  | .hold => false
  | .counterClear => false
  | _ => true

/-- An answered result word, which refuses writes with RESULT_WRITE (R2, R95). -/
def isResultPlace : Place → Bool
  | .slot _ word => isResultWord word
  | .importArea word => decide (9 ≤ word.val) && decide (word.val ≤ 11)
  | _ => false

/-- A word of the status block that refuses writes with RESERVED (R141). -/
def isReservedPlace : Place → Bool
  | .status word => statusReserved word
  | _ => false

/-- A word the part takes as a command or setting, whose write beats need all eight strobes (R139). -/
def isTakenPlace : Place → Bool
  | .slot _ word => isCommandWord word
  | .importArea word => word.val == 8
  | .status word => !statusReserved word
  | .memory => false

/-- The reason a request is refused, if it is: the checks of R141 in their order. `beats` are a write's data beats. -/
def State.refusalReason (s : State) (r : Request) (beats : List WriteBeat) : Option RefusalReason :=
  match s.regionOf (byteRange r).1 (byteRange r).2 with
  | none => some .limit
  | some region =>
    if region.wordwise && !formGood r then some .form
    else
      let rights := s.rightsOf region r
      let places := s.placesOf region r
      if rights.contains .permission then some .permission
      else if rights.contains .privilege then some .privilege
      else if r.dir == .read then none
      else if places.any isResultPlace then some .resultWrite
      else if places.any isReservedPlace then some .reserved
      else if (places.zip beats).any (fun pb => isTakenPlace pb.1 && !allStrobes pb.2.strobes) then some .form
      else none

/-- The places of the beats of a request that has passed the checks. -/
def State.requestPlaces (s : State) (r : Request) : List Place :=
  match s.regionOf (byteRange r).1 (byteRange r).2 with
  | none => []
  | some region => s.placesOf region r

/-! ### Order queues (section 7.2) -/

/-- A map reload runs: the load of the table in service, during which no request is taken (R146). -/
def State.reloading (s : State) : Bool := s.map.load.isSome && s.life.phase == .running

def isHeld (e : QueueEntry) : Bool :=
  match e.stage with
  | .held _ _ _ => true
  | _ => false

def isUntaken (e : QueueEntry) : Bool := e.stage == .untaken

/-- The order queue of an initiator. -/
def State.queue (s : State) (i : Initiator) : List QueueEntry := s.path.queues[i]

/-- Replacing the order queue of an initiator. -/
def State.setQueue (i : Initiator) (q : List QueueEntry) (s : State) : State :=
  { s with path := { s.path with queues := s.path.queues.set i.val q i.isLt } }

/-- The request an initiator may have taken next: the head of the untaken part of its queue, while no reload runs and no
read of it is held (R136, R143, R146). -/
def State.nextRequest (s : State) (i : Initiator) : Option Request :=
  if s.reloading || (s.queue i).any isHeld then none else ((s.queue i).find? isUntaken).map (·.req)

/-- Taking the head of the untaken part: its entry moves to a stage. -/
def takeHead (st : Stage) : List QueueEntry → List QueueEntry
  | [] => []
  | e :: rest => if isUntaken e then { e with stage := st } :: rest else e :: takeHead st rest

/-- The ready responses at the head of a queue, and what is left of it (R137). -/
def drain : List QueueEntry → List SysOut × List QueueEntry
  | [] => ([], [])
  | e :: rest =>
    match e.stage with
    | .ready reply => let (out, q) := drain rest; ({ req := e.req, reply := reply } :: out, q)
    | _ => ([], e :: rest)

/-- Giving every response that is ready and behind no earlier one of its initiator (R137). -/
def State.giveResponses (s : State) : State :=
  { s with
    path := { s.path with queues := Vector.ofFn fun i => (drain (s.queue i)).2 }
    sysOut := s.sysOut ++ (List.finRange 4).flatMap fun i => (drain (s.queue i)).1 }

/-- A read burst answered with SLVERR and zero data on every beat (R141). -/
def refusedReply (r : Request) : Reply :=
  match r.dir with
  | .read => .read (List.replicate (beatCount r) { data := 0#64, resp := .slverr })
  | .write => .write .slverr

/-- Refusing the request at the head of an initiator's untaken part (R141, R145). -/
def State.refuse (i : Initiator) (r : Request) (reason : RefusalReason) (s : State) : State :=
  ((s.recordRefusal r reason).setQueue i (takeHead (.ready (refusedReply r)) (s.queue i))).giveResponses

/-! ### Reads -/

/-- The answered words of a read, formed from the state as it stands (R143). -/
def State.answers (s : State) (places : List Place) : List (Option Word) := places.map (answer s)

/-- Answered words as response beats with response OKAY (R143). -/
def okayBeats (answers : List (Option Word)) : List ReadBeat :=
  answers.map fun a => { data := a.getD 0#64, resp := .okay }

/-- Treating a read that is not held, or no longer held, as a whole (R143): the stage its entry moves to and what goes out
of the memory port. The answered words of a forwarded read are formed here (DEDUCED, log entry 14). -/
def State.finishRead (s : State) (r : Request) (places : List Place) : Stage × List MemOut :=
  let answers := s.answers places
  if answers.all Option.isSome then (.ready (.read (okayBeats answers)), [])
  else (.forwarded answers false, [.read r])

/-- Putting answered words in place of memory's beats (R2, R143, R144). -/
def substitute : List (Option Word) → List ReadBeat → List ReadBeat
  | some w :: rest, _ :: beats => { data := w, resp := .okay } :: substitute rest beats
  | none :: rest, b :: beats => b :: substitute rest beats
  | _, beats => beats

/-- A slot waits for or is in a job: QUEUED, BUSY or ABORTING. -/
def inJob (c : SlotCtx) : Bool := c.state == .queued || c.state == .busy || c.state == .aborting

/-- A slot job still holds a read: the slot is in the job that caused the hold (R24, R25). -/
def State.stillHolds (s : State) (w : SlotRef × JobKind) : Bool :=
  match s.ctx? w.1 with
  | some c => inJob c && c.jobKind == some w.2
  | none => false

/-- The slot job that holds a read of a word, if any (R24). -/
def State.holdCause (s : State) (p : Place) : Option (SlotRef × JobKind) :=
  match p with
  | .slot ref word =>
    let kind : JobKind := if word.val = 3 then .verify else .sealing
    if (word.val = 3 ∨ 14 ≤ word.val) ∧ s.stillHolds (ref, kind) then some (ref, kind) else none
  | _ => none

/-- The read-hold limit of the slot group of a place, in ticks (R24). -/
def State.holdLimitOf (s : State) (places : List Place) : BitVec 16 :=
  match places with
  | .slot ref _ :: _ => (s.descriptor ref.group).holdLimit
  | _ => 0#16

/-- The slot jobs that hold a read at the moment it is taken; none where the limit is 0 or the engine hold is set (R24). -/
def State.holdCauses (s : State) (places : List Place) : List (SlotRef × JobKind) :=
  if s.holdLimitOf places = 0#16 ∨ s.status.hold = true then [] else places.filterMap s.holdCause

/-- One queue entry after the slots have changed: the slots that left their jobs close their part of a hold, and a hold with
no part left ends (R25). -/
def State.settleEntry (s : State) (e : QueueEntry) : QueueEntry × List MemOut :=
  match e.stage with
  | .held endsAt places waits =>
    if (waits.filter s.stillHolds).isEmpty then
      ({ e with stage := (s.finishRead e.req places).1 }, (s.finishRead e.req places).2)
    else ({ e with stage := .held endsAt places (waits.filter s.stillHolds) }, [])
  | _ => (e, [])

/-- Ending every held read whose slots have all left the jobs that held it, and giving the responses (R25, R143). -/
def State.settleHolds (s : State) : State :=
  { s with
    path := { s.path with queues := Vector.ofFn fun i => (s.queue i).map fun e => (s.settleEntry e).1 }
    memOut := s.memOut ++
      (List.finRange 4).flatMap fun i => (s.queue i).flatMap fun e => (s.settleEntry e).2 : State }.giveResponses

/-- One queue entry when its read-hold limit is looked at: a held read whose limit LT has reached ends (R25). -/
def State.limitEntry (s : State) (e : QueueEntry) : QueueEntry × List MemOut :=
  match e.stage with
  | .held endsAt places _ =>
    if endsAt ≤ s.time.lt then
      ({ e with stage := (s.finishRead e.req places).1 }, (s.finishRead e.req places).2)
    else (e, [])
  | _ => (e, [])

/-- Ending the held read of an initiator whose limit has elapsed (R25). -/
def State.endAtLimit (i : Initiator) (s : State) : State :=
  { (s.setQueue i ((s.queue i).map fun e => (s.limitEntry e).1)) with
    memOut := s.memOut ++ (s.queue i).flatMap fun e => (s.limitEntry e).2 }.giveResponses

/-- Setting the LT high latch where a read burst includes the LT low word (R119). -/
def State.latchLt (places : List Place) (s : State) : State :=
  { s with time :=
    { s.time with
      ltHigh := if places.contains (.status .ltLow) then s.time.lt.extractLsb' 32 32 else s.time.ltHigh } }

/-! ### Writes -/

/-- A beat that reaches memory as zero: the blob words, the spare blob words and the import command word (R96, R142). -/
def zeroedPlace : Place → Bool
  | .importArea word => decide (word.val ≤ 8)
  | _ => false

/-- A beat as it is forwarded to memory (R142). -/
def forwardedBeat (p : Place) (b : WriteBeat) : WriteBeat := if zeroedPlace p then { b with data := 0#64 } else b

/-- Forwarding one beat whose burst is not otherwise in the model: it goes out of the memory port (R8, R18, R96). -/
def State.forwardBeat (addr : Nat) (b : WriteBeat) (s : State) : State := { s with memOut := s.memOut ++ [.beat addr b] }

/-- Marking the writes forwarded so far, for whose responses a table read waits (R146). -/
def markEntry (e : QueueEntry) : QueueEntry :=
  match e.stage with
  | .forwarded a _ => if e.req.dir = .write then { e with stage := .forwarded a true } else e
  | _ => e

/-- A write forwarded before the load began has not been answered (R146). -/
def isAwaited (e : QueueEntry) : Bool :=
  match e.stage with
  | .forwarded _ w => w
  | _ => false

end Sys2Proof.Machine
end

