-- ==== Sys2Proof/Machine/Ops.lean ====
section
/-! DEFINITION. The operations that several commands share: slot contexts, key withdrawal, requests to the NV writer, the
end of an import command, the start-up phases, and the start of a zeroization. -/

namespace Sys2Proof.Machine

/-! ### Slot contexts (chapter 1) -/

/-- Replacing the context of a slot that exists. -/
def State.setCtx (r : SlotRef) (c : SlotCtx) (s : State) : State :=
  let next := s.slots.contexts.map fun p => if p.1 = r then (r, c) else p
  { s with slots := { s.slots with contexts := next } }

/-- The slot group parameters of a slot (R1). -/
def State.groupOf (s : State) (r : SlotRef) : Descriptor := s.descriptor r.group

/-- A context cleared: every field but the generation and the last command result becomes absent or zero, and the state is
FREE (R5). -/
def clearCtx (c : SlotCtx) : SlotCtx :=
  { SlotCtx.fresh with generation := c.generation, lastResult := c.lastResult }

/-- Every context becomes FREE and is cleared (R29, R30). -/
def State.freeAllSlots (s : State) : State :=
  { s with slots := { s.slots with contexts := s.slots.contexts.map fun p => (p.1, clearCtx p.2) } }

/-- The counters that entry into an end state increments (R7). -/
def State.countEnd (st : SlotState) (s : State) : State :=
  { s with status :=
      match st with
      | .expired => (s.bump .expired 1).status
      | .faulted => (s.bump .faulted 1).status
      | _ => s.status }

/-- A slot enters an end state: its context is written, SLOT_DONE of its group is raised, and EXPIRED or FAULTED is
counted (R7). -/
def State.enterEnd (r : SlotRef) (c : SlotCtx) (s : State) : State :=
  ((s.setCtx r c).raise (.slotDone r.group)).countEnd c.state

/-- A context FAULTED with a reason: its job and its derived key are gone, its verdict stays (R5, R27, R45, R48). -/
def faultCtx (reason : Reason) (c : SlotCtx) : SlotCtx :=
  { c with state := .faulted, jobKind := none, derivedKey := none, reason := some reason }

/-- A slot leaves the engine FIFO from wherever it stands, the rest keeping its order (R38). -/
def State.leaveFifo (r : SlotRef) (s : State) : State :=
  { s with engine := { s.engine with fifo := s.engine.fifo.filter fun x => x != r } }

/-- A slot joins the tail of the engine FIFO (R38). -/
def State.joinFifo (r : SlotRef) (s : State) : State :=
  { s with engine := { s.engine with fifo := s.engine.fifo ++ [r] } }

/-! ### The key directory (section 5.1) -/

/-- Entry `i` of the key directory. -/
def State.entry (s : State) (i : Fin 64) : DirEntry := s.keys.dir[i]

/-- Replacing entry `i` of the key directory. -/
def State.setEntry (i : Fin 64) (e : DirEntry) (s : State) : State :=
  { s with keys := { s.keys with dir := s.keys.dir.set i.val e i.isLt } }

/-- A non-EMPTY entry has a triple of usage, key set and version (R87). -/
def hasTriple (e : DirEntry) (u : Usage) (keySet version : Byte) : Bool :=
  e.state != .empty && e.usage == u && e.keySet.setWidth 8 == keySet && e.version.setWidth 8 == version

/-- The non-EMPTY entry of a triple (R87). -/
def State.findEntry (s : State) (u : Usage) (keySet version : Byte) : Option (Fin 64) :=
  (List.finRange 64).find? fun i => hasTriple (s.entry i) u keySet version

/-- The lowest-indexed EMPTY entry (R104). -/
def State.lowestEmpty (s : State) : Option (Fin 64) := (List.finRange 64).find? fun i => (s.entry i).state == .empty

/-- An entry is usable at an epoch (R88). -/
def usableAt (e : DirEntry) (epoch : BitVec 16) : Bool :=
  e.state == .loaded && decide (e.validFrom ≤ epoch) && decide (epoch ≤ e.validUntil)

/-- A LOADED TRANSPORT entry. -/
def isLoadedTransport (e : DirEntry) : Bool := e.usage == .transport && e.state == .loaded

/-- The entry is the last LOADED TRANSPORT entry, which REVOKE and ERASE may not remove (R107). -/
def State.isProtected (s : State) (i : Fin 64) : Bool :=
  isLoadedTransport (s.entry i) &&
    !((List.finRange 64).any fun j => j != i && isLoadedTransport (s.entry j))

/-! ### Withdrawal of a key (R27, R112) -/

/-- The withdrawal of entry `k` faults this slot: VERIFIED or QUEUED with SEAL, with that tag entry. -/
def withdrawalFaults (k : Fin 64) (c : SlotCtx) : Bool :=
  c.tagEntry == some k && (c.state == .verified || (c.state == .queued && c.jobKind == some .sealing))

/-- The withdrawal of entry `k` marks this slot: BUSY, with that tag entry or that record entry. -/
def withdrawalMarks (k : Fin 64) (c : SlotCtx) : Bool :=
  c.state == .busy && (c.tagEntry == some k || c.recordEntry == some k)

/-- What the withdrawal of entry `k` makes of a context (R27). -/
def withdrawCtx (k : Fin 64) (c : SlotCtx) : SlotCtx :=
  if withdrawalFaults k c then faultCtx .keyWithdrawn c
  else if withdrawalMarks k c then { c with withdrawn := true }
  else c

/-- The slots that the withdrawal of entry `k` faults. -/
def State.withdrawnSlots (s : State) (k : Fin 64) : List SlotRef :=
  (s.slots.contexts.filter fun p => withdrawalFaults k p.2).map (·.1)

/-- The withdrawal of entry `k` reaches the Slot Unit and the engine in one event (R27, R112). -/
def State.withdraw (k : Fin 64) (s : State) : State :=
  let hit := s.withdrawnSlots k
  let s1 : State :=
    { s with
      slots := { s.slots with contexts := s.slots.contexts.map fun p => (p.1, withdrawCtx k p.2) }
      engine := { s.engine with fifo := s.engine.fifo.filter fun x => !hit.contains x } }
  ((s1.raiseAll (hit.map fun r => .slotDone r.group)).bump .faulted hit.length).settleHolds

/-! ### The NV writer (section 5.3) -/

/-- An epoch record waiting in the list takes the new value and keeps its place; any other request joins the tail
(R90, R91). -/
def enqueueRequest (r : NvRequest) (waiting : List NvRequest) : List NvRequest :=
  match r with
  | .epochRecord v =>
    if waiting.any (fun x => requestKind x == 1) then
      waiting.map fun x => if requestKind x = 1 then .epochRecord v else x
    else waiting ++ [r]
  | _ => waiting ++ [r]

/-- A request is run at once if the writer is idle, else it waits (R90). -/
def NvWriter.take (r : NvRequest) (w : NvWriter) : NvWriter :=
  match w.running with
  | none => { w with running := some (.request r) }
  | some _ => { w with waiting := enqueueRequest r w.waiting }

/-- A request reaches the NV writer: discarded in ZEROIZING and ZEROIZED (R90, R91, R94). -/
def State.nvRequest (r : NvRequest) (s : State) : State :=
  { s with writer := if s.zeroing then s.writer else s.writer.take r }

/-- The running operation has ended: the NV zeroize that waits, or the head of the list, becomes the running operation
(R90, R94). -/
def NvWriter.goOn (w : NvWriter) : NvWriter :=
  if w.zeroizeWaiting then { w with running := some (.nvZeroize 0), zeroizeWaiting := false, attemptsFailed := 0#8 }
  else
    match w.waiting with
    | [] => { w with running := none }
    | r :: rest => { w with running := some (.request r), waiting := rest }

/-- The NV writer goes on to its next operation (R90, R94). -/
def State.nvNext (s : State) : State := { s with writer := s.writer.goOn }

/-- A reservation can be asked for: none is pending, the ceiling is below 2^48, and no zeroization has started (R34,
R35). -/
def State.mayReserve (s : State) : Bool :=
  !s.slots.reservationPending && decide (s.slots.ceiling < Config.counterEnd) && !s.zeroing

/-- The Slot Unit asks for a reservation where `go` says so (R34, R35). -/
def State.reserveWhen (go : Bool) (s : State) : State :=
  { s with
    slots := { s.slots with reservationPending := s.slots.reservationPending || go }
    writer := if go then s.writer.take (.reservation (s.slots.ceiling + Config.reserveStep)) else s.writer }

/-- The Slot Unit asks for a reservation when none is pending and the ceiling is below 2^48 (R34, R35). -/
def State.askReservation (s : State) : State := s.reserveWhen s.mayReserve

/-! ### Import commands (section 5.5) -/

/-- The import buffer cleared to zero (R97). -/
def State.clearBuffer (s : State) : State := { s with keys := { s.keys with buffer := Vector.replicate 5 0#64 } }

/-- A command that ends when it is evaluated: its code is written at once with an index and a check value, the buffer is
cleared unless the code is BUSY, and IMPORT_DONE is raised; the import state stays as it was (R97, R98, R100, R101). -/
def State.endAtOnce (command : Byte) (code : ImportCode) (index : Fin 64) (check : BitVec 24) (s : State) : State :=
  { s with keys :=
    { s.keys with
      buffer := if code = ImportCode.busy then s.keys.buffer else Vector.replicate 5 0#64
      result := { command := command, code := code, index := index, check := check } } }.raise .importDone

/-- A command leaves IDLE: it writes result code none, index 0 and check value 0 (R98, R101). -/
def State.startImport (cmd : ImportCmd) (st : ImportState) (s : State) : State :=
  { s with keys :=
    { s.keys with
      importState := st, inFlight := importCode cmd,
      result := { command := importCode cmd, code := .none, index := 0, check := 0#24 } } }

/-- The command in flight ends: its own code with its result, import state IDLE, buffer cleared, IMPORT_DONE raised
(R97, R98, R101). -/
def State.endImport (code : ImportCode) (index : Fin 64) (check : BitVec 24) (s : State) : State :=
  let s1 := s.clearBuffer
  { s1 with keys :=
    { s1.keys with
      importState := .idle, inFlight := 0#8,
      result := { command := s1.keys.inFlight, code := code, index := index, check := check } } }.raise .importDone

/-! ### Start-up phases (section 9.2) -/

/-- A load of the window table begins: map state LOADING, and the writes forwarded so far are waited for (R146, R155,
R161). -/
def State.beginLoad (s : State) : State :=
  { s with
    map := { s.map with state := .loading, load := some .draining }
    path := { s.path with queues := Vector.ofFn fun i => (s.queue i).map markEntry } }

/-- RESERVE ends: MAP_LOAD begins, and CHALLENGE_LOW is raised if its condition then holds (R170, R185,
R161; also where a zeroization ended the phase, DEDUCED, log entry 21). -/
def State.endReserve (s : State) : State :=
  ({ s with life := { s.life with phase := .mapLoad } }.raiseLow false).beginLoad

/-- RESERVE begins: counter and ceiling take the stored high-water; below 2^48 the program of high-water + 4,096 starts,
unless a zeroization has started; otherwise the phase ends at once (R170, R172). -/
def State.beginReserve (s : State) : State :=
  let hw := s.nv.highWater
  let s1 : State :=
    { s with
      life := { s.life with phase := .reserve }
      slots := { s.slots with counter := hw, ceiling := hw, reservationPending := false } }
  if Config.counterEnd ≤ hw then { s1 with slots := { s1.slots with exhausted := true } }.endReserve
  else if s.zeroing then s1.endReserve
  else { s1 with writer := { s1.writer with running := some (.reserve (hw + Config.reserveStep)) } }

/-- The first entry at or after an index that is not EMPTY (R54). -/
def State.nextToCheck (s : State) (n : Nat) : Option (Fin 64) :=
  (List.finRange 64).find? fun i => decide (n ≤ i.val) && (s.entry i).state != .empty

/-- KEY_CHECK goes on from an index: the CHECK job of the next entry that is not EMPTY starts, or the phase ends (R54,
R169; each start is part of the event before it, DEDUCED, log entry 16). -/
def State.continueCheck (n : Nat) (s : State) : State :=
  match s.nextToCheck n with
  | some i =>
    { s with engine := { s.engine with job := some { work := .checking i (s.entry i).key, discard := false } } }
  | none => s.beginReserve

/-! ### Zeroization (section 9.4) -/

/-- The NV writer discards its waiting list and runs the NV zeroize now or after the operation it is running (R94,
R175). -/
def startZeroizeOperation (w : NvWriter) : NvWriter :=
  match w.running with
  | none => { w with running := some (.nvZeroize 0), waiting := [], zeroizeWaiting := false, attemptsFailed := 0#8 }
  | some _ => { w with waiting := [], zeroizeWaiting := true }

/-- A command in flight ends WRONG_LIFECYCLE at the start of a zeroization (R114). -/
def State.endImportByZeroize (s : State) : State :=
  if s.keys.importState = .idle then s.clearBuffer else s.endImport .wrongLifecycle 0 0#24

/-- A zeroization starts (R175): every effect at one event; a KEY_CHECK under way ends, and start-up goes on (R169,
R172). -/
def State.startZeroization (s : State) : State :=
  let s1 := s.freeAllSlots.endImportByZeroize
  let s2 : State :=
    { s1 with
      life := { s1.life with cycle := .zeroizing }
      slots := { s1.slots with reservationPending := false }
      engine := { fifo := [], importPlace := none, waitCount := 0, job := none }
      filter := s1.filter.cleared
      keys := { s1.keys with dir := Vector.replicate 64 DirEntry.emptied, inquiry := Inquiry.zero }
      writer := startZeroizeOperation s1.writer }
  let s3 := s2.settleHolds
  if s.life.phase = .keyCheck then s3.beginReserve else s3

end Sys2Proof.Machine
end

