-- ==== Sys2Proof/Machine/Slots.lean ====
section
/-! DEFINITION. The slot commands OPEN, ARM, SEAL, RELEASE and ABORT, the shadows, the deadline and the read-hold limit
(chapter 1). -/

namespace Sys2Proof.Machine

/-! ### Evaluation of a slot command (R9, R11) -/

/-- The mask a command needs: ARM the fill mask, the others the manage mask (step 3 of R9). -/
def hasSlotRight (d : Descriptor) (cmd : SlotCmd) (i : Initiator) : Bool :=
  if cmd = .arm then inMask d.writeMask i else inMask d.manageMask i

/-- VERIFIED, REJECTED, SEALED, EXPIRED and FAULTED are the end states (section 1.4). -/
def isEndState (st : SlotState) : Bool :=
  st == .verified || st == .rejected || st == .sealed || st == .expired || st == .faulted

/-- The states from which a command is accepted (R11, R13 to R16). -/
def acceptedFrom (cmd : SlotCmd) (st : SlotState) : Bool :=
  match cmd with
  | .open' => st == .free
  | .arm => st == .open'
  | .sealing => st == .verified
  | .release => isEndState st
  | .abort => st == .open' || st == .queued || st == .busy || isEndState st

/-- The part serves OPEN: PERSONALIZED or FIELD with a reader number other than 0 (step 1 of R11). -/
def State.inService (s : State) : Bool :=
  (s.life.cycle == .personalized || s.life.cycle == .field) && s.life.reader != 0#16

/-- The further checks of OPEN, in their order (R11). -/
def State.openRefusal (s : State) : Option SlotResult :=
  if !s.inService then some .noService
  else if s.slots.exhausted then some .exhausted
  else if s.slots.counter = s.slots.ceiling then some .challengeWait
  else none

/-- The result of the first check of R9 that fails, if one does. `cmd` is the command the code names, `upper` bytes 1 to 7
of the word: the generation and six spare bytes. -/
def State.slotRefusal (s : State) (i : Initiator) (r : SlotRef) (cmd : Option SlotCmd) (upper : BitVec 56)
    (c : SlotCtx) : Option SlotResult :=
  if s.status.hold then some .held
  else
    match cmd with
    | none => some .badCommand
    | some cmd =>
      if upper.extractLsb' 8 48 != 0#48 then some .badCommand
      else if !hasSlotRight (s.groupOf r) cmd i then some .notPermitted
      else if cmd != .open' && upper.extractLsb' 0 8 != c.generation then some .stale
      else if !acceptedFrom cmd c.state then some .wrongState
      else if cmd == .open' then s.openRefusal
      else none

/-! ### Carrying the commands out -/

/-- The challenge: reader number in bits 48 to 63, issued counter value in bits 0 to 47 (R12). -/
def challengeOf (reader : BitVec 16) (counter : Nat) : Word := reader ++ BitVec.ofNat 48 counter

/-- The context that an OPEN leaves (R12). -/
def openedCtx (s : State) (r : SlotRef) (c : SlotCtx) : SlotCtx :=
  { SlotCtx.fresh with
    state := .open', generation := c.generation + 1#8, lastResult := .ok,
    challenge := some (challengeOf s.life.reader s.slots.counter), arrival := some s.time.lt,
    deadline := some (s.time.lt + (s.groupOf r).budget.setWidth 64) }

/-- Issuing a challenge: the counter advances by 1, and the value 2^48 − 1 sets the exhausted flag (R33). -/
def State.issueChallenge (s : State) : State :=
  { s with
    slots := { s.slots with
      counter := s.slots.counter + 1,
      exhausted := s.slots.exhausted || decide (s.slots.counter = Config.counterEnd - 1) } }

/-- After an issue the reserve is compared with 1,024 (R34). -/
def State.reserveIfLow (s : State) : State :=
  s.reserveWhen (decide (s.slots.ceiling - s.slots.counter ≤ Config.reserveBelow) && s.mayReserve)

/-- OPEN carried out (R12, R33, R34, R35). -/
def State.carryOpen (r : SlotRef) (c : SlotCtx) (s : State) : State :=
  ((s.setCtx r (openedCtx s r c)).issueChallenge.reserveIfLow).raiseLow s.challengeLow

/-- ARM carried out: QUEUED with VERIFY, or FAULTED with BAD_INBOUND (R13). -/
def State.carryArm (r : SlotRef) (c : SlotCtx) (s : State) : State :=
  let c1 : SlotCtx := { c with lastResult := .ok }
  if inboundValid c then (s.setCtx r { c1 with state := .queued, jobKind := some .verify }).joinFifo r
  else s.enterEnd r (faultCtx .badInbound c1)

/-- SEAL carried out: QUEUED with SEAL (R14). -/
def State.carrySeal (r : SlotRef) (c : SlotCtx) (s : State) : State :=
  (s.setCtx r { c with lastResult := .ok, state := .queued, jobKind := some .sealing }).joinFifo r

/-- A slot becomes FREE with its context cleared, last command result OK (R15, R16). -/
def State.carryRelease (r : SlotRef) (c : SlotCtx) (s : State) : State :=
  s.setCtx r (clearCtx { c with lastResult := .ok })

/-- ABORT carried out: a BUSY slot becomes ABORTING; an OPEN or QUEUED slot leaves the FIFO and becomes FREE; in an end
state it acts as RELEASE (R16). -/
def State.carryAbort (r : SlotRef) (c : SlotCtx) (s : State) : State :=
  if c.state = .busy then s.setCtx r { c with lastResult := .ok, state := .aborting }
  else if c.state = .open' ∨ c.state = .queued then ((s.carryRelease r c).leaveFifo r).settleHolds
  else s.carryRelease r c

/-- A command that passes every check is carried out. -/
def State.carrySlot (cmd : SlotCmd) (r : SlotRef) (c : SlotCtx) (s : State) : State :=
  match cmd with
  | .open' => s.carryOpen r c
  | .arm => s.carryArm r c
  | .sealing => s.carrySeal r c
  | .release => s.carryRelease r c
  | .abort => s.carryAbort r c

/-- A refused command: the last command result takes the code; a CHALLENGE_WAIT also asks for a reservation (R9, R35). -/
def State.refuseSlot (res : SlotResult) (r : SlotRef) (c : SlotCtx) (s : State) : State :=
  let s1 := s.setCtx r { c with lastResult := res }
  if res = .challengeWait then s1.askReservation else s1

/-- A slot command is taken: evaluated by R9, then refused or carried out. A slot that does not exist has nothing to act on
(log entry 28). -/
def State.takeSlotCommand (i : Initiator) (r : SlotRef) (cmd : Option SlotCmd) (upper : BitVec 56) (s : State) : State :=
  match s.ctx? r with
  | none => s
  | some c =>
    match s.slotRefusal i r cmd upper c, cmd with
    | some res, _ => s.refuseSlot res r c
    | none, some cmd => s.carrySlot cmd r c
    | none, none => s

/-- The offset of a command word in the slot record (R2). -/
def commandOffset : CommandWord → Nat
  | .a => 0x40
  | .b => 0x68

/-- The address of an offset of a slot's record (R1). -/
def State.slotAddr (s : State) (r : SlotRef) (offset : Nat) : Nat :=
  (s.groupOf r).base * 4096 + r.index.val * 128 + offset

/-- A beat with all eight strobes. -/
def fullBeat (data : Word) : WriteBeat := { data := data, strobes := 0xFF#8 }

/-- One beat of a slot record is taken and passed to memory; nothing is while a reload runs, or where the slot does not
exist (R8, R18, R19, R146; log entry 4). -/
def State.slotBeat (r : SlotRef) (offset : Nat) (b : WriteBeat) (act : State → State) (s : State) : State :=
  if s.reloading || (s.ctx? r).isNone then s else (act s).forwardBeat (s.slotAddr r offset) b

/-- A slot command word as one taken beat. -/
def State.slotCommandBeat (i : Initiator) (r : SlotRef) (cw : CommandWord) (cmd : SlotCmd) (upper : BitVec 56)
    (s : State) : State :=
  s.slotBeat r (commandOffset cw) (fullBeat (upper ++ slotCode cmd)) fun t => t.takeSlotCommand i r (some cmd) upper

/-- OPEN (R9 to R12). -/
def execOpen (i : Initiator) (r : SlotRef) (cw : CommandWord) (upper : BitVec 56) (s : State) :
    Host.Outcome State Fault Refusal := .next (s.slotCommandBeat i r cw .open' upper)

/-- ARM (R9, R13). -/
def execArm (i : Initiator) (r : SlotRef) (cw : CommandWord) (upper : BitVec 56) (s : State) :
    Host.Outcome State Fault Refusal := .next (s.slotCommandBeat i r cw .arm upper)

/-- SEAL (R9, R14). -/
def execSeal (i : Initiator) (r : SlotRef) (cw : CommandWord) (upper : BitVec 56) (s : State) :
    Host.Outcome State Fault Refusal := .next (s.slotCommandBeat i r cw .sealing upper)

/-- RELEASE (R9, R15). -/
def execRelease (i : Initiator) (r : SlotRef) (cw : CommandWord) (upper : BitVec 56) (s : State) :
    Host.Outcome State Fault Refusal := .next (s.slotCommandBeat i r cw .release upper)

/-- ABORT (R9, R16). -/
def execAbort (i : Initiator) (r : SlotRef) (cw : CommandWord) (upper : BitVec 56) (s : State) :
    Host.Outcome State Fault Refusal := .next (s.slotCommandBeat i r cw .abort upper)

/-! ### Shadows (R18, R19) -/

/-- The states in which payload beats are shadowed: from OPEN until SEAL is taken (R19). -/
def payloadOpen (c : SlotCtx) : Bool :=
  c.state == .open' || c.state == .verified || ((c.state == .queued || c.state == .busy) && c.jobKind == some .verify)

/-- A beat to inbound word `w` is merged into the shadow while the slot is OPEN (R18). -/
def State.shadowInbound (r : SlotRef) (w : Fin 4) (b : WriteBeat) (s : State) : State :=
  match s.ctx? r with
  | some c =>
    if c.state = .open' then
      s.setCtx r { c with inbound := c.inbound.set w.val (mergeBytes c.inbound[w] b.data b.strobes) w.isLt }
    else s
  | none => s

/-- A beat to payload word `w` is merged into the shadow from OPEN until SEAL is taken (R19). -/
def State.shadowPayload (r : SlotRef) (w : Fin 4) (b : WriteBeat) (s : State) : State :=
  match s.ctx? r with
  | some c =>
    if payloadOpen c then
      s.setCtx r { c with payload := c.payload.set w.val (mergeBytes c.payload[w] b.data b.strobes) w.isLt }
    else s
  | none => s

/-- INBOUND_SHADOW_WRITE (R18). -/
def execInboundShadowWrite (r : SlotRef) (w : Fin 4) (b : WriteBeat) (s : State) : Host.Outcome State Fault Refusal :=
  .next (s.slotBeat r (0x20 + 8 * w.val) b fun t => t.shadowInbound r w b)

/-- PAYLOAD_SHADOW_WRITE (R19). -/
def execPayloadShadowWrite (r : SlotRef) (w : Fin 4) (b : WriteBeat) (s : State) : Host.Outcome State Fault Refusal :=
  .next (s.slotBeat r (0x48 + 8 * w.val) b fun t => t.shadowPayload r w b)

/-! ### The deadline and the read-hold limit (R21, R25) -/

/-- The deadline expires the slot: OPEN, or QUEUED with VERIFY (R21). -/
def deadlineExpires (c : SlotCtx) : Bool := c.state == .open' || (c.state == .queued && c.jobKind == some .verify)

/-- The deadline sets the late flag: BUSY, VERIFIED, or QUEUED with SEAL (R21). -/
def deadlineLate (c : SlotCtx) : Bool :=
  c.state == .busy || c.state == .verified || (c.state == .queued && c.jobKind == some .sealing)

/-- What the deadline does to a slot whose deadline LT is the current LT (R21, R23). -/
def State.deadline (r : SlotRef) (c : SlotCtx) (s : State) : State :=
  if deadlineExpires c then
    ((s.enterEnd r { c with state := .expired, jobKind := none }).leaveFifo r).settleHolds
  else if deadlineLate c && !c.late then (s.setCtx r { c with late := true }).bump .late 1
  else s

/-- DEADLINE_REACHED (R21): the event of the moment at which LT equals the slot's deadline LT. Who sends it, and when:
log entry 17. -/
def execDeadlineReached (r : SlotRef) (s : State) : Host.Outcome State Fault Refusal :=
  match s.ctx? r with
  | some c => if c.deadline = some s.time.lt then .next (s.deadline r c) else .next s
  | none => .next s

/-- READ_HOLD_LIMIT (R25): the held read of an initiator ends if LT has reached its limit. -/
def execReadHoldLimit (i : Initiator) (s : State) : Host.Outcome State Fault Refusal := .next (s.endAtLimit i)

end Sys2Proof.Machine
end

