-- ==== Sys2Proof/Machine/KeyCommands.lean ====
section
/-! DEFINITION. The import area: capture of blob beats, and the import commands (sections 5.4 and 5.5). -/

namespace Sys2Proof.Machine

/-! ### Evaluation (R100) -/

/-- The life cycles in which a command is accepted (the table of section 5.5, R164). -/
def acceptedIn (cmd : ImportCmd) (l : LifeCycle) : Bool :=
  match cmd with
  | .loadPlain => l == .blank
  | .load => l == .personalized || l == .field
  | .revoke => l == .personalized || l == .field
  | .erase => l == .personalized || l == .field
  | .inquire => true
  | .setReader => l == .blank || l == .personalized
  | .fieldLock => l == .personalized
  | .zeroize => l == .blank || l == .personalized || l == .field

/-- The code of the first of steps 1 to 5 of R100 that fails, if one does. -/
def State.importRefusal (s : State) (cmd : Option ImportCmd) (upper : BitVec 56) : Option ImportCode :=
  if s.zeroing && cmd != some .inquire then some .wrongLifecycle
  else if s.status.hold then some .held
  else if s.keys.importState != .idle then some .busy
  else
    match cmd with
    | none => some .badCommand
    | some cmd =>
      if !importFormGood cmd upper then some .badCommand
      else if !acceptedIn cmd s.life.cycle then some .wrongLifecycle
      else none

/-! ### The commands' own rules -/

/-- An import job is placed in the engine's waiting place with wait count 0, and the import state becomes QUEUED (R39,
R101). -/
def State.placeImportJob (cmd : ImportCmd) (kind : ImportKind) (s : State) : State :=
  { s.startImport cmd .queued with engine := { s.engine with importPlace := some kind, waitCount := 0 } }

/-- An admin request is placed, and the import state becomes NV_WRITING (R101). -/
def State.placeAdmin (cmd : ImportCmd) (op : AdminOp) (s : State) : State :=
  (s.startImport cmd .nvWriting).nvRequest (.admin op)

/-- EXISTS, FULL, or the import job is placed: the last checks of LOAD_PLAIN and LOAD (R102, R103). -/
def State.placeUnlessTaken (cmd : ImportCmd) (kind : ImportKind) (h : Block) (s : State) : State :=
  match s.findEntry (usageOf (headerUsage h)) (headerKeySet h) (headerVersion h) with
  | some i => s.endAtOnce (importCode cmd) .exists' i 0#24
  | none =>
    if s.lowestEmpty.isNone then s.endAtOnce (importCode cmd) .full 0 0#24 else s.placeImportJob cmd kind

/-- LOAD_PLAIN past step 5 of R100 (R102). -/
def State.carryLoadPlain (s : State) : State :=
  let h := importHeader s.keys
  if !headerGoodPlain h then s.endAtOnce 0x01#8 .badHeader 0 0#24 else s.placeUnlessTaken .loadPlain .loadPlain h

/-- The TRANSPORT entry of a version is LOADED (R103). -/
def State.transportLoaded (s : State) (version : Byte) : Bool :=
  match s.findEntry .transport 0#8 version with
  | some i => (s.entry i).state == .loaded
  | none => false

/-- LOAD past step 5 of R100 (R103). -/
def State.carryLoad (s : State) : State :=
  let h := importHeader s.keys
  if !headerGoodLoad h then s.endAtOnce 0x02#8 .badHeader 0 0#24
  else if !s.transportLoaded (headerTransportVersion h) then s.endAtOnce 0x02#8 .noTransport 0 0#24
  else s.placeUnlessTaken .load .load h

/-- The entry that header bytes 0 to 2 name (R105, R106). -/
def State.namedEntry (s : State) : Option (Fin 64) :=
  let h := importHeader s.keys
  s.findEntry (usageOf (headerUsage h)) (headerKeySet h) (headerVersion h)

/-- REVOKE past step 5 of R100 (R105, R107, R112). -/
def State.carryRevoke (s : State) : State :=
  if !headerTripleGood (importHeader s.keys) then s.endAtOnce 0x03#8 .badHeader 0 0#24
  else
    match s.namedEntry with
    | none => s.endAtOnce 0x03#8 .notFound 0 0#24
    | some i =>
      if (s.entry i).state != .loaded then s.endAtOnce 0x03#8 .notFound 0 0#24
      else if s.isProtected i then s.endAtOnce 0x03#8 .protected' 0 0#24
      else ((s.setEntry i { s.entry i with state := .revoked }).withdraw i).placeAdmin .revoke (.markRevoked i)

/-- What the Key Store keeps of an entry with an erase request: usage, key set, version, epochs and check value, no key
(R106). -/
def keptWithRequest (e : DirEntry) : DirEntry := { e with state := .empty, key := none }

/-- ERASE past step 5 of R100 (R106, R107, R112). -/
def State.carryErase (s : State) : State :=
  if !headerTripleGood (importHeader s.keys) then s.endAtOnce 0x04#8 .badHeader 0 0#24
  else
    match s.namedEntry with
    | none => s.endAtOnce 0x04#8 .notFound 0 0#24
    | some i =>
      if s.isProtected i then s.endAtOnce 0x04#8 .protected' 0 0#24
      else ((s.setEntry i DirEntry.emptied).withdraw i).placeAdmin .erase (.eraseEntry i (keptWithRequest (s.entry i)))

/-- The inquiry record of an entry (R99, R108). -/
def inquiryOf (i : Fin 64) (e : DirEntry) : Inquiry :=
  { index := i, state := e.state, usage := e.usage, keySet := e.keySet, version := e.version, validFrom := e.validFrom,
    validUntil := e.validUntil, check := e.check }

/-- INQUIRE past step 5 of R100 (R108). -/
def State.carryInquire (upper : BitVec 56) (s : State) : State :=
  let i := inquireIndex upper
  { s with keys := { s.keys with inquiry := inquiryOf i (s.entry i) } }.endAtOnce 0x05#8 .ok i (s.entry i).check

/-- SET_READER past step 5 of R100 (R109). -/
def State.carrySetReader (upper : BitVec 56) (s : State) : State :=
  if readerOperand upper = 0#16 then s.endAtOnce 0x06#8 .badHeader 0 0#24
  else s.placeAdmin .setReader (.writeReader (readerOperand upper))

/-- FIELD_LOCK past step 5 of R100 (R110). -/
def State.carryFieldLock (s : State) : State :=
  if s.life.reader = 0#16 then s.endAtOnce 0x07#8 .wrongLifecycle 0 0#24
  else if !((List.finRange 64).any fun i => isLoadedTransport (s.entry i)) then s.endAtOnce 0x07#8 .noTransport 0 0#24
  else s.placeAdmin .fieldLock .lockField

/-- ZEROIZE past step 5 of R100: it ends OK, and a zeroization starts (R111). -/
def State.carryZeroize (s : State) : State := (s.endAtOnce 0x08#8 .ok 0 0#24).startZeroization

/-- A command that passes steps 1 to 5 of R100 is judged by its own rule. -/
def State.carryImport (cmd : ImportCmd) (upper : BitVec 56) (s : State) : State :=
  match cmd with
  | .loadPlain => s.carryLoadPlain
  | .load => s.carryLoad
  | .revoke => s.carryRevoke
  | .erase => s.carryErase
  | .inquire => s.carryInquire upper
  | .setReader => s.carrySetReader upper
  | .fieldLock => s.carryFieldLock
  | .zeroize => s.carryZeroize

/-- An import command word is taken, in RUNNING (R100). -/
def State.takeImportCommand (code : Byte) (upper : BitVec 56) (s : State) : State :=
  if s.life.phase ≠ .running then s
  else
    match s.importRefusal (importCommandOf code) upper, importCommandOf code with
    | some refused, _ => s.endAtOnce code refused 0 0#24
    | none, some cmd => s.carryImport cmd upper
    | none, none => s

/-! ### Capture (R96) -/

/-- Blob beats are captured: RUNNING, import state IDLE, not ZEROIZING or ZEROIZED (R96). -/
def State.capturing (s : State) : Bool := s.life.phase == .running && s.keys.importState == .idle && !s.zeroing

/-- A beat to blob word `w` is merged into the import buffer under its strobes; the spare blob words are not kept
(R96). -/
def State.captureBlob (w : Nat) (b : WriteBeat) (s : State) : State :=
  if h : w < 5 then
    if s.capturing then
      let next := s.keys.buffer.set w (mergeBytes s.keys.buffer[w] b.data b.strobes) h
      { s with keys := { s.keys with buffer := next } }
    else s
  else s

/-! ### The rows -/

/-- One beat of the control region is taken and passed to memory; nothing is while a reload runs (R96, R142, R146; log
entry 4). -/
def State.controlBeat (offset : Nat) (b : WriteBeat) (act : State → State) (s : State) : State :=
  if s.reloading then s else (act s).forwardBeat (s.base + offset) b

/-- An import command word as one taken beat; memory receives zero data (R96). -/
def State.importBeat (cmd : ImportCmd) (upper : BitVec 56) (s : State) : State :=
  s.controlBeat 0x340 (fullBeat 0#64) fun t => t.takeImportCommand (importCode cmd) upper

/-- BLOB_WRITE (R96). -/
def execBlobWrite (w : Fin 8) (b : WriteBeat) (s : State) : Host.Outcome State Fault Refusal :=
  .next (s.controlBeat (0x300 + 8 * w.val) { b with data := 0#64 } fun t => t.captureBlob w.val b)

/-- LOAD_PLAIN (R100, R102). -/
def execLoadPlain (upper : BitVec 56) (s : State) : Host.Outcome State Fault Refusal :=
  .next (s.importBeat .loadPlain upper)

/-- LOAD (R100, R103). -/
def execLoad (upper : BitVec 56) (s : State) : Host.Outcome State Fault Refusal := .next (s.importBeat .load upper)

/-- REVOKE (R100, R105). -/
def execRevoke (upper : BitVec 56) (s : State) : Host.Outcome State Fault Refusal := .next (s.importBeat .revoke upper)

/-- ERASE (R100, R106). -/
def execErase (upper : BitVec 56) (s : State) : Host.Outcome State Fault Refusal := .next (s.importBeat .erase upper)

/-- INQUIRE (R100, R108). -/
def execInquire (upper : BitVec 56) (s : State) : Host.Outcome State Fault Refusal :=
  .next (s.importBeat .inquire upper)

/-- SET_READER (R100, R109). -/
def execSetReader (upper : BitVec 56) (s : State) : Host.Outcome State Fault Refusal :=
  .next (s.importBeat .setReader upper)

/-- FIELD_LOCK (R100, R110). -/
def execFieldLock (upper : BitVec 56) (s : State) : Host.Outcome State Fault Refusal :=
  .next (s.importBeat .fieldLock upper)

/-- ZEROIZE (R100, R111). -/
def execZeroize (upper : BitVec 56) (s : State) : Host.Outcome State Fault Refusal :=
  .next (s.importBeat .zeroize upper)

end Sys2Proof.Machine
end

