-- ==== Sys2Proof/Machine/Timing.lean ====
section
/-! DEFINITION. The Time Unit: ticks, SYNC edges, and the switch of the active epoch (chapter 6). -/

namespace Sys2Proof.Machine

/-- TICK (R115, R116): LT increases by 1, the prescale count restarts from 0, and a pending PRE comes into force. While
RESET_N is asserted LT stays 0. The prescale count is shown between ticks alone, at 0 (DESIGN CHOICE, log entry 13). -/
def execTick (s : State) : Host.Outcome State Fault Refusal :=
  if s.life.resetAsserted then .next s
  else
    let t := s.time
    .next { s with time :=
      { t with lt := t.lt + 1#64, prescale := 0#8, pre := t.pendingPre.getD t.pre, pendingPre := none } }

/-- A switch of the active epoch to a pending epoch (R127). -/
def State.switchEpoch (epoch : BitVec 16) (s : State) : State :=
  ({ s with time := { s.time with epoch := epoch, schedule := none } }.raise .epochSwitched).nvRequest (.epochRecord epoch)

/-- An accepted edge counts a pending schedule down, and switches at 0 (R121, R126). -/
def State.countDown (s : State) : State :=
  match s.time.schedule with
  | none => s
  | some p =>
    if p.countdown ≤ 1#16 then s.switchEpoch p.epoch
    else { s with time := { s.time with schedule := some { p with countdown := p.countdown - 1#16 } } }

/-- A rising edge of SYNC is accepted: no pulse captured yet, or 500,000 ticks or more since the capture (R120). -/
def edgeAccepted (t : TimeUnit) : Bool :=
  match t.capture with
  | none => true
  | some c => decide (Config.glitchWindow ≤ t.lt - c)

/-- SYNC_EDGE (R120, R121). -/
def execSyncEdge (s : State) : Host.Outcome State Fault Refusal :=
  if edgeAccepted s.time then
    let t := s.time
    .next { s with time := { t with capture := some t.lt, pulses := t.pulses + 1#16 } }.countDown
  else .next (s.bump .pulseGlitches 1)

end Sys2Proof.Machine
end

