-- ==== Sys2Proof/Machine/Settings.lean ====
section
/-! DEFINITION. Writes to the status block: what each writable word hands to its owner, and the engine hold (chapters 6, 8
and 10). -/

namespace Sys2Proof.Machine

/-! ### The settings -/

/-- PRE: the written byte 0 becomes the pending PRE (R116). -/
def State.writePre (w : Word) (s : State) : State :=
  { s with time := { s.time with pendingPre := some (byteOf w 0) } }

/-- The written pending epoch and countdown, a countdown of 0 taken as 1 (R125, R202). -/
def scheduleOf (w : Word) : Schedule :=
  let n : BitVec 16 := w.extractLsb' 32 16
  { epoch := w.extractLsb' 16 16, countdown := if n = 0#16 then 1#16 else n }

/-- The epoch word: a schedule above the active epoch is accepted, any other rejected (R125). -/
def State.writeSchedule (w : Word) (s : State) : State :=
  if s.time.epoch < (scheduleOf w).epoch then
    { s with time := { s.time with schedule := some (scheduleOf w), reason := .scheduled } }
  else { s with time := { s.time with reason := .rejected } }.raise .scheduleRejected

/-- SWITCH_NOW: a pending schedule switches at once (R128). -/
def State.switchNow (s : State) : State :=
  match s.time.schedule with
  | some p => s.switchEpoch p.epoch
  | none => s

/-- CANCEL: a pending schedule becomes absent (R128). -/
def State.cancelSchedule (s : State) : State := { s with time := { s.time with schedule := none } }

/-- The epoch control word: the whole word 0x01 or 0x02, any other ignored (R128, R202). -/
def State.writeEpochControl (w : Word) (s : State) : State :=
  if w = 1#64 then s.switchNow else if w = 2#64 then s.cancelSchedule else s

/-- The attention causes word: each cause whose bit is 1 is cleared, and clearing REFUSAL clears the record's valid flag
(R186; only where the cause was set, DEDUCED, log entry 26). -/
def State.clearCauses (w : Word) (s : State) : State :=
  let bits := w.extractLsb' 0 26
  let s1 := { s with status := { s.status with causes := s.status.causes &&& ~~~bits } }
  if bits.getLsbD 21 && s.causeSet .refusal then
    { s1 with path := { s1.path with refusal := { s1.path.refusal with valid := false } } }
  else s1

/-- The attention enables word: every enable takes its written bit (R187). -/
def State.writeEnables (w : Word) (s : State) : State :=
  { s with status := { s.status with enables := w.extractLsb' 0 26 } }

/-- The map word: the requested generation takes bytes 0 and 1, and a reload begins (R155). -/
def State.writeMapWord (w : Word) (s : State) : State :=
  { s with map := { s.map with requested := w.extractLsb' 0 16 } }.beginLoad

/-- The unmapped rights word: both masks are replaced (R153). -/
def State.writeUnmapped (w : Word) (s : State) : State :=
  { s with map := { s.map with unmappedRead := w.extractLsb' 0 4, unmappedWrite := w.extractLsb' 8 4 } }

/-- The duplicate interval word: D is stored as written (R70). -/
def State.writeD (w : Word) (s : State) : State := { s with filter := { s.filter with d := w } }

/-- The hold time word: H is stored, clamped to 2^40 (R70). -/
def State.writeH (w : Word) (s : State) : State :=
  { s with filter := { s.filter with h := if Config.hMax < w then Config.hMax else w } }

/-- The counter-clear word: each counter whose bit is 1 is cleared (R190). -/
def State.clearCounters (w : Word) (s : State) : State :=
  let next : Vector (BitVec 32) 11 :=
    Vector.ofFn fun i => if w.getLsbD i.val then 0#32 else s.status.counters[i]
  { s with status := { s.status with counters := next } }

/-! ### The engine hold (R191, R192) -/

/-- The import command in QUEUED or WORKING ends HELD; the buffer is cleared in every case (R113). -/
def State.endImportByHold (s : State) : State :=
  if s.keys.importState = .queued ∨ s.keys.importState = .working then s.endImport .held 0 0#24 else s.clearBuffer

/-- The engine when the hold is set: FIFO and waiting place empty, a slot or import job in work discarded (R49). -/
def holdEngine (e : Engine) : Engine :=
  { fifo := [], importPlace := none, waitCount := 0, job := e.job.map fun j => { j with discard := true } }

/-- The hold flag goes from clear to set (R192). -/
def State.setHold (s : State) : State :=
  let s1 := s.freeAllSlots.endImportByHold
  let s2 : State :=
    { s1 with
      engine := holdEngine s1.engine
      filter := s1.filter.cleared
      status := { s1.status with hold := true, counters := Vector.replicate 11 0#32 } }
  s2.settleHolds

/-- The hold word: bit 0 sets or clears the flag; only a change acts (R191, R194). -/
def State.writeHold (w : Word) (s : State) : State :=
  if w.getLsbD 0 then (if s.status.hold then s else s.setHold)
  else { s with status := { s.status with hold := false } }

/-! ### Taking or ignoring a beat (R181) -/

/-- The words whose writes are taken while the hold is set (R181). -/
def takenUnderHold (w : StatusWord) : Bool := w == .hold || w == .causes || w == .enables

/-- A beat to a writable word is taken, not ignored (R155, R181). -/
def State.settingTaken (s : State) (word : StatusWord) : Bool :=
  s.life.phase == .running && (!s.status.hold || takenUnderHold word) && !(word == .mapWord && s.reloading)

/-- A taken beat hands its value to the word's owner (R181). -/
def State.applySetting (word : StatusWord) (w : Word) (s : State) : State :=
  match word with
  | .pre => s.writePre w
  | .epoch => s.writeSchedule w
  | .epochControl => s.writeEpochControl w
  | .causes => s.clearCauses w
  | .enables => s.writeEnables w
  | .mapWord => s.writeMapWord w
  | .unmappedRights => s.writeUnmapped w
  | .dInterval => s.writeD w
  | .holdTime => s.writeH w
  | .hold => s.writeHold w
  | .counterClear => s.clearCounters w
  | _ => s

/-- A beat to a writable status word: taken, or ignored (R181). -/
def State.writeStatus (word : StatusWord) (w : Word) (s : State) : State :=
  if s.settingTaken word then s.applySetting word w else s

/-- A status word as one taken or ignored beat at its offset; memory receives it as written (R181). -/
def State.settingBeat (word : StatusWord) (offset : Nat) (w : Word) (s : State) : State :=
  s.controlBeat offset (fullBeat w) fun t => t.writeStatus word w

/-! ### The rows -/

/-- MAP_WORD_WRITE (R155). -/
def execMapWordWrite (w : Word) (s : State) : Host.Outcome State Fault Refusal :=
  .next (s.settingBeat .mapWord 0x050 w)

/-- PRE_WRITE (R116). -/
def execPreWrite (w : Word) (s : State) : Host.Outcome State Fault Refusal := .next (s.settingBeat .pre 0x018 w)

/-- EPOCH_SCHEDULE_WRITE (R125). -/
def execEpochScheduleWrite (w : Word) (s : State) : Host.Outcome State Fault Refusal :=
  .next (s.settingBeat .epoch 0x030 w)

/-- SWITCH_NOW (R128). -/
def execSwitchNow (s : State) : Host.Outcome State Fault Refusal := .next (s.settingBeat .epochControl 0x038 1#64)

/-- CANCEL (R128). -/
def execCancel (s : State) : Host.Outcome State Fault Refusal := .next (s.settingBeat .epochControl 0x038 2#64)

/-- ATTENTION_CAUSES_WRITE (R186). -/
def execAttentionCausesWrite (w : Word) (s : State) : Host.Outcome State Fault Refusal :=
  .next (s.settingBeat .causes 0x040 w)

/-- ATTENTION_ENABLES_WRITE (R187). -/
def execAttentionEnablesWrite (w : Word) (s : State) : Host.Outcome State Fault Refusal :=
  .next (s.settingBeat .enables 0x048 w)

/-- UNMAPPED_RIGHTS_WRITE (R153). -/
def execUnmappedRightsWrite (w : Word) (s : State) : Host.Outcome State Fault Refusal :=
  .next (s.settingBeat .unmappedRights 0x058 w)

/-- DUPLICATE_INTERVAL_WRITE (R70). -/
def execDuplicateIntervalWrite (w : Word) (s : State) : Host.Outcome State Fault Refusal :=
  .next (s.settingBeat .dInterval 0x060 w)

/-- HOLD_TIME_WRITE (R70). -/
def execHoldTimeWrite (w : Word) (s : State) : Host.Outcome State Fault Refusal :=
  .next (s.settingBeat .holdTime 0x068 w)

/-- HOLD_SET (R191, R192). -/
def execHoldSet (upper : BitVec 63) (s : State) : Host.Outcome State Fault Refusal :=
  .next (s.settingBeat .hold 0x078 (upper ++ 1#1))

/-- HOLD_CLEAR (R191, R194). -/
def execHoldClear (upper : BitVec 63) (s : State) : Host.Outcome State Fault Refusal :=
  .next (s.settingBeat .hold 0x078 (upper ++ 0#1))

/-- COUNTER_CLEAR (R190). -/
def execCounterClear (w : Word) (s : State) : Host.Outcome State Fault Refusal :=
  .next (s.settingBeat .counterClear 0x0B0 w)

end Sys2Proof.Machine
end

