-- ==== Sys2Proof/Machine/Bus.lean ====
section
/-! DEFINITION. The steps of the two ports: accepting a request, taking a read or a write, and memory's responses
(chapter 7). -/

namespace Sys2Proof.Machine

/-- REQUEST_ACCEPT (R136): an address phase joins its initiator's queue while fewer than 8 requests are in it. -/
def execRequestAccept (r : Request) (s : State) : Host.Outcome State Fault Refusal :=
  if (s.queue r.initiator).length < Config.queueLimit then
    .next (s.setQueue r.initiator (s.queue r.initiator ++ [{ req := r, stage := .untaken }]))
  else .next s

/-! ### Reads -/

/-- A read that has passed the checks: held, or treated as a whole at once (R24, R119, R143). -/
def State.admitRead (i : Initiator) (r : Request) (s : State) : State :=
  let places := s.requestPlaces r
  let causes := s.holdCauses places
  if causes.isEmpty then
    let s1 := s.latchLt places
    let out := s1.finishRead r places
    { (s1.setQueue i (takeHead out.1 (s1.queue i))) with memOut := s1.memOut ++ out.2 }.giveResponses
  else
    let endsAt := s.time.lt + (s.holdLimitOf places).setWidth 64
    s.setQueue i (takeHead (.held endsAt places causes) (s.queue i))

/-- READ_TAKEN (R136, R141, R143): the read at the head of the untaken part is refused, held, answered or forwarded. -/
def execReadTaken (i : Initiator) (s : State) : Host.Outcome State Fault Refusal :=
  match s.nextRequest i with
  | none => .next s
  | some r =>
    if r.dir = .write then .next s
    else
      match s.refusalReason r [] with
      | some reason => .next (s.refuse i r reason)
      | none => .next (s.admitRead i r)

/-! ### Writes -/

/-- One beat of a write that has passed the checks acts in the part (R142): shadowed, captured or taken; a passed beat has no
effect in the part. -/
def State.applyBeat (i : Initiator) (p : Place) (b : WriteBeat) (s : State) : State :=
  match p with
  | .memory => s
  | .slot r word =>
    if isInboundWord word then s.shadowInbound r (Fin.ofNat 4 (word.val - 4)) b
    else if isPayloadWord word then s.shadowPayload r (Fin.ofNat 4 (word.val - 9)) b
    else if isCommandWord word then s.takeSlotCommand i r (slotCommandOf (byteOf b.data 0)) (b.data.extractLsb' 8 56)
    else s
  | .status word => s.writeStatus word b.data
  | .importArea word =>
    if word.val = 8 then s.takeImportCommand (byteOf b.data 0) (b.data.extractLsb' 8 56)
    else s.captureBlob word.val b

/-- The beats of a write act in ascending address order (R4, R142). -/
def State.applyBeats (i : Initiator) : List (Place × WriteBeat) → State → State
  | [], s => s
  | (p, b) :: rest, s => State.applyBeats i rest (s.applyBeat i p b)

/-- A write that has passed the checks: its beats act, and the whole burst is forwarded (R142). -/
def State.admitWrite (i : Initiator) (r : Request) (beats : List WriteBeat) (s : State) : State :=
  let beaten := (s.requestPlaces r).zip beats
  let s1 := State.applyBeats i beaten s
  let out := beaten.map fun pb => forwardedBeat pb.1 pb.2
  { (s1.setQueue i (takeHead (.forwarded [] false) (s1.queue i))) with memOut := s1.memOut ++ [.write r out] }

/-- WRITE_TAKEN (R136, R141, R142): the write at the head of the untaken part, whose data beats have all arrived, is
refused, or applied and forwarded; the beats come with the row (DESIGN CHOICE, log entry 15). -/
def execWriteTaken (i : Initiator) (beats : List WriteBeat) (s : State) : Host.Outcome State Fault Refusal :=
  match s.nextRequest i with
  | none => .next s
  | some r =>
    if r.dir = .read ∨ beats.length ≠ beatCount r then .next s
    else
      match s.refusalReason r beats with
      | some reason => .next (s.refuse i r reason)
      | none => .next (s.admitWrite i r beats)

/-! ### Memory's responses -/

/-- The entry at a place of an order queue moves to a stage. -/
def State.setStage (i : Initiator) (place : Nat) (st : Stage) (s : State) : State :=
  s.setQueue i ((s.queue i).modify place fun e => { e with stage := st })

/-- MEMORY_READ_RESPONSE (R143, R144): the beats of a forwarded read have all come back; answered words take the place of
memory's data, and the response is given in queue order (R137). -/
def execMemoryReadResponse (i : Initiator) (place : Fin 8) (beats : List ReadBeat) (s : State) :
    Host.Outcome State Fault Refusal :=
  match (s.queue i)[place.val]? with
  | some { req := r, stage := .forwarded answers _ } =>
    if r.dir = .write ∨ beats.length ≠ beatCount r then .next s
    else .next (s.setStage i place.val (.ready (.read (substitute answers beats)))).giveResponses
  | _ => .next s

/-- MEMORY_WRITE_RESPONSE (R142, R144): memory's response to a forwarded write is the initiator's, given in queue order
(R137). -/
def execMemoryWriteResponse (i : Initiator) (place : Fin 8) (resp : Resp) (s : State) :
    Host.Outcome State Fault Refusal :=
  match (s.queue i)[place.val]? with
  | some { req := r, stage := .forwarded _ _ } =>
    if r.dir = .read then .next s else .next (s.setStage i place.val (.ready (.write resp))).giveResponses
  | _ => .next s

end Sys2Proof.Machine
end

