-- ==== Sys2Proof/Machine/Passage.lean ====
section
/-! DEFINITION. The Passage Filter: classification of an authenticated reading (chapter 4). -/

namespace Sys2Proof.Machine

/-- What the engine presents to the filter (R73). -/
structure Reading where
  keySet : Byte
  tagId : Word
  counter : BitVec 24
  now : Word
  ref : ReadingRef
  deriving DecidableEq, Repr

/-- The class of a reading, with what a DUPLICATE returns (R80) and whether an ACCEPT evicted a current entry (R79). -/
inductive PassageClass where
  | accept (evictedCurrent : Bool)
  | duplicate (info : DuplicateInfo)
  | replay
  deriving DecidableEq, Repr

/-- The entry's key is the reading's (R69). -/
def sameKey (e : FilterEntry) (r : Reading) : Bool := e.keySet == r.keySet && e.tagId == r.tagId

/-- The elapsed time of an entry, on 64 bits (R73). -/
def elapsed (e : FilterEntry) (now : Word) : Word := now - e.lastTime

/-- The effective duplicate interval: the smaller of the stored D and H (R70). -/
def effectiveD (f : Filter) : Word := if f.d ≤ f.h then f.d else f.h

/-- The entry an ACCEPT writes (R77). -/
def acceptedEntry (r : Reading) : FilterEntry :=
  { keySet := r.keySet, tagId := r.tagId, lastCounter := r.counter, lastTime := r.now, first := r.ref,
    duplicates := 0#8 }

/-- A position of the filter. -/
def Filter.at (f : Filter) (i : Fin 256) : Option FilterEntry := f.positions[i]

/-- Writing an entry into a position. -/
def Filter.put (f : Filter) (i : Fin 256) (e : FilterEntry) : Filter :=
  { f with positions := f.positions.set i.val (some e) i.isLt }

/-- The position whose entry has the reading's key (R74). -/
def Filter.lookup (f : Filter) (r : Reading) : Option (Fin 256) :=
  (List.finRange 256).find? fun i => (f.at i).any fun e => sameKey e r

/-- The lowest-indexed position not in use (R78). -/
def Filter.lowestFree (f : Filter) : Option (Fin 256) := (List.finRange 256).find? fun i => (f.at i).isNone

/-- The elapsed time of a position; 0 for one not in use. -/
def Filter.age (f : Filter) (now : Word) (i : Fin 256) : Word := ((f.at i).map fun e => elapsed e now).getD 0#64

/-- The victim among positions: the greatest elapsed time, the lowest index among equals (R79). -/
def Filter.oldest (f : Filter) (now : Word) : Fin 256 :=
  (List.finRange 256).foldl (fun best i => if f.age now best < f.age now i then i else best) 0

/-- One more DUPLICATE, staying at 255 (R76). -/
def nextDuplicate (n : BitVec 8) : BitVec 8 := if n = 255#8 then 255#8 else n + 1#8

/-- Classification against a current entry at position `i` (R75 to R77). -/
def Filter.judge (f : Filter) (i : Fin 256) (e : FilterEntry) (r : Reading) : Filter × PassageClass :=
  let d := r.counter - e.lastCounter
  if d = 0#24 then
    if elapsed e r.now < effectiveD f then
      let n := nextDuplicate e.duplicates
      (f.put i { e with lastTime := r.now, duplicates := n }, .duplicate { first := e.first, ordinal := n })
    else (f, .replay)
  else if d ≤ 8388607#24 then (f.put i (acceptedEntry r), .accept false)
  else (f, .replay)

/-- Classification of a reading whose key has no entry: the lowest free position, or the victim's (R78, R79). -/
def Filter.newcomer (f : Filter) (r : Reading) : Filter × PassageClass :=
  match f.lowestFree with
  | some i => (f.put i (acceptedEntry r), .accept false)
  | none =>
    let v := f.oldest r.now
    (f.put v (acceptedEntry r), .accept (decide (f.age r.now v < f.h)))

/-- The consultation (R73, R74): the filter after it, and the class. -/
def Filter.classify (f : Filter) (r : Reading) : Filter × PassageClass :=
  match f.lookup r with
  | none => f.newcomer r
  | some i =>
    match f.at i with
    | none => f.newcomer r
    | some e => if elapsed e r.now < f.h then f.judge i e r else (f.put i (acceptedEntry r), .accept false)

end Sys2Proof.Machine
end

