-- ==== Sys2Proof/Machine/Jobs.lean ====
section
/-! DEFINITION. The Derivation Engine: taking a job, and the completion of VERIFY, SEAL, IMPORT and CHECK jobs
(chapter 2). -/

namespace Sys2Proof.Machine

/-! ### Delivery of slot results (R45, R46, R48) -/

/-- The result of a VERIFY job (R43, R44). -/
inductive VerifyResult where
  | authenticated
  | badMac
  | keyReason (reason : Reason)

/-- A context REJECTED with a reason, its job and derived key gone (R46). -/
def rejectCtx (reason : Reason) (c : SlotCtx) : SlotCtx :=
  { c with state := .rejected, jobKind := none, derivedKey := none, verdict := some .reject, reason := some reason }

/-- What the engine presents to the filter for a slot (R46, R73). -/
def readingOf (r : SlotRef) (generation : BitVec 8) (c : SlotCtx) (now : Word) : Reading :=
  { keySet := tagKeySet c, tagId := tagId c, counter := tagCounter c, now := now,
    ref := { slot := r, generation := generation, antenna := tagAntenna c } }

/-- The filter's class is delivered to the slot, and counted; for ACCEPT the slot keeps its derived tag key (R46, R86). -/
def State.deliverClass (r : SlotRef) (cls : PassageClass) (c : SlotCtx) (s : State) : State :=
  match cls with
  | .accept evicted =>
    let done : SlotCtx := { c with state := .verified, jobKind := none, verdict := some .accept }
    let s1 := (s.enterEnd r done).bump .accept 1
    if evicted then s1.bump .evictions 1 else s1
  | .duplicate info => (s.enterEnd r { rejectCtx .duplicate c with duplicate := some info }).bump .duplicate 1
  | .replay => (s.enterEnd r (rejectCtx .replay c)).bump .replay 1

/-- A VERIFY result is delivered to its slot (R46). -/
def State.deliverVerify (r : SlotRef) (generation : BitVec 8) (res : VerifyResult) (c : SlotCtx) (s : State) : State :=
  match res with
  | .authenticated =>
    let out := s.filter.classify (readingOf r generation c s.time.lt)
    { s with filter := out.1 }.deliverClass r out.2 c
  | .badMac => (s.enterEnd r (rejectCtx .badMac c)).bump .badMac 1
  | .keyReason reason => (s.enterEnd r (rejectCtx reason c)).bump .key 1

/-- A SEAL result is delivered to its slot: FAULTED without a record key, SEALED with the MAC and the seal otherwise
(R48). -/
def State.deliverSeal (r : SlotRef) (recordKey : Option Block) (c : SlotCtx) (s : State) : State :=
  match recordKey with
  | none => s.enterEnd r (faultCtx .noRecordKey c)
  | some k =>
    let done : SlotCtx :=
      { c with
        state := .sealed, jobKind := none, derivedKey := none,
        mac := some (tagWriteMac (s.groupOf r).macLength (c.derivedKey.getD 0#128) c),
        recordSeal := some (recordSealOf k c) }
    s.enterEnd r done

/-- The engine becomes IDLE, its working values cleared (R37, R45). -/
def State.idleEngine (s : State) : State := { s with engine := { s.engine with job := none } }

/-- The completion of a slot job: the checks of R45 in their order, then delivery. -/
def State.completeSlotJob (r : SlotRef) (discard : Bool) (deliver : SlotCtx → State → State) (s : State) : State :=
  let s1 := s.idleEngine
  if discard then s1
  else
    match s1.ctx? r with
    | none => s1
    | some c =>
      if c.state = .aborting then (s1.setCtx r (clearCtx c)).settleHolds
      else if c.state = .busy then
        if c.withdrawn then (s1.enterEnd r (faultCtx .keyWithdrawn c)).settleHolds
        else (deliver c s1).settleHolds
      else s1

/-! ### Taking a job (R40 to R43, R47) -/

/-- The VERIFY job's lookup: the entry and its key, or a reason (R43). -/
def State.lookupTag (s : State) (c : SlotCtx) : Sum Reason (Fin 64) :=
  match s.findEntry .tag (tagKeySet c) ((tagVersion c).setWidth 8) with
  | none => .inl .keyAbsent
  | some k =>
    match (s.entry k).state with
    | .empty => .inl .keyAbsent
    | .revoked => .inl .keyRevoked
    | .damaged => .inl .keyDamaged
    | .loaded => if usableAt (s.entry k) s.time.epoch then .inr k else .inl .keyOutOfEpoch

/-- Entry `k` is a RECORD key of the key set usable at the active epoch (R47). -/
def State.recordCandidate (s : State) (keySet : Byte) (k : Fin 64) : Bool :=
  (s.entry k).usage == .record && (s.entry k).keySet.setWidth 8 == keySet && usableAt (s.entry k) s.time.epoch

/-- The SEAL job's selection: of the candidates, the one with the highest version (R47). -/
def State.selectRecord (s : State) (keySet : Byte) : Option (Fin 64) :=
  ((List.finRange 64).filter (s.recordCandidate keySet)).foldl
    (fun best k =>
      match best with
      | none => some k
      | some b => if (s.entry b).version < (s.entry k).version then some k else best) none

/-- The engine works a job (R37). -/
def State.startJob (w : Work) (s : State) : State :=
  { s with engine := { s.engine with job := some { work := w, discard := false } } }

/-- The slot at the head leaves the FIFO, and a waiting import job's wait count goes up (R39, R40, R41). -/
def State.popFifo (rest : List SlotRef) (s : State) : State :=
  let count := if s.engine.importPlace.isSome then s.engine.waitCount + 1 else s.engine.waitCount
  { s with engine := { s.engine with fifo := rest, waitCount := count } }

/-- The context of a slot whose VERIFY job found entry `k` and derived its tag key: the job writes the key into it (R5, R43,
R44). The derivation is the job's first block operation and has no row of its own (DEDUCED, log entry 16). -/
def derivedCtx (k : Fin 64) (tagKey : Block) (c : SlotCtx) : SlotCtx :=
  { c with state := .busy, tagEntry := some k, derivedKey := some tagKey }

/-- The engine takes a slot job: the slot becomes BUSY, and the job looks up its tag key and derives it, or selects its
record key. A job with no block operation completes at once (R41, R43, R44, R47, R55). -/
def State.takeSlotJob (r : SlotRef) (rest : List SlotRef) (s : State) : State :=
  match s.ctx? r with
  | none => s
  | some c =>
    let busy : SlotCtx := { c with state := .busy }
    let s1 := s.popFifo rest
    match c.jobKind with
    | none => s
    | some .verify =>
      match s.lookupTag c with
      | .inl reason =>
        (s1.setCtx r busy).completeSlotJob r false fun c' t => t.deliverVerify r c.generation (.keyReason reason) c'
      | .inr k =>
        let tagKey := deriveTagKey ((s.entry k).key.getD 0#128) c
        (s1.setCtx r (derivedCtx k tagKey c)).startJob (.verify r c.generation s.time.epoch tagKey)
    | some .sealing =>
      match s.selectRecord (tagKeySet c) with
      | none => (s1.setCtx r busy).completeSlotJob r false fun c' t => t.deliverSeal r none c'
      | some k =>
        (s1.setCtx r { busy with recordEntry := some k }).startJob
          (.sealing r c.generation s.time.epoch ((s.entry k).key.getD 0#128))

/-- The engine takes the import job: the waiting place empties, the wait count returns to 0, and the import state becomes
WORKING (R42). -/
def State.takeImportJob (kind : ImportKind) (s : State) : State :=
  let h := importHeader s.keys
  let transport : Option Block :=
    match kind with
    | .loadPlain => none
    | .load => (s.findEntry .transport 0#8 (headerTransportVersion h)).bind fun k => (s.entry k).key
  let s1 : State :=
    { s with
      engine := { s.engine with importPlace := none, waitCount := 0 }
      keys := { s.keys with importState := .working } }
  s1.startJob (.importing kind h (wrappedKey s.keys) (blobMac s.keys) transport)

/-- The arbiter (R40): the slot at the head of the FIFO, or the import job when the FIFO is empty or eight slot jobs have
gone before it. -/
def State.arbitrate (s : State) : State :=
  match s.engine.fifo, s.engine.importPlace with
  | [], none => s
  | [], some kind => s.takeImportJob kind
  | r :: rest, none => s.takeSlotJob r rest
  | r :: rest, some kind => if s.engine.waitCount < 8 then s.takeSlotJob r rest else s.takeImportJob kind

/-- ENGINE_TAKE_JOB (R40): the idle engine takes a job if one waits. -/
def execEngineTakeJob (s : State) : Host.Outcome State Fault Refusal :=
  match s.engine.job with
  | none => .next s.arbitrate
  | some _ => .next s

/-! ### Completions -/

/-- The result of a VERIFY job that proceeds: the comparison of the authenticators under the derived key (R44, R62). -/
def verifyResult (tagKey : Block) (c : SlotCtx) : VerifyResult :=
  if tagAuth tagKey c = tagAuthenticator c then .authenticated else .badMac

/-- VERIFY_COMPLETE (R44, R45, R46). The block operations have no rows: what the second and third give is computed here
(DEDUCED, log entry 16). -/
def execVerifyComplete (s : State) : Host.Outcome State Fault Refusal :=
  match s.engine.job with
  | some { work := .verify r generation _ tagKey, discard := discard } =>
    .next (s.completeSlotJob r discard fun c t => t.deliverVerify r generation (verifyResult tagKey c) c)
  | _ => .next s

/-- SEAL_COMPLETE (R45, R48). -/
def execSealComplete (s : State) : Host.Outcome State Fault Refusal :=
  match s.engine.job with
  | some { work := .sealing r _ _ recordKey, discard := discard } =>
    .next (s.completeSlotJob r discard fun c t => t.deliverSeal r (some recordKey) c)
  | _ => .next s

/-- The result of an IMPORT job: BAD_BLOB, CHECK_MISMATCH, or the key with its check value (R52). -/
def importJobResult (kind : ImportKind) (h w : Block) (mac : Word) (transport : Option Block) :
    Sum ImportCode (Block × BitVec 24) :=
  let kt := transport.getD 0#128
  let key := match kind with
    | .load => unwrapKey kt h w
    | .loadPlain => w
  if kind = .load ∧ blobMacOf kt h w ≠ mac then .inl .badBlob
  else if checkValue key ≠ headerCheck h then .inl .checkMismatch
  else .inr (key, checkValue key)

/-- The Key Store takes the result of an IMPORT job: the command ends, or the admin request for the lowest-indexed EMPTY
entry is placed (R53, R104). -/
def State.handOver (kind : ImportKind) (h : Block) (res : Sum ImportCode (Block × BitVec 24)) (s : State) : State :=
  match res with
  | .inl code => s.endImport code 0 0#24
  | .inr (key, check) =>
    match s.lowestEmpty with
    | none => s
    | some i =>
      { s with keys := { s.keys with importState := .nvWriting } }.nvRequest
        (.admin (.program i (entryOfHeader h key check) (kind == ImportKind.loadPlain)))

/-- IMPORT_COMPLETE (R49, R52, R53, R104). -/
def execImportComplete (s : State) : Host.Outcome State Fault Refusal :=
  match s.engine.job with
  | some { work := .importing kind h w mac transport, discard := discard } =>
    if discard then .next s.idleEngine
    else .next (s.idleEngine.handOver kind h (importJobResult kind h w mac transport))
  | _ => .next s

/-- What a CHECK job makes of its entry: LOADED or REVOKED with a differing check value becomes DAMAGED (R54). -/
def checkedEntry (e : DirEntry) (key : Option Block) : DirEntry :=
  match e.state with
  | .loaded => if checkValue (key.getD 0#128) = e.check then e else { e with state := .damaged }
  | .revoked => if checkValue (key.getD 0#128) = e.check then e else { e with state := .damaged }
  | _ => e

/-- CHECK_COMPLETE (R54, R169): the next CHECK job starts, or KEY_CHECK ends. -/
def execCheckComplete (s : State) : Host.Outcome State Fault Refusal :=
  match s.engine.job with
  | some { work := .checking i key, discard := _ } =>
    .next ((s.idleEngine.setEntry i (checkedEntry (s.entry i) key)).continueCheck (i.val + 1))
  | _ => .next s

end Sys2Proof.Machine
end

