-- ==== Sys2Proof/Machine/Life.lean ====
section
/-! DEFINITION. The Life-cycle Unit: power-on reset, the release of RESET_N, and the tamper sampler (chapter 9). -/

namespace Sys2Proof.Machine

/-- POWER_ON_RESET (R166): every state takes its power-on value; the NV array keeps what it holds (R89), and the straps are
sampled (R149). The model's own count of free values and the queue of commands go on (DESIGN CHOICE, log entry 12). -/
def execPowerOnReset (straps : BitVec 2) (s : State) : Host.Outcome State Fault Refusal :=
  .next { State.powerOn s.nv straps with freeCount := s.freeCount, pending := s.pending }

/-- RESET_N_RELEASE (R115, R173): the prescale count starts from 0, LT begins to count, the tamper sampler begins to
sample (what waits for this row: DEDUCED, log entry 18). -/
def execResetNRelease (s : State) : Host.Outcome State Fault Refusal :=
  if s.life.resetAsserted then
    .next { s with life := { s.life with resetAsserted := false }, time := { s.time with prescale := 0#8 } }
  else .next s

/-- A tamper event (R174): recorded; deferred during NV_READ; in FIELD it starts a zeroization. -/
def State.tamperEvent (s : State) : State :=
  let s1 := { s with life := { s.life with tamperSeen := true } }.raise .tamper
  if s.life.phase = .nvRead then { s1 with life := { s1.life with deferred := true } }
  else if s.life.cycle = .field then s1.startZeroization
  else s1

/-- The tamper sampler's count and armed flag. -/
def State.setSampler (count : BitVec 4) (armed : Bool) (s : State) : State :=
  { s with life := { s.life with tamperCount := count, armed := armed } }

/-- TAMPER_SAMPLE (R173): the sampler samples from the release of RESET_N. A count above 7, which no run reaches, acts as 7
(log entry 28). -/
def execTamperSample (asserted : Bool) (s : State) : Host.Outcome State Fault Refusal :=
  if s.life.resetAsserted then .next s
  else
    match asserted, s.life.armed with
    | true, true =>
      if 7#4 ≤ s.life.tamperCount then .next (s.setSampler 0#4 false).tamperEvent
      else .next (s.setSampler (s.life.tamperCount + 1#4) true)
    | true, false => .next s
    | false, _ => .next (s.setSampler 0#4 true)

end Sys2Proof.Machine
end

