-- ==== Sys2Proof/Machine/Nv.lean ====
section
/-! DEFINITION. The end of an operation of the NV writer, the NV zeroize, and the start-up phase NV_READ (sections 5.2, 5.3,
9.2 and 9.4). -/

namespace Sys2Proof.Machine

/-! ### The NV array -/

/-- Entry record `i` of the NV array. -/
def State.record (s : State) (i : Fin 64) : NvRecord := s.nv.records[i]

/-- Writing entry record `i` as a whole (R89). -/
def State.setRecord (i : Fin 64) (r : NvRecord) (s : State) : State :=
  { s with nv := { s.nv with records := s.nv.records.set i.val r i.isLt } }

/-- Writing the NV life-cycle word. -/
def State.setLifeWord (l : LifeCycle) (s : State) : State := { s with nv := { s.nv with lifeWord := lifeCode l } }

/-- An entry program or erase whose verify failed leaves record `i` DAMAGED, its key bytes a free value (R89; log
entry 8). -/
def State.damageRecord (i : Fin 64) (fields : NvRecord) (s : State) : State :=
  { s.setRecord i { fields with state := entryStateCode .damaged, key := Config.freeKey s.freeCount } with
    freeCount := s.freeCount + 1 }

/-- A DAMAGED entry with the fields of another and no key (R93, R106). -/
def damagedWithoutKey (e : DirEntry) : DirEntry := { e with state := .damaged, key := none }

/-! ### Operations of the three kinds (R92, R93, R94) -/

/-- The effect in NV of an admin operation that ends with its verify passing or failing (R89, R92). -/
def State.adminInNv (op : AdminOp) (passed : Bool) (s : State) : State :=
  match op with
  | .program i e _ => if passed then s.setRecord i (recordOfEntry e) else s.damageRecord i (recordOfEntry e)
  | .personalize _ _ => if passed then s.setLifeWord .personalized else s
  | .markRevoked i =>
    let st : EntryState := if passed then .revoked else .damaged
    s.setRecord i { s.record i with state := entryStateCode st }
  | .eraseEntry i _ => if passed then s.setRecord i NvRecord.erased else s.damageRecord i (s.record i)
  | .writeReader v => if passed then { s with nv := { s.nv with reader := v } } else s
  | .lockField => if passed then s.setLifeWord .field else s

/-- The outcome of an admin operation delivered to the Key Store and the Life-cycle Unit: the entry, the life cycle or the
reader number, and the end of the command (R92, R93, R104 to R106, R109, R110; the check value 0 that a failed erase
reports is DEDUCED, log entry 22). -/
def State.deliverAdmin (op : AdminOp) (passed : Bool) (s : State) : State :=
  match op, passed with
  | .program i e false, true => (s.setEntry i e).endImport .ok i e.check
  | .program i e true, true => s.setEntry i e
  | .program i e _, false => (s.setEntry i (damagedWithoutKey e)).endImport .nvFault i 0#24
  | .personalize i check, true =>
    { s with life := { s.life with cycle := .personalized } }.endImport .ok i check
  | .personalize i check, false => s.endImport .nvFault i check
  | .markRevoked i, true => s.endImport .ok i (s.entry i).check
  | .markRevoked i, false => (s.setEntry i { s.entry i with state := .damaged }).endImport .nvFault i (s.entry i).check
  | .eraseEntry i kept, true => s.endImport .ok i kept.check
  | .eraseEntry i kept, false => (s.setEntry i (damagedWithoutKey kept)).endImport .nvFault i 0#24
  | .writeReader v, true => { s with life := { s.life with reader := v } }.endImport .ok 0 0#24
  | .writeReader _, false => s.endImport .nvFault 0 0#24
  | .lockField, true => { s with life := { s.life with cycle := .field } }.endImport .ok 0 0#24
  | .lockField, false => s.endImport .nvFault 0 0#24

/-- The operation that follows within the same admin request: the life-cycle word of a LOAD_PLAIN whose entry program
passed (R92, R104). -/
def followUp (op : AdminOp) (passed : Bool) : Option AdminOp :=
  match op, passed with
  | .program i e true, true => some (.personalize i e.check)
  | _, _ => none

/-- An admin operation ends. Once a zeroization has started its outcome is disregarded, though the write in NV is made
(R94, R175; that NV_FAULT is raised all the same is DEDUCED, log entry 22). -/
def State.endAdmin (op : AdminOp) (passed : Bool) (s : State) : State :=
  let s1 := s.adminInNv op passed
  if s.zeroing then s1.nvNext
  else
    match followUp op passed with
    | some next =>
      let s2 := s1.deliverAdmin op passed
      { s2 with writer := { s2.writer with running := some (.request (.admin next)) } }
    | none => (s1.deliverAdmin op passed).nvNext

/-- An epoch record ends (R92, R93, R130). -/
def State.endEpochRecord (value : BitVec 16) (passed : Bool) (s : State) : State :=
  (if passed then { s with nv := { s.nv with epoch := value } } else s).nvNext

/-- A reservation ends: the pending flag clears, and a success raises the ceiling (R35). -/
def State.endReservation (value : Nat) (passed : Bool) (s : State) : State :=
  let s1 : State :=
    if passed then
      { s with nv := { s.nv with highWater := value }, slots := { s.slots with ceiling := value } }
    else s
  ({ s1 with slots := { s1.slots with reservationPending := false } }.raiseLow s.challengeLow).nvNext

/-- The program of RESERVE ends, and the phase with it (R170); an NV zeroize that waits starts (R172). -/
def State.endReserveProgram (value : Nat) (passed : Bool) (s : State) : State :=
  let s1 : State :=
    if passed then
      { s with nv := { s.nv with highWater := value }, slots := { s.slots with ceiling := value } }
    else s
  s1.nvNext.endReserve

/-! ### NV_READ (R167, R168) -/

/-- The entry of record `i` repeats the triple of a lower-indexed entry placed non-EMPTY (R167). -/
def State.repeatsTriple (s : State) (i : Fin 64) : Bool :=
  let e := entryOfRecord (s.record i)
  e.state != .empty && e.usage != .none &&
    (List.finRange 64).any fun j =>
      decide (j < i) && hasTriple (entryOfRecord (s.record j)) e.usage (e.keySet.setWidth 8) (e.version.setWidth 8)

/-- A DAMAGED entry with usage none, key set 0, version 0 and no key, as NV_READ places it for a repeated triple (R167). -/
def damagedNameless (e : DirEntry) : DirEntry :=
  { e with state := .damaged, usage := .none, keySet := 0#5, version := 0#4, key := none }

/-- The entry that NV_READ places at index `i` (R167). -/
def State.readEntry (s : State) (i : Fin 64) : DirEntry :=
  if s.repeatsTriple i then damagedNameless (entryOfRecord (s.record i)) else entryOfRecord (s.record i)

/-- NV_READ ends: a deferred tamper is judged against the life cycle just formed, and KEY_CHECK begins (R167, R174). -/
def State.leaveNvRead (s : State) : State :=
  let s1 : State := { s with life := { s.life with phase := .keyCheck, deferred := false } }
  if s.life.deferred && s.life.cycle == .field then s1.startZeroization else s1.continueCheck 0

/-- The Life-cycle Unit takes the reader number and a life cycle, and the Time Unit the active epoch, from NV (R167). -/
def State.takeFromNv (l : LifeCycle) (s : State) : State :=
  { s with
    life := { s.life with cycle := l, reader := s.nv.reader }
    time := { s.time with epoch := s.nv.epoch } }

/-- NV_READ_END (R167): the reads of NV_READ are complete. A life-cycle word ZEROIZED starts the NV zeroize, and the phase
goes on (R168). -/
def execNvReadEnd (s : State) : Host.Outcome State Fault Refusal :=
  if s.life.phase ≠ .nvRead ∨ s.writer.running.isSome then .next s
  else if lifeOfWord s.nv.lifeWord = .zeroized then
    .next { s with writer := { s.writer with running := some (.nvZeroize 0), attemptsFailed := 0#8 } }
  else
    let s1 := s.takeFromNv (lifeOfWord s.nv.lifeWord)
    .next { s1 with keys := { s1.keys with dir := Vector.ofFn s.readEntry } }.leaveNvRead

/-- The life-cycle word BLANK that ends an interrupted zeroization: repeated until it succeeds (R168; what the volatile life
cycle shows meanwhile is DEDUCED, log entry 19). -/
def State.endBlankWord (passed : Bool) (s : State) : State :=
  if passed then
    let s1 := ((s.setLifeWord .blank).takeFromNv .blank).raise .zeroized
    { s1 with writer := { s1.writer with running := none } }.leaveNvRead
  else s

/-! ### The rows -/

/-- NV_FAULT is raised by an operation that ends with its verify failing (R93). -/
def State.noteVerify (passed : Bool) (s : State) : State :=
  { s with status := if passed then s.status else (s.raise .nvFault).status }

/-- NV_OPERATION_END (R92, R93, R168, R170): the running operation, other than an NV zeroize, ends. -/
def execNvOperationEnd (passed : Bool) (s : State) : Host.Outcome State Fault Refusal :=
  match s.writer.running with
  | some (.request (.admin op)) => .next ((s.noteVerify passed).endAdmin op passed)
  | some (.request (.epochRecord v)) => .next ((s.noteVerify passed).endEpochRecord v passed)
  | some (.request (.reservation v)) => .next ((s.noteVerify passed).endReservation v passed)
  | some (.reserve v) => .next ((s.noteVerify passed).endReserveProgram v passed)
  | some .blankWord => .next ((s.noteVerify passed).endBlankWord passed)
  | some (.nvZeroize _) => .next s
  | none => .next s

/-- What a passed stage of the NV zeroize writes: the life-cycle word, the 64 entry records, or the epoch record (R176). -/
def zeroizeStage (stage : Nat) (nv : NvArray) : NvArray :=
  match stage with
  | 0 => { nv with lifeWord := lifeCode .zeroized }
  | 1 => { nv with records := Vector.replicate 64 NvRecord.erased }
  | _ => { nv with epoch := 0#16 }

/-- NV_ZEROIZE_STAGE_END (R176): the stage under way ends with its verify passing, and its records change as a whole. -/
def execNvZeroizeStageEnd (s : State) : Host.Outcome State Fault Refusal :=
  match s.writer.running with
  | some (.nvZeroize n) =>
    if n = 3 then .next s
    else .next { s with nv := zeroizeStage n.val s.nv, writer := { s.writer with running := some (.nvZeroize (n + 1)) } }
  | _ => .next s

/-- The NV zeroize has passed all three stages (R176): ZEROIZED, active epoch 0, no schedule. -/
def State.completeZeroize (s : State) : State :=
  { s.nvNext with
    life := { s.life with cycle := .zeroized }
    time := { s.time with epoch := 0#16, schedule := none } }.raise .zeroized

/-- What a stage of the NV zeroize leaves when its verify fails. Stage 1 has written the life-cycle word ZEROIZED all the
same: power lost in a repeated attempt finds it so (R178). What a failed stage 2 or 3 leaves in its records no rule states:
free values (log entry 20). -/
def failedStage (stage draw : Nat) (nv : NvArray) : NvArray :=
  match stage with
  | 0 => zeroizeStage 0 nv
  | 1 => { nv with records := Vector.ofFn fun i => NvRecord.ofBits (Config.freeRecord draw i.val) }
  | _ => { nv with epoch := Config.freeEpoch draw }

/-- The writer after an attempt of the NV zeroize failed: one more failed attempt, stage 1 again (R176, R184). -/
def restartZeroize (w : NvWriter) : NvWriter :=
  { w with
    running := some (.nvZeroize 0)
    attemptsFailed := if w.attemptsFailed = 255#8 then 255#8 else w.attemptsFailed + 1#8 }

/-- NV_ZEROIZE_ATTEMPT_END (R176, R178). A failed verify ends the attempt in any stage and starts it again; an attempt that
passes completes the operation, its records standing as the three stages leave them. In NV_READ the life-cycle word BLANK
is written next (R168). Where an attempt's rows come in another order: DESIGN CHOICE, log entry 20. -/
def execNvZeroizeAttemptEnd (passed : Bool) (s : State) : Host.Outcome State Fault Refusal :=
  match s.writer.running with
  | some (.nvZeroize n) =>
    if passed then
      let s1 : State := { s with nv := zeroizeStage 2 (zeroizeStage 1 (zeroizeStage 0 s.nv)) }
      if s.life.phase = .nvRead then .next { s1 with writer := { s1.writer with running := some .blankWord } }
      else .next s1.completeZeroize
    else if n = 3 then .next s
    else
      .next ({ s with
        nv := failedStage n.val s.freeCount s.nv
        writer := restartZeroize s.writer
        freeCount := s.freeCount + 1 }.raise .nvFault)
  | _ => .next s

end Sys2Proof.Machine
end

