-- ==== Sys2Proof/Machine/Windows.lean ====
section
/-! DEFINITION. The Window Map: reading the window table, validating it, and installing a map (chapter 8). -/

namespace Sys2Proof.Machine

/-! ### Validation (R156, R199) -/

/-- The bits spare under both kinds: word 0 bits 36 to 63 and word 1 bits 48 to 63 (R199). -/
def spareBoth (d : Descriptor) : Bool := d.word0.extractLsb' 36 28 == 0#28 && d.word1.extractLsb' 48 16 == 0#16

/-- Every bit spare under the descriptor's kind is zero; for an invalid kind only the bits spare under both (R199). -/
def spareZero (d : Descriptor) : Bool :=
  spareBoth d &&
    (if d.kind = 1#2 then d.word0.extractLsb' 12 4 == 0#4 && d.word1.extractLsb' 16 32 == 0#32
     else if d.kind = 2#2 then d.word1.extractLsb' 6 2 == 0#2 && d.word1.extractLsb' 12 4 == 0#4
     else true)

/-- The SLOTS fields hold legal values (check 3 of R156). -/
def slotsFieldsGood (d : Descriptor) : Bool :=
  decide (1 ≤ d.slotCount) && decide (d.slotCount ≤ 32) && d.budget != 0#16 && decide (d.holdLimit ≤ 4095#16) &&
    (d.macLength == 4 || d.macLength == 8)

/-- The window of a present descriptor for validation: a SLOTS window is its whole page (R152). -/
def windowRange (d : Descriptor) : Nat × Nat :=
  if d.kind = 2#2 then (d.base * 4096, d.base * 4096 + 4096) else (d.base * 4096, (d.base + d.size) * 4096)

/-- Two ranges share a byte. -/
def rangesMeet (x y : Nat × Nat) : Bool := decide (x.1 < y.2) && decide (y.1 < x.2)

/-- The first check of R156 that a present descriptor fails, given the present descriptors of lower index. -/
def descriptorFault (base : Nat) (lower : List Descriptor) (d : Descriptor) : Option MapFault :=
  if !spareZero d then some .spareBits
  else if d.kind ≠ 1#2 ∧ d.kind ≠ 2#2 then some .badKind
  else if d.kind = 2#2 ∧ slotsFieldsGood d = false then some .badField
  else if d.kind = 1#2 ∧ 1048576 < d.base + d.size then some .outOfSpace
  else if rangesMeet (windowRange d) (base, base + 4096) then some .controlOverlap
  else if lower.any fun e => rangesMeet (windowRange d) (windowRange e) then some .overlap
  else if d.kind = 2#2 ∧
      Config.slotLimit < d.slotCount + ((lower.filter Descriptor.isSlots).map Descriptor.slotCount).sum then
    some .tooManySlots
  else none

/-- Validation in ascending index order: the first fault and its index (R156). -/
def validateFrom (base : Nat) (lower : List Descriptor) : Nat → List Descriptor → Option (MapFault × Nat)
  | _, [] => none
  | n, d :: rest =>
    if d.present then
      match descriptorFault base lower d with
      | some f => some (f, n)
      | none => validateFrom base (lower ++ [d]) (n + 1) rest
    else validateFrom base lower (n + 1) rest

/-- Memory returned SLVERR or DECERR on a beat. -/
def beatError (b : ReadBeat) : Bool := b.resp == .slverr || b.resp == .decerr

/-- The descriptors of a burst of beats, two beats to a descriptor (R156). -/
def descriptorsOf : List ReadBeat → List Descriptor
  | b0 :: b1 :: rest => { word0 := b0.data, word1 := b1.data } :: descriptorsOf rest
  | _ => []

/-! ### Installation and fault (R157, R158, R159) -/

/-- A slot group of the loaded map is kept by the new table: present SLOTS, equal in all 16 bytes (R159). -/
def groupKept (old new : Vector Descriptor 16) (g : Fin 16) : Bool := old[g].isSlots && old[g] == new[g]

/-- The contexts after an installation: those of kept groups, and fresh ones for the groups created (R28, R159). -/
def installContexts (s : State) (new : Vector Descriptor 16) : List (SlotRef × SlotCtx) :=
  (List.finRange 16).flatMap fun g =>
    if groupKept s.map.table new g then s.slots.contexts.filter fun p => p.1.group == g
    else if new[g].isSlots then
      ((List.finRange 32).filter fun i => decide (i.val < new[g].slotCount)).map fun i =>
        ({ group := g, index := i }, SlotCtx.fresh)
    else []

/-- The slot that a job in work is for, if it is a slot job. -/
def jobSlot (j : Job) : Option SlotRef :=
  match j.work with
  | .verify r _ _ _ => some r
  | .sealing r _ _ _ => some r
  | _ => none

/-- The discard flag of a job in work for a slot of a dropped group is set (R51). -/
def discardDropped (kept : Fin 16 → Bool) (j : Job) : Job :=
  match jobSlot j with
  | some r => if kept r.group then j else { j with discard := true }
  | none => j

/-- The engine after an installation: FIFO entries of dropped groups leave, a job in work for one is discarded (R51). -/
def installEngine (e : Engine) (kept : Fin 16 → Bool) : Engine :=
  { e with fifo := e.fifo.filter fun r => kept r.group, job := e.job.map (discardDropped kept) }

/-- The load has ended: the start-up load ends MAP_LOAD, and RUNNING begins (R161, R171). -/
def State.endLoad (s : State) : State :=
  { s with life := { s.life with phase := if s.life.phase = .mapLoad then .running else s.life.phase } }

/-- Held reads of dropped groups: no slot of theirs holds them any more (R28, R143). -/
def dropEntry (kept : Fin 16 → Bool) (e : QueueEntry) : QueueEntry :=
  match e.stage with
  | .held endsAt places waits => { e with stage := .held endsAt places (waits.filter fun w => kept w.1.group) }
  | _ => e

/-- A validated map is installed (R158, R159). -/
def State.installMap (new : Vector Descriptor 16) (s : State) : State :=
  let kept := groupKept s.map.table new
  let s1 : State :=
    { s with
      map := { s.map with
        table := new, installed := s.map.requested, state := .loaded, fault := .none, faultIndex := 0, load := none }
      slots := { s.slots with contexts := installContexts s new }
      engine := installEngine s.engine kept
      path := { s.path with queues := Vector.ofFn fun i => (s.queue i).map (dropEntry kept) } }
  ((s1.raise .mapLoaded).settleHolds).endLoad

/-- A load of the table ends with a fault: nothing is installed (R157, R161). -/
def State.faultMap (f : MapFault) (index : Nat) (s : State) : State :=
  ({ s with map :=
      { s.map with state := .fault, fault := f, faultIndex := Fin.ofNat 16 index, load := none } }.raise
    .mapFault).endLoad

/-- The table as read, judged: the map is installed, or the load ends with a fault (R156). -/
def State.judgeTable (beats : List ReadBeat) (s : State) : State :=
  let ds := descriptorsOf beats
  match validateFrom s.base [] 0 ds with
  | some (f, n) => s.faultMap f n
  | none => s.installMap (Vector.ofFn fun i : Fin 16 => ds.getD i.val { word0 := 0#64, word1 := 0#64 })

/-! ### The rows -/

/-- The address of burst `n` of the table read (R146). -/
def State.tableAddr (s : State) (n : Nat) : Nat := s.base + 0x200 + 128 * n

/-- Every write forwarded before the load began has had its response (R146). -/
def State.drained (s : State) : Bool := !(List.finRange 4).any fun i => (s.queue i).any isAwaited

/-- MAP_TABLE_READ_START (R146): after the forwarded writes have drained, the first burst of the table read goes out. -/
def execMapTableReadStart (s : State) : Host.Outcome State Fault Refusal :=
  if s.map.load = some .draining ∧ s.drained = true then
    .next { s with map := { s.map with load := some .reading }, memOut := s.memOut ++ [.tableRead (s.tableAddr 0)] }
  else .next s

/-- MAP_TABLE_READ_END (R156): an error beat of a burst ends the load with READ_ERROR, and after an error in the first
burst no second one is issued; otherwise the 16 descriptors are judged as read (when the second burst goes out: DEDUCED,
log entry 25). -/
def execMapTableReadEnd (first second : List ReadBeat) (s : State) : Host.Outcome State Fault Refusal :=
  if s.map.load ≠ some .reading ∨ first.length ≠ 16 then .next s
  else
    match first.findIdx? beatError with
    | some k => .next (s.faultMap .readError (k / 2))
    | none =>
      if second.length ≠ 16 then .next s
      else
        let s1 : State := { s with memOut := s.memOut ++ [.tableRead (s.tableAddr 1)] }
        match second.findIdx? beatError with
        | some k => .next (s1.faultMap .readError (8 + k / 2))
        | none => .next (s1.judgeTable (first ++ second))

end Sys2Proof.Machine
end

