-- ==== Sys2Proof/Machine/Dispatch.lean ====
section
/-! DEFINITION. The dispatch of the commands: one arm for each constructor of `Instr`, in the table's order. -/

namespace Sys2Proof.Machine

def exec (i : Instr) (s : State) : Host.Outcome State Fault Refusal :=
  match i with
  | .powerOnReset straps => Sys2Proof.Machine.execPowerOnReset straps s
  | .tick => Sys2Proof.Machine.execTick s
  | .syncEdge => Sys2Proof.Machine.execSyncEdge s
  | .tamperSample asserted => Sys2Proof.Machine.execTamperSample asserted s
  | .deadlineReached slot => Sys2Proof.Machine.execDeadlineReached slot s
  | .readHoldLimit who => Sys2Proof.Machine.execReadHoldLimit who s
  | .requestAccept req => Sys2Proof.Machine.execRequestAccept req s
  | .readTaken who => Sys2Proof.Machine.execReadTaken who s
  | .writeTaken who beats => Sys2Proof.Machine.execWriteTaken who beats s
  | .memoryReadResponse who place beats => Sys2Proof.Machine.execMemoryReadResponse who place beats s
  | .memoryWriteResponse who place resp => Sys2Proof.Machine.execMemoryWriteResponse who place resp s
  | .inboundShadowWrite slot word beat => Sys2Proof.Machine.execInboundShadowWrite slot word beat s
  | .payloadShadowWrite slot word beat => Sys2Proof.Machine.execPayloadShadowWrite slot word beat s
  | .openSlot who slot cw upper => Sys2Proof.Machine.execOpen who slot cw upper s
  | .arm who slot cw upper => Sys2Proof.Machine.execArm who slot cw upper s
  | .sealSlot who slot cw upper => Sys2Proof.Machine.execSeal who slot cw upper s
  | .release who slot cw upper => Sys2Proof.Machine.execRelease who slot cw upper s
  | .abort who slot cw upper => Sys2Proof.Machine.execAbort who slot cw upper s
  | .engineTakeJob => Sys2Proof.Machine.execEngineTakeJob s
  | .verifyComplete => Sys2Proof.Machine.execVerifyComplete s
  | .sealComplete => Sys2Proof.Machine.execSealComplete s
  | .importComplete => Sys2Proof.Machine.execImportComplete s
  | .checkComplete => Sys2Proof.Machine.execCheckComplete s
  | .blobWrite word beat => Sys2Proof.Machine.execBlobWrite word beat s
  | .loadPlain upper => Sys2Proof.Machine.execLoadPlain upper s
  | .load upper => Sys2Proof.Machine.execLoad upper s
  | .revoke upper => Sys2Proof.Machine.execRevoke upper s
  | .erase upper => Sys2Proof.Machine.execErase upper s
  | .inquire upper => Sys2Proof.Machine.execInquire upper s
  | .setReader upper => Sys2Proof.Machine.execSetReader upper s
  | .fieldLock upper => Sys2Proof.Machine.execFieldLock upper s
  | .zeroize upper => Sys2Proof.Machine.execZeroize upper s
  | .nvOperationEnd passed => Sys2Proof.Machine.execNvOperationEnd passed s
  | .nvZeroizeAttemptEnd passed => Sys2Proof.Machine.execNvZeroizeAttemptEnd passed s
  | .nvReadEnd => Sys2Proof.Machine.execNvReadEnd s
  | .mapTableReadStart => Sys2Proof.Machine.execMapTableReadStart s
  | .mapTableReadEnd first second => Sys2Proof.Machine.execMapTableReadEnd first second s
  | .mapWordWrite data => Sys2Proof.Machine.execMapWordWrite data s
  | .preWrite data => Sys2Proof.Machine.execPreWrite data s
  | .epochScheduleWrite data => Sys2Proof.Machine.execEpochScheduleWrite data s
  | .switchNow => Sys2Proof.Machine.execSwitchNow s
  | .cancel => Sys2Proof.Machine.execCancel s
  | .attentionCausesWrite data => Sys2Proof.Machine.execAttentionCausesWrite data s
  | .attentionEnablesWrite data => Sys2Proof.Machine.execAttentionEnablesWrite data s
  | .unmappedRightsWrite data => Sys2Proof.Machine.execUnmappedRightsWrite data s
  | .duplicateIntervalWrite data => Sys2Proof.Machine.execDuplicateIntervalWrite data s
  | .holdTimeWrite data => Sys2Proof.Machine.execHoldTimeWrite data s
  | .holdSet upper => Sys2Proof.Machine.execHoldSet upper s
  | .holdClear upper => Sys2Proof.Machine.execHoldClear upper s
  | .counterClear data => Sys2Proof.Machine.execCounterClear data s
  | .resetNRelease => Sys2Proof.Machine.execResetNRelease s
  | .nvZeroizeStageEnd => Sys2Proof.Machine.execNvZeroizeStageEnd s

end Sys2Proof.Machine
end

