-- ==== Sys2Proof/Safety.lean ====
section
/-! DEFINITION. What a safe run of the part is: no command stops it, and the invariants that the spec's rules state of the
whole part hold after every step. Each clause cites the rule it comes from. -/

namespace Sys2Proof.Safety

open Sys2Proof.Machine

/-- A run never stops with a fault or a refusal, however long it goes on. -/
def NeverStops (s : State) : Prop := ∀ n, ∃ t, Sys2Proof.core.run n s = .next t

/-! ### Slots and the engine -/

/-- The states in which a slot may hold a derived tag key (R5). -/
def mayHoldKey (c : SlotCtx) : Bool :=
  c.state == .busy || c.state == .aborting || c.state == .verified ||
    (c.state == .queued && c.jobKind == some .sealing)

/-- The optional fields of a context are present exactly where the table of R5 says, and a FREE context is cleared. -/
def FieldsAsPresent (c : SlotCtx) : Prop :=
  c.jobKind.isSome = inJob c ∧
  c.challenge.isSome = (c.state != .free) ∧
  c.arrival.isSome = (c.state != .free) ∧
  c.deadline.isSome = (c.state != .free) ∧
  c.reason.isSome = (c.state == .rejected || c.state == .faulted) ∧
  c.duplicate.isSome = (c.reason == some .duplicate) ∧
  c.mac.isSome = (c.state == .sealed) ∧
  c.recordSeal.isSome = (c.state == .sealed) ∧
  (c.state = .free → c = clearCtx c)

/-- The verdict that goes with a state, and the derived key that a slot in work, or on its way to a seal, holds (R5,
R14, R46, R48, R198; that BUSY holds it from the taking on is DEDUCED, log entry 16). -/
def VerdictAsState (c : SlotCtx) : Prop :=
  (c.state = .verified ∨ c.state = .sealed ∨ c.jobKind = some .sealing → c.verdict = some .accept) ∧
  (c.state = .rejected → c.verdict = some .reject) ∧
  (c.jobKind = some .verify ∨ c.state = .open' ∨ c.state = .expired → c.verdict = none) ∧
  (c.state = .busy ∨ c.state = .aborting ∨ c.state = .verified ∨ c.jobKind = some .sealing →
    c.derivedKey.isSome = true)

/-- A context is in form: its fields, its derived key and its verdict go with its state, and the withdrawal mark is set
only from BUSY on (R5, R27). -/
def CtxInForm (c : SlotCtx) : Prop :=
  FieldsAsPresent c ∧ (c.derivedKey.isSome = true → mayHoldKey c = true) ∧ VerdictAsState c ∧
  (c.withdrawn = true → c.state = .busy ∨ c.state = .aborting ∨ c.state = .faulted)

/-- The slot and the kind of the slot job in work, if there is one whose result is not to be discarded (R37). -/
def liveJob (e : Engine) : Option (SlotRef × JobKind) :=
  match e.job with
  | some { work := .verify r _ _ _, discard := false } => some (r, .verify)
  | some { work := .sealing r _ _ _, discard := false } => some (r, .sealing)
  | _ => none

/-- The engine FIFO holds exactly the QUEUED slots, each once (R38). -/
def FifoExact (s : State) : Prop :=
  s.engine.fifo.Nodup ∧
  (∀ r ∈ s.engine.fifo, ∃ p ∈ s.slots.contexts, p.1 = r ∧ p.2.state = .queued) ∧
  (∀ p ∈ s.slots.contexts, p.2.state = .queued → p.1 ∈ s.engine.fifo)

/-- A BUSY or ABORTING slot is the one whose job, of its own kind, the engine works; a VERIFY job works with the derived
key that the slot holds, for the slot's own generation (R41, R44, R16). -/
def BusyInWork (s : State) : Prop :=
  ∀ p ∈ s.slots.contexts, p.2.state = .busy ∨ p.2.state = .aborting →
    ∃ kind, p.2.jobKind = some kind ∧ liveJob s.engine = some (p.1, kind) ∧
      ∀ g epoch tagKey discard, s.engine.job = some { work := .verify p.1 g epoch tagKey, discard := discard } →
        p.2.derivedKey = some tagKey ∧ p.2.generation = g

/-- One context to a slot (R5). -/
def OneContextEach (s : State) : Prop := (s.slots.contexts.map (·.1)).Nodup

/-- The Slot Unit and the engine agree. -/
def SlotsAndEngine (s : State) : Prop :=
  OneContextEach s ∧ (∀ p ∈ s.slots.contexts, CtxInForm p.2) ∧ FifoExact s ∧ BusyInWork s

/-! ### Start-up -/

/-- A job that start-up does not know: one for a slot or for an import (R166). -/
def isServiceJob (j : Job) : Bool :=
  match j.work with
  | .checking _ _ => false
  | _ => true

/-- Before RUNNING nothing of service exists (R40, R131, R166, R187, R191), and each start-up operation belongs to its
phase (R54, R161, R168, R170). -/
def StartUpOrder (s : State) : Prop :=
  (s.life.phase ≠ .running →
    s.slots.contexts = [] ∧ s.engine.fifo = [] ∧ s.engine.importPlace = none ∧ s.keys.importState = .idle ∧
    s.time.schedule = none ∧ s.status.hold = false ∧ s.status.enables = 0#26 ∧ s.writer.waiting = []) ∧
  (s.life.phase = .nvRead ∨ s.life.phase = .keyCheck ∨ s.life.phase = .reserve → s.map.load = none) ∧
  (∀ j, s.engine.job = some j → if isServiceJob j then s.life.phase = .running else s.life.phase = .keyCheck) ∧
  (∀ op, s.writer.running = some op →
    match op with
    | .request _ => s.life.phase = .running
    | .reserve _ => s.life.phase = .reserve
    | .blankWord => s.life.phase = .nvRead ∧ s.writer.zeroizeWaiting = false
    | .nvZeroize _ => (s.life.cycle = .zeroizing ∨ s.life.phase = .nvRead) ∧ s.writer.zeroizeWaiting = false) ∧
  (s.writer.zeroizeWaiting = true → s.life.cycle = .zeroizing ∧ s.writer.running.isSome = true) ∧
  (s.life.phase = .nvRead → s.zeroing = false)

/-! ### The challenge counter -/

/-- The least counter value that the part can issue from here on: the counter, and before RESERVE has set it the stored
high-water that it will take (R32). -/
def leastToIssue (s : State) : Nat :=
  if s.life.phase = .nvRead ∨ s.life.phase = .keyCheck then s.nv.highWater else s.slots.counter

/-- The counter value in a challenge: its low 48 bits (R12). -/
def challengeValue (ch : Word) : Nat := (ch.extractLsb' 0 48).toNat

/-- The requests that the NV writer holds: the running operation, where it is a request, and those waiting (R90). -/
def heldRequests (w : NvWriter) : List NvRequest :=
  (match w.running with
    | some (.request r) => [r]
    | _ => []) ++ w.waiting

/-- The ceilings asked for and not yet recorded: the running reservation and those waiting. -/
def askedCeilings (w : NvWriter) : List Nat :=
  (heldRequests w).filterMap fun r =>
    match r with
    | .reservation v => some v
    | _ => none

/-- Values are issued below a recorded high-water, and each live challenge was issued once (R32 to R36). -/
def ChallengesReserved (s : State) : Prop :=
  s.slots.counter ≤ s.slots.ceiling ∧ s.slots.ceiling ≤ s.nv.highWater ∧ s.nv.highWater ≤ Config.counterEnd ∧
  s.nv.highWater % 4096 = 0 ∧ s.slots.ceiling % 4096 = 0 ∧
  (s.life.phase = .reserve ∨ s.life.phase = .mapLoad ∨ s.life.phase = .running →
    s.slots.ceiling = s.nv.highWater) ∧
  (s.life.phase = .reserve → s.slots.counter = s.nv.highWater) ∧
  (∀ v, s.writer.running = some (.reserve v) → v % 4096 = 0 ∧ s.nv.highWater ≤ v ∧ v ≤ Config.counterEnd) ∧
  (askedCeilings s.writer).length ≤ 1 ∧
  (∀ v ∈ askedCeilings s.writer, v % 4096 = 0 ∧ s.nv.highWater ≤ v ∧ v ≤ Config.counterEnd) ∧
  (askedCeilings s.writer ≠ [] → s.slots.reservationPending = true ∨ s.zeroing = true) ∧
  (∀ p ∈ s.slots.contexts, ∀ ch, p.2.challenge = some ch → challengeValue ch < s.slots.counter) ∧
  (∀ p ∈ s.slots.contexts, ∀ q ∈ s.slots.contexts, ∀ ch,
    p.2.challenge = some ch → q.2.challenge = some ch → p.1 = q.1)

/-! ### Keys, hold and zeroization -/

/-- No slot, queue, filter position, directory entry or buffer holds anything of a transaction or of a key. -/
def NothingHeld (s : State) : Prop :=
  (∀ p ∈ s.slots.contexts, p.2 = clearCtx p.2) ∧
  s.engine.fifo = [] ∧ s.engine.importPlace = none ∧ s.engine.job = none ∧
  (∀ i, s.filter.at i = none) ∧
  (∀ i, s.entry i = DirEntry.emptied) ∧
  s.keys.buffer = Vector.replicate 5 0#64 ∧ s.keys.importState = .idle ∧ s.writer.waiting = []

/-- In ZEROIZING and ZEROIZED the part holds no key and no transaction (R30, R50, R84, R114, R175). -/
def ZeroizedClean (s : State) : Prop := s.zeroing = true → NothingHeld s

/-- While the hold is set: every slot FREE, nothing queued, the filter empty, and a job in work of no use (R193). -/
def HoldIsStill (s : State) : Prop :=
  s.status.hold = true →
    (∀ p ∈ s.slots.contexts, p.2 = clearCtx p.2) ∧ s.engine.fifo = [] ∧ s.engine.importPlace = none ∧
    (∀ i, s.filter.at i = none) ∧
    (∀ j, s.engine.job = some j → isServiceJob j = true → j.discard = true)

/-! ### The import state, the NV writer and the key directory -/

/-- The three kinds of request, in the order of their places in the NV writer state word: admin, epoch record, reservation
(R202). -/
def requestKindOf : NvRequest → Fin 3
  | .admin _ => 0
  | .epochRecord _ => 1
  | .reservation _ => 2

/-- The admin operations that the NV writer runs or keeps waiting. -/
def adminOps (w : NvWriter) : List AdminOp :=
  (heldRequests w).filterMap fun r =>
    match r with
    | .admin op => some op
    | _ => none

/-- The header of the import job in work, if there is one whose result is not to be discarded (R42, R49). -/
def liveImport (e : Engine) : Option Block :=
  match e.job with
  | some { work := .importing _ h _ _ _, discard := false } => some h
  | _ => none

/-- The waiting list holds at most one request of each kind, and the writer at most one admin request and one reservation,
running or waiting (R34, R90). The import state is QUEUED exactly while an import job waits, WORKING exactly while one is
in work, and NV_WRITING exactly while an admin request waits or runs, but for one whose outcome a zeroization has made void
(R94, R101, R114); an import job waits or works only where neither the hold nor a zeroization has ended it, and with an
entry EMPTY for its key (R49, R104, R113, R114). -/
def ImportAndWriter (s : State) : Prop :=
  (s.writer.waiting.map requestKindOf).Nodup ∧ (adminOps s.writer).length ≤ 1 ∧
  (askedCeilings s.writer).length ≤ 1 ∧
  (askedCeilings s.writer ≠ [] → s.slots.reservationPending = true ∨ s.zeroing = true) ∧
  (s.keys.importState = .queued ↔ s.engine.importPlace.isSome = true) ∧
  (s.keys.importState = .working ↔ (liveImport s.engine).isSome = true) ∧
  (s.keys.importState = .nvWriting ↔ adminOps s.writer ≠ [] ∧ s.zeroing = false) ∧
  (s.keys.importState = .queued ∨ s.keys.importState = .working →
    s.status.hold = false ∧ s.zeroing = false ∧ ∃ i, (s.entry i).state = .empty)

/-- While the NV zeroize runs, what its passed stages have written stands: the life-cycle word ZEROIZED from stage 1 on,
and in a repeated attempt from its start (R176, R178; log entry 20), the records EMPTY from stage 2 on, and the epoch 0
after stage 3. -/
def ZeroizeStagesStand (s : State) : Prop :=
  ∀ n : Fin 4, s.writer.running = some (.nvZeroize n) →
    (1 ≤ n.val ∨ s.writer.attemptsFailed ≠ 0#8 → s.nv.lifeWord = 4#8) ∧
    (2 ≤ n.val → s.nv.records = Vector.replicate 64 NvRecord.erased) ∧ (n.val = 3 → s.nv.epoch = 0#16)

/-- The triple by which a key is identified: usage, key set and version (R87). -/
abbrev Triple := Usage × BitVec 5 × BitVec 4

/-- A non-EMPTY entry has its triple; a DAMAGED one of usage none has none (R87). -/
def HasTriple (e : DirEntry) (t : Triple) : Prop :=
  e.state ≠ .empty ∧ e.usage ≠ .none ∧ t = (e.usage, e.keySet, e.version)

/-- The triple that an import header names (R65). -/
def headerTriple (h : Block) : Triple :=
  (usageOf (headerUsage h), (headerKeySet h).setWidth 5, (headerVersion h).setWidth 4)

/-- The headers of the imports under way in the engine: of the buffer while an import job waits, and of the job in work. -/
def importsUnderWay (s : State) : List Block :=
  (if s.engine.importPlace.isSome then [importHeader s.keys] else []) ++ (liveImport s.engine).toList

/-- The triples that are kept while an import is under way, a LOAD's program waits or runs, or an ERASE waits or runs
(R87, R104, R106). -/
def keptTriples (s : State) : List Triple :=
  (importsUnderWay s).map headerTriple ++ (adminOps s.writer).filterMap fun op =>
    match op with
    | .program _ e _ => some (e.usage, e.keySet, e.version)
    | .eraseEntry _ kept => some (kept.usage, kept.keySet, kept.version)
    | _ => none

/-- The key directory is in form: each EMPTY entry holds no key and zero fields, each LOADED or REVOKED one has a usage and
a key, and each TRANSPORT one key set 0 (R87). -/
def DirectoryInForm (s : State) : Prop :=
  (∀ i, (s.entry i).state = .empty → s.entry i = DirEntry.emptied) ∧
  (∀ i, (s.entry i).state = .loaded ∨ (s.entry i).state = .revoked →
    (s.entry i).usage ≠ .none ∧ (s.entry i).key.isSome = true) ∧
  (∀ i, (s.entry i).usage = .transport → (s.entry i).keySet = 0#5)

/-- The directory holds at most one non-EMPTY entry for each triple, and none with the triple that an import, a program or
an ERASE under way keeps (R87, R102, R103, R106). What is under way carries what it will place: a header in range, and for
a program a LOADED entry with its key, whose place is still EMPTY (R103, R104). -/
def TriplesUnique (s : State) : Prop :=
  DirectoryInForm s ∧
  (∀ i j t, HasTriple (s.entry i) t → HasTriple (s.entry j) t → i = j) ∧
  (∀ t ∈ keptTriples s, t.1 ≠ .none ∧ (t.1 = .transport → t.2.1 = 0#5) ∧ ∀ i, ¬HasTriple (s.entry i) t) ∧
  (∀ h ∈ importsUnderWay s, headerKeySet h ≤ 31#8 ∧ headerVersion h ≤ 15#8) ∧
  (∀ i e plain, .program i e plain ∈ adminOps s.writer →
    e.state = .loaded ∧ e.key.isSome = true ∧ (s.entry i).state = .empty)

/-! ### Filter, epochs, map and queues -/

/-- At most one filter entry for each pair of key set and tag ID (R68), and the stored H at most 2^40 (R70). -/
def FilterKeysUnique (s : State) : Prop :=
  s.filter.h ≤ Config.hMax ∧
  ∀ i j e e', s.filter.at i = some e → s.filter.at j = some e' → e.keySet = e'.keySet → e.tagId = e'.tagId → i = j

/-- A pending schedule names an epoch above the active one, with a countdown of at least 1 (R125). -/
def ScheduleAhead (s : State) : Prop :=
  ∀ p, s.time.schedule = some p → s.time.epoch < p.epoch ∧ p.countdown ≠ 0#16

/-- The bytes of a present descriptor's window as validation judges them: first, and after the last (R152). -/
def windowOf (d : Descriptor) : Nat × Nat :=
  if d.isSlots then (d.base * 4096, d.base * 4096 + 4096) else (d.base * 4096, (d.base + d.size) * 4096)

/-- Two ranges have no byte in common. -/
def apart (x y : Nat × Nat) : Prop := x.2 ≤ y.1 ∨ y.2 ≤ x.1

/-- The loaded map is legal: each present descriptor is of a kind, with legal fields, off the control region, apart from
every other, and the map has at most 64 slots (R154, R156); each slot of its groups has a context, and no other (R5). -/
def MapLegal (s : State) : Prop :=
  (∀ i, (s.descriptor i).present = true → (s.descriptor i).isPlain = true ∨ (s.descriptor i).isSlots = true) ∧
  (∀ i, (s.descriptor i).isSlots = true →
    1 ≤ (s.descriptor i).slotCount ∧ (s.descriptor i).slotCount ≤ 32 ∧ (s.descriptor i).budget ≠ 0#16 ∧
    (s.descriptor i).holdLimit ≤ 4095#16 ∧ ((s.descriptor i).macLength = 4 ∨ (s.descriptor i).macLength = 8)) ∧
  (∀ i, (s.descriptor i).present = true → (windowOf (s.descriptor i)).2 ≤ 2 ^ 32) ∧
  (∀ i, (s.descriptor i).present = true → apart (windowOf (s.descriptor i)) (s.base, s.base + 4096)) ∧
  (∀ i j, i < j → (s.descriptor i).present = true → (s.descriptor j).present = true →
    apart (windowOf (s.descriptor i)) (windowOf (s.descriptor j))) ∧
  (((List.finRange 16).filter fun i => (s.descriptor i).isSlots).map fun i => (s.descriptor i).slotCount).sum ≤ 64 ∧
  (∀ r, (s.ctx? r).isSome = ((s.descriptor r.group).isSlots && decide (r.index.val < (s.descriptor r.group).slotCount)))

/-- The requests that initiator `i` still waits on, in order. -/
def waitingRequests (s : State) (i : Initiator) : List Request := (s.queue i).map (·.req)

/-- The requests of initiator `i` whose responses it has been given, in order. -/
def answeredRequests (s : State) (i : Initiator) : List Request :=
  (s.sysOut.filter fun o => o.req.initiator == i).map (·.req)

/-- Each order queue holds its own initiator's requests, at most 8, of which at most one is a held read; a request is
taken only after the one before it; and a response at the head has been given (R136, R137, R143). -/
def QueuesInOrder (s : State) : Prop :=
  ∀ i,
    (∀ e ∈ s.queue i, e.req.initiator = i) ∧
    (s.queue i).length ≤ 8 ∧
    ((s.queue i).filter isHeld).length ≤ 1 ∧
    List.Pairwise (fun e e' => isUntaken e = true → isUntaken e' = true) (s.queue i) ∧
    (∀ e, (s.queue i).head? = some e → ∀ reply, e.stage ≠ .ready reply)

/-! ### The rows that are one beat of a request, by where the beat lies -/

/-- The words of the status block at their offsets (R201). -/
def statusTable : List (Nat × StatusWord) :=
  [(0x000, .identity), (0x008, .ltLow), (0x010, .ltHigh), (0x018, .pre), (0x020, .pulseCapture), (0x028, .pulseCount),
    (0x030, .epoch), (0x038, .epochControl), (0x040, .causes), (0x048, .enables), (0x050, .mapWord),
    (0x058, .unmappedRights), (0x060, .dInterval), (0x068, .holdTime), (0x070, .occupancy), (0x078, .hold),
    (0x080, .counters 0), (0x088, .counters 1), (0x090, .counters 2), (0x098, .counters 3), (0x0A0, .counters 4),
    (0x0A8, .counters 5), (0x0B0, .counterClear), (0x0B8, .refusalAddress), (0x0C0, .refusalDetail),
    (0x0C8, .challengeStatus), (0x0D0, .nvState)]

/-- The status word whose eight bytes hold an offset of the status block; 0x0D8 to 0x1F8 are unassigned (R201). -/
def statusWordOf (offset : Nat) : StatusWord := (statusTable.lookup (offset - offset % 8)).getD .unassigned

/-- The bit of each cause in the causes and enables words (R202). -/
def causePlace : Cause → Nat
  | .slotDone g => g.val
  | .importDone => 16
  | .epochSwitched => 17
  | .scheduleRejected => 18
  | .mapLoaded => 19
  | .mapFault => 20
  | .refusal => 21
  | .tamper => 22
  | .nvFault => 23
  | .challengeLow => 24
  | .zeroized => 25

/-- The status word that a setting row writes, its offset in the control region, and the word written (R201). -/
def settingRow : Instr → Option (StatusWord × Nat × Word)
  | .preWrite w => some (.pre, 0x018, w)
  | .epochScheduleWrite w => some (.epoch, 0x030, w)
  | .switchNow => some (.epochControl, 0x038, 1#64)
  | .cancel => some (.epochControl, 0x038, 2#64)
  | .attentionCausesWrite w => some (.causes, 0x040, w)
  | .attentionEnablesWrite w => some (.enables, 0x048, w)
  | .mapWordWrite w => some (.mapWord, 0x050, w)
  | .unmappedRightsWrite w => some (.unmappedRights, 0x058, w)
  | .duplicateIntervalWrite w => some (.dInterval, 0x060, w)
  | .holdTimeWrite w => some (.holdTime, 0x068, w)
  | .holdSet upper => some (.hold, 0x078, upper ++ 1#1)
  | .holdClear upper => some (.hold, 0x078, upper ++ 0#1)
  | .counterClear w => some (.counterClear, 0x0B0, w)
  | _ => none

/-- The slot command of a row: who writes it, to which slot, in which command word, its code and its bytes 1 to 7
(R198). -/
def slotRow : Instr → Option (Initiator × SlotRef × CommandWord × SlotCmd × BitVec 56)
  | .openSlot i r cw upper => some (i, r, cw, .open', upper)
  | .arm i r cw upper => some (i, r, cw, .arm, upper)
  | .sealSlot i r cw upper => some (i, r, cw, .sealing, upper)
  | .release i r cw upper => some (i, r, cw, .release, upper)
  | .abort i r cw upper => some (i, r, cw, .abort, upper)
  | _ => none

/-- The import command of a row and its bytes 1 to 7 (R200). -/
def importRow : Instr → Option (ImportCmd × BitVec 56)
  | .loadPlain upper => some (.loadPlain, upper)
  | .load upper => some (.load, upper)
  | .revoke upper => some (.revoke, upper)
  | .erase upper => some (.erase, upper)
  | .inquire upper => some (.inquire, upper)
  | .setReader upper => some (.setReader, upper)
  | .fieldLock upper => some (.fieldLock, upper)
  | .zeroize upper => some (.zeroize, upper)
  | _ => none

/-- What goes out of the memory port when a slot command word is taken: the word, at its place in the slot record. -/
def commandBeat (s : State) (r : SlotRef) (cw : CommandWord) (cmd : SlotCmd) (upper : BitVec 56) : MemOut :=
  .beat ((s.descriptor r.group).base * 4096 + r.index.val * 128 + commandOffset cw)
    { data := upper ++ slotCode cmd, strobes := 0xFF#8 }

/-- What goes out of the memory port when a status word is written: the word, at its place in the control region. -/
def settingOut (s : State) (offset : Nat) (w : Word) : MemOut := .beat (s.base + offset) { data := w, strobes := 0xFF#8 }

/-- What goes out of the memory port when an import command is taken: zeros, at the command word (R96). -/
def importOut (s : State) : MemOut := .beat (s.base + 0x340) { data := 0#64, strobes := 0xFF#8 }

/-- Only the causes of a list may have been raised; every other cause, the enables and the hold flag of `t` are as in
`s`. -/
def OnlyRaised (raised : List Cause) (s t : State) : Prop :=
  (∀ c, c ∉ raised → t.causeSet c = s.causeSet c) ∧
  (∀ c, s.causeSet c = true → t.causeSet c = true) ∧
  t.status.enables = s.status.enables ∧ t.status.hold = s.status.hold

/-- Every counter but those of a list is as it was. -/
def CountersKept (counted : List Counter) (s t : State) : Prop := ∀ c, c ∉ counted → t.counter c = s.counter c

/-- A counter after one increment: one more, and 2^32 − 1 stays (R188). -/
def counted (v : BitVec 32) : BitVec 32 := if v = 0xFFFFFFFF#32 then v else v + 1#32

/-! ### The checks of commands, as the spec lists them -/

/-- The mask a slot command needs: ARM the fill mask, the others the manage mask (step 3 of R9). -/
def commandMask (d : Descriptor) : SlotCmd → BitVec 4
  | .arm => d.writeMask
  | _ => d.manageMask

/-- The states from which a slot command is accepted (R11, R13, R14, R15, R16). -/
def statesOf : SlotCmd → List SlotState
  | .open' => [.free]
  | .arm => [.open']
  | .sealing => [.verified]
  | .release => [.verified, .rejected, .sealed, .expired, .faulted]
  | .abort => [.open', .queued, .busy, .verified, .rejected, .sealed, .expired, .faulted]

/-- The code of the first check of R9, and for OPEN of R11, that a slot command with a known code fails. -/
def slotCheck (s : State) (i : Initiator) (r : SlotRef) (cmd : SlotCmd) (upper : BitVec 56) (c : SlotCtx) :
    Option SlotResult :=
  if s.status.hold = true then some .held
  else if upper.extractLsb' 8 48 ≠ 0#48 then some .badCommand
  else if (commandMask (s.descriptor r.group) cmd).getLsbD i.val = false then some .notPermitted
  else if cmd ≠ .open' ∧ upper.extractLsb' 0 8 ≠ c.generation then some .stale
  else if c.state ∉ statesOf cmd then some .wrongState
  else if cmd ≠ .open' then none
  else if s.life.cycle ∉ [.personalized, .field] ∨ s.life.reader = 0#16 then some .noService
  else if s.slots.exhausted = true then some .exhausted
  else if s.slots.counter = s.slots.ceiling then some .challengeWait
  else none

/-- The operand of an import command is in form (step 4 of R100, R108, R109, R111, R200): the index of INQUIRE in byte 1
and at most 63, the reader number of SET_READER in bytes 2 and 3, the pattern of ZEROIZE in bytes 2 to 7, all else zero. -/
def operandGood : ImportCmd → BitVec 56 → Prop
  | .inquire, u => u.extractLsb' 8 48 = 0#48 ∧ u.extractLsb' 0 8 ≤ 63#8
  | .setReader, u => u.extractLsb' 0 8 = 0#8 ∧ u.extractLsb' 24 32 = 0#32
  | .zeroize, u => u = 0xA5F0C3963C5A00#56
  | _, u => u = 0#56

/-- The life cycles in which an import command is accepted (the table of section 5.5). -/
def cyclesOf : ImportCmd → List LifeCycle
  | .loadPlain => [.blank]
  | .load => [.personalized, .field]
  | .revoke => [.personalized, .field]
  | .erase => [.personalized, .field]
  | .inquire => [.blank, .personalized, .field, .zeroizing, .zeroized]
  | .setReader => [.blank, .personalized]
  | .fieldLock => [.personalized]
  | .zeroize => [.blank, .personalized, .field]

/-! ### Effects that several statements name -/

/-- Every slot but `r` is as it was. -/
def OtherSlotsKept (r : SlotRef) (s t : State) : Prop := ∀ r', r' ≠ r → t.ctx? r' = s.ctx? r'

/-- A slot command was taken and refused with a code: the last command result takes it, nothing else in the part changes,
and the word goes to memory (R8, R9). -/
def SlotRefused (row : Instr) (r : SlotRef) (c : SlotCtx) (code : SlotResult) (out : MemOut) (s : State) : Prop :=
  ∃ t, exec row s = .next t ∧ t.ctx? r = some { c with lastResult := code } ∧ OtherSlotsKept r s t ∧
    t = { s with slots := { s.slots with contexts := t.slots.contexts }, memOut := s.memOut ++ [out] }

/-- The place of a slot record's word in memory, by its offset in the record (R1). -/
def recordAddr (s : State) (r : SlotRef) (offset : Nat) : Nat :=
  (s.descriptor r.group).base * 4096 + r.index.val * 128 + offset

/-- From here on a beat to an inbound word of the slot only reaches memory (R13, R18). -/
def InboundFrozen (r : SlotRef) (t : State) : Prop :=
  ∀ w b, exec (.inboundShadowWrite r w b) t =
    .next { t with memOut := t.memOut ++ [.beat (recordAddr t r (0x20 + 8 * w.val)) b] }

/-- From here on a beat to a payload word of the slot only reaches memory (R14, R19). -/
def PayloadFrozen (r : SlotRef) (t : State) : Prop :=
  ∀ w b, exec (.payloadShadowWrite r w b) t =
    .next { t with memOut := t.memOut ++ [.beat (recordAddr t r (0x48 + 8 * w.val)) b] }

/-- Slot `r` entered an end state with context `c`: SLOT_DONE of its group is raised and no other cause, and EXPIRED or
FAULTED counts it (R7); no other slot changes. -/
def SlotEnded (r : SlotRef) (c : SlotCtx) (s t : State) : Prop :=
  t.ctx? r = some c ∧ OtherSlotsKept r s t ∧ t.causeSet (.slotDone r.group) = true ∧
  OnlyRaised [.slotDone r.group] s t ∧
  (c.state = .expired → t.counter .expired = counted (s.counter .expired)) ∧
  (c.state = .faulted → t.counter .faulted = counted (s.counter .faulted))

/-! ### Requests to the NV writer -/

/-- A request reached the NV writer of `s` (R90, R91, R94): in ZEROIZING and ZEROIZED it is discarded; an idle writer runs
it at once; a busy one lets an epoch record take the place of the epoch record that waits, and any other request join the
tail of the waiting list. -/
def RequestReached (r : NvRequest) (s t : State) : Prop :=
  (s.life.cycle = .zeroizing ∨ s.life.cycle = .zeroized → t.writer = s.writer) ∧
  (s.life.cycle ≠ .zeroizing → s.life.cycle ≠ .zeroized →
    (s.writer.running = none → t.writer = { s.writer with running := some (.request r) }) ∧
    (s.writer.running ≠ none →
      (∀ v, r = .epochRecord v → (∃ u, .epochRecord u ∈ s.writer.waiting) →
        t.writer = { s.writer with
          waiting := s.writer.waiting.map fun x =>
            match x with
            | .epochRecord _ => .epochRecord v
            | x => x }) ∧
      ((∀ v, r ≠ .epochRecord v) ∨ (∀ u, .epochRecord u ∉ s.writer.waiting) →
        t.writer = { s.writer with waiting := s.writer.waiting ++ [r] })))

/-- The running operation of the NV writer of `s` ended, and the writer went on (R90, R94): to the NV zeroize that
waits, else to the request at the head of the list, the others moving up, else it is idle. -/
def WriterWentOn (s t : State) : Prop :=
  (s.writer.zeroizeWaiting = true →
    t.writer = { s.writer with running := some (.nvZeroize 0), zeroizeWaiting := false, attemptsFailed := 0#8 }) ∧
  (s.writer.zeroizeWaiting = false →
    (s.writer.waiting = [] → t.writer = { s.writer with running := none }) ∧
    ∀ r rest, s.writer.waiting = r :: rest →
      t.writer = { s.writer with running := some (.request r), waiting := rest })

/-- The write in NV of an admin operation that ended with its verify passing (R92); the codes are those of log entry 7. -/
def AdminWritten (op : AdminOp) (s t : State) : Prop :=
  let only := fun (i : Fin 64) (r : NvRecord) =>
    t.record i = r ∧ (∀ j, j ≠ i → t.record j = s.record j) ∧ t.nv = { s.nv with records := t.nv.records }
  match op with
  | .program i e _ => only i (recordOfEntry e)
  | .personalize _ _ => t.nv = { s.nv with lifeWord := 1#8 }
  | .markRevoked i => only i { s.record i with state := 2#8 }
  | .eraseEntry i _ => only i NvRecord.erased
  | .writeReader v => t.nv = { s.nv with reader := v }
  | .lockField => t.nv = { s.nv with lifeWord := 2#8 }

/-- What an admin operation that ended with its verify failing leaves in NV (R89): an entry record DAMAGED, the key
bytes of a failed program or erase a free value (log entry 8); the life-cycle word and the reader number as they were. -/
def AdminFailedInNv (op : AdminOp) (s t : State) : Prop :=
  let only := fun (i : Fin 64) (r : NvRecord) =>
    t.record i = r ∧ (∀ j, j ≠ i → t.record j = s.record j) ∧ t.nv = { s.nv with records := t.nv.records }
  match op with
  | .program i e _ => only i { recordOfEntry e with state := 3#8, key := (t.record i).key }
  | .markRevoked i => only i { s.record i with state := 3#8 }
  | .eraseEntry i _ => only i { s.record i with state := 3#8, key := (t.record i).key }
  | _ => t.nv = s.nv

/-! ### Held reads -/

/-- The responses that initiator `i` has been given, in order. -/
def given (s : State) (i : Initiator) : List SysOut := s.sysOut.filter fun o => o.req.initiator == i

/-- The read bursts of initiator `i` that have gone to memory, in order. -/
def readsForwarded (s : State) (i : Initiator) : List Request :=
  s.memOut.filterMap fun o =>
    match o with
    | .read r => if r.initiator = i then some r else none
    | _ => none

/-- All else that has gone to memory: writes, single beats, and the part's own table reads. -/
def otherwiseSent (s : State) : List MemOut :=
  s.memOut.filter fun o =>
    match o with
    | .read _ => false
    | _ => true

/-- Slot `w.1` waits for or is in a job of kind `w.2` (R24). -/
def InJob (s : State) (w : SlotRef × JobKind) : Prop :=
  ∃ c, s.ctx? w.1 = some c ∧ (c.state = .queued ∨ c.state = .busy ∨ c.state = .aborting) ∧ c.jobKind = some w.2

/-- A word whose slot job is pending: the verdict detail of a slot QUEUED, BUSY or ABORTING with VERIFY, or the MAC or
the seal word of one so with SEAL (R24). -/
def PendingWord (s : State) (p : Place) : Prop :=
  ∃ ref word, p = .slot ref word ∧
    ((word = 3 ∧ InJob s (ref, .verify)) ∨ ((word = 14 ∨ word = 15) ∧ InJob s (ref, .sealing)))

/-- What became of the held reads of `s` in a step to `t` that changed slots (R25, R28, R29, R30, R143). A held read
some of whose slots are still in the jobs that held it stays held for those. One whose slots have all left is answered
whole from the slots of `t`, its response given when it is its turn; where it also needs memory it is forwarded with the
answered words kept. A queue without a held read is untouched, and besides such reads exactly `sent` goes to memory. The
places of a held read are words of slot records, since only those are held. -/
def HeldReadsSettled (sent : List MemOut) (s t : State) : Prop :=
  otherwiseSent t = otherwiseSent s ++ sent ∧
  (QueuesInOrder s → ∀ i,
    ((∀ e ∈ s.queue i, isHeld e = false) →
      t.queue i = s.queue i ∧ given t i = given s i ∧ readsForwarded t i = readsForwarded s i) ∧
    ∀ pre r endsAt places waits post,
      s.queue i = pre ++ { req := r, stage := .held endsAt places waits } :: post →
      (∀ p ∈ places, ∃ ref word, p = .slot ref word) →
      ((∃ w ∈ waits, InJob t w) →
        (∃ left, t.queue i = pre ++ { req := r, stage := .held endsAt places left } :: post ∧
          ∀ w, w ∈ left ↔ w ∈ waits ∧ InJob t w) ∧
        given t i = given s i ∧ readsForwarded t i = readsForwarded s i) ∧
      ((∀ w ∈ waits, ¬InJob t w) →
        ((∀ p ∈ places, answer t p ≠ none) →
          let reply := Reply.read (places.map fun p => ReadBeat.mk ((answer t p).getD 0#64) .okay)
          readsForwarded t i = readsForwarded s i ∧
          (pre = [] →
            t.queue i = (drain post).2 ∧ given t i = given s i ++ { req := r, reply := reply } :: (drain post).1) ∧
          (pre ≠ [] →
            t.queue i = pre ++ { req := r, stage := .ready reply } :: post ∧ given t i = given s i)) ∧
        ((∃ p ∈ places, answer t p = none) →
          t.queue i = pre ++ { req := r, stage := .forwarded (places.map (answer t)) false } :: post ∧
          given t i = given s i ∧ readsForwarded t i = readsForwarded s i ++ [r])))

/-- No read is held for a word of slot `r`. -/
def NoReadHeldFor (r : SlotRef) (t : State) : Prop :=
  ∀ i, ∀ e ∈ t.queue i, ∀ endsAt places waits, e.stage = .held endsAt places waits → ∀ w ∈ waits, w.1 ≠ r

/-- A context after RELEASE, or after an ABORT that frees the slot: cleared, its generation kept, last command result OK
(R5, R15, R16). -/
def releasedCtx (c : SlotCtx) : SlotCtx := { SlotCtx.fresh with generation := c.generation, lastResult := .ok }

/-- An import command ended as it was taken: its result stands at once, the import state stays, the buffer is zero, and
IMPORT_DONE is raised (R97, R98, R101); `t` is otherwise `s` with the command beat sent to memory as zeros. -/
def EndedAtOnce (command : Byte) (code : ImportCode) (index : Fin 64) (check : BitVec 24) (s t : State) : Prop :=
  t.keys.result = { command := command, code := code, index := index, check := check } ∧
  t.keys.buffer = Vector.replicate 5 0#64 ∧ t.causeSet .importDone = true ∧ OnlyRaised [.importDone] s t ∧
  CountersKept [] s t ∧
  t = { s with
    keys := { s.keys with result := t.keys.result, buffer := t.keys.buffer, inquiry := t.keys.inquiry }
    status := t.status, memOut := s.memOut ++ [importOut s] }

/-- Entry `k` was withdrawn (R27, R112): a slot that holds its tag key, VERIFIED or QUEUED with SEAL, is FAULTED with
KEY_WITHDRAWN, its verdict kept, counted, and out of the engine FIFO; a BUSY slot whose job uses it is marked; every other
slot is as it was. The SLOT_DONE of the groups of faulted slots is raised and no other cause. -/
def EntryWithdrawn (k : Fin 64) (s t : State) : Prop :=
  let faults := fun (c : SlotCtx) =>
    c.tagEntry = some k ∧ (c.state = .verified ∨ (c.state = .queued ∧ c.jobKind = some .sealing))
  (∀ r c, s.ctx? r = some c → faults c →
    t.ctx? r = some { c with state := .faulted, jobKind := none, derivedKey := none, reason := some .keyWithdrawn } ∧
      t.causeSet (.slotDone r.group) = true ∧ r ∉ t.engine.fifo ∧ NoReadHeldFor r t) ∧
  (∀ r c, s.ctx? r = some c → c.state = .busy → c.tagEntry = some k ∨ c.recordEntry = some k →
    t.ctx? r = some { c with withdrawn := true }) ∧
  (∀ r c, s.ctx? r = some c → ¬faults c →
    ¬(c.state = .busy ∧ (c.tagEntry = some k ∨ c.recordEntry = some k)) → t.ctx? r = some c) ∧
  t.engine = { s.engine with fifo := t.engine.fifo } ∧ List.Sublist t.engine.fifo s.engine.fifo ∧
  (∀ r ∈ s.engine.fifo, ∀ c, s.ctx? r = some c → ¬faults c → r ∈ t.engine.fifo) ∧
  (t.counter .faulted).toNat =
    min ((s.counter .faulted).toNat + (s.slots.contexts.filter fun p => decide (faults p.2)).length) (2 ^ 32 - 1) ∧
  CountersKept [.faulted] s t ∧
  OnlyRaised ((s.slots.contexts.filter fun p => decide (faults p.2)).map fun p => .slotDone p.1.group) s t

/-- An import command was taken to the NV writer: result code none, import state NV_WRITING, and an admin request placed
(R90, R98, R101). -/
def AdminPlaced (command : Byte) (op : AdminOp) (s t : State) : Prop :=
  t.keys.importState = .nvWriting ∧ t.keys.inFlight = command ∧
  t.keys.result = { command := command, code := .none, index := 0, check := 0#24 } ∧
  t.keys.buffer = s.keys.buffer ∧ t.keys.inquiry = s.keys.inquiry ∧
  RequestReached (.admin op) s t

/-- The command in flight ended with a code: its result, import state IDLE, buffer zero, IMPORT_DONE raised (R97, R98,
R101). -/
def CommandEnded (code : ImportCode) (index : Fin 64) (check : BitVec 24) (s t : State) : Prop :=
  t.keys.result = { command := s.keys.inFlight, code := code, index := index, check := check } ∧
  t.keys.importState = .idle ∧ t.keys.buffer = Vector.replicate 5 0#64 ∧ t.causeSet .importDone = true

/-- A zeroization started, `sent` going to memory at the event: ZEROIZING, nothing of a transaction or of a key held,
each slot FREE with its generation and last command result, the NV zeroize running or waiting its turn (R30, R50, R84,
R94, R114, R175); the map, lane time, the challenge counter and ceiling, D and H, the counters, the hold and NV are as
they were. -/
def ZeroizationBegan (sent : List MemOut) (s t : State) : Prop :=
  t.life.cycle = .zeroizing ∧ NothingHeld t ∧ (∀ r, t.ctx? r = (s.ctx? r).map clearCtx) ∧
  t.slots = { s.slots with contexts := t.slots.contexts, reservationPending := false } ∧
  t.filter.d = s.filter.d ∧ t.filter.h = s.filter.h ∧ t.keys.inquiry = Inquiry.zero ∧
  (s.keys.importState ≠ .idle → CommandEnded .wrongLifecycle 0 0#24 s t) ∧
  (s.writer.running = none →
    t.writer = { running := some (.nvZeroize 0), waiting := [], zeroizeWaiting := false, attemptsFailed := 0#8 }) ∧
  (∀ op, s.writer.running = some op → t.writer = { s.writer with waiting := [], zeroizeWaiting := true }) ∧
  (∀ r, NoReadHeldFor r t) ∧ HeldReadsSettled sent s t ∧ (∀ c, t.counter c = s.counter c) ∧ t.path.refusal = s.path.refusal ∧
  t.engine.waitCount = 0 ∧ t.time = s.time ∧ t.map = s.map ∧ t.nv = s.nv ∧ t.freeCount = s.freeCount ∧
  t.pending = s.pending

/-- A tamper event was recorded by the sampler (R173, R174): TAMPER is raised and no other cause, and `t` is otherwise `s`. -/
def TamperRecorded (s t : State) : Prop :=
  t.causeSet .tamper = true ∧ OnlyRaised [.tamper] s t ∧ CountersKept [] s t ∧
  t = { s with
    life := { s.life with tamperCount := 0#4, armed := false, tamperSeen := true }, status := t.status }

/-- A zeroization started at a tamper event judged in FIELD (R175): as any zeroization; the life cycle alone of the
Life-cycle Unit changes, and where no import command was in flight the import result and the causes stay. -/
def ZeroizedByTamper (s t : State) : Prop :=
  ZeroizationBegan [] s t ∧ t.life = { s.life with cycle := .zeroizing } ∧ OnlyRaised [.importDone] s t ∧
  (s.keys.importState = .idle → t.keys.result = s.keys.result ∧ t.status = s.status)

/-! ### The course of start-up -/

/-- The start-up load of the window table began (R146, R161): the map state is LOADING, and of the requests forwarded so far
each write is waited for. -/
def LoadBegan (s t : State) : Prop :=
  t.map = { s.map with state := .loading, load := some .draining } ∧
  t.path = { s.path with queues := t.path.queues } ∧
  ∀ i, t.queue i = (s.queue i).map fun e =>
    match e.stage with
    | .forwarded a m => { e with stage := .forwarded a (m || decide (e.req.dir = .write)) }
    | _ => e

/-- RESERVE had nothing to program, and ended at once (R170, R172, R185): counter and ceiling stand at the stored
high-water, the exhausted flag is set where that is 2^48, CHALLENGE_LOW is raised, and MAP_LOAD begins. Where a zeroization
ended the phase, CHALLENGE_LOW and the exhausted flag are DEDUCED (log entry 21). -/
def ReserveEndedAtOnce (s t : State) : Prop :=
  t.slots = { s.slots with
    counter := s.nv.highWater, ceiling := s.nv.highWater, reservationPending := false
    exhausted := s.slots.exhausted || decide (2 ^ 48 ≤ s.nv.highWater) } ∧
  t.causeSet .challengeLow = true ∧ OnlyRaised [.challengeLow] s t ∧ CountersKept [] s t ∧ LoadBegan s t ∧
  t = { s with
    life := { s.life with phase := .mapLoad }, slots := t.slots, status := t.status, map := t.map, path := t.path }

/-- KEY_CHECK went on from index `n` (R54, R169): the CHECK job of the next entry that is not EMPTY starts. With none left the
phase ends, and RESERVE begins, its program running (R170), or ends at once. -/
def StartUpWentOn (n : Nat) (s t : State) : Prop :=
  (∀ i : Fin 64, n ≤ i.val → (s.entry i).state ≠ .empty →
    (∀ j : Fin 64, n ≤ j.val → j < i → (s.entry j).state = .empty) →
    t = { s with engine :=
      { s.engine with job := some { work := .checking i (s.entry i).key, discard := false } } }) ∧
  ((∀ i : Fin 64, n ≤ i.val → (s.entry i).state = .empty) →
    (s.nv.highWater < 2 ^ 48 → s.zeroing = false →
      t = { s with
        life := { s.life with phase := .reserve }
        slots := { s.slots with
          counter := s.nv.highWater, ceiling := s.nv.highWater, reservationPending := false }
        writer := { s.writer with running := some (.reserve (s.nv.highWater + 4096)) } }) ∧
    (2 ^ 48 ≤ s.nv.highWater ∨ s.zeroing = true → ReserveEndedAtOnce s t))

/-! ### Order queues and answered words -/

/-- Initiator `i` may have request `r` taken next: no reload runs, `r` is the head of the untaken part of its queue, which
is `pre`, `r` and `post`, and none of its reads is held (R136, R143, R146). -/
def NextIs (s : State) (i : Initiator) (pre : List QueueEntry) (r : Request) (post : List QueueEntry) : Prop :=
  s.reloading = false ∧ s.queue i = pre ++ { req := r, stage := .untaken } :: post ∧
  (∀ e ∈ pre, isUntaken e = false ∧ isHeld e = false) ∧ ∀ e ∈ post, isHeld e = false

/-- The entry between `pre` and `post` in the queue of `i` has its reply: given at once if the entry is the head, with the
ready responses next behind it, and otherwise kept until it is (R137). No other queue and no other part of the path is
touched. -/
def ReplyReady (s t : State) (i : Initiator) (pre : List QueueEntry) (r : Request) (reply : Reply)
    (post : List QueueEntry) : Prop :=
  (pre = [] → t.queue i = (drain post).2 ∧ t.sysOut = s.sysOut ++ { req := r, reply := reply } :: (drain post).1) ∧
  (pre ≠ [] → t.queue i = pre ++ { req := r, stage := .ready reply } :: post ∧ t.sysOut = s.sysOut) ∧
  ∀ j, j ≠ i → t.queue j = s.queue j

/-- The state as a read burst finds it: the LT high latch is set where the burst includes the LT low word (R119). -/
def latched (s : State) (places : List Place) : State :=
  { s with time := { s.time with
      ltHigh := if .status .ltLow ∈ places then s.time.lt.extractLsb' 32 32 else s.time.ltHigh } }

/-- A word of the control region at an offset, as a request of one 8-byte beat. -/
def isWordAt (s : State) (r : Request) (off : Nat) : Prop :=
  r.len = 0#8 ∧ r.size = 3#3 ∧ r.burst = .incr ∧ r.exclusive = false ∧ off < 4096 ∧ off % 8 = 0 ∧
  r.addr.toNat = s.base + off

/-- A state without its keys: the same part, the same outside, but no byte of any key, nor of a wrapped key or its blob
MAC; the header in the import buffer stays, which names a key and holds none (R5, R20, R65, R87, R96). -/
def withoutKeys (s : State) : State :=
  let bare := fun (e : DirEntry) => { e with key := none }
  let bareOp := fun (op : AdminOp) =>
    match op with
    | .program i e p => .program i (bare e) p
    | .eraseEntry i e => .eraseEntry i (bare e)
    | op => op
  let bareRequest := fun (r : NvRequest) =>
    match r with
    | .admin op => .admin (bareOp op)
    | r => r
  let bareWork := fun (w : Work) =>
    match w with
    | .verify r g e _ => Work.verify r g e 0#128
    | .sealing r g e _ => .sealing r g e 0#128
    | .importing k h _ _ _ => .importing k h 0#128 0#64 none
    | .checking i _ => .checking i none
  { s with
    slots := { s.slots with contexts := s.slots.contexts.map fun p => (p.1, { p.2 with derivedKey := none }) }
    engine := { s.engine with job := s.engine.job.map fun j => { j with work := bareWork j.work } }
    keys := { s.keys with
      dir := s.keys.dir.map bare, buffer := #v[s.keys.buffer[0], s.keys.buffer[1], 0#64, 0#64, 0#64] }
    nv := { s.nv with records := s.nv.records.map fun r => { r with key := 0#128 } }
    writer := { s.writer with
      running := s.writer.running.map fun op =>
        match op with
        | .request r => NvOp.request (bareRequest r)
        | op => op
      waiting := s.writer.waiting.map bareRequest } }

/-! ### The regions and checks of the Memory Path -/

/-- The byte addresses that a request's beats touch, by its burst type (R138; an end past the address space does not wrap,
DEDUCED, log entry 24). -/
def Touches (r : Request) (a : Nat) : Prop :=
  let size := 2 ^ r.size.toNat
  let total := (r.len.toNat + 1) * size
  let first := r.addr.toNat
  match r.burst with
  | .incr => first ≤ a ∧ a < first / size * size + total
  | .wrap => first / total * total ≤ a ∧ a < first / total * total + total
  | .fixed => first ≤ a ∧ a < first / size * size + size

/-- Address `a` lies in a region of the loaded map (R1, R138, R149, R152): the control region, the extent of a slot
group, a PLAIN window, or none of them. -/
def InRegion (s : State) (a : Nat) : Region → Prop
  | .control => s.base ≤ a ∧ a < s.base + 4096
  | .group g =>
    (s.descriptor g).isSlots = true ∧ (s.descriptor g).base * 4096 ≤ a ∧
      a < (s.descriptor g).base * 4096 + (s.descriptor g).slotCount * 128
  | .plain i =>
    (s.descriptor i).isPlain = true ∧ (s.descriptor i).base * 4096 ≤ a ∧
      a < ((s.descriptor i).base + (s.descriptor i).size) * 4096
  | .unmapped =>
    ¬(s.base ≤ a ∧ a < s.base + 4096) ∧
    ∀ i, ¬((s.descriptor i).isSlots = true ∧ (s.descriptor i).base * 4096 ≤ a ∧
        a < (s.descriptor i).base * 4096 + (s.descriptor i).slotCount * 128) ∧
      ¬((s.descriptor i).isPlain = true ∧ (s.descriptor i).base * 4096 ≤ a ∧
        a < ((s.descriptor i).base + (s.descriptor i).size) * 4096)

/-- Every byte a request touches lies in one region. -/
def LiesIn (s : State) (r : Request) (region : Region) : Prop := ∀ a, Touches r a → InRegion s a region

/-- The burst form asked in the control region and in slot groups (R139). -/
def BurstInForm (r : Request) : Prop :=
  r.burst = .incr ∧ r.len.toNat ≤ 15 ∧ r.size = 3#3 ∧ r.addr.toNat % 8 = 0 ∧ r.exclusive = false

/-- The place of a refusal reason in the order of checks for a request in form (R141). -/
def checkOrder : RefusalReason → Nat
  | .limit => 1
  | .permission => 3
  | .privilege => 4
  | .resultWrite => 5
  | .reserved => 6
  | .form => 7

/-- Word `k` of a burst, as a request of its own. -/
def wordRequest (r : Request) (k : Nat) : Request := { r with addr := r.addr + BitVec.ofNat 32 (8 * k), len := 0#8 }

/-! ### The checks of a window table -/

/-- The bits spare under a descriptor's kind are zero (R199). -/
def SpareBitsZero (d : Descriptor) : Prop :=
  d.word0.extractLsb' 36 28 = 0#28 ∧ d.word1.extractLsb' 48 16 = 0#16 ∧
  (d.kind = 1#2 → d.word0.extractLsb' 12 4 = 0#4 ∧ d.word1.extractLsb' 16 32 = 0#32) ∧
  (d.kind = 2#2 → d.word1.extractLsb' 6 2 = 0#2 ∧ d.word1.extractLsb' 12 4 = 0#4)

/-- The bytes of a present descriptor's window as validation judges it: a SLOTS window by its whole page (R152). -/
def InWindow (d : Descriptor) (a : Nat) : Prop :=
  d.base * 4096 ≤ a ∧ a < (if d.kind = 2#2 then d.base * 4096 + 4096 else (d.base + d.size) * 4096)

/-- The checks of R156 for a present descriptor in their order, each with the condition under which it fails; `lower`
are the present descriptors of lower index. -/
def tableChecks (base : Nat) (lower : List Descriptor) (d : Descriptor) : List (MapFault × Prop) :=
  [ (.spareBits, ¬SpareBitsZero d),
    (.badKind, d.kind ≠ 1#2 ∧ d.kind ≠ 2#2),
    (.badField, d.kind = 2#2 ∧
      ¬(1 ≤ d.slotCount ∧ d.slotCount ≤ 32 ∧ d.budget ≠ 0#16 ∧ d.holdLimit ≤ 4095#16 ∧
        (d.macLength = 4 ∨ d.macLength = 8))),
    (.outOfSpace, d.kind = 1#2 ∧ 1048576 < d.base + d.size),
    (.controlOverlap, ∃ a, InWindow d a ∧ base ≤ a ∧ a < base + 4096),
    (.overlap, ∃ e ∈ lower, ∃ a, InWindow d a ∧ InWindow e a),
    (.tooManySlots, d.kind = 2#2 ∧
      64 < d.slotCount + ((lower.filter fun e => e.kind == 2#2).map Descriptor.slotCount).sum) ]

/-- The first check of a list that fails is the one of fault `f`. -/
def FirstToFail (checks : List (MapFault × Prop)) (f : MapFault) : Prop :=
  ∃ before c after, checks = before ++ (f, c) :: after ∧ c ∧ ∀ x ∈ before, ¬x.2

/-- The present descriptors below index `n`. -/
def presentBelow (ds : List Descriptor) (n : Nat) : List Descriptor := (ds.take n).filter Descriptor.present

/-- Descriptor `n` of a table passes validation: it is absent, or none of its checks fails (R156). -/
def DescriptorGood (base : Nat) (ds : List Descriptor) (n : Nat) : Prop :=
  ∀ d, ds[n]? = some d → d.present = true → ∀ x ∈ tableChecks base (presentBelow ds n) d, ¬x.2

/-- Validation ends with fault `f` at index `n`: every descriptor below is good, and the first check that descriptor `n`
fails is that of `f` (R156). -/
def TableFaulty (base : Nat) (ds : List Descriptor) (f : MapFault) (n : Nat) : Prop :=
  (∀ m, m < n → DescriptorGood base ds m) ∧
  ∃ d, ds[n]? = some d ∧ d.present = true ∧ FirstToFail (tableChecks base (presentBelow ds n) d) f

/-! ### Fields of the NV writer state word -/

/-- The running-operation field (R184, R202): ENTRY_PROGRAM 2, ENTRY_ERASE 3, LIFECYCLE_WORD 4, READER_NUMBER 5,
EPOCH_RECORD 6, HIGH_WATER 7, NV_ZEROIZE 8. -/
def runningField : NvOp → Nat
  | .request (.admin (.program _ _ _)) => 2
  | .request (.admin (.markRevoked _)) => 2
  | .request (.admin (.eraseEntry _ _)) => 3
  | .request (.admin (.personalize _ _)) => 4
  | .request (.admin .lockField) => 4
  | .request (.admin (.writeReader _)) => 5
  | .request (.epochRecord _) => 6
  | .request (.reservation _) => 7
  | .reserve _ => 7
  | .blankWord => 4
  | .nvZeroize _ => 8

/-! ### Cipher blocks (chapter 3) -/

/-- The block whose bytes 0 to 15 are listed (section 3.1). -/
def blockOf (bytes : List Byte) : Block := bytes.foldl (fun b x => b <<< 8 ||| x.setWidth 128) 0#128

/-- Byte `j` of a block or of a key, 0 to 15 (section 3.1). -/
def blockByte (b : Block) (j : Nat) : Byte := b.extractLsb' (8 * (15 - j)) 8

/-- A number as `n` bytes of a block, most significant first (section 3.1). -/
def numberBytes (n v : Nat) : List Byte := (List.range n).map fun j => BitVec.ofNat 8 (v / 256 ^ (n - 1 - j))

/-- A word as a byte string of a block, lowest address first (section 3.1). -/
def stringBytes (w : Word) : List Byte := (List.range 8).map (byteOf w)

/-- Zero bytes of a block. -/
def zeroBytes (n : Nat) : List Byte := List.replicate n 0#8

/-- The last value of the chained MAC of a key over blocks X1 to Xn: Y0 is zero, and Yi = E(K, Yi−1 XOR Xi) (R60). -/
def chainEnd (key : Block) : Block → List (List Byte) → Block
  | y, [] => y
  | y, x :: rest => chainEnd key (aes128 key (y ^^^ blockOf x)) rest

/-- Bytes 0 to `length` − 1 of a MAC in a word, byte `j` at the word's address + `j`, and zero above (R60, R62, R63, R64). -/
def HoldsMac (w : Word) (y : Block) (length : Nat) : Prop :=
  ∀ j, j < 8 → byteOf w j = if j < length then blockByte y j else 0#8

/-! ### The beats of a write -/

/-- The slot command row that a written command word is, if its code is a command's (R198). -/
def commandRow (i : Initiator) (ref : SlotRef) (cw : CommandWord) (w : Word) : Option Instr :=
  let upper := w.extractLsb' 8 56
  if w.extractLsb' 0 8 = 0x01#8 then some (.openSlot i ref cw upper)
  else if w.extractLsb' 0 8 = 0x02#8 then some (.arm i ref cw upper)
  else if w.extractLsb' 0 8 = 0x03#8 then some (.sealSlot i ref cw upper)
  else if w.extractLsb' 0 8 = 0x04#8 then some (.release i ref cw upper)
  else if w.extractLsb' 0 8 = 0x05#8 then some (.abort i ref cw upper)
  else none

/-- The import command row that a written command word is, if its code is a command's (R200). -/
def importCommandRow (w : Word) : Option Instr :=
  let upper := w.extractLsb' 8 56
  if w.extractLsb' 0 8 = 0x01#8 then some (.loadPlain upper)
  else if w.extractLsb' 0 8 = 0x02#8 then some (.load upper)
  else if w.extractLsb' 0 8 = 0x03#8 then some (.revoke upper)
  else if w.extractLsb' 0 8 = 0x04#8 then some (.erase upper)
  else if w.extractLsb' 0 8 = 0x05#8 then some (.inquire upper)
  else if w.extractLsb' 0 8 = 0x06#8 then some (.setReader upper)
  else if w.extractLsb' 0 8 = 0x07#8 then some (.fieldLock upper)
  else if w.extractLsb' 0 8 = 0x08#8 then some (.zeroize upper)
  else none

/-- The row that a written status word is; an epoch control word of another value than 1 and 2 is none (R128, R201). -/
def settingRowOf (word : StatusWord) (w : Word) : Option Instr :=
  match word with
  | .pre => some (.preWrite w)
  | .epoch => some (.epochScheduleWrite w)
  | .epochControl => if w = 1#64 then some .switchNow else if w = 2#64 then some .cancel else none
  | .causes => some (.attentionCausesWrite w)
  | .enables => some (.attentionEnablesWrite w)
  | .mapWord => some (.mapWordWrite w)
  | .unmappedRights => some (.unmappedRightsWrite w)
  | .dInterval => some (.duplicateIntervalWrite w)
  | .holdTime => some (.holdTimeWrite w)
  | .hold => if w.getLsbD 0 then some (.holdSet (w.extractLsb' 1 63)) else some (.holdClear (w.extractLsb' 1 63))
  | .counterClear => some (.counterClear w)
  | _ => none

/-- The row of the table that one beat of a write is, by the word it reaches (R2, R95, R201); none for memory, and for the
command and control words whose value names no row. -/
def rowOfBeat (i : Initiator) (p : Place) (b : WriteBeat) : Option Instr :=
  match p with
  | .memory => none
  | .slot ref word =>
    match word.val with
    | 4 => some (.inboundShadowWrite ref 0 b)
    | 5 => some (.inboundShadowWrite ref 1 b)
    | 6 => some (.inboundShadowWrite ref 2 b)
    | 7 => some (.inboundShadowWrite ref 3 b)
    | 8 => commandRow i ref .a b.data
    | 9 => some (.payloadShadowWrite ref 0 b)
    | 10 => some (.payloadShadowWrite ref 1 b)
    | 11 => some (.payloadShadowWrite ref 2 b)
    | 12 => some (.payloadShadowWrite ref 3 b)
    | 13 => commandRow i ref .b b.data
    | _ => none
  | .importArea word =>
    if word.val < 8 then some (.blobWrite (Fin.ofNat 8 word.val) b)
    else if word.val = 8 then importCommandRow b.data else none
  | .status word => settingRowOf word b.data

/-- An import command word was refused as it was taken, with a code: the result takes it, the buffer is cleared but for
BUSY, and IMPORT_DONE is raised (R97, R98, R100). -/
def ImportRefused (command : Byte) (code : ImportCode) (s t : State) : Prop :=
  t.keys.result = { command := command, code := code, index := 0, check := 0#24 } ∧
  t.keys.buffer = (if code = .busy then s.keys.buffer else Vector.replicate 5 0#64) ∧
  t.causeSet .importDone = true ∧ OnlyRaised [.importDone] s t ∧ CountersKept [] s t ∧
  t = { s with keys := { s.keys with result := t.keys.result, buffer := t.keys.buffer }, status := t.status }

/-- A beat that is no row (R8, R9, R100, R128, R142): a slot command word with an unknown code gives HELD or
BAD_COMMAND; an import command word with an unknown code gives, in RUNNING, the first code of R100; any other beat acts
nowhere in the part. -/
def RowlessBeatActs (p : Place) (b : WriteBeat) (s t : State) : Prop :=
  match p with
  | .slot ref word =>
    (∀ c, s.ctx? ref = some c → word = 8 ∨ word = 13 →
      t.ctx? ref = some { c with lastResult := if s.status.hold = true then .held else .badCommand } ∧
      OtherSlotsKept ref s t ∧ t = { s with slots := { s.slots with contexts := t.slots.contexts } }) ∧
    (s.ctx? ref = none ∨ (word ≠ 8 ∧ word ≠ 13) → t = s)
  | .importArea word =>
    if word = 8 ∧ s.life.phase = .running then
      ImportRefused (b.data.extractLsb' 0 8)
        (if s.life.cycle = .zeroizing ∨ s.life.cycle = .zeroized then .wrongLifecycle
        else if s.status.hold = true then .held
        else if s.keys.importState ≠ .idle then .busy
        else .badCommand) s t
    else t = s
  | _ => t = s

/-- One beat of a write acts on the part: as its own row does, but for what that row itself sends to memory (the burst
goes there whole). A reload that an earlier beat of the same burst began does not keep the row from acting, since the
request has been taken already; a second map word does not act while it runs (R4, R142, R146, R155). -/
def BeatActs (i : Initiator) (p : Place) (b : WriteBeat) (s t : State) : Prop :=
  (rowOfBeat i p b = none → RowlessBeatActs p b s t) ∧
  ∀ row, rowOfBeat i p b = some row →
    ((∃ ref word, p = .slot ref word ∧ s.ctx? ref = none) → t = s) ∧
    ((∀ ref word, p = .slot ref word → s.ctx? ref ≠ none) →
      (p = .status .mapWord → s.reloading = true → t = s) ∧
      (p = .status .mapWord → s.reloading = false →
        ∃ v out, exec row s = .next v ∧ v.memOut = t.memOut ++ [out] ∧ t = { v with memOut := t.memOut }) ∧
      (p ≠ .status .mapWord →
        ∃ v out, exec row { s with map := { s.map with load := none } } = .next v ∧ v.memOut = t.memOut ++ [out] ∧
          t = { v with memOut := t.memOut, map := { v.map with load := s.map.load } }))

/-- The beats of a write act one after another, in ascending address order (R4, R142). -/
def BeatsAct (i : Initiator) : List (Place × WriteBeat) → State → State → Prop
  | [], s, t => t = s
  | (p, b) :: rest, s, t => ∃ u, BeatActs i p b s u ∧ BeatsAct i rest u t

/-! ### Records at NV_READ -/

/-- A record is EMPTY with every field zero; its key bytes are not examined (R87; log entry 23). -/
def RecordEmpty (r : NvRecord) : Prop :=
  r.state = 0#8 ∧ r.usage = 0#8 ∧ r.keySet = 0#8 ∧ r.version = 0#8 ∧ r.validFrom = 0#16 ∧ r.validUntil = 0#16 ∧
  r.check = 0#24

/-- The key set of a record is in range: 0 to 31, and 0 for TRANSPORT (R87). -/
abbrev KeySetInRange (r : NvRecord) : Prop := r.keySet ≤ 31#8 ∧ (r.usage ≠ 0x01#8 ∨ r.keySet = 0#8)

/-- A record is LOADED, REVOKED or DAMAGED, and its fields are in the ranges of R87. -/
def RecordInRange (r : NvRecord) : Prop :=
  r.state ∈ [1#8, 2#8, 3#8] ∧ r.usage ∈ [0x01#8, 0x02#8, 0x03#8] ∧ KeySetInRange r ∧ r.version ≤ 15#8 ∧
  (r.usage = 0x01#8 → r.validFrom = 0#16 ∧ r.validUntil = 0xFFFF#16)

/-- The key set that NV_READ keeps of a record: zero where it is out of range (R167). -/
def keptKeySet (r : NvRecord) : Byte := if KeySetInRange r then r.keySet else 0#8

/-- The version that NV_READ keeps of a record: zero where it is out of range (R167). -/
def keptVersion (r : NvRecord) : Byte := if r.version ≤ 15#8 then r.version else 0#8

/-- Two records would be placed non-EMPTY under one triple of a legal usage (R167). -/
def SameTriple (r r' : NvRecord) : Prop :=
  ¬RecordEmpty r ∧ ¬RecordEmpty r' ∧ r.usage ∈ [0x01#8, 0x02#8, 0x03#8] ∧ r.usage = r'.usage ∧
  keptKeySet r = keptKeySet r' ∧ keptVersion r = keptVersion r'

/-- Record `i` repeats the triple of a lower-indexed record (R167). -/
def RepeatsTriple (s : State) (i : Fin 64) : Prop := ∃ j, j < i ∧ SameTriple (s.record j) (s.record i)

end Sys2Proof.Safety
end

