-- ==== Sys2Proof/Certificates/Slice0/Obligations.lean ====
section
/-! DEFINITION. The statements for the provers, by the chapters of the spec. -/

open Sys2Proof Sys2Proof.Machine Sys2Proof.Safety

/-! ### The step and reset -/

/-- A step runs the command at the front of the queue on the state with the queue's rest. The queue is the model's
choice (log entry 3). -/
def Obligations.StepRunsFrontCommand : Prop :=
  ∀ c rest s, s.pending = c :: rest → step s = exec c { s with pending := rest }

/-- POWER_ON_RESET gives every state its power-on value and keeps the NV array (R166, R89; the power-on values of each
chapter). That the queue and the count of free values are kept is the model's choice (log entry 12); RESET_N asserted
and an all-clear state before NV_READ_END are R166's. -/
def Obligations.PowerOnGivesResetValues : Prop :=
  ∀ straps s, ∃ t, exec (.powerOnReset straps) s = .next t ∧
    t.nv = s.nv ∧ t.pending = s.pending ∧ t.freeCount = s.freeCount ∧
    t.life = { cycle := .blank, reader := 0#16, phase := .nvRead, tamperCount := 0#4, armed := true,
               tamperSeen := false, deferred := false, resetAsserted := true } ∧
    t.time = { pre := 24#8, pendingPre := none, prescale := 0#8, lt := 0#64, ltHigh := 0#32, capture := none,
               pulses := 0#16, epoch := 0#16, schedule := none, reason := .none } ∧
    (∀ c, t.counter c = 0#32) ∧ (∀ c, t.causeSet c = false) ∧ t.status.enables = 0#26 ∧ t.attn = false ∧
    t.status.hold = false ∧
    (∀ i, t.queue i = []) ∧ t.path.refusal.valid = false ∧ refusalDetail t.path.refusal = 0#64 ∧
    t.path.refusal.addr = 0#32 ∧
    (∀ i, (t.descriptor i).present = false) ∧ t.map.requested = 0#16 ∧ t.map.installed = 0#16 ∧
    t.map.state = .empty ∧ t.map.fault = .none ∧ t.map.faultIndex = 0 ∧ t.map.load = none ∧
    t.map.unmappedRead = 0xF#4 ∧ t.map.unmappedWrite = 0xF#4 ∧ t.base = controlBase straps ∧
    t.slots = { contexts := [], counter := 0, ceiling := 0, exhausted := false, reservationPending := false } ∧
    t.engine = { fifo := [], importPlace := none, waitCount := 0, job := none } ∧
    (∀ i, t.filter.at i = none) ∧ t.filter.d = 2000000#64 ∧ t.filter.h = 600000000#64 ∧
    (∀ i, t.entry i = DirEntry.emptied) ∧ t.keys.buffer = Vector.replicate 5 0#64 ∧
    t.keys.importState = .idle ∧ resultWord t.keys = 0#64 ∧ inquiryWord1 t.keys.inquiry = 0#64 ∧
    inquiryWord2 t.keys.inquiry = 0#64 ∧
    t.writer = { running := none, waiting := [], zeroizeWaiting := false, attemptsFailed := 0#8 } ∧
    t.memOut = [] ∧ t.sysOut = []

/-- Every invariant stated below holds of the state after reset (tier 1: the second half of each invariant). State.reset
is a part that has never been programmed, the model's choice (log entry 1). -/
def Obligations.ResetSatisfiesInvariants : Prop :=
  StartUpOrder State.reset ∧ ChallengesReserved State.reset ∧ SlotsAndEngine State.reset ∧
    ZeroizedClean State.reset ∧ HoldIsStill State.reset ∧
    FilterKeysUnique State.reset ∧ ScheduleAhead State.reset ∧ MapLegal State.reset ∧ QueuesInOrder State.reset ∧
    ImportAndWriter State.reset ∧ ZeroizeStagesStand State.reset ∧ TriplesUnique State.reset

/-! ### Lane time, pulses and epochs (chapter 6) -/

/-- RESET_N_RELEASE starts lane time (R115); from then on each TICK adds exactly 1 to LT and brings a pending PRE into
force (R116), and before it LT stays. The prescale count, 0 between ticks, is the model's choice (log entry 13), and
that a TICK before the release leaves the state is DEDUCED (log entry 18). A rising edge of SYNC is accepted when no
capture is present or 500,000 ticks have gone by since it; it then captures, counts, and counts a pending schedule
down, which switches the epoch at 0. Any other edge only adds to PULSE_GLITCHES (R120, R121, R126, R127). -/
def Obligations.TicksAndSyncEdgesCount : Prop :=
  (∀ s, s.life.resetAsserted = true →
    exec .resetNRelease s =
      .next { s with life := { s.life with resetAsserted := false }, time := { s.time with prescale := 0#8 } }) ∧
  (∀ s, s.life.resetAsserted = false →
    exec .tick s =
      .next { s with time :=
        { s.time with
          lt := s.time.lt + 1#64, prescale := 0#8, pendingPre := none,
          pre := match s.time.pendingPre with
            | some p => p
            | none => s.time.pre } }) ∧
  (∀ s, s.life.resetAsserted = true → exec .tick s = .next s) ∧
  (∀ s, (∀ c, s.time.capture = some c → 500000#64 ≤ s.time.lt - c) →
    ∃ t, exec .syncEdge s = .next t ∧
      t = { s with time := t.time, status := t.status, writer := t.writer } ∧
      t.time = { s.time with
        capture := some s.time.lt, pulses := s.time.pulses + 1#16, epoch := t.time.epoch, schedule := t.time.schedule } ∧
      CountersKept [] s t ∧
      (s.time.schedule = none →
        t.time.schedule = none ∧ t.time.epoch = s.time.epoch ∧ t.status = s.status ∧ t.writer = s.writer) ∧
      (∀ p, s.time.schedule = some p → 1#16 < p.countdown →
        t.time.schedule = some { p with countdown := p.countdown - 1#16 } ∧ t.time.epoch = s.time.epoch ∧
          t.status = s.status ∧ t.writer = s.writer) ∧
      (∀ p, s.time.schedule = some p → p.countdown ≤ 1#16 →
        t.time.schedule = none ∧ t.time.epoch = p.epoch ∧ t.causeSet .epochSwitched = true ∧
          OnlyRaised [.epochSwitched] s t ∧ RequestReached (.epochRecord p.epoch) s t)) ∧
  (∀ s c, s.time.capture = some c → s.time.lt - c < 500000#64 →
    ∃ t, exec .syncEdge s = .next t ∧ t = { s with status := t.status } ∧ OnlyRaised [] s t ∧
      t.counter .pulseGlitches = counted (s.counter .pulseGlitches) ∧ CountersKept [.pulseGlitches] s t)

/-- A taken schedule above the active epoch replaces the pending one, a countdown of 0 taken as 1; any other is rejected
and leaves the pending one (R125). SWITCH_NOW switches to a pending epoch at once, whatever the countdown, and CANCEL
removes the schedule; without a schedule both only reach memory (R127, R128). -/
def Obligations.SchedulesAreTakenSwitchedAndCancelled : Prop :=
  (∀ s w, s.life.phase = .running → s.status.hold = false → s.reloading = false →
     (s.time.epoch < w.extractLsb' 16 16 →
       exec (.epochScheduleWrite w) s =
         .next { s with
           time := { s.time with
             schedule := some {
               epoch := w.extractLsb' 16 16
               countdown := if (w.extractLsb' 32 16 : BitVec 16) = 0#16 then 1#16 else w.extractLsb' 32 16 }
             reason := .scheduled }
           memOut := s.memOut ++ [settingOut s 0x030 w] }) ∧
     (w.extractLsb' 16 16 ≤ s.time.epoch →
       ∃ t, exec (.epochScheduleWrite w) s = .next t ∧ t.time = { s.time with reason := .rejected } ∧
         t.causeSet .scheduleRejected = true ∧ OnlyRaised [.scheduleRejected] s t ∧ CountersKept [] s t ∧
         t = { s with time := t.time, status := t.status, memOut := s.memOut ++ [settingOut s 0x030 w] })) ∧
  (∀ s, s.life.phase = .running → s.status.hold = false → s.reloading = false →
     (∀ p, s.time.schedule = some p →
       ∃ t, exec .switchNow s = .next t ∧
         t.time = { s.time with epoch := p.epoch, schedule := none } ∧ t.causeSet .epochSwitched = true ∧
         OnlyRaised [.epochSwitched] s t ∧ CountersKept [] s t ∧
         RequestReached (.epochRecord p.epoch) s t ∧
         t = { s with
           time := t.time, status := t.status, writer := t.writer
           memOut := s.memOut ++ [settingOut s 0x038 1#64] }) ∧
     (s.time.schedule = none →
       exec .switchNow s = .next { s with memOut := s.memOut ++ [settingOut s 0x038 1#64] }) ∧
     exec .cancel s =
       .next { s with
         time := { s.time with schedule := none }, memOut := s.memOut ++ [settingOut s 0x038 2#64] })

/-! ### Settings, attention and the hold (chapters 4, 8 and 10) -/

/-- The writes of PRE, the unmapped rights, D, H and the counter-clear word that are taken hand their fields to the
owner and change nothing else (R116, R153, R70, R190). A status write before RUNNING, or one that the hold shuts out,
reaches memory and changes nothing in the part (R181, R147, R193). -/
def Obligations.SettingsReachOwnersOrOnlyMemory : Prop :=
  (∀ s w, s.life.phase = .running → s.status.hold = false → s.reloading = false →
    exec (.preWrite w) s =
      .next { s with
        time := { s.time with pendingPre := some (w.extractLsb' 0 8) }
        memOut := s.memOut ++ [settingOut s 0x018 w] } ∧
    exec (.unmappedRightsWrite w) s =
      .next { s with
        map := { s.map with unmappedRead := w.extractLsb' 0 4, unmappedWrite := w.extractLsb' 8 4 }
        memOut := s.memOut ++ [settingOut s 0x058 w] } ∧
    exec (.duplicateIntervalWrite w) s =
      .next { s with filter := { s.filter with d := w }, memOut := s.memOut ++ [settingOut s 0x060 w] } ∧
    (∃ t, exec (.holdTimeWrite w) s = .next t ∧ t.filter.h.toNat = min w.toNat (2 ^ 40) ∧
      t = { s with filter := { s.filter with h := t.filter.h }, memOut := s.memOut ++ [settingOut s 0x068 w] }) ∧
    (∃ t, exec (.counterClear w) s = .next t ∧
      (∀ c, t.counter c = if w.getLsbD (counterIndex c).val then 0#32 else s.counter c) ∧ OnlyRaised [] s t ∧
      t = { s with status := t.status, memOut := s.memOut ++ [settingOut s 0x0B0 w] })) ∧
  (∀ c word offset w s, settingRow c = some (word, offset, w) → s.reloading = false →
    s.life.phase ≠ .running ∨
      (s.status.hold = true ∧ word ≠ .hold ∧ word ≠ .causes ∧ word ≠ .enables) →
    exec c s = .next { s with memOut := s.memOut ++ [settingOut s offset w] })

/-- The causes word clears exactly the causes whose bits are written 1, and the first-refusal record with REFUSAL; the
enables word replaces every enable; ATTN follows at once. Each cause has its bit of R202: SLOT_DONE[g] bit g,
IMPORT_DONE 16, up to ZEROIZED 25. Both are taken with the hold set too (R186, R187, R181, R202). That the
first-refusal record is cleared only where the cause was set is the model's reading (DEDUCED, log entry 26). -/
def Obligations.AttentionWordsAct : Prop :=
  ∀ s w, s.life.phase = .running → s.reloading = false →
    (∃ t, exec (.attentionCausesWrite w) s = .next t ∧
      (∀ c, t.causeSet c = (s.causeSet c && !w.getLsbD (causePlace c))) ∧
      t.status = { s.status with causes := t.status.causes } ∧
      t.path.refusal =
        (if w.getLsbD 21 && s.causeSet .refusal then { s.path.refusal with valid := false } else s.path.refusal) ∧
      t = { s with
        status := t.status, path := { s.path with refusal := t.path.refusal }
        memOut := s.memOut ++ [settingOut s 0x040 w] } ∧
      (s.life.resetAsserted = false →
        (t.attn = true ↔ ∃ c, t.causeSet c = true ∧ t.status.enables.getLsbD (causePlace c)))) ∧
    (∃ t, exec (.attentionEnablesWrite w) s = .next t ∧
      t = { s with
        status := { s.status with enables := w.extractLsb' 0 26 }, memOut := s.memOut ++ [settingOut s 0x048 w] } ∧
      (s.life.resetAsserted = false → (t.attn = true ↔ ∃ c, s.causeSet c = true ∧ w.getLsbD (causePlace c))))

/-- Setting the hold frees every slot, empties the engine's queues, marks the job in work for discard, ends an import
that waits or works, clears the filter and every counter, and leaves the rest; a hold already set is left as it is.
Clearing it changes the flag and no block (R191, R192, R194, R29, R49, R83, R113, R190). The field that holds the code
of the command in flight is the model's (DEDUCED, log entry 27). -/
def Obligations.HoldSetStopsKeyWorkAndClearActsOnNoBlock : Prop :=
  (∀ s upper, s.life.phase = .running → s.reloading = false →
     (s.status.hold = true →
       exec (.holdSet upper) s = .next { s with memOut := s.memOut ++ [settingOut s 0x078 (upper ++ 1#1)] }) ∧
     (s.status.hold = false →
       ∃ t, exec (.holdSet upper) s = .next t ∧ t.status.hold = true ∧
         (∀ r, t.ctx? r = (s.ctx? r).map clearCtx) ∧
         t.slots = { s.slots with contexts := t.slots.contexts } ∧
         t.engine = { fifo := [], importPlace := none, waitCount := 0,
                      job := s.engine.job.map fun j => { j with discard := true } } ∧
         (∀ i, t.filter.at i = none) ∧ t.filter.d = s.filter.d ∧ t.filter.h = s.filter.h ∧
         (∀ c, t.counter c = 0#32) ∧ t.status.enables = s.status.enables ∧
         t.keys.buffer = Vector.replicate 5 0#64 ∧ t.keys.dir = s.keys.dir ∧ t.keys.inquiry = s.keys.inquiry ∧
         (if s.keys.importState = .queued ∨ s.keys.importState = .working then
           t.keys.importState = .idle ∧
             t.keys.result = { command := s.keys.inFlight, code := .held, index := 0, check := 0#24 } ∧
             t.causeSet .importDone = true ∧ (∀ c, c ≠ .importDone → t.causeSet c = s.causeSet c)
         else
           t.keys.importState = s.keys.importState ∧ t.keys.result = s.keys.result ∧
             t.status.causes = s.status.causes) ∧
         (∀ i, (t.queue i).any isHeld = false) ∧ HeldReadsSettled [settingOut s 0x078 (upper ++ 1#1)] s t ∧
         t.path.refusal = s.path.refusal ∧
         t = { s with
           slots := t.slots, engine := t.engine, filter := t.filter, keys := t.keys, status := t.status, path := t.path
           memOut := t.memOut, sysOut := t.sysOut })) ∧
  (∀ s upper, s.life.phase = .running → s.reloading = false →
     exec (.holdClear upper) s =
       .next { s with
         status := { s.status with hold := false }
         memOut := s.memOut ++ [settingOut s 0x078 (upper ++ 0#1)] })

/-- The layouts of the answered words: slot words, zero where the slot does not exist (R6, R197, R198); the words of
the import area (R95, R200); and the words of the status block (R180, R183, R184, R202). A code is the place of its
name in the list of the spec's table, from 0. The LT high latch, the idle values of absent optional fields (zero) and
the unassigned words are as the tables state them; each cause stands in the causes word, and its enable in the enables
word, at its bit of R202. The words of a slot that does not exist read zero (R25, R28). The model's own reading is
that the NV writer state word shows NV_READ exactly while the phase is NV_READ, RESET_N is released and the writer
runs nothing (DEDUCED, log entry 11). That at most three requests wait is kept by every step
(StepKeepsImportAndWriter). -/
def Obligations.AnsweredWordsAsLaidOut : Prop :=
  (∀ s ref c, s.ctx? ref = some c →
    (∃ w, answer s (.slot ref 0) = some w ∧
      (byteOf w 0).toNat = [SlotState.free, .open', .queued, .busy, .verified, .rejected, .sealed, .expired, .faulted,
        .aborting].idxOf c.state ∧
      (byteOf w 1).toNat = [none, some JobKind.verify, some .sealing].idxOf c.jobKind ∧
      byteOf w 2 = c.generation ∧
      (byteOf w 3).toNat = [SlotResult.none, .ok, .held, .badCommand, .notPermitted, .stale, .wrongState, .noService,
        .exhausted, .challengeWait].idxOf c.lastResult ∧
      w.getLsbD 32 = c.late ∧ w.extractLsb' 33 31 = 0#31) ∧
    answer s (.slot ref 1) = some (c.challenge.getD 0#64) ∧
    (∃ w, answer s (.slot ref 2) = some w ∧
      w.extractLsb' 0 32 = (c.arrival.getD 0#64).extractLsb' 0 32 ∧
      w.extractLsb' 32 32 = (c.deadline.getD 0#64).extractLsb' 0 32) ∧
    (∃ w, answer s (.slot ref 3) = some w ∧
      (byteOf w 0).toNat = [none, some Verdict.accept, some .reject].idxOf c.verdict ∧
      (byteOf w 1).toNat = [none, some Reason.keyAbsent, some .keyRevoked, some .keyDamaged, some .keyOutOfEpoch,
        some .badMac, some .duplicate, some .replay, some .badInbound, some .keyWithdrawn,
        some .noRecordKey].idxOf c.reason ∧
      (c.duplicate = none → w.extractLsb' 16 48 = 0#48) ∧
      (∀ d, c.duplicate = some d →
        (byteOf w 2).toNat = d.first.slot.group.val ∧ (byteOf w 3).toNat = d.first.slot.index.val ∧
        byteOf w 4 = d.first.generation ∧ (byteOf w 5).toNat = d.first.antenna.toNat ∧ byteOf w 6 = d.ordinal ∧
        byteOf w 7 = 0#8)) ∧
    (∃ w, answer s (.slot ref 8) = some w ∧ answer s (.slot ref 13) = some w ∧
      (byteOf w 0).toNat = [SlotResult.none, .ok, .held, .badCommand, .notPermitted, .stale, .wrongState, .noService,
        .exhausted, .challengeWait].idxOf c.lastResult ∧
      byteOf w 1 = c.generation ∧ w.extractLsb' 16 48 = 0#48) ∧
    answer s (.slot ref 14) = some (if c.state = .sealed then c.mac.getD 0#64 else 0#64) ∧
    answer s (.slot ref 15) = some (if c.state = .sealed then c.recordSeal.getD 0#64 else 0#64)) ∧
  (∀ s ref, (∀ word ∈ [(4 : Fin 16), 5, 6, 7, 9, 10, 11, 12], answer s (.slot ref word) = none) ∧
    (s.ctx? ref = none →
      ∀ word ∈ [(0 : Fin 16), 1, 2, 3, 8, 13, 14, 15], answer s (.slot ref word) = some 0#64)) ∧
  (∀ s,
    (∀ word : Fin 16, word.val ≤ 8 → answer s (.importArea word) = some 0#64) ∧
    (∃ w, answer s (.importArea 9) = some w ∧
      (byteOf w 0).toNat = [ImportState.idle, .queued, .working, .nvWriting].idxOf s.keys.importState ∧
      byteOf w 1 = s.keys.result.command ∧
      (byteOf w 2).toNat = [ImportCode.none, .ok, .busy, .held, .badCommand, .badHeader, .wrongLifecycle, .noTransport,
        .exists', .full, .badBlob, .checkMismatch, .notFound, .protected', .nvFault].idxOf s.keys.result.code ∧
      (byteOf w 3).toNat = s.keys.result.index.val ∧ w.extractLsb' 32 24 = s.keys.result.check ∧ byteOf w 7 = 0#8) ∧
    (∃ w, answer s (.importArea 10) = some w ∧
      (byteOf w 0).toNat = s.keys.inquiry.index.val ∧
      (byteOf w 1).toNat = [EntryState.empty, .loaded, .revoked, .damaged].idxOf s.keys.inquiry.state ∧
      (byteOf w 2).toNat = [Usage.none, .transport, .tag, .record].idxOf s.keys.inquiry.usage ∧
      (byteOf w 3).toNat = s.keys.inquiry.keySet.toNat ∧ (byteOf w 4).toNat = s.keys.inquiry.version.toNat ∧
      w.extractLsb' 40 24 = s.keys.inquiry.check) ∧
    (∃ w, answer s (.importArea 11) = some w ∧
      w.extractLsb' 0 16 = s.keys.inquiry.validFrom ∧ w.extractLsb' 16 16 = s.keys.inquiry.validUntil ∧
      w.extractLsb' 32 32 = 0#32) ∧
    (∀ word : Fin 16, 12 ≤ word.val → answer s (.importArea word) = none)) ∧
  (∀ s,
    let has := fun (word : StatusWord) (form : Word → Prop) => ∃ w, answer s (.status word) = some w ∧ form w
    has .identity (fun w =>
      w.extractLsb' 0 16 = 0x7C20#16 ∧ byteOf w 2 = 0x02#8 ∧
      (byteOf w 3).toNat = [LifeCycle.blank, .personalized, .field, .zeroizing, .zeroized].idxOf s.life.cycle ∧
      w.extractLsb' 32 16 = s.life.reader ∧
      (byteOf w 6).toNat = [Phase.nvRead, .keyCheck, .reserve, .mapLoad, .running].idxOf s.life.phase ∧
      w.getLsbD 56 = s.life.tamperSeen ∧ w.extractLsb' 57 7 = 0#7) ∧
    has .ltLow (fun w => w.extractLsb' 0 32 = s.time.lt.extractLsb' 0 32 ∧ w.extractLsb' 32 32 = 0#32) ∧
    has .ltHigh (fun w => w.extractLsb' 0 32 = s.time.ltHigh ∧ w.extractLsb' 32 32 = 0#32) ∧
    has .pre (fun w =>
      byteOf w 0 = s.time.pre ∧ byteOf w 1 = s.time.pendingPre.getD 0#8 ∧
      w.getLsbD 16 = s.time.pendingPre.isSome ∧ w.extractLsb' 17 47 = 0#47) ∧
    has .pulseCapture (fun w => w = s.time.capture.getD 0#64) ∧
    has .pulseCount (fun w =>
      w.extractLsb' 0 16 = s.time.pulses ∧ w.extractLsb' 16 16 = 0#16 ∧
      w.extractLsb' 32 32 = s.counter .pulseGlitches) ∧
    has .epoch (fun w =>
      w.extractLsb' 0 16 = s.time.epoch ∧
      (s.time.schedule = none → w.extractLsb' 16 32 = 0#32) ∧
      (∀ p, s.time.schedule = some p →
        w.extractLsb' 16 16 = p.epoch ∧ w.extractLsb' 32 16 = p.countdown) ∧
      (byteOf w 6).toNat = [ScheduleReason.none, .scheduled, .rejected].idxOf s.time.reason ∧ byteOf w 7 = 0#8) ∧
    has .epochControl (fun w => w = 0#64) ∧
    has .causes (fun w =>
      (∀ c, w.getLsbD (causePlace c) = s.causeSet c) ∧ w.extractLsb' 0 26 = s.status.causes ∧
      w.extractLsb' 26 38 = 0#38) ∧
    has .enables (fun w => w.extractLsb' 0 26 = s.status.enables ∧ w.extractLsb' 26 38 = 0#38) ∧
    has .mapWord (fun w =>
      w.extractLsb' 0 16 = s.map.requested ∧ w.extractLsb' 16 16 = s.map.installed ∧
      (byteOf w 4).toNat = [MapState.empty, .loading, .loaded, .fault].idxOf s.map.state ∧
      (byteOf w 5).toNat = [MapFault.none, .readError, .spareBits, .badKind, .badField, .outOfSpace, .controlOverlap,
        .overlap, .tooManySlots].idxOf s.map.fault ∧
      (byteOf w 6).toNat = s.map.faultIndex.val ∧ byteOf w 7 = 0#8) ∧
    has .unmappedRights (fun w =>
      w.extractLsb' 0 4 = s.map.unmappedRead ∧ w.extractLsb' 4 4 = 0#4 ∧ w.extractLsb' 8 4 = s.map.unmappedWrite ∧
      w.extractLsb' 12 52 = 0#52) ∧
    has .dInterval (fun w => w = s.filter.d) ∧ has .holdTime (fun w => w = s.filter.h) ∧
    has .occupancy (fun w =>
      w.toNat = ((List.finRange 256).filter fun i => (s.filter.at i).isSome).length) ∧
    has .hold (fun w => w.getLsbD 0 = s.status.hold ∧ w.extractLsb' 1 63 = 0#63) ∧
    has (.counters 0) (fun w =>
      w.extractLsb' 0 32 = s.counter .accept ∧ w.extractLsb' 32 32 = s.counter .duplicate) ∧
    has (.counters 1) (fun w => w.extractLsb' 0 32 = s.counter .replay ∧ w.extractLsb' 32 32 = s.counter .badMac) ∧
    has (.counters 2) (fun w => w.extractLsb' 0 32 = s.counter .key ∧ w.extractLsb' 32 32 = s.counter .expired) ∧
    has (.counters 3) (fun w => w.extractLsb' 0 32 = s.counter .late ∧ w.extractLsb' 32 32 = s.counter .faulted) ∧
    has (.counters 4) (fun w =>
      w.extractLsb' 0 32 = s.counter .refusals ∧ w.extractLsb' 32 32 = s.counter .evictions) ∧
    has (.counters 5) (fun w => w.extractLsb' 0 32 = s.counter .pulseGlitches ∧ w.extractLsb' 32 32 = 0#32) ∧
    has .counterClear (fun w => w = 0#64) ∧
    has .refusalAddress (fun w => w.extractLsb' 0 32 = s.path.refusal.addr ∧ w.extractLsb' 32 32 = 0#32) ∧
    has .refusalDetail (fun w =>
      w.getLsbD 0 = s.path.refusal.valid ∧ w.extractLsb' 1 7 = 0#7 ∧
      (byteOf w 1).toNat = s.path.refusal.initiator.val ∧
      w.getLsbD 16 = (s.path.refusal.dir == .write) ∧ w.getLsbD 17 = s.path.refusal.privileged ∧
      w.extractLsb' 18 6 = 0#6 ∧
      (byteOf w 3).toNat = [none, some RefusalReason.limit, some .form, some .permission, some .privilege,
        some .resultWrite, some .reserved].idxOf s.path.refusal.reason ∧ w.extractLsb' 32 32 = 0#32) ∧
    has .challengeStatus (fun w =>
      w.extractLsb' 0 49 = BitVec.ofNat 49 (s.slots.ceiling - s.slots.counter) ∧ w.extractLsb' 49 7 = 0#7 ∧
      w.getLsbD 56 = s.slots.exhausted ∧ w.getLsbD 57 = s.slots.reservationPending ∧ w.extractLsb' 58 6 = 0#6) ∧
    has .nvState (fun w =>
      (∀ op, s.writer.running = some op → (byteOf w 0).toNat = runningField op) ∧
      (s.writer.running = none → (byteOf w 0).toNat =
        if s.life.phase = .nvRead ∧ s.life.resetAsserted = false then 1 else 0) ∧
      (∀ kind : Fin 3, s.writer.waiting.length ≤ 3 →
        ((∀ r ∈ s.writer.waiting, requestKindOf r ≠ kind) → byteOf w (kind.val + 1) = 0#8) ∧
        ∀ before r after, s.writer.waiting = before ++ r :: after → requestKindOf r = kind →
          (∀ x ∈ before, requestKindOf x ≠ kind) → (byteOf w (kind.val + 1)).toNat = before.length + 1) ∧
      w.getLsbD 32 = s.writer.zeroizeWaiting ∧ w.extractLsb' 33 7 = 0#7 ∧ byteOf w 5 = s.writer.attemptsFailed ∧
      w.extractLsb' 48 16 = 0#16) ∧
    has .unassigned (fun w => w = 0#64))

/-! ### Tamper and zeroization (chapter 9) -/

/-- The sampler counts asserted samples while armed; the eighth in a row records a tamper event, disarms and restarts
the count; a sample not asserted restarts the count and arms. A tamper event is deferred during NV_READ, starts a
zeroization in FIELD, and in any other life cycle is only recorded (R173, R174, R175). One judged in FIELD during
KEY_CHECK ends that phase (R169), and RESERVE, which programs nothing then, ends with it: counter and ceiling stand at
the stored high-water, and MAP_LOAD begins (R170, R172). That CHALLENGE_LOW and the exhausted flag are set where a
zeroization ends RESERVE is the model's choice (DEDUCED, log entry 21); the field that holds the code of the command
in flight is the model's (DEDUCED, log entry 27). ZEROIZE with its pattern, in BLANK, PERSONALIZED or FIELD: the
command ends OK, and the zeroization starts (R111, R175). -/
def Obligations.TamperOrZeroizeStartsZeroization : Prop :=
  (∀ s, s.life.resetAsserted = false →
     exec (.tamperSample false) s = .next { s with life := { s.life with tamperCount := 0#4, armed := true } } ∧
     (s.life.armed = false → exec (.tamperSample true) s = .next s) ∧
     (s.life.armed = true → s.life.tamperCount < 7#4 →
       exec (.tamperSample true) s =
         .next { s with life := { s.life with tamperCount := s.life.tamperCount + 1#4 } }) ∧
     (s.life.armed = true → s.life.tamperCount = 7#4 →
       ∃ t, exec (.tamperSample true) s = .next t ∧ t.causeSet .tamper = true ∧
         t.life.tamperSeen = true ∧ t.life.armed = false ∧ t.life.tamperCount = 0#4 ∧
         (s.life.phase = .nvRead →
           OnlyRaised [.tamper] s t ∧ CountersKept [] s t ∧
           t = { s with
             life := { s.life with tamperCount := 0#4, armed := false, tamperSeen := true, deferred := true }
             status := t.status }) ∧
         (s.life.phase ≠ .nvRead → s.life.cycle ≠ .field →
           OnlyRaised [.tamper] s t ∧ CountersKept [] s t ∧
           t = { s with
             life := { s.life with tamperCount := 0#4, armed := false, tamperSeen := true }, status := t.status }) ∧
         (s.life.phase ≠ .nvRead → s.life.phase ≠ .keyCheck → s.life.cycle = .field →
           ∃ v, TamperRecorded s v ∧ ZeroizedByTamper v t) ∧
         (s.life.phase = .keyCheck → s.life.cycle = .field →
           ∃ v u, TamperRecorded s v ∧ ZeroizedByTamper v u ∧ ReserveEndedAtOnce u t ∧ NothingHeld t))) ∧
  (∀ s, s.life.phase = .running → s.reloading = false → s.status.hold = false → s.keys.importState = .idle →
     s.life.cycle = .blank ∨ s.life.cycle = .personalized ∨ s.life.cycle = .field →
     ∃ t, exec (.zeroize (0xA5F0C3963C5A#48 ++ 0#8)) s = .next t ∧ ZeroizationBegan [importOut s] s t ∧
       t.keys.result = { command := 0x08#8, code := .ok, index := 0, check := 0#24 } ∧
       t.causeSet .importDone = true ∧ OnlyRaised [.importDone] s t ∧
       t.life = { s.life with cycle := .zeroizing } ∧ t.memOut.getLast? = some (importOut s))

/-! ### Transaction slots (chapter 1) -/

/-- OPEN of a FREE slot in service issues the next challenge value and starts the transaction; it asks for a reservation
when at most 1,024 values are left, none is pending and the ceiling is below 2^48 (R11, R12, R33, R34, R35). -/
def Obligations.OpenIssuesChallenge : Prop :=
  ∀ i r cw (g : BitVec 8) s c, s.ctx? r = some c → s.reloading = false → s.status.hold = false →
    (s.descriptor r.group).manageMask.getLsbD i.val = true → c.state = .free →
    s.life.cycle = .personalized ∨ s.life.cycle = .field → s.life.reader ≠ 0#16 →
    s.slots.exhausted = false → s.slots.counter < s.slots.ceiling →
    ∃ t, exec (.openSlot i r cw (0#48 ++ g)) s = .next t ∧
      t.ctx? r = some { SlotCtx.fresh with
        state := .open', generation := c.generation + 1#8, lastResult := .ok
        challenge := some (s.life.reader ++ BitVec.ofNat 48 s.slots.counter), arrival := some s.time.lt
        deadline := some (s.time.lt + (s.descriptor r.group).budget.setWidth 64) } ∧
      OtherSlotsKept r s t ∧ t.slots.counter = s.slots.counter + 1 ∧ t.slots.ceiling = s.slots.ceiling ∧
      (t.slots.exhausted = true ↔ s.slots.counter = 2 ^ 48 - 1) ∧
      (if s.slots.ceiling - (s.slots.counter + 1) ≤ 1024 ∧ s.slots.reservationPending = false ∧
          s.slots.ceiling < 2 ^ 48 then
        t.slots.reservationPending = true ∧
          RequestReached (.reservation (s.slots.ceiling + 4096)) s t
      else t.slots.reservationPending = s.slots.reservationPending ∧ t.writer = s.writer) ∧
      OnlyRaised [.challengeLow] s t ∧ CountersKept [] s t ∧
      (t.causeSet .challengeLow = true ↔
        s.causeSet .challengeLow = true ∨ (s.challengeLow = false ∧ t.challengeLow = true)) ∧
      t = { s with
        slots := t.slots, writer := t.writer, status := t.status
        memOut := s.memOut ++ [commandBeat s r cw .open' (0#48 ++ g)] }

/-- ARM needs the fill mask and an OPEN slot (else NOT_PERMITTED, WRONG_STATE). It freezes the inbound shadow and queues
the slot with VERIFY at the tail of the engine FIFO; with a nonzero spare bit or a key set above 31 the slot becomes
FAULTED with BAD_INBOUND instead (R13). -/
def Obligations.ArmQueuesOrFaults : Prop :=
  ∀ i r cw s c, s.ctx? r = some c → s.reloading = false → s.status.hold = false →
    let row := Instr.arm i r cw (0#48 ++ c.generation)
    let out := commandBeat s r cw .arm (0#48 ++ c.generation)
    let fill := (s.descriptor r.group).writeMask.getLsbD i.val
    let good := c.inbound[0].extractLsb' 28 4 = 0#4 ∧ c.inbound[0].extractLsb' 43 21 = 0#21 ∧
      c.inbound[0].extractLsb' 32 8 ≤ 31#8
    (fill = false → SlotRefused row r c .notPermitted out s) ∧
    (fill = true → c.state ≠ .open' → SlotRefused row r c .wrongState out s) ∧
    (fill = true → c.state = .open' → good →
      ∃ t, exec row s = .next t ∧
        t.ctx? r = some { c with lastResult := .ok, state := .queued, jobKind := some .verify } ∧
        OtherSlotsKept r s t ∧ InboundFrozen r t ∧
        t = { s with
          slots := { s.slots with contexts := t.slots.contexts }
          engine := { s.engine with fifo := s.engine.fifo ++ [r] }
          memOut := s.memOut ++ [out] }) ∧
    (fill = true → c.state = .open' → ¬good →
      ∃ t, exec row s = .next t ∧
        SlotEnded r { c with
          lastResult := .ok, state := .faulted, jobKind := none, derivedKey := none, reason := some .badInbound } s t ∧
        CountersKept [.faulted] s t ∧ InboundFrozen r t ∧
        t = { s with
          slots := { s.slots with contexts := t.slots.contexts }, status := t.status, memOut := s.memOut ++ [out] })

/-- SEAL needs the manage mask and a VERIFIED slot (else NOT_PERMITTED, WRONG_STATE). It freezes the payload shadow and
queues the slot with SEAL at the tail of the engine FIFO; the derived key, the tag entry and the verdict stay, and the
verdict detail word reads as before (R14). -/
def Obligations.SealQueuesVerifiedSlot : Prop :=
  ∀ i r cw s c, s.ctx? r = some c → s.reloading = false → s.status.hold = false →
    let row := Instr.sealSlot i r cw (0#48 ++ c.generation)
    let out := commandBeat s r cw .sealing (0#48 ++ c.generation)
    let manage := (s.descriptor r.group).manageMask.getLsbD i.val
    (manage = false → SlotRefused row r c .notPermitted out s) ∧
    (manage = true → c.state ≠ .verified → SlotRefused row r c .wrongState out s) ∧
    (manage = true → c.state = .verified →
      ∃ t c', exec row s = .next t ∧ t.ctx? r = some c' ∧
        c' = { c with lastResult := .ok, state := .queued, jobKind := some .sealing } ∧
        slotAnswer c' 3 = slotAnswer c 3 ∧ OtherSlotsKept r s t ∧ PayloadFrozen r t ∧
        t = { s with
          slots := { s.slots with contexts := t.slots.contexts }
          engine := { s.engine with fifo := s.engine.fifo ++ [r] }
          memOut := s.memOut ++ [out] })

/-- RELEASE needs the manage mask and an end state (else NOT_PERMITTED, WRONG_STATE). It frees the slot and clears its
context, a derived key with it; the generation is kept and the last command result is OK (R15). -/
def Obligations.ReleaseFreesEndedSlot : Prop :=
  ∀ i r cw s c, s.ctx? r = some c → s.reloading = false → s.status.hold = false →
    let row := Instr.release i r cw (0#48 ++ c.generation)
    let out := commandBeat s r cw .release (0#48 ++ c.generation)
    let manage := (s.descriptor r.group).manageMask.getLsbD i.val
    let ended := c.state = .verified ∨ c.state = .rejected ∨ c.state = .sealed ∨ c.state = .expired ∨ c.state = .faulted
    (manage = false → SlotRefused row r c .notPermitted out s) ∧
    (manage = true → ¬ended → SlotRefused row r c .wrongState out s) ∧
    (manage = true → ended →
      ∃ t, exec row s = .next t ∧ t.ctx? r = some (releasedCtx c) ∧ OtherSlotsKept r s t ∧
        t = { s with slots := { s.slots with contexts := t.slots.contexts }, memOut := s.memOut ++ [out] })

/-- ABORT of an OPEN or QUEUED slot takes it out of the engine FIFO, frees it and ends the reads held for it; ABORT of a
BUSY slot makes it ABORTING, its job going on; ABORT in an end state acts as RELEASE, and of a FREE or ABORTING slot
gives WRONG_STATE (R16, R25). -/
def Obligations.AbortStopsTransaction : Prop :=
  ∀ i r cw s c, s.ctx? r = some c → s.reloading = false → s.status.hold = false →
    let row := Instr.abort i r cw (0#48 ++ c.generation)
    let out := commandBeat s r cw .abort (0#48 ++ c.generation)
    let manage := (s.descriptor r.group).manageMask.getLsbD i.val
    (manage = false → SlotRefused row r c .notPermitted out s) ∧
    (manage = true → c.state = .free ∨ c.state = .aborting → SlotRefused row r c .wrongState out s) ∧
    (manage = true → c.state = .open' ∨ c.state = .queued →
      ∃ t, exec row s = .next t ∧ t.ctx? r = some (releasedCtx c) ∧
        OtherSlotsKept r s t ∧ NoReadHeldFor r t ∧ HeldReadsSettled [out] s t ∧ t.path.refusal = s.path.refusal ∧
        t.memOut.getLast? = some out ∧
        t = { s with
          slots := { s.slots with contexts := t.slots.contexts }
          engine := { s.engine with fifo := s.engine.fifo.filter fun x => x ≠ r }
          path := t.path, sysOut := t.sysOut, memOut := t.memOut }) ∧
    (manage = true → c.state = .busy →
      ∃ t, exec row s = .next t ∧
        t.ctx? r = some { c with lastResult := .ok, state := .aborting } ∧ OtherSlotsKept r s t ∧
        t = { s with slots := { s.slots with contexts := t.slots.contexts }, memOut := s.memOut ++ [out] }) ∧
    (manage = true → c.state ∈ [.verified, .rejected, .sealed, .expired, .faulted] →
      ∃ t, exec row s = .next t ∧ t.ctx? r = some (releasedCtx c) ∧ OtherSlotsKept r s t ∧
        t = { s with slots := { s.slots with contexts := t.slots.contexts }, memOut := s.memOut ++ [out] })

/-- The first check that a slot command fails decides its result, in the order of R9 and R11; the last command result
takes the code and nothing else in a slot changes. Only CHALLENGE_WAIT does more: it asks for a reservation (R35). -/
def Obligations.SlotCommandChecksInOrder : Prop :=
  ∀ row i r cw cmd upper s c res, slotRow row = some (i, r, cw, cmd, upper) → s.ctx? r = some c → s.reloading = false →
    slotCheck s i r cmd upper c = some res →
    ∃ t, exec row s = .next t ∧ t.ctx? r = some { c with lastResult := res } ∧ OtherSlotsKept r s t ∧
      (res ≠ .challengeWait → t.slots = { s.slots with contexts := t.slots.contexts } ∧ t.writer = s.writer) ∧
      (res = .challengeWait →
        t.slots = { s.slots with contexts := t.slots.contexts, reservationPending := t.slots.reservationPending } ∧
        (s.slots.reservationPending = false → s.slots.ceiling < 2 ^ 48 →
          t.slots.reservationPending = true ∧
            RequestReached (.reservation (s.slots.ceiling + 4096)) s t) ∧
        (s.slots.reservationPending = true ∨ 2 ^ 48 ≤ s.slots.ceiling →
          t.slots.reservationPending = s.slots.reservationPending ∧ t.writer = s.writer)) ∧
      t = { s with
        slots := t.slots, writer := t.writer, memOut := s.memOut ++ [commandBeat s r cw cmd upper] }

/-- While a slot is OPEN, each byte of an inbound beat whose strobe is present enters the shadow; a payload beat does so
from OPEN until SEAL is taken; in any other state the shadows stay. The beat always goes to memory (R18, R19). -/
def Obligations.ShadowsTakeStrobedBytes : Prop :=
  ∀ r w b s c, s.ctx? r = some c → s.reloading = false →
    (∃ t, exec (.inboundShadowWrite r w b) s = .next t ∧ OtherSlotsKept r s t ∧
      (∃ v, t.ctx? r = some { c with inbound := v } ∧
        (∀ w', w' ≠ w → v[w'] = c.inbound[w']) ∧
        ∀ k : Fin 8, byteOf v[w] k.val =
          if c.state = .open' ∧ b.strobes.getLsbD k.val = true then byteOf b.data k.val else byteOf c.inbound[w] k.val) ∧
      t = { s with
        slots := { s.slots with contexts := t.slots.contexts }
        memOut := s.memOut ++ [.beat ((s.descriptor r.group).base * 4096 + r.index.val * 128 + (0x20 + 8 * w.val)) b] }) ∧
    (∃ t, exec (.payloadShadowWrite r w b) s = .next t ∧ OtherSlotsKept r s t ∧
      (∃ v, t.ctx? r = some { c with payload := v } ∧
        (∀ w', w' ≠ w → v[w'] = c.payload[w']) ∧
        ∀ k : Fin 8, byteOf v[w] k.val =
          if (c.state = .open' ∨ c.state = .verified ∨
                ((c.state = .queued ∨ c.state = .busy) ∧ c.jobKind = some .verify)) ∧
              b.strobes.getLsbD k.val = true then byteOf b.data k.val
          else byteOf c.payload[w] k.val) ∧
      t = { s with
        slots := { s.slots with contexts := t.slots.contexts }
        memOut := s.memOut ++ [.beat ((s.descriptor r.group).base * 4096 + r.index.val * 128 + (0x48 + 8 * w.val)) b] })

/-- The deadline expires an OPEN slot and one QUEUED with VERIFY, sets the late flag of one that is BUSY, VERIFIED or
QUEUED with SEAL, and does nothing in any other state (R21, R23, R7). -/
def Obligations.DeadlineExpiresOrMarksLate : Prop :=
  ∀ r s c, s.ctx? r = some c → c.deadline = some s.time.lt →
    (c.state = .open' ∨ (c.state = .queued ∧ c.jobKind = some .verify) →
      ∃ t, exec (.deadlineReached r) s = .next t ∧
        SlotEnded r { c with state := .expired, jobKind := none } s t ∧ CountersKept [.expired] s t ∧
        NoReadHeldFor r t ∧ HeldReadsSettled [] s t ∧ t.path.refusal = s.path.refusal ∧
        t = { s with
          slots := { s.slots with contexts := t.slots.contexts }
          engine := { s.engine with fifo := s.engine.fifo.filter fun x => x ≠ r }
          status := t.status, path := t.path, memOut := t.memOut, sysOut := t.sysOut }) ∧
    (c.state = .busy ∨ c.state = .verified ∨ (c.state = .queued ∧ c.jobKind = some .sealing) → c.late = false →
      ∃ t, exec (.deadlineReached r) s = .next t ∧ t.ctx? r = some { c with late := true } ∧ OtherSlotsKept r s t ∧
        t.counter .late = counted (s.counter .late) ∧ CountersKept [.late] s t ∧ OnlyRaised [] s t ∧
        t = { s with slots := { s.slots with contexts := t.slots.contexts }, status := t.status }) ∧
    (c.state ∈ [.free, .aborting, .rejected, .sealed, .expired, .faulted] → exec (.deadlineReached r) s = .next s)

/-! ### The Derivation Engine (chapter 2) -/

/-- The idle engine takes the VERIFY job at the head of its FIFO, unless an import job has waited for eight slot jobs.
The slot becomes BUSY, the lookup starts the job on a LOADED key usable at the active epoch, and the job writes the
derived tag key into the slot (R5, R40, R41, R43, R44, R59; that it does so within the taking is DEDUCED, log entry 16);
any other outcome of the lookup completes the job at once, REJECTED with its reason (R43, R46, R55). That the derived
key stands from the taking on is the model's choice (DEDUCED, log entry 16). AES-128 is taken from FIPS 197 (PRESUMED,
log entry 6). -/
def Obligations.EngineTakesVerifyJob : Prop :=
  ∀ s r rest c, s.engine.job = none → s.engine.fifo = r :: rest →
    s.engine.importPlace = none ∨ s.engine.waitCount < 8 →
    s.ctx? r = some c → c.jobKind = some .verify → c.withdrawn = false →
    (∀ k, s.findEntry .tag (tagKeySet c) ((tagVersion c).setWidth 8) = some k →
      (s.entry k).state = .loaded → (s.entry k).validFrom ≤ s.time.epoch → s.time.epoch ≤ (s.entry k).validUntil →
      ∃ t, exec .engineTakeJob s = .next t ∧
        let tagKey := aes128 ((s.entry k).key.getD 0#128) (deriveBlock c)
        t.ctx? r = some { c with state := .busy, tagEntry := some k, derivedKey := some tagKey } ∧
        OtherSlotsKept r s t ∧
        t.engine = { s.engine with
          fifo := rest
          waitCount := if s.engine.importPlace = none then s.engine.waitCount else s.engine.waitCount + 1
          job := some { work := .verify r c.generation s.time.epoch tagKey, discard := false } } ∧
        t = { s with slots := { s.slots with contexts := t.slots.contexts }, engine := t.engine }) ∧
    (∀ reason,
      (match s.findEntry .tag (tagKeySet c) ((tagVersion c).setWidth 8) with
        | none => reason = .keyAbsent
        | some k =>
          ((s.entry k).state = .revoked ∧ reason = .keyRevoked) ∨
          ((s.entry k).state = .damaged ∧ reason = .keyDamaged) ∨
          ((s.entry k).state = .loaded ∧ reason = .keyOutOfEpoch ∧
            (s.time.epoch < (s.entry k).validFrom ∨ (s.entry k).validUntil < s.time.epoch))) →
      ∃ t, exec .engineTakeJob s = .next t ∧
        SlotEnded r { c with
          state := .rejected, jobKind := none, derivedKey := none, verdict := some .reject, reason := some reason } s t ∧
        t.counter .key = counted (s.counter .key) ∧ CountersKept [.key] s t ∧ NoReadHeldFor r t ∧
        HeldReadsSettled [] s t ∧ t.path.refusal = s.path.refusal ∧
        t.engine = { s.engine with
          fifo := rest
          waitCount := if s.engine.importPlace = none then s.engine.waitCount else s.engine.waitCount + 1
          job := none } ∧
        t = { s with
          slots := { s.slots with contexts := t.slots.contexts }, engine := t.engine, status := t.status
          path := t.path, memOut := t.memOut, sysOut := t.sysOut })

/-- The idle engine takes the SEAL job at the head of its FIFO with the RECORD key of the highest version that is LOADED
and usable in the slot's key set; without one the slot is FAULTED with NO_RECORD_KEY at once (R40, R41, R47, R48). -/
def Obligations.EngineTakesSealJob : Prop :=
  ∀ s r rest c, s.engine.job = none → s.engine.fifo = r :: rest →
    s.engine.importPlace = none ∨ s.engine.waitCount < 8 →
    s.ctx? r = some c → c.jobKind = some .sealing → c.withdrawn = false →
    ((∃ k, s.recordCandidate (tagKeySet c) k = true) →
      ∃ t k, exec .engineTakeJob s = .next t ∧
        (s.entry k).usage = .record ∧ (s.entry k).keySet.setWidth 8 = tagKeySet c ∧ (s.entry k).state = .loaded ∧
        (s.entry k).validFrom ≤ s.time.epoch ∧ s.time.epoch ≤ (s.entry k).validUntil ∧
        (∀ j, s.recordCandidate (tagKeySet c) j = true → (s.entry j).version ≤ (s.entry k).version) ∧
        t.ctx? r = some { c with state := .busy, recordEntry := some k } ∧ OtherSlotsKept r s t ∧
        t.engine = { s.engine with
          fifo := rest
          waitCount := if s.engine.importPlace = none then s.engine.waitCount else s.engine.waitCount + 1
          job := some {
            work := .sealing r c.generation s.time.epoch ((s.entry k).key.getD 0#128), discard := false } } ∧
        t = { s with slots := { s.slots with contexts := t.slots.contexts }, engine := t.engine }) ∧
    ((∀ k, s.recordCandidate (tagKeySet c) k = false) →
      ∃ t, exec .engineTakeJob s = .next t ∧
        SlotEnded r { c with
          state := .faulted, jobKind := none, derivedKey := none, reason := some .noRecordKey } s t ∧
        CountersKept [.faulted] s t ∧ NoReadHeldFor r t ∧ HeldReadsSettled [] s t ∧
        t.path.refusal = s.path.refusal ∧
        t.engine = { s.engine with
          fifo := rest
          waitCount := if s.engine.importPlace = none then s.engine.waitCount else s.engine.waitCount + 1
          job := none } ∧
        t = { s with
          slots := { s.slots with contexts := t.slots.contexts }, engine := t.engine, status := t.status
          path := t.path, memOut := t.memOut, sysOut := t.sysOut })

/-- The idle engine takes the waiting import job when its FIFO is empty or eight slot jobs have gone before it: the
place empties, the wait count returns to 0, the import state becomes WORKING, and the job holds the buffer and, for
LOAD, the transport key (R40, R42). A working engine, and an idle one with nothing waiting, takes no job (R37, R40). -/
def Obligations.EngineTakesImportJob : Prop :=
  (∀ s kind, s.engine.job = none → s.engine.importPlace = some kind →
    s.engine.fifo = [] ∨ 8 ≤ s.engine.waitCount →
    exec .engineTakeJob s = .next { s with
      engine := {
        fifo := s.engine.fifo, importPlace := none, waitCount := 0
        job := some {
          discard := false
          work := .importing kind (blockOfWords s.keys.buffer[0] s.keys.buffer[1])
            (blockOfWords s.keys.buffer[2] s.keys.buffer[3]) s.keys.buffer[4]
            (match kind with
              | .loadPlain => none
              | .load => (s.findEntry .transport 0#8 (headerTransportVersion
                  (blockOfWords s.keys.buffer[0] s.keys.buffer[1]))).bind fun k => (s.entry k).key) } }
      keys := { s.keys with importState := .working } }) ∧
  (∀ s, s.engine.job ≠ none ∨ (s.engine.fifo = [] ∧ s.engine.importPlace = none) → exec .engineTakeJob s = .next s)

/-- VERIFY_COMPLETE for a BUSY slot whose key was not withdrawn: with an authenticator that differs the slot is REJECTED
with BAD_MAC; with an equal one the Passage Filter decides, and the slot is VERIFIED, keeping its derived tag key, or
REJECTED with DUPLICATE and its reference, or with REPLAY, the key cleared (R5, R44, R45, R46, R61, R62). AES-128 is
taken from FIPS 197 (PRESUMED, log entry 6). That the result is formed at this row is the model's choice (DEDUCED, log
entry 16). -/
def Obligations.VerifyResultIsDelivered : Prop :=
  ∀ s r g epoch tagKey c,
    s.engine.job = some { work := .verify r g epoch tagKey, discard := false } →
    s.ctx? r = some c → c.state = .busy → c.withdrawn = false →
    ∃ t, exec .verifyComplete s = .next t ∧ t.engine = { s.engine with job := none } ∧ NoReadHeldFor r t ∧
      HeldReadsSettled [] s t ∧ t.path.refusal = s.path.refusal ∧
      t = { s with
        slots := { s.slots with contexts := t.slots.contexts }, engine := t.engine, filter := t.filter
        status := t.status, path := t.path, memOut := t.memOut, sysOut := t.sysOut } ∧
      (tagAuth tagKey c ≠ c.inbound[3] →
        SlotEnded r { c with
          state := .rejected, jobKind := none, derivedKey := none, verdict := some .reject
          reason := some .badMac } s t ∧
        t.filter = s.filter ∧ t.counter .badMac = counted (s.counter .badMac) ∧ CountersKept [.badMac] s t) ∧
      (tagAuth tagKey c = c.inbound[3] →
        let reading : Reading :=
          { keySet := tagKeySet c, tagId := c.inbound[1], counter := tagCounter c, now := s.time.lt
            ref := { slot := r, generation := g, antenna := tagAntenna c } }
        t.filter = (s.filter.classify reading).1 ∧
        match (s.filter.classify reading).2 with
        | .accept evicted =>
          SlotEnded r { c with
            state := .verified, jobKind := none, verdict := some .accept } s t ∧
          t.counter .accept = counted (s.counter .accept) ∧
          t.counter .evictions = (if evicted then counted (s.counter .evictions) else s.counter .evictions) ∧
          CountersKept [.accept, .evictions] s t
        | .duplicate info =>
          SlotEnded r { c with
            state := .rejected, jobKind := none, derivedKey := none, verdict := some .reject
            reason := some .duplicate, duplicate := some info } s t ∧
          t.counter .duplicate = counted (s.counter .duplicate) ∧ CountersKept [.duplicate] s t
        | .replay =>
          SlotEnded r { c with
            state := .rejected, jobKind := none, derivedKey := none, verdict := some .reject
            reason := some .replay } s t ∧
          t.counter .replay = counted (s.counter .replay) ∧ CountersKept [.replay] s t)

/-- SEAL_COMPLETE for a BUSY slot whose keys were not withdrawn: SEALED with the tag-write MAC of the group's length and
the record seal (R45, R48, R63, R64). AES-128 is taken from FIPS 197 (PRESUMED, log entry 6). That the result is formed
at this row is the model's choice (DEDUCED, log entry 16). -/
def Obligations.SealResultIsDelivered : Prop :=
  ∀ s r g epoch recordKey c tagKey,
    s.engine.job = some { work := .sealing r g epoch recordKey, discard := false } →
    s.ctx? r = some c → c.state = .busy → c.withdrawn = false → c.derivedKey = some tagKey →
    ∃ t, exec .sealComplete s = .next t ∧ t.engine = { s.engine with job := none } ∧ NoReadHeldFor r t ∧
      HeldReadsSettled [] s t ∧ t.path.refusal = s.path.refusal ∧
      SlotEnded r { c with
        state := .sealed, jobKind := none, derivedKey := none
        mac := some (tagWriteMac (s.descriptor r.group).macLength tagKey c)
        recordSeal := some (recordSealOf recordKey c) } s t ∧
      CountersKept [] s t ∧
      t = { s with
        slots := { s.slots with contexts := t.slots.contexts }, engine := t.engine, status := t.status
        path := t.path, memOut := t.memOut, sysOut := t.sysOut }

/-- The completion of a VERIFY or SEAL job whose result is not delivered: a discarded job ends without effect, an
ABORTING slot becomes FREE, and a slot with the withdrawal mark is FAULTED with KEY_WITHDRAWN; the filter and the
verdict counters stay (R45, R16, R27). -/
def Obligations.UndeliveredJobsEndByChecks : Prop :=
  ∀ row s r discard,
    (∃ g epoch key, (row = .verifyComplete ∧
        s.engine.job = some { work := .verify r g epoch key, discard := discard }) ∨
      (row = .sealComplete ∧ s.engine.job = some { work := .sealing r g epoch key, discard := discard })) →
    (discard = true → exec row s = .next { s with engine := { s.engine with job := none } }) ∧
    (∀ c, discard = false → s.ctx? r = some c → c.state = .aborting →
      ∃ t, exec row s = .next t ∧
        t.ctx? r = some { SlotCtx.fresh with generation := c.generation, lastResult := c.lastResult } ∧
        OtherSlotsKept r s t ∧ NoReadHeldFor r t ∧ HeldReadsSettled [] s t ∧ t.path.refusal = s.path.refusal ∧
        t = { s with
          slots := { s.slots with contexts := t.slots.contexts }, engine := { s.engine with job := none }
          path := t.path, memOut := t.memOut, sysOut := t.sysOut }) ∧
    (∀ c, discard = false → s.ctx? r = some c → c.state = .busy → c.withdrawn = true →
      ∃ t, exec row s = .next t ∧
        SlotEnded r { c with
          state := .faulted, jobKind := none, derivedKey := none, reason := some .keyWithdrawn } s t ∧
        CountersKept [.faulted] s t ∧ NoReadHeldFor r t ∧ HeldReadsSettled [] s t ∧
        t.path.refusal = s.path.refusal ∧
        t = { s with
          slots := { s.slots with contexts := t.slots.contexts }, engine := { s.engine with job := none }
          status := t.status, path := t.path, memOut := t.memOut, sysOut := t.sysOut })

/-- IMPORT_COMPLETE: a blob MAC that differs ends LOAD with BAD_BLOB, and a check value that differs ends either command
with CHECK_MISMATCH; otherwise the entry with the key, LOADED, is asked of the NV writer for the lowest-indexed EMPTY
entry. A discarded job ends without effect (R52, R53, R104, R49). That the result is formed at this row (DEDUCED, log
entry 16) and the field of the command in flight (DEDUCED, log entry 27) are the model's choices. AES-128 is taken from
FIPS 197 (PRESUMED, log entry 6). -/
def Obligations.ImportResultIsHandedOver : Prop :=
  ∀ s kind h w mac transport discard,
    s.engine.job = some { work := .importing kind h w mac transport, discard := discard } →
    (discard = true → exec .importComplete s = .next { s with engine := { s.engine with job := none } }) ∧
    (discard = false →
      let kt := transport.getD 0#128
      let key := match kind with
        | .load => w ^^^ aes128 kt (headerWithTail h 0x4B#8)
        | .loadPlain => w
      let ended := fun code => ∃ t, exec .importComplete s = .next t ∧ CommandEnded code 0 0#24 s t ∧
        OnlyRaised [.importDone] s t ∧ CountersKept [] s t ∧ t.keys.dir = s.keys.dir ∧
        t.keys.inquiry = s.keys.inquiry ∧
        t = { s with engine := { s.engine with job := none }, keys := t.keys, status := t.status }
      (kind = .load → blobMacOf kt h w ≠ mac → ended .badBlob) ∧
      (kind = .loadPlain ∨ blobMacOf kt h w = mac → checkValue key ≠ headerCheck h → ended .checkMismatch) ∧
      (kind = .loadPlain ∨ blobMacOf kt h w = mac → checkValue key = headerCheck h →
        ∀ i, (s.entry i).state = .empty → (∀ j, j < i → (s.entry j).state ≠ .empty) →
          ∃ t, exec .importComplete s = .next t ∧
            RequestReached (.admin (.program i
              { state := .loaded, usage := usageOf (headerUsage h), keySet := (headerKeySet h).setWidth 5,
                version := (headerVersion h).setWidth 4, validFrom := headerValidFrom h,
                validUntil := headerValidUntil h, check := headerCheck h, key := some key }
              (kind == ImportKind.loadPlain))) s t ∧
            t = { s with
              engine := { s.engine with job := none }, keys := { s.keys with importState := .nvWriting }
              writer := t.writer }))

/-- CHECK_COMPLETE makes a LOADED or REVOKED entry whose check value differs DAMAGED and leaves every other entry, a
DAMAGED one with or without a key among them; the next entry that is not EMPTY is checked next, and after the last one
RESERVE begins from the stored high-water (R54, R169, R170). Where RESERVE has nothing to program it ends at once, and
CHALLENGE_LOW is raised (R170, R172, R185). That CHALLENGE_LOW is raised also where a zeroization ended RESERVE is the
model's choice (DEDUCED, log entry 21). The next CHECK job starts within this row (DEDUCED, log entry 16). AES-128 is
taken from FIPS 197 (PRESUMED, log entry 6). -/
def Obligations.StartUpChecksEachEntry : Prop :=
  ∀ s i key discard, s.engine.job = some { work := .checking i key, discard := discard } →
    ∃ t, exec .checkComplete s = .next t ∧
      (∀ k, key = some k →
        t.entry i = if ((s.entry i).state = .loaded ∨ (s.entry i).state = .revoked) ∧
            checkValue k ≠ (s.entry i).check then { s.entry i with state := .damaged } else s.entry i) ∧
      ((s.entry i).state ≠ .loaded → (s.entry i).state ≠ .revoked → t.entry i = s.entry i) ∧
      (∀ j, j ≠ i → t.entry j = s.entry j) ∧ t.keys = { s.keys with dir := t.keys.dir } ∧
      StartUpWentOn (i.val + 1) { s with engine := { s.engine with job := none }, keys := t.keys } t

/-! ### Cipher blocks (chapter 3) -/

/-- The value of each construction of chapter 3, with the bytes of its blocks written field by field as the tables
list them: the check value (R58), the derived tag key (R59), the tag authenticator (R61, R62), the tag-write MAC at 4
and 8 bytes (R63), the record seal (R64), the header with its fields and the buffer bytes it comes from (R65), the
blob MAC (R66) and the unwrapped key (R67). The numbers come from the inbound word, the challenge and the arrival LT,
most significant byte first, and the byte strings from their words in address order (R56, R57, R198); the MACs are
chained from Y0 = 0 (R60). The statements of VERIFY, SEAL and IMPORT jobs name these values. AES-128 is taken from
FIPS 197 (PRESUMED, log entry 6). -/
def Obligations.CipherBlocksAsLaidOut : Prop :=
  (∀ key, checkValue key =
    blockByte (aes128 key (blockOf (zeroBytes 16))) 0 ++ blockByte (aes128 key (blockOf (zeroBytes 16))) 1 ++
      blockByte (aes128 key (blockOf (zeroBytes 16))) 2) ∧
  (∀ c : SlotCtx,
    tagCounter c = c.inbound[0].extractLsb' 0 24 ∧ tagVersion c = c.inbound[0].extractLsb' 24 4 ∧
    tagKeySet c = c.inbound[0].extractLsb' 32 8 ∧ tagAntenna c = c.inbound[0].extractLsb' 40 3 ∧
    let counter := numberBytes 3 (c.inbound[0].extractLsb' 0 24).toNat
    let version := numberBytes 1 (c.inbound[0].extractLsb' 24 4).toNat
    let keySet := numberBytes 1 (c.inbound[0].extractLsb' 32 8).toNat
    let antenna := numberBytes 1 (c.inbound[0].extractLsb' 40 3).toNat
    let tagId := stringBytes c.inbound[1]
    let nonce := stringBytes c.inbound[2]
    let payloadLow := stringBytes c.payload[0] ++ stringBytes c.payload[1]
    let payloadHigh := stringBytes c.payload[2] ++ stringBytes c.payload[3]
    deriveBlock c = blockOf ([0x44#8] ++ keySet ++ version ++ zeroBytes 5 ++ tagId) ∧
    (∀ master, deriveTagKey master c = aes128 master (deriveBlock c)) ∧
    ∀ ch arrived, c.challenge = some ch → c.arrival = some arrived →
      let challenge := numberBytes 8 ch.toNat
      (∀ tagKey, HoldsMac (tagAuth tagKey c) (chainEnd tagKey 0#128
        [[0x41#8] ++ keySet ++ version ++ counter ++ zeroBytes 2 ++ tagId, challenge ++ nonce]) 8) ∧
      (∀ tagKey length, length = 4 ∨ length = 8 → HoldsMac (tagWriteMac length tagKey c) (chainEnd tagKey 0#128
        [[0x57#8] ++ keySet ++ version ++ counter ++ antenna ++ zeroBytes 1 ++ challenge, payloadLow,
          payloadHigh]) length) ∧
      (∀ recordKey, HoldsMac (recordSealOf recordKey c) (chainEnd recordKey 0#128
        [[0x52#8] ++ keySet ++ version ++ antenna ++ numberBytes 4 (arrived.extractLsb' 0 32).toNat ++ counter ++
            [0x01#8] ++ zeroBytes 4,
          challenge ++ tagId, payloadLow, payloadHigh]) 8)) ∧
  (∀ k : KeyStore,
    importHeader k = blockOf (stringBytes k.buffer[0] ++ stringBytes k.buffer[1]) ∧
    wrappedKey k = blockOf (stringBytes k.buffer[2] ++ stringBytes k.buffer[3]) ∧ blobMac k = k.buffer[4]) ∧
  (∀ h w transportKey : Block,
    headerUsage h = blockByte h 0 ∧ headerKeySet h = blockByte h 1 ∧ headerVersion h = blockByte h 2 ∧
    headerTransportVersion h = blockByte h 3 ∧ headerValidFrom h = blockByte h 4 ++ blockByte h 5 ∧
    headerValidUntil h = blockByte h 6 ++ blockByte h 7 ∧
    headerCheck h = blockByte h 8 ++ blockByte h 9 ++ blockByte h 10 ∧
    usageOf 0x01#8 = .transport ∧ usageOf 0x02#8 = .tag ∧ usageOf 0x03#8 = .record ∧
    let fields := (List.range 15).map (blockByte h)
    (∀ tail, headerWithTail h tail = blockOf (fields ++ [tail])) ∧
    HoldsMac (blobMacOf transportKey h w)
      (chainEnd transportKey 0#128 [fields ++ [0x54#8], (List.range 16).map (blockByte w)]) 8 ∧
    ∀ j, j < 16 → blockByte (unwrapKey transportKey h w) j =
      blockByte w j ^^^ blockByte (aes128 transportKey (blockOf (fields ++ [0x4B#8]))) j)

/-! ### The Passage Filter (chapter 4) -/

/-- Against a current entry the counter distance d decides: 0 within the effective interval is a DUPLICATE, 0 past it a
REPLAY, 1 to 2^23 − 1 an ACCEPT, and anything above a REPLAY; a REPLAY changes nothing (R70, R75, R76, R77, R80). A
reading without a current entry is an ACCEPT: where its own retired entry stands, else in the lowest free position, else
in the place of the entry of greatest elapsed time, an eviction if that entry was current (R74, R78, R79). The lookup
finds the position in use whose entry has the reading's key set and all of its tag ID, whatever the version (R69, R74). -/
def Obligations.FilterJudgesReadings : Prop :=
  (∀ (f : Filter) (r : Reading) i e, f.lookup r = some i → f.at i = some e → r.now - e.lastTime < f.h →
     (r.counter = e.lastCounter → r.now - e.lastTime < f.d →
       (f.classify r).2 = .duplicate {
         first := e.first, ordinal := if e.duplicates = 255#8 then 255#8 else e.duplicates + 1#8 } ∧
       (f.classify r).1.at i = some { e with
         lastTime := r.now, duplicates := if e.duplicates = 255#8 then 255#8 else e.duplicates + 1#8 }) ∧
     (r.counter = e.lastCounter → f.d ≤ r.now - e.lastTime → f.classify r = (f, .replay)) ∧
     (r.counter ≠ e.lastCounter → r.counter - e.lastCounter ≤ 8388607#24 →
       (f.classify r).2 = .accept false ∧
       (f.classify r).1.at i = some {
         keySet := r.keySet, tagId := r.tagId, lastCounter := r.counter, lastTime := r.now, first := r.ref,
         duplicates := 0#8 }) ∧
     (8388607#24 < r.counter - e.lastCounter → f.classify r = (f, .replay)) ∧
     (∀ j, j ≠ i → (f.classify r).1.at j = f.at j) ∧ (f.classify r).1.d = f.d ∧ (f.classify r).1.h = f.h) ∧
  (∀ (f : Filter) (r : Reading),
     let made : FilterEntry :=
       { keySet := r.keySet, tagId := r.tagId, lastCounter := r.counter, lastTime := r.now, first := r.ref,
         duplicates := 0#8 }
     (∀ i e, f.lookup r = some i → f.at i = some e → f.h ≤ r.now - e.lastTime →
       (f.classify r).2 = .accept false ∧ (f.classify r).1.at i = some made ∧
       ∀ j, j ≠ i → (f.classify r).1.at j = f.at j) ∧
     (f.lookup r = none →
       (∀ i, f.at i = none → (∀ j, j < i → f.at j ≠ none) →
         (f.classify r).2 = .accept false ∧ (f.classify r).1.at i = some made ∧
         ∀ j, j ≠ i → (f.classify r).1.at j = f.at j) ∧
       (∀ i e, f.at i = some e → (∀ j, f.at j ≠ none) →
         (∀ j e', f.at j = some e' → r.now - e'.lastTime ≤ r.now - e.lastTime) →
         (∀ j e', j < i → f.at j = some e' → r.now - e'.lastTime < r.now - e.lastTime) →
         (f.classify r).2 = .accept (decide (r.now - e.lastTime < f.h)) ∧ (f.classify r).1.at i = some made ∧
         ∀ j, j ≠ i → (f.classify r).1.at j = f.at j))) ∧
  (∀ (f : Filter) (r : Reading),
     (∀ i, f.lookup r = some i ↔
       (∃ e, f.at i = some e ∧ e.keySet = r.keySet ∧ e.tagId = r.tagId) ∧
       ∀ j e, j < i → f.at j = some e → e.keySet ≠ r.keySet ∨ e.tagId ≠ r.tagId) ∧
     (f.lookup r = none ↔ ∀ i e, f.at i = some e → e.keySet ≠ r.keySet ∨ e.tagId ≠ r.tagId))

/-- After an ACCEPT no later reading of the same tag with the same counter is accepted while the entry is current,
whatever the filter held before: at once it is a DUPLICATE or a REPLAY (R69, R75, R76). -/
def Obligations.AcceptedReadingNotAcceptedAgain : Prop :=
  ∀ (f : Filter) (r r' : Reading) f' evicted,
    (∀ i j e e', f.at i = some e → f.at j = some e' → e.keySet = e'.keySet → e.tagId = e'.tagId → i = j) →
    f.classify r = (f', .accept evicted) → r'.keySet = r.keySet → r'.tagId = r.tagId → r'.counter = r.counter →
    r'.now - r.now < f.h →
    ∀ evicted', (f'.classify r').2 ≠ .accept evicted'

/-! ### The import area (chapter 5) -/

/-- Blob beats are captured under their strobes while the import state is IDLE in RUNNING, the part not zeroizing; the
spare blob words are never kept; memory receives zeros with the beat's strobes (R96, R97). -/
def Obligations.BlobBeatsAreCaptured : Prop :=
  ∀ w b s, s.reloading = false →
    ∃ t, exec (.blobWrite w b) s = .next t ∧
      t = { s with
        keys := { s.keys with buffer := t.keys.buffer }
        memOut := s.memOut ++ [.beat (s.base + 0x300 + 8 * w.val) { data := 0#64, strobes := b.strobes }] } ∧
      (∀ j : Fin 5, j.val ≠ w.val → t.keys.buffer[j] = s.keys.buffer[j]) ∧
      ∀ (h : w.val < 5) (k : Fin 8), byteOf t.keys.buffer[w.val] k.val =
        if s.life.phase = .running ∧ s.keys.importState = .idle ∧ s.life.cycle ≠ .zeroizing ∧
            s.life.cycle ≠ .zeroized ∧ b.strobes.getLsbD k.val = true then byteOf b.data k.val
        else byteOf s.keys.buffer[w.val] k.val

/-- LOAD_PLAIN in BLANK and LOAD in PERSONALIZED or FIELD judge the header in their order (BAD_HEADER, NO_TRANSPORT,
EXISTS, FULL) and else place their import job with wait count 0, the import state QUEUED (R102, R103, R39, R101). The
field that holds the code of the command in flight is the model's (DEDUCED, log entry 27). -/
def Obligations.LoadCommandsPlaceImportJobs : Prop :=
  ∀ s, s.life.phase = .running → s.reloading = false → s.status.hold = false → s.keys.importState = .idle →
    let h := importHeader s.keys
    let placed := fun (row : Instr) (command : Byte) kind => exec row s = .next { s with
      engine := { s.engine with importPlace := some kind, waitCount := 0 }
      keys := { s.keys with
        importState := .queued, inFlight := command
        result := { command := command, code := .none, index := 0, check := 0#24 } }
      memOut := s.memOut ++ [importOut s] }
    let ended := fun (row : Instr) command code index =>
      ∃ t, exec row s = .next t ∧ EndedAtOnce command code index 0#24 s t ∧ t.keys.inquiry = s.keys.inquiry
    let target := s.findEntry (usageOf (headerUsage h)) (headerKeySet h) (headerVersion h)
    let room := ∃ i, (s.entry i).state = .empty
    (s.life.cycle = .blank →
      let good := headerUsage h = 0x01#8 ∧ headerKeySet h = 0#8 ∧ headerVersion h ≤ 15#8 ∧
        headerTransportVersion h = 0#8 ∧ headerValidFrom h = 0#16 ∧ headerValidUntil h = 0xFFFF#16 ∧
        h.extractLsb' 0 40 = 0#40
      (¬good → ended (.loadPlain 0#56) 0x01#8 .badHeader 0) ∧
      (good → ∀ i, target = some i → ended (.loadPlain 0#56) 0x01#8 .exists' i) ∧
      (good → target = none → ¬room → ended (.loadPlain 0#56) 0x01#8 .full 0) ∧
      (good → target = none → room → placed (.loadPlain 0#56) 0x01#8 .loadPlain)) ∧
    (s.life.cycle = .personalized ∨ s.life.cycle = .field →
      let good := headerUsage h ∈ [0x01#8, 0x02#8, 0x03#8] ∧ headerKeySet h ≤ 31#8 ∧ headerVersion h ≤ 15#8 ∧
        headerTransportVersion h ≤ 15#8 ∧ h.extractLsb' 0 40 = 0#40 ∧
        (if headerUsage h = 0x01#8 then
          headerKeySet h = 0#8 ∧ headerValidFrom h = 0#16 ∧ headerValidUntil h = 0xFFFF#16
        else headerValidFrom h ≤ headerValidUntil h)
      let transport := ∃ i, s.findEntry .transport 0#8 (headerTransportVersion h) = some i ∧
        (s.entry i).state = .loaded
      (¬good → ended (.load 0#56) 0x02#8 .badHeader 0) ∧
      (good → ¬transport → ended (.load 0#56) 0x02#8 .noTransport 0) ∧
      (good → transport → ∀ i, target = some i → ended (.load 0#56) 0x02#8 .exists' i) ∧
      (good → transport → target = none → ¬room → ended (.load 0#56) 0x02#8 .full 0) ∧
      (good → transport → target = none → room → placed (.load 0#56) 0x02#8 .load))

/-- REVOKE makes a LOADED entry REVOKED and ERASE empties a non-EMPTY one, its key cleared, at the moment the command is
taken; the entry is withdrawn, SLOT_DONE raised for the groups of faulted slots alone, and the admin request placed,
that of ERASE with the entry's other fields (R105, R106, R107, R112; one context to a slot is part of the slot
invariant). The field that holds the code of the command in flight is the model's (DEDUCED, log entry 27). -/
def Obligations.RevokeAndEraseWithdrawKey : Prop :=
  ∀ s i, OneContextEach s → s.life.phase = .running → s.reloading = false → s.status.hold = false →
    s.keys.importState = .idle →
    s.life.cycle = .personalized ∨ s.life.cycle = .field →
    let h := importHeader s.keys
    headerUsage h ∈ [0x01#8, 0x02#8, 0x03#8] → headerKeySet h ≤ 31#8 → headerVersion h ≤ 15#8 →
    (headerUsage h = 0x01#8 → headerKeySet h = 0#8) →
    s.findEntry (usageOf (headerUsage h)) (headerKeySet h) (headerVersion h) = some i →
    ((s.entry i).usage = .transport → (s.entry i).state = .loaded →
      ∃ j, j ≠ i ∧ (s.entry j).usage = .transport ∧ (s.entry j).state = .loaded) →
    ((s.entry i).state = .loaded →
      ∃ t, exec (.revoke 0#56) s = .next t ∧ t.entry i = { s.entry i with state := .revoked } ∧
        (∀ j, j ≠ i → t.entry j = s.entry j) ∧ EntryWithdrawn i s t ∧ AdminPlaced 0x03#8 (.markRevoked i) s t ∧
        HeldReadsSettled [importOut s] s t ∧
        t.memOut.getLast? = some (importOut s) ∧ t.path.refusal = s.path.refusal ∧
        t = { s with
          slots := { s.slots with contexts := t.slots.contexts }, engine := t.engine, status := t.status
          keys := t.keys, writer := t.writer, path := t.path, memOut := t.memOut, sysOut := t.sysOut }) ∧
    (∃ t, exec (.erase 0#56) s = .next t ∧ t.entry i = DirEntry.emptied ∧
      (∀ j, j ≠ i → t.entry j = s.entry j) ∧ EntryWithdrawn i s t ∧
      (∃ kept : DirEntry, kept.key = none ∧ kept.usage = (s.entry i).usage ∧ kept.keySet = (s.entry i).keySet ∧
        kept.version = (s.entry i).version ∧ kept.validFrom = (s.entry i).validFrom ∧
        kept.validUntil = (s.entry i).validUntil ∧ kept.check = (s.entry i).check ∧
        AdminPlaced 0x04#8 (.eraseEntry i kept) s t) ∧
      HeldReadsSettled [importOut s] s t ∧
      t.memOut.getLast? = some (importOut s) ∧ t.path.refusal = s.path.refusal ∧
      t = { s with
        slots := { s.slots with contexts := t.slots.contexts }, engine := t.engine, status := t.status
        keys := t.keys, writer := t.writer, path := t.path, memOut := t.memOut, sysOut := t.sysOut })

/-- REVOKE and ERASE of a triple out of form end BAD_HEADER, of no entry NOT_FOUND (REVOKE also of one that is not
LOADED), and of the last LOADED TRANSPORT entry PROTECTED; nothing else of the directory changes (R105, R106, R107). -/
def Obligations.LastTransportKeyIsProtected : Prop :=
  ∀ s, s.life.phase = .running → s.reloading = false → s.status.hold = false → s.keys.importState = .idle →
    s.life.cycle = .personalized ∨ s.life.cycle = .field →
    let h := importHeader s.keys
    let good := headerUsage h ∈ [0x01#8, 0x02#8, 0x03#8] ∧ headerKeySet h ≤ 31#8 ∧ headerVersion h ≤ 15#8 ∧
      (headerUsage h = 0x01#8 → headerKeySet h = 0#8)
    let target := s.findEntry (usageOf (headerUsage h)) (headerKeySet h) (headerVersion h)
    let lastTransport := fun i => (s.entry i).usage = .transport ∧ (s.entry i).state = .loaded ∧
      ∀ j, j ≠ i → ¬((s.entry j).usage = .transport ∧ (s.entry j).state = .loaded)
    let ended := fun (row : Instr) command code =>
      ∃ t, exec row s = .next t ∧ EndedAtOnce command code 0 0#24 s t ∧ t.keys.inquiry = s.keys.inquiry
    (¬good → ended (.revoke 0#56) 0x03#8 .badHeader ∧ ended (.erase 0#56) 0x04#8 .badHeader) ∧
    (good → target = none → ended (.revoke 0#56) 0x03#8 .notFound ∧ ended (.erase 0#56) 0x04#8 .notFound) ∧
    (good → ∀ i, target = some i → (s.entry i).state ≠ .loaded → ended (.revoke 0#56) 0x03#8 .notFound) ∧
    (good → ∀ i, target = some i → lastTransport i →
      ended (.revoke 0#56) 0x03#8 .protected' ∧ ended (.erase 0#56) 0x04#8 .protected')

/-- INQUIRE copies the entry at its index, without the key, into the inquiry record and ends OK at once with the index
and the check value; it does so in ZEROIZING and ZEROIZED too (R99, R108). SET_READER asks for its reader number to be
written, 0 giving BAD_HEADER; FIELD_LOCK asks for the life-cycle word FIELD, without a reader number ending
WRONG_LIFECYCLE and without a LOADED TRANSPORT entry NO_TRANSPORT (R109, R110). The field that holds the code of the
command in flight is the model's (DEDUCED, log entry 27). -/
def Obligations.InquireReaderAndLockAct : Prop :=
  (∀ s (i : Fin 64), s.life.phase = .running → s.reloading = false → s.status.hold = false →
     s.keys.importState = .idle →
     ∃ t, exec (.inquire (0#48 ++ BitVec.ofNat 8 i.val)) s = .next t ∧
       EndedAtOnce 0x05#8 .ok i (s.entry i).check s t ∧
       t.keys.inquiry = {
         index := i, state := (s.entry i).state, usage := (s.entry i).usage, keySet := (s.entry i).keySet
         version := (s.entry i).version, validFrom := (s.entry i).validFrom, validUntil := (s.entry i).validUntil
         check := (s.entry i).check }) ∧
  (∀ s v, s.life.phase = .running → s.reloading = false → s.status.hold = false → s.keys.importState = .idle →
     let placed := fun (row : Instr) command op => ∃ t, exec row s = .next t ∧ AdminPlaced command op s t ∧
       t = { s with
         keys := { s.keys with
           importState := t.keys.importState, inFlight := t.keys.inFlight, result := t.keys.result }
         writer := t.writer, memOut := s.memOut ++ [importOut s] }
     let ended := fun (row : Instr) command code =>
       ∃ t, exec row s = .next t ∧ EndedAtOnce command code 0 0#24 s t ∧ t.keys.inquiry = s.keys.inquiry
     let transport := ∃ i, (s.entry i).usage = .transport ∧ (s.entry i).state = .loaded
     (s.life.cycle = .blank ∨ s.life.cycle = .personalized →
       (v = 0#16 → ended (.setReader (0#32 ++ v ++ 0#8)) 0x06#8 .badHeader) ∧
       (v ≠ 0#16 → placed (.setReader (0#32 ++ v ++ 0#8)) 0x06#8 (.writeReader v))) ∧
     (s.life.cycle = .personalized →
       (s.life.reader = 0#16 → ended (.fieldLock 0#56) 0x07#8 .wrongLifecycle) ∧
       (s.life.reader ≠ 0#16 → ¬transport → ended (.fieldLock 0#56) 0x07#8 .noTransport) ∧
       (s.life.reader ≠ 0#16 → transport → placed (.fieldLock 0#56) 0x07#8 .lockField)))

/-- The first of the common checks of an import command that fails gives its code, in the order of R100; a command
refused so changes only the import result and, but for BUSY, clears the buffer (R97, R100). Before RUNNING nothing is
evaluated. -/
def Obligations.ImportCommandChecksInOrder : Prop :=
  ∀ row cmd upper s, importRow row = some (cmd, upper) → s.reloading = false →
    (s.life.phase ≠ .running → exec row s = .next { s with memOut := s.memOut ++ [importOut s] }) ∧
    (s.life.phase = .running →
      let ended := fun code => ∃ t, exec row s = .next t ∧
        t.keys.result = { command := importCode cmd, code := code, index := 0, check := 0#24 } ∧
        t.keys.buffer = (if code = .busy then s.keys.buffer else Vector.replicate 5 0#64) ∧
        t.causeSet .importDone = true ∧ OnlyRaised [.importDone] s t ∧ CountersKept [] s t ∧
        t = { s with
          keys := { s.keys with result := t.keys.result, buffer := t.keys.buffer }, status := t.status
          memOut := s.memOut ++ [importOut s] }
      let zeroing := (s.life.cycle = .zeroizing ∨ s.life.cycle = .zeroized) ∧ cmd ≠ .inquire
      (zeroing → ended .wrongLifecycle) ∧
      (¬zeroing → s.status.hold = true → ended .held) ∧
      (¬zeroing → s.status.hold = false → s.keys.importState ≠ .idle → ended .busy) ∧
      (¬zeroing → s.status.hold = false → s.keys.importState = .idle → ¬operandGood cmd upper → ended .badCommand) ∧
      (¬zeroing → s.status.hold = false → s.keys.importState = .idle → operandGood cmd upper →
        s.life.cycle ∉ cyclesOf cmd → ended .wrongLifecycle))

/-! ### The NV writer and start-up (sections 5.2, 5.3, 9.2 and 9.4) -/

/-- An admin operation that ends with its verify passing changes NV, the directory, the life cycle or the reader
number as its kind says, and ends its command OK; an entry program of LOAD_PLAIN is followed by the life-cycle word
PERSONALIZED (R92, R104, R105, R106, R109, R110). Once a zeroization has started only the write in NV is made: the
outcome is disregarded, no word follows, and the writer goes on (R94, R175). The codes of states and usages in NV are
those of R200, the model's choice (PRESUMED, log entry 7). The field that holds the code of the command in flight is
the model's (DEDUCED, log entry 27). -/
def Obligations.AdminSuccessReachesNvAndOwners : Prop :=
  (∀ s op, s.writer.running = some (.request (.admin op)) → s.life.cycle ≠ .zeroizing → s.life.cycle ≠ .zeroized →
    ∃ t, exec (.nvOperationEnd true) s = .next t ∧ CountersKept [] s t ∧ OnlyRaised [.importDone] s t ∧
      t.keys.inquiry = s.keys.inquiry ∧ AdminWritten op s t ∧
      t = { s with
        life := t.life, status := t.status, keys := t.keys, nv := t.nv, writer := t.writer } ∧
      (match op with
        | .program i e true =>
          t.entry i = e ∧ (∀ j, j ≠ i → t.entry j = s.entry j) ∧
          t.keys = { s.keys with dir := t.keys.dir } ∧ t.life = s.life ∧ t.status = s.status ∧
          t.writer = { s.writer with running := some (.request (.admin (.personalize i e.check))) }
        | .program i e false =>
          t.entry i = e ∧ (∀ j, j ≠ i → t.entry j = s.entry j) ∧
          t.life = s.life ∧ CommandEnded .ok i e.check s t ∧ WriterWentOn s t
        | .personalize i check =>
          t.keys.dir = s.keys.dir ∧ t.life = { s.life with cycle := .personalized } ∧
          CommandEnded .ok i check s t ∧ WriterWentOn s t
        | .markRevoked i =>
          t.keys.dir = s.keys.dir ∧ t.life = s.life ∧ CommandEnded .ok i (s.entry i).check s t ∧ WriterWentOn s t
        | .eraseEntry i kept =>
          t.keys.dir = s.keys.dir ∧ t.life = s.life ∧ CommandEnded .ok i kept.check s t ∧ WriterWentOn s t
        | .writeReader v =>
          t.keys.dir = s.keys.dir ∧ t.life = { s.life with reader := v } ∧
          CommandEnded .ok 0 0#24 s t ∧ WriterWentOn s t
        | .lockField =>
          t.keys.dir = s.keys.dir ∧ t.life = { s.life with cycle := .field } ∧
          CommandEnded .ok 0 0#24 s t ∧ WriterWentOn s t)) ∧
  (∀ s op, s.writer.running = some (.request (.admin op)) → s.life.cycle = .zeroizing ∨ s.life.cycle = .zeroized →
    ∃ t, exec (.nvOperationEnd true) s = .next t ∧ AdminWritten op s t ∧ WriterWentOn s t ∧
      t = { s with nv := t.nv, writer := t.writer })

/-- An admin operation that ends with its verify failing raises NV_FAULT and ends its command NV_FAULT: the record and
the entry become DAMAGED, and the life cycle and the reader number stay (R93, R89, R104, R105, R106, R109, R110). Once
a zeroization has started the outcome is disregarded (R94, R175), though the record in NV is left as by any failure.
The key bytes of the damaged record are a free value, true for every value of it, and its other fields stay as
programmed, which is the model's choice (DEDUCED, log entry 8). The check value 0 that a failed erase reports, and
NV_FAULT at a failure that a zeroization makes void, are the model's choices (DEDUCED, log entry 22). The state
DAMAGED and the usage stand in the record as the codes 3 and those of R200, which is the model's choice (PRESUMED, log
entry 7). The field that holds the code of the command in flight is the model's (DEDUCED, log entry 27). -/
def Obligations.AdminFailureDamagesEntry : Prop :=
  (∀ s op, s.writer.running = some (.request (.admin op)) → s.life.cycle ≠ .zeroizing → s.life.cycle ≠ .zeroized →
    ∃ t, exec (.nvOperationEnd false) s = .next t ∧ CountersKept [] s t ∧
      OnlyRaised [.importDone, .nvFault] s t ∧ t.causeSet .nvFault = true ∧ t.life = s.life ∧
      WriterWentOn s t ∧ t.keys.inquiry = s.keys.inquiry ∧ AdminFailedInNv op s t ∧
      t = { s with status := t.status, keys := t.keys, nv := t.nv, writer := t.writer, freeCount := t.freeCount } ∧
      (match op with
        | .program i e _ =>
          t.entry i = { e with state := .damaged, key := none } ∧
          (∀ j, j ≠ i → t.entry j = s.entry j) ∧ CommandEnded .nvFault i 0#24 s t
        | .personalize i check => t.keys.dir = s.keys.dir ∧ CommandEnded .nvFault i check s t
        | .markRevoked i =>
          t.entry i = { s.entry i with state := .damaged } ∧
          (∀ j, j ≠ i → t.entry j = s.entry j) ∧ CommandEnded .nvFault i (s.entry i).check s t
        | .eraseEntry i kept =>
          t.entry i = { kept with state := .damaged, key := none } ∧
          (∀ j, j ≠ i → t.entry j = s.entry j) ∧ CommandEnded .nvFault i 0#24 s t
        | .writeReader _ => t.keys.dir = s.keys.dir ∧ CommandEnded .nvFault 0 0#24 s t
        | .lockField => t.keys.dir = s.keys.dir ∧ CommandEnded .nvFault 0 0#24 s t)) ∧
  (∀ s op, s.writer.running = some (.request (.admin op)) → s.life.cycle = .zeroizing ∨ s.life.cycle = .zeroized →
    ∃ t, exec (.nvOperationEnd false) s = .next t ∧ AdminFailedInNv op s t ∧ WriterWentOn s t ∧
      t.causeSet .nvFault = true ∧ OnlyRaised [.nvFault] s t ∧ CountersKept [] s t ∧
      t = { s with status := t.status, nv := t.nv, writer := t.writer, freeCount := t.freeCount })

/-- The end of an epoch record, of a reservation and of the program of RESERVE: a success writes NV, and for the
challenge counter raises the ceiling; a failure raises NV_FAULT and leaves them; the pending flag clears, RESERVE ends,
and the writer goes on (R92, R93, R35, R130, R170). The end of RESERVE raises CHALLENGE_LOW where ceiling − counter is
then below 256 and no reservation is pending, as after a failed program (R170, R185). -/
def Obligations.CounterAndEpochOperationsEnd : Prop :=
  ∀ s passed,
    (∀ v, s.writer.running = some (.request (.epochRecord v)) →
      ∃ t, exec (.nvOperationEnd passed) s = .next t ∧
        t.nv = { s.nv with epoch := if passed then v else s.nv.epoch } ∧ WriterWentOn s t ∧
        OnlyRaised [.nvFault] s t ∧ CountersKept [] s t ∧ (passed = false → t.causeSet .nvFault = true) ∧
        (passed = true → t.status = s.status) ∧
        t = { s with nv := t.nv, writer := t.writer, status := t.status }) ∧
    (∀ v, s.writer.running = some (.request (.reservation v)) →
      ∃ t, exec (.nvOperationEnd passed) s = .next t ∧
        t.nv = { s.nv with highWater := if passed then v else s.nv.highWater } ∧
        t.slots = { s.slots with ceiling := if passed then v else s.slots.ceiling, reservationPending := false } ∧
        WriterWentOn s t ∧ OnlyRaised [.nvFault, .challengeLow] s t ∧ CountersKept [] s t ∧
        (t.causeSet .nvFault = true ↔ s.causeSet .nvFault = true ∨ passed = false) ∧
        (t.causeSet .challengeLow = true ↔
          s.causeSet .challengeLow = true ∨ (s.challengeLow = false ∧ t.challengeLow = true)) ∧
        t = { s with nv := t.nv, slots := t.slots, writer := t.writer, status := t.status }) ∧
    (∀ v, s.writer.running = some (.reserve v) →
      ∃ t, exec (.nvOperationEnd passed) s = .next t ∧
        t.nv = { s.nv with highWater := if passed then v else s.nv.highWater } ∧
        t.slots = { s.slots with ceiling := if passed then v else s.slots.ceiling } ∧
        WriterWentOn s t ∧ OnlyRaised [.nvFault, .challengeLow] s t ∧ CountersKept [] s t ∧
        (t.causeSet .nvFault = true ↔ s.causeSet .nvFault = true ∨ passed = false) ∧
        (t.causeSet .challengeLow = true ↔ s.causeSet .challengeLow = true ∨
          (t.slots.ceiling - t.slots.counter < 256 ∧ t.slots.reservationPending = false)) ∧
        LoadBegan s t ∧
        t = { s with
          nv := t.nv, slots := t.slots, writer := t.writer, status := t.status, map := t.map, path := t.path
          life := { s.life with phase := .mapLoad } })

/-- NV_READ_END of a part not left in a zeroization takes the life cycle, the reader number and the active epoch from
NV and forms the directory (R167). An EMPTY record gives an EMPTY entry. A LOADED, REVOKED or DAMAGED record with its
fields in range gives its entry, key included. Any other record gives a DAMAGED entry without a key, with usage, key
set and version kept where they are in range and zero otherwise. A record that repeats the triple of a lower-indexed
one gives a DAMAGED entry with usage none, key set 0, version 0 and no key. Then KEY_CHECK begins with the first entry
that is not EMPTY, and with none of them RESERVE begins at once (R169, R170). A deferred tamper is judged against the
life cycle read: in FIELD it starts a zeroization, with which KEY_CHECK and RESERVE end (R172, R174, R175). The codes
in NV are those of R200 and R202, the model's choice (PRESUMED, log entry 7). That the epochs and check value of an
entry placed DAMAGED stay as read, and that an EMPTY record with another field set is out of range, are the model's
choices (DEDUCED, log entry 23); that CHALLENGE_LOW is raised where the deferred tamper ends RESERVE is the model's
choice (DEDUCED, log entry 21). The first CHECK job starts within this row (DEDUCED, log entry 16). -/
def Obligations.NvReadFormsDirectory : Prop :=
  (∀ s, s.life.phase = .nvRead → s.writer.running = none → s.nv.lifeWord ∈ [0#8, 1#8, 2#8] →
    s.life.deferred = false ∨ s.nv.lifeWord ≠ 2#8 →
    ∃ t, exec .nvReadEnd s = .next t ∧
      t.life.cycle = (if s.nv.lifeWord = 0#8 then .blank else if s.nv.lifeWord = 1#8 then .personalized else .field) ∧
      t.life.reader = s.nv.reader ∧ t.time = { s.time with epoch := s.nv.epoch } ∧ t.life.deferred = false ∧
      t.nv = s.nv ∧
      (∀ i, RecordEmpty (s.record i) → t.entry i = DirEntry.emptied) ∧
      (∀ i, RecordInRange (s.record i) → ¬RepeatsTriple s i →
        t.entry i = {
          state := if (s.record i).state = 1#8 then .loaded else if (s.record i).state = 2#8 then .revoked else .damaged
          usage := usageOf (s.record i).usage, keySet := (s.record i).keySet.setWidth 5
          version := (s.record i).version.setWidth 4, validFrom := (s.record i).validFrom
          validUntil := (s.record i).validUntil, check := (s.record i).check, key := some (s.record i).key }) ∧
      (∀ i, ¬RecordEmpty (s.record i) → ¬RecordInRange (s.record i) → ¬RepeatsTriple s i →
        t.entry i = {
          state := .damaged, usage := usageOf (s.record i).usage, keySet := (keptKeySet (s.record i)).setWidth 5
          version := (keptVersion (s.record i)).setWidth 4, validFrom := (s.record i).validFrom
          validUntil := (s.record i).validUntil, check := (s.record i).check, key := none }) ∧
      (∀ i, RepeatsTriple s i →
        t.entry i = {
          state := .damaged, usage := .none, keySet := 0#5, version := 0#4, validFrom := (s.record i).validFrom
          validUntil := (s.record i).validUntil, check := (s.record i).check, key := none }) ∧
      t.keys = { s.keys with dir := t.keys.dir } ∧
      StartUpWentOn 0 { s with
        life := { s.life with cycle := t.life.cycle, reader := s.nv.reader, phase := .keyCheck, deferred := false }
        time := { s.time with epoch := s.nv.epoch }, keys := t.keys } t) ∧
  (∀ s, s.life.phase = .nvRead → s.writer.running = none → s.nv.lifeWord = 2#8 → s.life.deferred = true →
    ∃ t, exec .nvReadEnd s = .next t ∧ NothingHeld t ∧
      t.life = { s.life with cycle := .zeroizing, reader := s.nv.reader, phase := .mapLoad, deferred := false } ∧
      t.time = { s.time with epoch := s.nv.epoch } ∧ t.nv = s.nv ∧
      t.writer = { s.writer with
        running := some (.nvZeroize 0), waiting := [], zeroizeWaiting := false, attemptsFailed := 0#8 } ∧
      t.slots.counter = s.nv.highWater ∧ t.slots.ceiling = s.nv.highWater ∧ t.slots.reservationPending = false ∧
      t.keys.inquiry = Inquiry.zero ∧ OnlyRaised [.importDone, .challengeLow] s t ∧ CountersKept [] s t ∧
      t.causeSet .challengeLow = true ∧
      t.map = { s.map with state := .loading, load := some .draining } ∧
      ∃ u, ReserveEndedAtOnce u t ∧
        ZeroizedByTamper { s with
          life := { s.life with cycle := .field, reader := s.nv.reader, phase := .keyCheck, deferred := false }
          time := { s.time with epoch := s.nv.epoch } } u)

/-- The NV zeroize ends in its three stages, each of them writing its records as a whole; passing completes it and
makes the part ZEROIZED with active epoch 0; a failed stage starts it again and counts the attempt (R94, R176). After
a failed attempt the NV life-cycle word is ZEROIZED, whatever stage failed (R178; for stages 2 and 3 by the invariant
ZeroizeStagesStand, which StepKeepsImportAndWriter states), the reader number and the high-water stand, and what the
failed stage leaves in its own records is a free value. A part found ZEROIZED in NV at start-up runs the NV zeroize in
NV_READ, and the life-cycle word BLANK that follows it makes the part BLANK, and start-up goes on to KEY_CHECK, and
with no entry left to check to RESERVE; a failure of that word repeats it (R168, R169, R170). That a failed stage 1
leaves the word ZEROIZED and every other field of NV as it was, and that a failed stage 2 or 3 leaves only its own
records, whose contents are a free value, and the order in which the rows of an attempt come are the model's choices
(DEDUCED and DESIGN CHOICE, log entry 20); the volatile life cycle, the reader number and the phase before the word
BLANK is written are the model's choice (DEDUCED, log entry 19). The life-cycle words 4 (ZEROIZED) and 0 (BLANK), the
words 0, 1 and 2 that start no zeroization, and the bytes of an erased record are the codes of R202 and R200, which is
the model's choice (PRESUMED, log entry 7). The first CHECK job, where there is one, starts within the row (DEDUCED,
log entry 16). -/
def Obligations.NvZeroizeRunsItsStages : Prop :=
  (∀ s (n : Fin 4), s.writer.running = some (.nvZeroize n) →
     (∀ m : Fin 3, n.val = m.val →
       exec .nvZeroizeStageEnd s = .next { s with
         nv := (match m with
           | 0 => { s.nv with lifeWord := 4#8 }
           | 1 => { s.nv with records := Vector.replicate 64 NvRecord.erased }
           | 2 => { s.nv with epoch := 0#16 })
         writer := { s.writer with running := some (.nvZeroize (n + 1)) } } ∧
       ∃ t, exec (.nvZeroizeAttemptEnd false) s = .next t ∧ t.causeSet .nvFault = true ∧
         OnlyRaised [.nvFault] s t ∧ CountersKept [] s t ∧
         (match m with
           | 0 => t.nv = { s.nv with lifeWord := 4#8 }
           | 1 => t.nv = { s.nv with records := t.nv.records }
           | 2 => t.nv = { s.nv with epoch := t.nv.epoch }) ∧
         (ZeroizeStagesStand s → t.nv.lifeWord = 4#8) ∧
         t = { s with
           status := t.status, nv := t.nv, freeCount := t.freeCount
           writer := { s.writer with
             running := some (.nvZeroize 0)
             attemptsFailed := if s.writer.attemptsFailed = 255#8 then 255#8
               else s.writer.attemptsFailed + 1#8 } }) ∧
     (n.val = 3 → s.nv.lifeWord = 4#8 → s.nv.records = Vector.replicate 64 NvRecord.erased → s.nv.epoch = 0#16 →
       (s.life.phase ≠ .nvRead →
         ∃ t, exec (.nvZeroizeAttemptEnd true) s = .next t ∧ t.life = { s.life with cycle := .zeroized } ∧
           t.time = { s.time with epoch := 0#16, schedule := none } ∧ t.causeSet .zeroized = true ∧
           OnlyRaised [.zeroized] s t ∧ CountersKept [] s t ∧
           WriterWentOn s t ∧ t = { s with life := t.life, time := t.time, status := t.status, writer := t.writer }) ∧
       (s.life.phase = .nvRead →
         exec (.nvZeroizeAttemptEnd true) s =
           .next { s with writer := { s.writer with running := some .blankWord } }))) ∧
  ((∀ s, s.life.phase = .nvRead → s.writer.running = none → s.nv.lifeWord ∉ [0#8, 1#8, 2#8] →
     exec .nvReadEnd s =
       .next { s with writer := { s.writer with running := some (.nvZeroize 0), attemptsFailed := 0#8 } }) ∧
   (∀ s, s.life.phase = .nvRead → s.writer.running = some .blankWord →
     (∃ t, exec (.nvOperationEnd true) s = .next t ∧ t.nv = { s.nv with lifeWord := 0#8 } ∧ t.life.cycle = .blank ∧
       t.life.reader = s.nv.reader ∧ t.time.epoch = s.nv.epoch ∧ t.causeSet .zeroized = true ∧
       t.life.phase ≠ .nvRead ∧ t.life.deferred = false ∧ t.keys = s.keys ∧
       ∃ v, v.causeSet .zeroized = true ∧ OnlyRaised [.zeroized] s v ∧ CountersKept [] s v ∧
         v = { s with
           nv := { s.nv with lifeWord := 0#8 }, time := { s.time with epoch := s.nv.epoch }, status := v.status
           life := { s.life with cycle := .blank, reader := s.nv.reader, phase := .keyCheck, deferred := false }
           writer := { s.writer with running := none } } ∧
         StartUpWentOn 0 v t) ∧
     (∃ t, exec (.nvOperationEnd false) s = .next t ∧ t.causeSet .nvFault = true ∧ OnlyRaised [.nvFault] s t ∧
       CountersKept [] s t ∧ t = { s with status := t.status })))

/-! ### The Memory Path (chapter 7) -/

/-- An address phase joins the end of its initiator's order queue while fewer than 8 requests are in it; past that it
waits outside the part (R136). That the row then leaves the state is the model's choice (log entry 3). -/
def Obligations.RequestJoinsItsOrderQueue : Prop :=
  ∀ r s,
    ((s.queue r.initiator).length < 8 →
      ∃ t, exec (.requestAccept r) s = .next t ∧
        t.queue r.initiator = s.queue r.initiator ++ [{ req := r, stage := .untaken }] ∧
        (∀ j, j ≠ r.initiator → t.queue j = s.queue j) ∧
        t = { s with path := { s.path with queues := t.path.queues } }) ∧
    (8 ≤ (s.queue r.initiator).length → exec (.requestAccept r) s = .next s)

/-- A read that passes its checks is not held where the group's limit is 0, where the hold is set, and where it includes
no word whose slot job is pending (R24). It is then answered where every word is the part's own, from the state at its
taking, and else forwarded with the answered words kept for it; a burst with the LT low word sets the LT high latch
(R119, R137, R143). That the answered words of a mixed read are formed when it is taken is DEDUCED (log entry 14). -/
def Obligations.ReadIsAnsweredOrForwarded : Prop :=
  ∀ s i pre r post, QueuesInOrder s → NextIs s i pre r post → r.dir = .read → s.refusalReason r [] = none →
    let places := s.requestPlaces r
    s.status.hold = true ∨ (∀ p ∈ places, ¬PendingWord s p) ∨
      (∀ ref word, .slot ref word ∈ places → (s.descriptor ref.group).holdLimit = 0#16) →
    let answers := places.map (answer (latched s places))
    ((∀ a ∈ answers, a ≠ none) →
      ∃ t, exec (.readTaken i) s = .next t ∧
        ReplyReady s t i pre r (.read (answers.map fun a => ReadBeat.mk (a.getD 0#64) .okay)) post ∧
        t = { latched s places with path := { s.path with queues := t.path.queues }, sysOut := t.sysOut }) ∧
    ((∃ a ∈ answers, a = none) →
      ∃ t, exec (.readTaken i) s = .next t ∧
        t.queue i = pre ++ { req := r, stage := .forwarded answers false } :: post ∧
        (∀ j, j ≠ i → t.queue j = s.queue j) ∧
        t = { latched s places with
          path := { s.path with queues := t.path.queues }, memOut := s.memOut ++ [.read r] })

/-- A read that includes a word whose slot job is pending is held, for the slots whose words are pending and until LT
has gone on by the group's limit at the latest, unless the limit is 0 or the hold is set; READ_HOLD_LIMIT then answers
or forwards it as it stands, and before that LT does nothing (R24, R25). That the row does nothing before its moment is
the model's choice (log entry 17). -/
def Obligations.PendingReadIsHeldToItsLimit : Prop :=
  (∀ s i pre r post ref word, QueuesInOrder s → NextIs s i pre r post → r.dir = .read →
    s.refusalReason r [] = none → s.status.hold = false →
    .slot ref word ∈ s.requestPlaces r → PendingWord s (.slot ref word) →
    (s.descriptor ref.group).holdLimit ≠ 0#16 →
    ∃ t waits, exec (.readTaken i) s = .next t ∧
      (∀ w, w ∈ waits ↔ ∃ word', .slot w.1 word' ∈ s.requestPlaces r ∧ PendingWord s (.slot w.1 word') ∧
        w.2 = (if word' = 3 then JobKind.verify else .sealing)) ∧
      t.queue i = pre ++ QueueEntry.mk r
        (.held (s.time.lt + (s.descriptor ref.group).holdLimit.setWidth 64) (s.requestPlaces r) waits) :: post ∧
      (∀ j, j ≠ i → t.queue j = s.queue j) ∧ t = { s with path := { s.path with queues := t.path.queues } }) ∧
  (∀ s i pre r endsAt places waits post, QueuesInOrder s →
    s.queue i = pre ++ { req := r, stage := .held endsAt places waits } :: post →
    (s.time.lt < endsAt → exec (.readHoldLimit i) s = .next s) ∧
    (endsAt ≤ s.time.lt →
      ((∀ p ∈ places, answer s p ≠ none) →
        ∃ t, exec (.readHoldLimit i) s = .next t ∧
          ReplyReady s t i pre r
            (.read (places.map fun p => ReadBeat.mk ((answer s p).getD 0#64) .okay)) post ∧
          t = { s with path := { s.path with queues := t.path.queues }, sysOut := t.sysOut }) ∧
      ((∃ p ∈ places, answer s p = none) →
        ∃ t, exec (.readHoldLimit i) s = .next t ∧
          t.queue i = pre ++ { req := r, stage := .forwarded (places.map (answer s)) false } :: post ∧
          (∀ j, j ≠ i → t.queue j = s.queue j) ∧
          t = { s with
            path := { s.path with queues := t.path.queues }, memOut := s.memOut ++ [.read r] })))

/-- A request that fails a check is answered with SLVERR, zeros on every beat of a read, in its place in the order; it
is not forwarded and acts nowhere but in the count, the cause and, where that is clear, the record of refusals (R137,
R141, R145). That the beats of a write come with WRITE_TAKEN is the model's choice (log entry 15). -/
def Obligations.RefusedRequestIsOnlyRecorded : Prop :=
  ∀ s i pre r post row beats reason, QueuesInOrder s → NextIs s i pre r post →
    (row = .readTaken i ∧ r.dir = .read ∧ beats = [] ∨
      row = .writeTaken i beats ∧ r.dir = .write ∧ beats.length = r.len.toNat + 1) →
    s.refusalReason r beats = some reason →
    ∃ t, exec row s = .next t ∧
      ReplyReady s t i pre r
        (match r.dir with
          | .read => Reply.read (List.replicate (r.len.toNat + 1) { data := 0#64, resp := .slverr })
          | .write => Reply.write .slverr) post ∧
      t.counter .refusals = counted (s.counter .refusals) ∧ CountersKept [.refusals] s t ∧
      t.causeSet .refusal = true ∧ OnlyRaised [.refusal] s t ∧
      t.path.refusal =
        (if s.path.refusal.valid = true then s.path.refusal
        else { valid := true, addr := r.addr, initiator := r.initiator, dir := r.dir
               privileged := r.prot.getLsbD 0, reason := some reason }) ∧
      t = { s with path := t.path, sysOut := t.sysOut, status := t.status }

/-- The checks of every request, in their order (R141). One whose bytes lie in two regions is refused with LIMIT
(R138). In the control region and in slot groups one out of burst form is refused with FORM (R139). A PLAIN window and
the unmapped addresses have no form check; their masks decide, and the window's privilege (R140, R153). In a slot
group the read mask, the fill mask and the manage mask decide word by word, then the privilege; result words refuse
writes and command words need every strobe (R2, R3). In the control region all read the status block and the window
table; only initiator 0, privileged, writes there or uses the import area; the memory above it is initiator 0's alone;
answered result words, read-only words and taken words with partial strobes refuse writes (R95, R139, R150, R181). A
burst of several words is refused for the first reason, in the order of the checks, that any of its words alone would
give. The word each beat reaches follows from its address (R1, R2, R149), in the status block by R201's table of
offsets: identity at 0x000, to the NV writer state at 0x0D0, and unassigned from 0x0D8 to 0x1F8 (R201). The premise is
the invariant MapLegal, a statement of its own. A burst past the top of the address space does not wrap (DEDUCED, log
entry 24). -/
def Obligations.RequestChecksInOrder : Prop :=
  ∀ s, MapLegal s →
  (∀ r beats a a' region region', Touches r a → InRegion s a region → Touches r a' → InRegion s a' region' →
    region ≠ region' → s.refusalReason r beats = some .limit) ∧
  (∀ r beats region, region = .control ∨ (∃ g, region = .group g) → LiesIn s r region → ¬BurstInForm r →
    s.refusalReason r beats = some .form) ∧
  (∀ r beats w, LiesIn s r (.plain w) →
    let mask := if r.dir = .read then (s.descriptor w).readMask else (s.descriptor w).writeMask
    s.refusalReason r beats =
      if mask.getLsbD r.initiator.val = false then some .permission
      else if (s.descriptor w).privilegedOnly = true ∧ r.prot.getLsbD 0 = false then some .privilege else none) ∧
  (∀ r beats, LiesIn s r .unmapped →
    let mask := if r.dir = .read then s.map.unmappedRead else s.map.unmappedWrite
    s.refusalReason r beats = if mask.getLsbD r.initiator.val = false then some .permission else none) ∧
  (∀ r region beats, region = .control ∨ (∃ g, region = .group g) → LiesIn s r region → BurstInForm r →
    (r.dir = .read → beats = []) → (r.dir = .write → beats.length = r.len.toNat + 1) →
    let alone := fun k => s.refusalReason (wordRequest r k) ((beats.drop k).take 1)
    ∀ reason, s.refusalReason r beats = some reason ↔
      (∃ k, k ≤ r.len.toNat ∧ alone k = some reason) ∧
      ∀ k reason', k ≤ r.len.toNat → alone k = some reason' → checkOrder reason ≤ checkOrder reason') ∧
  (∀ r g, LiesIn s r (.group g) → BurstInForm r →
    s.requestPlaces r = (List.range (r.len.toNat + 1)).map fun k =>
      let off := r.addr.toNat - (s.descriptor g).base * 4096 + 8 * k
      .slot { group := g, index := Fin.ofNat 32 (off / 128) } (Fin.ofNat 16 (off % 128 / 8))) ∧
  (∀ r, LiesIn s r .control → BurstInForm r →
    s.requestPlaces r = (List.range (r.len.toNat + 1)).map fun k =>
      let off := r.addr.toNat - s.base + 8 * k
      if off < 0x200 then .status (statusWordOf off)
      else if 0x300 ≤ off ∧ off < 0x380 then .importArea (Fin.ofNat 16 ((off - 0x300) / 8)) else .memory) ∧
  (∀ r g b, LiesIn s r (.group g) → BurstInForm r → r.len = 0#8 →
    let d := s.descriptor g
    let word := (r.addr.toNat - d.base * 4096) % 128 / 8
    let fill := d.writeMask.getLsbD r.initiator.val
    let manage := d.manageMask.getLsbD r.initiator.val
    let short := d.privilegedOnly = true ∧ r.prot.getLsbD 0 = false
    (r.dir = .read →
      s.refusalReason r [] =
        if d.readMask.getLsbD r.initiator.val = false then some .permission
        else if short then some .privilege else none) ∧
    (r.dir = .write →
      s.refusalReason r [b] =
        if fill = false ∧ (word ∈ [4, 5, 6, 7, 9, 10, 11, 12] ∨ manage = false) then some .permission
        else if short then some .privilege
        else if word ∈ [0, 1, 2, 3, 14, 15] then some .resultWrite
        else if word ∈ [8, 13] ∧ b.strobes ≠ 0xFF#8 then some .form else none)) ∧
  (∀ r off b, isWordAt s r off →
    let admitted := r.initiator = 0 ∧ r.prot.getLsbD 0 = true
    let denied := if r.initiator ≠ 0 then RefusalReason.permission else .privilege
    (r.dir = .read →
      s.refusalReason r [] =
        if off < 0x300 then none
        else if off < 0x380 then (if admitted then none else some denied)
        else if r.initiator = 0 then none else some .permission) ∧
    (r.dir = .write → off < 0x380 → ¬admitted → s.refusalReason r [b] = some denied) ∧
    (r.dir = .write → off < 0x200 → admitted →
      s.refusalReason r [b] =
        if statusWordOf off ∈ [.pre, .epoch, .epochControl, .causes, .enables, .mapWord, .unmappedRights,
            .dInterval, .holdTime, .hold, .counterClear] then
          (if b.strobes = 0xFF#8 then none else some .form)
        else some .reserved) ∧
    (r.dir = .write → 0x200 ≤ off → off < 0x300 → admitted → s.refusalReason r [b] = none) ∧
    (r.dir = .write → 0x300 ≤ off → off < 0x380 → admitted →
      s.refusalReason r [b] =
        if 0x348 ≤ off ∧ off ≤ 0x358 then some .resultWrite
        else if off = 0x340 ∧ b.strobes ≠ 0xFF#8 then some .form else none) ∧
    (r.dir = .write → 0x380 ≤ off →
      s.refusalReason r [b] = if r.initiator = 0 then none else some .permission))

/-- A write that passes its checks is forwarded whole, and its beats act one after another, in ascending address order:
each as its own row does on the state that the beats before it left, and a beat that is no row (an unknown slot or
R8, R9, R18, R19, R96, R100, R128, R142, R181). A write that touches memory alone acts nowhere in the part, and one of a
single beat to a command or setting word does what the word's own row does. The model's choices are these: the beats of
a write come with WRITE_TAKEN (log entry 15); a row that is one beat stands for a request that passed its checks (log
entry 4); the write itself, a map word's too, is forwarded without the mark of a write that a reload waits for, so the
reload does not wait for its response (DEDUCED, log entry 25). -/
def Obligations.WriteDoesWhatItsRowDoes : Prop :=
  (∀ s i pre r post beats, QueuesInOrder s → NextIs s i pre r post → r.dir = .write →
    beats.length = r.len.toNat + 1 → s.refusalReason r beats = none →
    ∃ t u, exec (.writeTaken i beats) s = .next t ∧ BeatsAct i ((s.requestPlaces r).zip beats) s u ∧
      t = { u with
        path := t.path
        memOut := u.memOut ++ [.write r (((s.requestPlaces r).zip beats).map fun pb =>
          match pb.1 with
          | .importArea word => if word.val ≤ 8 then { pb.2 with data := 0#64 } else pb.2
          | _ => pb.2)] } ∧
      t.path.refusal = u.path.refusal ∧ (∀ j, j ≠ i → t.queue j = u.queue j) ∧
      ∃ front back, u.queue i = front ++ { req := r, stage := .untaken } :: back ∧
        (∀ e ∈ front, isUntaken e = false) ∧
        t.queue i = front ++ { req := r, stage := .forwarded [] false } :: back) ∧
  (∀ s i pre r post beats, QueuesInOrder s → NextIs s i pre r post → r.dir = .write →
    beats.length = r.len.toNat + 1 → s.refusalReason r beats = none → (∀ p ∈ s.requestPlaces r, p = .memory) →
    ∃ t, exec (.writeTaken i beats) s = .next t ∧
      t.queue i = pre ++ { req := r, stage := .forwarded [] false } :: post ∧
      (∀ j, j ≠ i → t.queue j = s.queue j) ∧
      t = { s with
        path := { s.path with queues := t.path.queues }, memOut := s.memOut ++ [.write r beats] }) ∧
  (∀ s i pre r post row b place, QueuesInOrder s → NextIs s i pre r post → r.dir = .write → r.len = 0#8 →
     s.refusalReason r [b] = none → s.requestPlaces r = [place] →
     (∃ ref cw cmd upper, slotRow row = some (i, ref, cw, cmd, upper) ∧ b.data = upper ++ slotCode cmd ∧
         place = .slot ref (match cw with
           | .a => 8
           | .b => 13) ∧ (s.ctx? ref).isSome = true) ∨
       (∃ word off, settingRow row = some (word, off, b.data) ∧ place = .status word) ∨
       (∃ cmd upper, importRow row = some (cmd, upper) ∧ b.data = upper ++ importCode cmd ∧ place = .importArea 8) →
     ∃ t u, exec (.writeTaken i [b]) s = .next t ∧ exec row s = .next u ∧
       t = { u with path := t.path, memOut := t.memOut } ∧ t.path.refusal = u.path.refusal ∧
       t.memOut = u.memOut.dropLast ++ [.write r [match place with
         | .importArea _ => { b with data := 0#64 }
         | _ => b]] ∧
       waitingRequests t i = waitingRequests u i ∧ (∀ j, j ≠ i → t.queue j = u.queue j))

/-- Memory's response to a forwarded read, with the answered words in place of memory's data, or to a forwarded write,
is given in queue order (R137, R142, R143, R144). That the answered words of a forwarded read are kept from its taking
is the model's choice (DEDUCED, log entry 14). -/
def Obligations.MemoryResponsesAreGivenInOrder : Prop :=
  ∀ s i pre r answers awaited post (place : Fin 8), QueuesInOrder s →
    s.queue i = pre ++ { req := r, stage := .forwarded answers awaited } :: post → place.val = pre.length →
    (∀ beats, r.dir = .read → beats.length = r.len.toNat + 1 → answers.length = beats.length →
      ∃ t out, exec (.memoryReadResponse i place beats) s = .next t ∧ ReplyReady s t i pre r (.read out) post ∧
        out.length = beats.length ∧
        (∀ (k : Nat) w, answers[k]? = some (some w) → out[k]? = some (ReadBeat.mk w .okay)) ∧
        (∀ k : Nat, answers[k]? = some none → out[k]? = beats[k]?) ∧
        t = { s with path := { s.path with queues := t.path.queues }, sysOut := t.sysOut }) ∧
    (∀ resp, r.dir = .write →
      ∃ t, exec (.memoryWriteResponse i place resp) s = .next t ∧ ReplyReady s t i pre r (.write resp) post ∧
        t = { s with path := { s.path with queues := t.path.queues }, sysOut := t.sysOut })

/-- No response and nothing that goes to memory depends on any byte of a key, whatever row acts, but for the verdict,
the MAC and the seal that VERIFY_COMPLETE and SEAL_COMPLETE compute from keys: READ_TAKEN, READ_HOLD_LIMIT and
MEMORY_READ_RESPONSE, and every row that ends a held read, answer the same with other keys in the part (R5, R6, R20,
R87, R96). -/
def Obligations.ReadsDoNotDependOnKeys : Prop :=
  ∀ row s, row ≠ .verifyComplete → row ≠ .sealComplete →
    ∃ t u, exec row s = .next t ∧ exec row (withoutKeys s) = .next u ∧
      t.sysOut = u.sysOut ∧ t.memOut = u.memOut ∧ t.path = u.path

/-! ### The Window Map (chapter 8) -/

/-- A map word taken in RUNNING stores the requested generation and begins a reload, which waits for the writes
forwarded before it; then the first burst of the table is read (R146, R155). That MAP_TABLE_READ_START does nothing
before its moment is the model's choice (log entry 17). -/
def Obligations.MapWordStartsReloadAfterDrain : Prop :=
  (∀ s w, s.life.phase = .running → s.status.hold = false → s.reloading = false →
    ∃ t, exec (.mapWordWrite w) s = .next t ∧
      t.map = { s.map with requested := w.extractLsb' 0 16, state := .loading, load := some .draining } ∧
      (∀ i, t.queue i = (s.queue i).map fun e =>
        match e.stage with
        | .forwarded a m => { e with stage := .forwarded a (m || decide (e.req.dir = .write)) }
        | _ => e) ∧
      t = { s with
        map := t.map, path := { s.path with queues := t.path.queues }
        memOut := s.memOut ++ [settingOut s 0x050 w] }) ∧
  (∀ s, s.map.load = some .draining →
    ((∀ i, ∀ e ∈ s.queue i, ∀ a, e.stage ≠ .forwarded a true) →
      exec .mapTableReadStart s = .next { s with
        map := { s.map with load := some .reading }
        memOut := s.memOut ++ [.tableRead (s.base + 0x200)] }) ∧
    ((∃ i, ∃ e ∈ s.queue i, ∃ a, e.stage = .forwarded a true) → exec .mapTableReadStart s = .next s))

/-- The end of the table read: an error beat gives READ_ERROR with its descriptor's index, a table that fails validation
the fault of the first check that its lowest-indexed faulty descriptor fails and that index, both leaving the installed
map; a legal table is installed, keeping the slots of each group whose 16 bytes are the same and making the others anew
(R156, R157, R158, R159, R28, R51, R161). An error in the first burst sends no second one (R156); that otherwise the
second burst goes out within this row is the model's choice (DEDUCED, log entry 25). -/
def Obligations.TableReadInstallsOrFaults : Prop :=
  ∀ s (first second : List ReadBeat), s.map.load = some .reading → first.length = 16 →
    let error := fun (b : ReadBeat) => b.resp = .slverr ∨ b.resp = .decerr
    let phase := if s.life.phase = .mapLoad then Phase.running else s.life.phase
    let faulted := fun (row : Instr) (sent : List MemOut) f (n : Fin 16) => ∃ t, exec row s = .next t ∧
      t.map = { s.map with state := .fault, fault := f, faultIndex := n, load := none } ∧
      t.causeSet .mapFault = true ∧ OnlyRaised [.mapFault] s t ∧ CountersKept [] s t ∧
      t.life = { s.life with phase := phase } ∧
      t = { s with map := t.map, status := t.status, life := t.life, memOut := s.memOut ++ sent }
    let again := [MemOut.tableRead (s.base + 0x200 + 128)]
    (∀ k b, first[k]? = some b → error b → (∀ j b', j < k → first[j]? = some b' → ¬error b') →
      faulted (.mapTableReadEnd first second) [] .readError (Fin.ofNat 16 (k / 2))) ∧
    ((∀ b ∈ first, ¬error b) → second.length = 16 →
      (∀ k b, second[k]? = some b → error b → (∀ j b', j < k → second[j]? = some b' → ¬error b') →
        faulted (.mapTableReadEnd first second) again .readError (Fin.ofNat 16 (8 + k / 2))) ∧
      ((∀ b ∈ second, ¬error b) →
        let table := (List.range 16).map fun n =>
          Descriptor.mk (((first ++ second).getD (2 * n) ⟨0#64, .okay⟩).data)
            (((first ++ second).getD (2 * n + 1) ⟨0#64, .okay⟩).data)
        (∀ f (n : Fin 16), TableFaulty s.base table f n.val → faulted (.mapTableReadEnd first second) again f n) ∧
        ((∀ n, n < 16 → DescriptorGood s.base table n) →
          ∃ t, exec (.mapTableReadEnd first second) s = .next t ∧
            (∀ i : Fin 16, ((first ++ second)[2 * i.val]?).map (·.data) = some (t.descriptor i).word0 ∧
              ((first ++ second)[2 * i.val + 1]?).map (·.data) = some (t.descriptor i).word1) ∧
            t.map = { s.map with
              table := t.map.table, installed := s.map.requested, state := .loaded, fault := .none, faultIndex := 0
              load := none } ∧
            (let kept := fun (g : Fin 16) => (s.descriptor g).isSlots && decide (s.descriptor g = t.descriptor g);
              (∀ r : SlotRef, t.ctx? r =
                if kept r.group then s.ctx? r
                else if (t.descriptor r.group).isSlots && decide (r.index.val < (t.descriptor r.group).slotCount) then
                  some SlotCtx.fresh
                else none) ∧
              t.engine = { s.engine with
                fifo := s.engine.fifo.filter fun r => kept r.group
                job := s.engine.job.map fun j =>
                  match jobSlot j with
                  | some r => { j with discard := j.discard || !kept r.group }
                  | none => j }) ∧
            t.causeSet .mapLoaded = true ∧ OnlyRaised [.mapLoaded] s t ∧ CountersKept [] s t ∧
            t.life = { s.life with phase := phase } ∧ t.filter = s.filter ∧ t.keys = s.keys ∧ t.time = s.time ∧
            t.nv = s.nv ∧ t.writer = s.writer ∧ t.path.refusal = s.path.refusal ∧
            HeldReadsSettled again s t ∧
            t = { s with
              map := t.map, slots := { s.slots with contexts := t.slots.contexts }, engine := t.engine
              status := t.status, life := t.life, path := t.path, memOut := t.memOut, sysOut := t.sysOut })))

/-! ### Invariants that every step keeps -/

/-- Before RUNNING nothing of service exists, and each start-up operation belongs to its phase: no step, from any state
where this holds, breaks it (R40, R54, R131, R161, R166, R168, R170, R187, R191). -/
def Obligations.StepKeepsStartUpOrder : Prop :=
  ∀ s t, StartUpOrder s → step s = .next t → StartUpOrder t

/-- Every challenge value is issued once: the least value that can still be issued never falls, at power loss either,
each challenge that appears in a slot is at least that value and below the recorded high-water, and no two live
challenges are equal (R32, R33, R34, R35, R36). -/
def Obligations.StepIssuesEachChallengeOnce : Prop :=
  ∀ s t, StartUpOrder s → ChallengesReserved s → step s = .next t →
    ChallengesReserved t ∧ leastToIssue s ≤ leastToIssue t ∧
    ∀ r c ch, t.ctx? r = some c → c.challenge = some ch → (s.ctx? r).bind (·.challenge) ≠ some ch →
      leastToIssue s ≤ challengeValue ch ∧ challengeValue ch < s.nv.highWater ∧
        challengeValue ch < leastToIssue t

/-- The slots and the engine agree: the FIFO holds exactly the QUEUED slots, each once; a BUSY or ABORTING slot is the
one in work; a derived key is held only on the way from VERIFY to SEAL; each field is present as the state says (R5, R6,
R16, R38, R41). That a BUSY slot holds its derived key from the taking on is the model's choice (DEDUCED, log entry 16). -/
def Obligations.StepKeepsSlotsAndEngineInStep : Prop :=
  ∀ s t, StartUpOrder s → SlotsAndEngine s → step s = .next t → SlotsAndEngine t

/-- In ZEROIZING and ZEROIZED no step brings back a key, a transaction, a job or a filter entry (R30, R50, R84, R114,
R175); and while the hold is set no slot leaves FREE, nothing is queued and the filter stays empty (R193). -/
def Obligations.StepKeepsStoppedPartClean : Prop :=
  (∀ s t, StartUpOrder s → ZeroizedClean s → step s = .next t → ZeroizedClean t) ∧
  (∀ s t, HoldIsStill s → step s = .next t → HoldIsStill t)

/-- The NV writer's list never holds two requests of a kind, so never more than three, and no two admin requests or
reservations are held at once, running or waiting (R34, R90). The import state is IDLE exactly while no import job
waits or works and no admin request is held, and shows which of them there is (R101); for an import job under way an
EMPTY entry exists (R104). While the NV zeroize runs, what its passed stages wrote stands in NV, and in a repeated
attempt the life-cycle word is ZEROIZED from the start (R176, R178). An admin request still running once a zeroization
has started belongs to no command (R94, R114). That a first attempt failing in stage 1 has written the word is the
model's choice (DEDUCED, log entry 20). -/
def Obligations.StepKeepsImportAndWriter : Prop :=
  (∀ s t, StartUpOrder s → ImportAndWriter s → step s = .next t → ImportAndWriter t) ∧
  (∀ s, ImportAndWriter s → s.writer.waiting.length ≤ 3 ∧
    (s.keys.importState = .idle ↔ s.engine.importPlace = none ∧ liveImport s.engine = none ∧
      (adminOps s.writer = [] ∨ s.zeroing = true))) ∧
  (∀ s t, ZeroizeStagesStand s → step s = .next t → ZeroizeStagesStand t)

/-- The key directory holds at most one non-EMPTY entry for each combination of usage, key set and version, and none
whose triple an import, a program or an ERASE under way keeps; EMPTY entries are zero, LOADED and REVOKED ones hold a
key, and every TRANSPORT entry has key set 0 (R87, R102, R103, R104, R106, R167). A lookup of a triple finds the
non-EMPTY entry that has it, and none where no entry has it; a DAMAGED entry of usage none is never found (R87). The
lowest index is the answer only where the directory is out of form, which no run reaches (log entry 28). -/
def Obligations.StepKeepsTriplesUnique : Prop :=
  (∀ s t, StartUpOrder s → ImportAndWriter s → TriplesUnique s → step s = .next t → TriplesUnique t) ∧
  (∀ s, TriplesUnique s → ∀ u (keySet : BitVec 5) (version : BitVec 4), u ≠ .none →
    ∀ i, s.findEntry u (keySet.setWidth 8) (version.setWidth 8) = some i ↔
      HasTriple (s.entry i) (u, keySet, version)) ∧
  (∀ (s : State) u keySet version i, s.findEntry u keySet version = some i ↔
    let named := fun j => (s.entry j).state ≠ .empty ∧ (s.entry j).usage = u ∧
      (s.entry j).keySet.setWidth 8 = keySet ∧ (s.entry j).version.setWidth 8 = version
    named i ∧ ∀ j, j < i → ¬named j)

/-- The filter has at most one entry for each key set and tag ID, and the stored H is at most 2^40 (R68, R70). -/
def Obligations.StepKeepsFilterKeysUnique : Prop :=
  ∀ s t, FilterKeysUnique s → step s = .next t → FilterKeysUnique t

/-- A pending schedule names an epoch above the active one; and the active epoch is lowered only by POWER_ON_RESET, to
0; by NV_READ, which takes it from NV when its reads end or when the life-cycle word BLANK that follows an interrupted
zeroization is written; and by the completion of a zeroization, to 0 (R124, R125, R167, R168, R176). -/
def Obligations.StepNeverLowersActiveEpoch : Prop :=
  ∀ s t, StartUpOrder s → ScheduleAhead s → step s = .next t →
    ScheduleAhead t ∧
    (t.time.epoch < s.time.epoch →
      (∃ straps, s.pending.head? = some (.powerOnReset straps) ∧ t.time.epoch = 0#16) ∨
      (s.pending.head? = some .nvReadEnd ∧ s.life.phase = .nvRead ∧ t.life.phase ≠ .nvRead ∧
        t.time.epoch = s.nv.epoch) ∨
      (s.pending.head? = some (.nvOperationEnd true) ∧ s.writer.running = some .blankWord ∧ s.life.phase = .nvRead ∧
        t.life.phase ≠ .nvRead ∧ t.time.epoch = s.nv.epoch) ∨
      (s.pending.head? = some (.nvZeroizeAttemptEnd true) ∧ s.life.cycle = .zeroizing ∧ t.life.cycle = .zeroized ∧
        t.time.epoch = 0#16))

/-- The loaded map is legal at every moment, whatever a window table holds (R152, R154, R156). -/
def Obligations.StepKeepsLoadedMapLegal : Prop :=
  ∀ s t, MapLegal s → step s = .next t → MapLegal t

/-- Each initiator's responses are given in the order of its requests, and no request is lost: those answered, followed
by those waiting, only ever grow at the end, except at power-on reset (R136, R137). The record of responses is the
model's own (log entry 5). -/
def Obligations.StepAnswersRequestsInOrder : Prop :=
  ∀ s t, QueuesInOrder s → step s = .next t →
    QueuesInOrder t ∧
    ∀ i, (∀ straps, s.pending.head? ≠ some (.powerOnReset straps)) →
      answeredRequests s i ++ waitingRequests s i <+: answeredRequests t i ++ waitingRequests t i ∧
      answeredRequests s i <+: answeredRequests t i
end

