-- ==== Sys2Proof/Laws/State.lean ====
section
/-! SUPPORT. The fields of a state after each named update that touches a fixed part of it: one lemma per field that the
update leaves, true by `rfl`, so that no later proof unfolds a record update. -/

namespace Sys2Proof.Machine

@[simp] theorem State.raise_life (c : Cause) (s : State) : (s.raise c).life = s.life := rfl
@[simp] theorem State.raise_time (c : Cause) (s : State) : (s.raise c).time = s.time := rfl
@[simp] theorem State.raise_path (c : Cause) (s : State) : (s.raise c).path = s.path := rfl
@[simp] theorem State.raise_map (c : Cause) (s : State) : (s.raise c).map = s.map := rfl
@[simp] theorem State.raise_slots (c : Cause) (s : State) : (s.raise c).slots = s.slots := rfl
@[simp] theorem State.raise_engine (c : Cause) (s : State) : (s.raise c).engine = s.engine := rfl
@[simp] theorem State.raise_filter (c : Cause) (s : State) : (s.raise c).filter = s.filter := rfl
@[simp] theorem State.raise_keys (c : Cause) (s : State) : (s.raise c).keys = s.keys := rfl
@[simp] theorem State.raise_nv (c : Cause) (s : State) : (s.raise c).nv = s.nv := rfl
@[simp] theorem State.raise_writer (c : Cause) (s : State) : (s.raise c).writer = s.writer := rfl
@[simp] theorem State.raise_memOut (c : Cause) (s : State) : (s.raise c).memOut = s.memOut := rfl
@[simp] theorem State.raise_sysOut (c : Cause) (s : State) : (s.raise c).sysOut = s.sysOut := rfl
@[simp] theorem State.raise_freeCount (c : Cause) (s : State) : (s.raise c).freeCount = s.freeCount := rfl
@[simp] theorem State.raise_pending (c : Cause) (s : State) : (s.raise c).pending = s.pending := rfl

@[simp] theorem State.raiseAll_life (cs : List Cause) (s : State) : (s.raiseAll cs).life = s.life := rfl
@[simp] theorem State.raiseAll_time (cs : List Cause) (s : State) : (s.raiseAll cs).time = s.time := rfl
@[simp] theorem State.raiseAll_path (cs : List Cause) (s : State) : (s.raiseAll cs).path = s.path := rfl
@[simp] theorem State.raiseAll_map (cs : List Cause) (s : State) : (s.raiseAll cs).map = s.map := rfl
@[simp] theorem State.raiseAll_slots (cs : List Cause) (s : State) : (s.raiseAll cs).slots = s.slots := rfl
@[simp] theorem State.raiseAll_engine (cs : List Cause) (s : State) : (s.raiseAll cs).engine = s.engine := rfl
@[simp] theorem State.raiseAll_filter (cs : List Cause) (s : State) : (s.raiseAll cs).filter = s.filter := rfl
@[simp] theorem State.raiseAll_keys (cs : List Cause) (s : State) : (s.raiseAll cs).keys = s.keys := rfl
@[simp] theorem State.raiseAll_nv (cs : List Cause) (s : State) : (s.raiseAll cs).nv = s.nv := rfl
@[simp] theorem State.raiseAll_writer (cs : List Cause) (s : State) : (s.raiseAll cs).writer = s.writer := rfl
@[simp] theorem State.raiseAll_memOut (cs : List Cause) (s : State) : (s.raiseAll cs).memOut = s.memOut := rfl
@[simp] theorem State.raiseAll_sysOut (cs : List Cause) (s : State) : (s.raiseAll cs).sysOut = s.sysOut := rfl
@[simp] theorem State.raiseAll_freeCount (cs : List Cause) (s : State) : (s.raiseAll cs).freeCount = s.freeCount := rfl
@[simp] theorem State.raiseAll_pending (cs : List Cause) (s : State) : (s.raiseAll cs).pending = s.pending := rfl

@[simp] theorem State.bump_life (c : Counter) (n : Nat) (s : State) : (s.bump c n).life = s.life := rfl
@[simp] theorem State.bump_time (c : Counter) (n : Nat) (s : State) : (s.bump c n).time = s.time := rfl
@[simp] theorem State.bump_path (c : Counter) (n : Nat) (s : State) : (s.bump c n).path = s.path := rfl
@[simp] theorem State.bump_map (c : Counter) (n : Nat) (s : State) : (s.bump c n).map = s.map := rfl
@[simp] theorem State.bump_slots (c : Counter) (n : Nat) (s : State) : (s.bump c n).slots = s.slots := rfl
@[simp] theorem State.bump_engine (c : Counter) (n : Nat) (s : State) : (s.bump c n).engine = s.engine := rfl
@[simp] theorem State.bump_filter (c : Counter) (n : Nat) (s : State) : (s.bump c n).filter = s.filter := rfl
@[simp] theorem State.bump_keys (c : Counter) (n : Nat) (s : State) : (s.bump c n).keys = s.keys := rfl
@[simp] theorem State.bump_nv (c : Counter) (n : Nat) (s : State) : (s.bump c n).nv = s.nv := rfl
@[simp] theorem State.bump_writer (c : Counter) (n : Nat) (s : State) : (s.bump c n).writer = s.writer := rfl
@[simp] theorem State.bump_memOut (c : Counter) (n : Nat) (s : State) : (s.bump c n).memOut = s.memOut := rfl
@[simp] theorem State.bump_sysOut (c : Counter) (n : Nat) (s : State) : (s.bump c n).sysOut = s.sysOut := rfl
@[simp] theorem State.bump_freeCount (c : Counter) (n : Nat) (s : State) : (s.bump c n).freeCount = s.freeCount := rfl
@[simp] theorem State.bump_pending (c : Counter) (n : Nat) (s : State) : (s.bump c n).pending = s.pending := rfl

@[simp] theorem State.raiseLow_life (was : Bool) (s : State) : (s.raiseLow was).life = s.life := rfl
@[simp] theorem State.raiseLow_time (was : Bool) (s : State) : (s.raiseLow was).time = s.time := rfl
@[simp] theorem State.raiseLow_path (was : Bool) (s : State) : (s.raiseLow was).path = s.path := rfl
@[simp] theorem State.raiseLow_map (was : Bool) (s : State) : (s.raiseLow was).map = s.map := rfl
@[simp] theorem State.raiseLow_slots (was : Bool) (s : State) : (s.raiseLow was).slots = s.slots := rfl
@[simp] theorem State.raiseLow_engine (was : Bool) (s : State) : (s.raiseLow was).engine = s.engine := rfl
@[simp] theorem State.raiseLow_filter (was : Bool) (s : State) : (s.raiseLow was).filter = s.filter := rfl
@[simp] theorem State.raiseLow_keys (was : Bool) (s : State) : (s.raiseLow was).keys = s.keys := rfl
@[simp] theorem State.raiseLow_nv (was : Bool) (s : State) : (s.raiseLow was).nv = s.nv := rfl
@[simp] theorem State.raiseLow_writer (was : Bool) (s : State) : (s.raiseLow was).writer = s.writer := rfl
@[simp] theorem State.raiseLow_memOut (was : Bool) (s : State) : (s.raiseLow was).memOut = s.memOut := rfl
@[simp] theorem State.raiseLow_sysOut (was : Bool) (s : State) : (s.raiseLow was).sysOut = s.sysOut := rfl
@[simp] theorem State.raiseLow_freeCount (was : Bool) (s : State) : (s.raiseLow was).freeCount = s.freeCount := rfl
@[simp] theorem State.raiseLow_pending (was : Bool) (s : State) : (s.raiseLow was).pending = s.pending := rfl

@[simp] theorem State.recordRefusal_life (req : Request) (reason : RefusalReason) (s : State) :
    (s.recordRefusal req reason).life = s.life := rfl
@[simp] theorem State.recordRefusal_time (req : Request) (reason : RefusalReason) (s : State) :
    (s.recordRefusal req reason).time = s.time := rfl
@[simp] theorem State.recordRefusal_map (req : Request) (reason : RefusalReason) (s : State) :
    (s.recordRefusal req reason).map = s.map := rfl
@[simp] theorem State.recordRefusal_slots (req : Request) (reason : RefusalReason) (s : State) :
    (s.recordRefusal req reason).slots = s.slots := rfl
@[simp] theorem State.recordRefusal_engine (req : Request) (reason : RefusalReason) (s : State) :
    (s.recordRefusal req reason).engine = s.engine := rfl
@[simp] theorem State.recordRefusal_filter (req : Request) (reason : RefusalReason) (s : State) :
    (s.recordRefusal req reason).filter = s.filter := rfl
@[simp] theorem State.recordRefusal_keys (req : Request) (reason : RefusalReason) (s : State) :
    (s.recordRefusal req reason).keys = s.keys := rfl
@[simp] theorem State.recordRefusal_nv (req : Request) (reason : RefusalReason) (s : State) :
    (s.recordRefusal req reason).nv = s.nv := rfl
@[simp] theorem State.recordRefusal_writer (req : Request) (reason : RefusalReason) (s : State) :
    (s.recordRefusal req reason).writer = s.writer := rfl
@[simp] theorem State.recordRefusal_memOut (req : Request) (reason : RefusalReason) (s : State) :
    (s.recordRefusal req reason).memOut = s.memOut := rfl
@[simp] theorem State.recordRefusal_sysOut (req : Request) (reason : RefusalReason) (s : State) :
    (s.recordRefusal req reason).sysOut = s.sysOut := rfl
@[simp] theorem State.recordRefusal_freeCount (req : Request) (reason : RefusalReason) (s : State) :
    (s.recordRefusal req reason).freeCount = s.freeCount := rfl
@[simp] theorem State.recordRefusal_pending (req : Request) (reason : RefusalReason) (s : State) :
    (s.recordRefusal req reason).pending = s.pending := rfl

@[simp] theorem State.setQueue_life (i : Initiator) (q : List QueueEntry) (s : State) :
    (s.setQueue i q).life = s.life := rfl
@[simp] theorem State.setQueue_time (i : Initiator) (q : List QueueEntry) (s : State) :
    (s.setQueue i q).time = s.time := rfl
@[simp] theorem State.setQueue_status (i : Initiator) (q : List QueueEntry) (s : State) :
    (s.setQueue i q).status = s.status := rfl
@[simp] theorem State.setQueue_map (i : Initiator) (q : List QueueEntry) (s : State) :
    (s.setQueue i q).map = s.map := rfl
@[simp] theorem State.setQueue_slots (i : Initiator) (q : List QueueEntry) (s : State) :
    (s.setQueue i q).slots = s.slots := rfl
@[simp] theorem State.setQueue_engine (i : Initiator) (q : List QueueEntry) (s : State) :
    (s.setQueue i q).engine = s.engine := rfl
@[simp] theorem State.setQueue_filter (i : Initiator) (q : List QueueEntry) (s : State) :
    (s.setQueue i q).filter = s.filter := rfl
@[simp] theorem State.setQueue_keys (i : Initiator) (q : List QueueEntry) (s : State) :
    (s.setQueue i q).keys = s.keys := rfl
@[simp] theorem State.setQueue_nv (i : Initiator) (q : List QueueEntry) (s : State) : (s.setQueue i q).nv = s.nv := rfl
@[simp] theorem State.setQueue_writer (i : Initiator) (q : List QueueEntry) (s : State) :
    (s.setQueue i q).writer = s.writer := rfl
@[simp] theorem State.setQueue_memOut (i : Initiator) (q : List QueueEntry) (s : State) :
    (s.setQueue i q).memOut = s.memOut := rfl
@[simp] theorem State.setQueue_sysOut (i : Initiator) (q : List QueueEntry) (s : State) :
    (s.setQueue i q).sysOut = s.sysOut := rfl
@[simp] theorem State.setQueue_freeCount (i : Initiator) (q : List QueueEntry) (s : State) :
    (s.setQueue i q).freeCount = s.freeCount := rfl
@[simp] theorem State.setQueue_pending (i : Initiator) (q : List QueueEntry) (s : State) :
    (s.setQueue i q).pending = s.pending := rfl

@[simp] theorem State.giveResponses_life (s : State) : (s.giveResponses).life = s.life := rfl
@[simp] theorem State.giveResponses_time (s : State) : (s.giveResponses).time = s.time := rfl
@[simp] theorem State.giveResponses_status (s : State) : (s.giveResponses).status = s.status := rfl
@[simp] theorem State.giveResponses_map (s : State) : (s.giveResponses).map = s.map := rfl
@[simp] theorem State.giveResponses_slots (s : State) : (s.giveResponses).slots = s.slots := rfl
@[simp] theorem State.giveResponses_engine (s : State) : (s.giveResponses).engine = s.engine := rfl
@[simp] theorem State.giveResponses_filter (s : State) : (s.giveResponses).filter = s.filter := rfl
@[simp] theorem State.giveResponses_keys (s : State) : (s.giveResponses).keys = s.keys := rfl
@[simp] theorem State.giveResponses_nv (s : State) : (s.giveResponses).nv = s.nv := rfl
@[simp] theorem State.giveResponses_writer (s : State) : (s.giveResponses).writer = s.writer := rfl
@[simp] theorem State.giveResponses_memOut (s : State) : (s.giveResponses).memOut = s.memOut := rfl
@[simp] theorem State.giveResponses_freeCount (s : State) : (s.giveResponses).freeCount = s.freeCount := rfl
@[simp] theorem State.giveResponses_pending (s : State) : (s.giveResponses).pending = s.pending := rfl

@[simp] theorem State.settleHolds_life (s : State) : (s.settleHolds).life = s.life := rfl
@[simp] theorem State.settleHolds_time (s : State) : (s.settleHolds).time = s.time := rfl
@[simp] theorem State.settleHolds_status (s : State) : (s.settleHolds).status = s.status := rfl
@[simp] theorem State.settleHolds_map (s : State) : (s.settleHolds).map = s.map := rfl
@[simp] theorem State.settleHolds_slots (s : State) : (s.settleHolds).slots = s.slots := rfl
@[simp] theorem State.settleHolds_engine (s : State) : (s.settleHolds).engine = s.engine := rfl
@[simp] theorem State.settleHolds_filter (s : State) : (s.settleHolds).filter = s.filter := rfl
@[simp] theorem State.settleHolds_keys (s : State) : (s.settleHolds).keys = s.keys := rfl
@[simp] theorem State.settleHolds_nv (s : State) : (s.settleHolds).nv = s.nv := rfl
@[simp] theorem State.settleHolds_writer (s : State) : (s.settleHolds).writer = s.writer := rfl
@[simp] theorem State.settleHolds_freeCount (s : State) : (s.settleHolds).freeCount = s.freeCount := rfl
@[simp] theorem State.settleHolds_pending (s : State) : (s.settleHolds).pending = s.pending := rfl

@[simp] theorem State.endAtLimit_life (i : Initiator) (s : State) : (s.endAtLimit i).life = s.life := rfl
@[simp] theorem State.endAtLimit_time (i : Initiator) (s : State) : (s.endAtLimit i).time = s.time := rfl
@[simp] theorem State.endAtLimit_status (i : Initiator) (s : State) : (s.endAtLimit i).status = s.status := rfl
@[simp] theorem State.endAtLimit_map (i : Initiator) (s : State) : (s.endAtLimit i).map = s.map := rfl
@[simp] theorem State.endAtLimit_slots (i : Initiator) (s : State) : (s.endAtLimit i).slots = s.slots := rfl
@[simp] theorem State.endAtLimit_engine (i : Initiator) (s : State) : (s.endAtLimit i).engine = s.engine := rfl
@[simp] theorem State.endAtLimit_filter (i : Initiator) (s : State) : (s.endAtLimit i).filter = s.filter := rfl
@[simp] theorem State.endAtLimit_keys (i : Initiator) (s : State) : (s.endAtLimit i).keys = s.keys := rfl
@[simp] theorem State.endAtLimit_nv (i : Initiator) (s : State) : (s.endAtLimit i).nv = s.nv := rfl
@[simp] theorem State.endAtLimit_writer (i : Initiator) (s : State) : (s.endAtLimit i).writer = s.writer := rfl
@[simp] theorem State.endAtLimit_freeCount (i : Initiator) (s : State) : (s.endAtLimit i).freeCount = s.freeCount := rfl
@[simp] theorem State.endAtLimit_pending (i : Initiator) (s : State) : (s.endAtLimit i).pending = s.pending := rfl

@[simp] theorem State.latchLt_life (places : List Place) (s : State) : (s.latchLt places).life = s.life := rfl
@[simp] theorem State.latchLt_status (places : List Place) (s : State) : (s.latchLt places).status = s.status := rfl
@[simp] theorem State.latchLt_path (places : List Place) (s : State) : (s.latchLt places).path = s.path := rfl
@[simp] theorem State.latchLt_map (places : List Place) (s : State) : (s.latchLt places).map = s.map := rfl
@[simp] theorem State.latchLt_slots (places : List Place) (s : State) : (s.latchLt places).slots = s.slots := rfl
@[simp] theorem State.latchLt_engine (places : List Place) (s : State) : (s.latchLt places).engine = s.engine := rfl
@[simp] theorem State.latchLt_filter (places : List Place) (s : State) : (s.latchLt places).filter = s.filter := rfl
@[simp] theorem State.latchLt_keys (places : List Place) (s : State) : (s.latchLt places).keys = s.keys := rfl
@[simp] theorem State.latchLt_nv (places : List Place) (s : State) : (s.latchLt places).nv = s.nv := rfl
@[simp] theorem State.latchLt_writer (places : List Place) (s : State) : (s.latchLt places).writer = s.writer := rfl
@[simp] theorem State.latchLt_memOut (places : List Place) (s : State) : (s.latchLt places).memOut = s.memOut := rfl
@[simp] theorem State.latchLt_sysOut (places : List Place) (s : State) : (s.latchLt places).sysOut = s.sysOut := rfl
@[simp] theorem State.latchLt_freeCount (places : List Place) (s : State) :
    (s.latchLt places).freeCount = s.freeCount := rfl
@[simp] theorem State.latchLt_pending (places : List Place) (s : State) : (s.latchLt places).pending = s.pending := rfl

@[simp] theorem State.forwardBeat_life (addr : Nat) (b : WriteBeat) (s : State) :
    (s.forwardBeat addr b).life = s.life := rfl
@[simp] theorem State.forwardBeat_time (addr : Nat) (b : WriteBeat) (s : State) :
    (s.forwardBeat addr b).time = s.time := rfl
@[simp] theorem State.forwardBeat_status (addr : Nat) (b : WriteBeat) (s : State) :
    (s.forwardBeat addr b).status = s.status := rfl
@[simp] theorem State.forwardBeat_path (addr : Nat) (b : WriteBeat) (s : State) :
    (s.forwardBeat addr b).path = s.path := rfl
@[simp] theorem State.forwardBeat_map (addr : Nat) (b : WriteBeat) (s : State) :
    (s.forwardBeat addr b).map = s.map := rfl
@[simp] theorem State.forwardBeat_slots (addr : Nat) (b : WriteBeat) (s : State) :
    (s.forwardBeat addr b).slots = s.slots := rfl
@[simp] theorem State.forwardBeat_engine (addr : Nat) (b : WriteBeat) (s : State) :
    (s.forwardBeat addr b).engine = s.engine := rfl
@[simp] theorem State.forwardBeat_filter (addr : Nat) (b : WriteBeat) (s : State) :
    (s.forwardBeat addr b).filter = s.filter := rfl
@[simp] theorem State.forwardBeat_keys (addr : Nat) (b : WriteBeat) (s : State) :
    (s.forwardBeat addr b).keys = s.keys := rfl
@[simp] theorem State.forwardBeat_nv (addr : Nat) (b : WriteBeat) (s : State) : (s.forwardBeat addr b).nv = s.nv := rfl
@[simp] theorem State.forwardBeat_writer (addr : Nat) (b : WriteBeat) (s : State) :
    (s.forwardBeat addr b).writer = s.writer := rfl
@[simp] theorem State.forwardBeat_sysOut (addr : Nat) (b : WriteBeat) (s : State) :
    (s.forwardBeat addr b).sysOut = s.sysOut := rfl
@[simp] theorem State.forwardBeat_freeCount (addr : Nat) (b : WriteBeat) (s : State) :
    (s.forwardBeat addr b).freeCount = s.freeCount := rfl
@[simp] theorem State.forwardBeat_pending (addr : Nat) (b : WriteBeat) (s : State) :
    (s.forwardBeat addr b).pending = s.pending := rfl

@[simp] theorem State.setCtx_life (r : SlotRef) (c : SlotCtx) (s : State) : (s.setCtx r c).life = s.life := rfl
@[simp] theorem State.setCtx_time (r : SlotRef) (c : SlotCtx) (s : State) : (s.setCtx r c).time = s.time := rfl
@[simp] theorem State.setCtx_status (r : SlotRef) (c : SlotCtx) (s : State) : (s.setCtx r c).status = s.status := rfl
@[simp] theorem State.setCtx_path (r : SlotRef) (c : SlotCtx) (s : State) : (s.setCtx r c).path = s.path := rfl
@[simp] theorem State.setCtx_map (r : SlotRef) (c : SlotCtx) (s : State) : (s.setCtx r c).map = s.map := rfl
@[simp] theorem State.setCtx_engine (r : SlotRef) (c : SlotCtx) (s : State) : (s.setCtx r c).engine = s.engine := rfl
@[simp] theorem State.setCtx_filter (r : SlotRef) (c : SlotCtx) (s : State) : (s.setCtx r c).filter = s.filter := rfl
@[simp] theorem State.setCtx_keys (r : SlotRef) (c : SlotCtx) (s : State) : (s.setCtx r c).keys = s.keys := rfl
@[simp] theorem State.setCtx_nv (r : SlotRef) (c : SlotCtx) (s : State) : (s.setCtx r c).nv = s.nv := rfl
@[simp] theorem State.setCtx_writer (r : SlotRef) (c : SlotCtx) (s : State) : (s.setCtx r c).writer = s.writer := rfl
@[simp] theorem State.setCtx_memOut (r : SlotRef) (c : SlotCtx) (s : State) : (s.setCtx r c).memOut = s.memOut := rfl
@[simp] theorem State.setCtx_sysOut (r : SlotRef) (c : SlotCtx) (s : State) : (s.setCtx r c).sysOut = s.sysOut := rfl
@[simp] theorem State.setCtx_freeCount (r : SlotRef) (c : SlotCtx) (s : State) :
    (s.setCtx r c).freeCount = s.freeCount := rfl
@[simp] theorem State.setCtx_pending (r : SlotRef) (c : SlotCtx) (s : State) : (s.setCtx r c).pending = s.pending := rfl

@[simp] theorem State.freeAllSlots_life (s : State) : (s.freeAllSlots).life = s.life := rfl
@[simp] theorem State.freeAllSlots_time (s : State) : (s.freeAllSlots).time = s.time := rfl
@[simp] theorem State.freeAllSlots_status (s : State) : (s.freeAllSlots).status = s.status := rfl
@[simp] theorem State.freeAllSlots_path (s : State) : (s.freeAllSlots).path = s.path := rfl
@[simp] theorem State.freeAllSlots_map (s : State) : (s.freeAllSlots).map = s.map := rfl
@[simp] theorem State.freeAllSlots_engine (s : State) : (s.freeAllSlots).engine = s.engine := rfl
@[simp] theorem State.freeAllSlots_filter (s : State) : (s.freeAllSlots).filter = s.filter := rfl
@[simp] theorem State.freeAllSlots_keys (s : State) : (s.freeAllSlots).keys = s.keys := rfl
@[simp] theorem State.freeAllSlots_nv (s : State) : (s.freeAllSlots).nv = s.nv := rfl
@[simp] theorem State.freeAllSlots_writer (s : State) : (s.freeAllSlots).writer = s.writer := rfl
@[simp] theorem State.freeAllSlots_memOut (s : State) : (s.freeAllSlots).memOut = s.memOut := rfl
@[simp] theorem State.freeAllSlots_sysOut (s : State) : (s.freeAllSlots).sysOut = s.sysOut := rfl
@[simp] theorem State.freeAllSlots_freeCount (s : State) : (s.freeAllSlots).freeCount = s.freeCount := rfl
@[simp] theorem State.freeAllSlots_pending (s : State) : (s.freeAllSlots).pending = s.pending := rfl

@[simp] theorem State.countEnd_life (st : SlotState) (s : State) : (s.countEnd st).life = s.life := rfl
@[simp] theorem State.countEnd_time (st : SlotState) (s : State) : (s.countEnd st).time = s.time := rfl
@[simp] theorem State.countEnd_path (st : SlotState) (s : State) : (s.countEnd st).path = s.path := rfl
@[simp] theorem State.countEnd_map (st : SlotState) (s : State) : (s.countEnd st).map = s.map := rfl
@[simp] theorem State.countEnd_slots (st : SlotState) (s : State) : (s.countEnd st).slots = s.slots := rfl
@[simp] theorem State.countEnd_engine (st : SlotState) (s : State) : (s.countEnd st).engine = s.engine := rfl
@[simp] theorem State.countEnd_filter (st : SlotState) (s : State) : (s.countEnd st).filter = s.filter := rfl
@[simp] theorem State.countEnd_keys (st : SlotState) (s : State) : (s.countEnd st).keys = s.keys := rfl
@[simp] theorem State.countEnd_nv (st : SlotState) (s : State) : (s.countEnd st).nv = s.nv := rfl
@[simp] theorem State.countEnd_writer (st : SlotState) (s : State) : (s.countEnd st).writer = s.writer := rfl
@[simp] theorem State.countEnd_memOut (st : SlotState) (s : State) : (s.countEnd st).memOut = s.memOut := rfl
@[simp] theorem State.countEnd_sysOut (st : SlotState) (s : State) : (s.countEnd st).sysOut = s.sysOut := rfl
@[simp] theorem State.countEnd_freeCount (st : SlotState) (s : State) : (s.countEnd st).freeCount = s.freeCount := rfl
@[simp] theorem State.countEnd_pending (st : SlotState) (s : State) : (s.countEnd st).pending = s.pending := rfl

@[simp] theorem State.leaveFifo_life (r : SlotRef) (s : State) : (s.leaveFifo r).life = s.life := rfl
@[simp] theorem State.leaveFifo_time (r : SlotRef) (s : State) : (s.leaveFifo r).time = s.time := rfl
@[simp] theorem State.leaveFifo_status (r : SlotRef) (s : State) : (s.leaveFifo r).status = s.status := rfl
@[simp] theorem State.leaveFifo_path (r : SlotRef) (s : State) : (s.leaveFifo r).path = s.path := rfl
@[simp] theorem State.leaveFifo_map (r : SlotRef) (s : State) : (s.leaveFifo r).map = s.map := rfl
@[simp] theorem State.leaveFifo_slots (r : SlotRef) (s : State) : (s.leaveFifo r).slots = s.slots := rfl
@[simp] theorem State.leaveFifo_filter (r : SlotRef) (s : State) : (s.leaveFifo r).filter = s.filter := rfl
@[simp] theorem State.leaveFifo_keys (r : SlotRef) (s : State) : (s.leaveFifo r).keys = s.keys := rfl
@[simp] theorem State.leaveFifo_nv (r : SlotRef) (s : State) : (s.leaveFifo r).nv = s.nv := rfl
@[simp] theorem State.leaveFifo_writer (r : SlotRef) (s : State) : (s.leaveFifo r).writer = s.writer := rfl
@[simp] theorem State.leaveFifo_memOut (r : SlotRef) (s : State) : (s.leaveFifo r).memOut = s.memOut := rfl
@[simp] theorem State.leaveFifo_sysOut (r : SlotRef) (s : State) : (s.leaveFifo r).sysOut = s.sysOut := rfl
@[simp] theorem State.leaveFifo_freeCount (r : SlotRef) (s : State) : (s.leaveFifo r).freeCount = s.freeCount := rfl
@[simp] theorem State.leaveFifo_pending (r : SlotRef) (s : State) : (s.leaveFifo r).pending = s.pending := rfl

@[simp] theorem State.joinFifo_life (r : SlotRef) (s : State) : (s.joinFifo r).life = s.life := rfl
@[simp] theorem State.joinFifo_time (r : SlotRef) (s : State) : (s.joinFifo r).time = s.time := rfl
@[simp] theorem State.joinFifo_status (r : SlotRef) (s : State) : (s.joinFifo r).status = s.status := rfl
@[simp] theorem State.joinFifo_path (r : SlotRef) (s : State) : (s.joinFifo r).path = s.path := rfl
@[simp] theorem State.joinFifo_map (r : SlotRef) (s : State) : (s.joinFifo r).map = s.map := rfl
@[simp] theorem State.joinFifo_slots (r : SlotRef) (s : State) : (s.joinFifo r).slots = s.slots := rfl
@[simp] theorem State.joinFifo_filter (r : SlotRef) (s : State) : (s.joinFifo r).filter = s.filter := rfl
@[simp] theorem State.joinFifo_keys (r : SlotRef) (s : State) : (s.joinFifo r).keys = s.keys := rfl
@[simp] theorem State.joinFifo_nv (r : SlotRef) (s : State) : (s.joinFifo r).nv = s.nv := rfl
@[simp] theorem State.joinFifo_writer (r : SlotRef) (s : State) : (s.joinFifo r).writer = s.writer := rfl
@[simp] theorem State.joinFifo_memOut (r : SlotRef) (s : State) : (s.joinFifo r).memOut = s.memOut := rfl
@[simp] theorem State.joinFifo_sysOut (r : SlotRef) (s : State) : (s.joinFifo r).sysOut = s.sysOut := rfl
@[simp] theorem State.joinFifo_freeCount (r : SlotRef) (s : State) : (s.joinFifo r).freeCount = s.freeCount := rfl
@[simp] theorem State.joinFifo_pending (r : SlotRef) (s : State) : (s.joinFifo r).pending = s.pending := rfl

@[simp] theorem State.idleEngine_life (s : State) : (s.idleEngine).life = s.life := rfl
@[simp] theorem State.idleEngine_time (s : State) : (s.idleEngine).time = s.time := rfl
@[simp] theorem State.idleEngine_status (s : State) : (s.idleEngine).status = s.status := rfl
@[simp] theorem State.idleEngine_path (s : State) : (s.idleEngine).path = s.path := rfl
@[simp] theorem State.idleEngine_map (s : State) : (s.idleEngine).map = s.map := rfl
@[simp] theorem State.idleEngine_slots (s : State) : (s.idleEngine).slots = s.slots := rfl
@[simp] theorem State.idleEngine_filter (s : State) : (s.idleEngine).filter = s.filter := rfl
@[simp] theorem State.idleEngine_keys (s : State) : (s.idleEngine).keys = s.keys := rfl
@[simp] theorem State.idleEngine_nv (s : State) : (s.idleEngine).nv = s.nv := rfl
@[simp] theorem State.idleEngine_writer (s : State) : (s.idleEngine).writer = s.writer := rfl
@[simp] theorem State.idleEngine_memOut (s : State) : (s.idleEngine).memOut = s.memOut := rfl
@[simp] theorem State.idleEngine_sysOut (s : State) : (s.idleEngine).sysOut = s.sysOut := rfl
@[simp] theorem State.idleEngine_freeCount (s : State) : (s.idleEngine).freeCount = s.freeCount := rfl
@[simp] theorem State.idleEngine_pending (s : State) : (s.idleEngine).pending = s.pending := rfl

@[simp] theorem State.setEntry_life (i : Fin 64) (e : DirEntry) (s : State) : (s.setEntry i e).life = s.life := rfl
@[simp] theorem State.setEntry_time (i : Fin 64) (e : DirEntry) (s : State) : (s.setEntry i e).time = s.time := rfl
@[simp] theorem State.setEntry_status (i : Fin 64) (e : DirEntry) (s : State) :
    (s.setEntry i e).status = s.status := rfl
@[simp] theorem State.setEntry_path (i : Fin 64) (e : DirEntry) (s : State) : (s.setEntry i e).path = s.path := rfl
@[simp] theorem State.setEntry_map (i : Fin 64) (e : DirEntry) (s : State) : (s.setEntry i e).map = s.map := rfl
@[simp] theorem State.setEntry_slots (i : Fin 64) (e : DirEntry) (s : State) : (s.setEntry i e).slots = s.slots := rfl
@[simp] theorem State.setEntry_engine (i : Fin 64) (e : DirEntry) (s : State) :
    (s.setEntry i e).engine = s.engine := rfl
@[simp] theorem State.setEntry_filter (i : Fin 64) (e : DirEntry) (s : State) :
    (s.setEntry i e).filter = s.filter := rfl
@[simp] theorem State.setEntry_nv (i : Fin 64) (e : DirEntry) (s : State) : (s.setEntry i e).nv = s.nv := rfl
@[simp] theorem State.setEntry_writer (i : Fin 64) (e : DirEntry) (s : State) :
    (s.setEntry i e).writer = s.writer := rfl
@[simp] theorem State.setEntry_memOut (i : Fin 64) (e : DirEntry) (s : State) :
    (s.setEntry i e).memOut = s.memOut := rfl
@[simp] theorem State.setEntry_sysOut (i : Fin 64) (e : DirEntry) (s : State) :
    (s.setEntry i e).sysOut = s.sysOut := rfl
@[simp] theorem State.setEntry_freeCount (i : Fin 64) (e : DirEntry) (s : State) :
    (s.setEntry i e).freeCount = s.freeCount := rfl
@[simp] theorem State.setEntry_pending (i : Fin 64) (e : DirEntry) (s : State) :
    (s.setEntry i e).pending = s.pending := rfl

@[simp] theorem State.nvRequest_life (r : NvRequest) (s : State) : (s.nvRequest r).life = s.life := rfl
@[simp] theorem State.nvRequest_time (r : NvRequest) (s : State) : (s.nvRequest r).time = s.time := rfl
@[simp] theorem State.nvRequest_status (r : NvRequest) (s : State) : (s.nvRequest r).status = s.status := rfl
@[simp] theorem State.nvRequest_path (r : NvRequest) (s : State) : (s.nvRequest r).path = s.path := rfl
@[simp] theorem State.nvRequest_map (r : NvRequest) (s : State) : (s.nvRequest r).map = s.map := rfl
@[simp] theorem State.nvRequest_slots (r : NvRequest) (s : State) : (s.nvRequest r).slots = s.slots := rfl
@[simp] theorem State.nvRequest_engine (r : NvRequest) (s : State) : (s.nvRequest r).engine = s.engine := rfl
@[simp] theorem State.nvRequest_filter (r : NvRequest) (s : State) : (s.nvRequest r).filter = s.filter := rfl
@[simp] theorem State.nvRequest_keys (r : NvRequest) (s : State) : (s.nvRequest r).keys = s.keys := rfl
@[simp] theorem State.nvRequest_nv (r : NvRequest) (s : State) : (s.nvRequest r).nv = s.nv := rfl
@[simp] theorem State.nvRequest_memOut (r : NvRequest) (s : State) : (s.nvRequest r).memOut = s.memOut := rfl
@[simp] theorem State.nvRequest_sysOut (r : NvRequest) (s : State) : (s.nvRequest r).sysOut = s.sysOut := rfl
@[simp] theorem State.nvRequest_freeCount (r : NvRequest) (s : State) : (s.nvRequest r).freeCount = s.freeCount := rfl
@[simp] theorem State.nvRequest_pending (r : NvRequest) (s : State) : (s.nvRequest r).pending = s.pending := rfl

@[simp] theorem State.nvNext_life (s : State) : (s.nvNext).life = s.life := rfl
@[simp] theorem State.nvNext_time (s : State) : (s.nvNext).time = s.time := rfl
@[simp] theorem State.nvNext_status (s : State) : (s.nvNext).status = s.status := rfl
@[simp] theorem State.nvNext_path (s : State) : (s.nvNext).path = s.path := rfl
@[simp] theorem State.nvNext_map (s : State) : (s.nvNext).map = s.map := rfl
@[simp] theorem State.nvNext_slots (s : State) : (s.nvNext).slots = s.slots := rfl
@[simp] theorem State.nvNext_engine (s : State) : (s.nvNext).engine = s.engine := rfl
@[simp] theorem State.nvNext_filter (s : State) : (s.nvNext).filter = s.filter := rfl
@[simp] theorem State.nvNext_keys (s : State) : (s.nvNext).keys = s.keys := rfl
@[simp] theorem State.nvNext_nv (s : State) : (s.nvNext).nv = s.nv := rfl
@[simp] theorem State.nvNext_memOut (s : State) : (s.nvNext).memOut = s.memOut := rfl
@[simp] theorem State.nvNext_sysOut (s : State) : (s.nvNext).sysOut = s.sysOut := rfl
@[simp] theorem State.nvNext_freeCount (s : State) : (s.nvNext).freeCount = s.freeCount := rfl
@[simp] theorem State.nvNext_pending (s : State) : (s.nvNext).pending = s.pending := rfl

@[simp] theorem State.reserveWhen_life (go : Bool) (s : State) : (s.reserveWhen go).life = s.life := rfl
@[simp] theorem State.reserveWhen_time (go : Bool) (s : State) : (s.reserveWhen go).time = s.time := rfl
@[simp] theorem State.reserveWhen_status (go : Bool) (s : State) : (s.reserveWhen go).status = s.status := rfl
@[simp] theorem State.reserveWhen_path (go : Bool) (s : State) : (s.reserveWhen go).path = s.path := rfl
@[simp] theorem State.reserveWhen_map (go : Bool) (s : State) : (s.reserveWhen go).map = s.map := rfl
@[simp] theorem State.reserveWhen_engine (go : Bool) (s : State) : (s.reserveWhen go).engine = s.engine := rfl
@[simp] theorem State.reserveWhen_filter (go : Bool) (s : State) : (s.reserveWhen go).filter = s.filter := rfl
@[simp] theorem State.reserveWhen_keys (go : Bool) (s : State) : (s.reserveWhen go).keys = s.keys := rfl
@[simp] theorem State.reserveWhen_nv (go : Bool) (s : State) : (s.reserveWhen go).nv = s.nv := rfl
@[simp] theorem State.reserveWhen_memOut (go : Bool) (s : State) : (s.reserveWhen go).memOut = s.memOut := rfl
@[simp] theorem State.reserveWhen_sysOut (go : Bool) (s : State) : (s.reserveWhen go).sysOut = s.sysOut := rfl
@[simp] theorem State.reserveWhen_freeCount (go : Bool) (s : State) : (s.reserveWhen go).freeCount = s.freeCount := rfl
@[simp] theorem State.reserveWhen_pending (go : Bool) (s : State) : (s.reserveWhen go).pending = s.pending := rfl

@[simp] theorem State.clearBuffer_life (s : State) : (s.clearBuffer).life = s.life := rfl
@[simp] theorem State.clearBuffer_time (s : State) : (s.clearBuffer).time = s.time := rfl
@[simp] theorem State.clearBuffer_status (s : State) : (s.clearBuffer).status = s.status := rfl
@[simp] theorem State.clearBuffer_path (s : State) : (s.clearBuffer).path = s.path := rfl
@[simp] theorem State.clearBuffer_map (s : State) : (s.clearBuffer).map = s.map := rfl
@[simp] theorem State.clearBuffer_slots (s : State) : (s.clearBuffer).slots = s.slots := rfl
@[simp] theorem State.clearBuffer_engine (s : State) : (s.clearBuffer).engine = s.engine := rfl
@[simp] theorem State.clearBuffer_filter (s : State) : (s.clearBuffer).filter = s.filter := rfl
@[simp] theorem State.clearBuffer_nv (s : State) : (s.clearBuffer).nv = s.nv := rfl
@[simp] theorem State.clearBuffer_writer (s : State) : (s.clearBuffer).writer = s.writer := rfl
@[simp] theorem State.clearBuffer_memOut (s : State) : (s.clearBuffer).memOut = s.memOut := rfl
@[simp] theorem State.clearBuffer_sysOut (s : State) : (s.clearBuffer).sysOut = s.sysOut := rfl
@[simp] theorem State.clearBuffer_freeCount (s : State) : (s.clearBuffer).freeCount = s.freeCount := rfl
@[simp] theorem State.clearBuffer_pending (s : State) : (s.clearBuffer).pending = s.pending := rfl

@[simp] theorem State.startImport_life (cmd : ImportCmd) (st : ImportState) (s : State) :
    (s.startImport cmd st).life = s.life := rfl
@[simp] theorem State.startImport_time (cmd : ImportCmd) (st : ImportState) (s : State) :
    (s.startImport cmd st).time = s.time := rfl
@[simp] theorem State.startImport_status (cmd : ImportCmd) (st : ImportState) (s : State) :
    (s.startImport cmd st).status = s.status := rfl
@[simp] theorem State.startImport_path (cmd : ImportCmd) (st : ImportState) (s : State) :
    (s.startImport cmd st).path = s.path := rfl
@[simp] theorem State.startImport_map (cmd : ImportCmd) (st : ImportState) (s : State) :
    (s.startImport cmd st).map = s.map := rfl
@[simp] theorem State.startImport_slots (cmd : ImportCmd) (st : ImportState) (s : State) :
    (s.startImport cmd st).slots = s.slots := rfl
@[simp] theorem State.startImport_engine (cmd : ImportCmd) (st : ImportState) (s : State) :
    (s.startImport cmd st).engine = s.engine := rfl
@[simp] theorem State.startImport_filter (cmd : ImportCmd) (st : ImportState) (s : State) :
    (s.startImport cmd st).filter = s.filter := rfl
@[simp] theorem State.startImport_nv (cmd : ImportCmd) (st : ImportState) (s : State) :
    (s.startImport cmd st).nv = s.nv := rfl
@[simp] theorem State.startImport_writer (cmd : ImportCmd) (st : ImportState) (s : State) :
    (s.startImport cmd st).writer = s.writer := rfl
@[simp] theorem State.startImport_memOut (cmd : ImportCmd) (st : ImportState) (s : State) :
    (s.startImport cmd st).memOut = s.memOut := rfl
@[simp] theorem State.startImport_sysOut (cmd : ImportCmd) (st : ImportState) (s : State) :
    (s.startImport cmd st).sysOut = s.sysOut := rfl
@[simp] theorem State.startImport_freeCount (cmd : ImportCmd) (st : ImportState) (s : State) :
    (s.startImport cmd st).freeCount = s.freeCount := rfl
@[simp] theorem State.startImport_pending (cmd : ImportCmd) (st : ImportState) (s : State) :
    (s.startImport cmd st).pending = s.pending := rfl

@[simp] theorem State.endImport_life (code : ImportCode) (index : Fin 64) (check : BitVec 24) (s : State) :
    (s.endImport code index check).life = s.life := rfl
@[simp] theorem State.endImport_time (code : ImportCode) (index : Fin 64) (check : BitVec 24) (s : State) :
    (s.endImport code index check).time = s.time := rfl
@[simp] theorem State.endImport_path (code : ImportCode) (index : Fin 64) (check : BitVec 24) (s : State) :
    (s.endImport code index check).path = s.path := rfl
@[simp] theorem State.endImport_map (code : ImportCode) (index : Fin 64) (check : BitVec 24) (s : State) :
    (s.endImport code index check).map = s.map := rfl
@[simp] theorem State.endImport_slots (code : ImportCode) (index : Fin 64) (check : BitVec 24) (s : State) :
    (s.endImport code index check).slots = s.slots := rfl
@[simp] theorem State.endImport_engine (code : ImportCode) (index : Fin 64) (check : BitVec 24) (s : State) :
    (s.endImport code index check).engine = s.engine := rfl
@[simp] theorem State.endImport_filter (code : ImportCode) (index : Fin 64) (check : BitVec 24) (s : State) :
    (s.endImport code index check).filter = s.filter := rfl
@[simp] theorem State.endImport_nv (code : ImportCode) (index : Fin 64) (check : BitVec 24) (s : State) :
    (s.endImport code index check).nv = s.nv := rfl
@[simp] theorem State.endImport_writer (code : ImportCode) (index : Fin 64) (check : BitVec 24) (s : State) :
    (s.endImport code index check).writer = s.writer := rfl
@[simp] theorem State.endImport_memOut (code : ImportCode) (index : Fin 64) (check : BitVec 24) (s : State) :
    (s.endImport code index check).memOut = s.memOut := rfl
@[simp] theorem State.endImport_sysOut (code : ImportCode) (index : Fin 64) (check : BitVec 24) (s : State) :
    (s.endImport code index check).sysOut = s.sysOut := rfl
@[simp] theorem State.endImport_freeCount (code : ImportCode) (index : Fin 64) (check : BitVec 24) (s : State) :
    (s.endImport code index check).freeCount = s.freeCount := rfl
@[simp] theorem State.endImport_pending (code : ImportCode) (index : Fin 64) (check : BitVec 24) (s : State) :
    (s.endImport code index check).pending = s.pending := rfl

@[simp] theorem State.beginLoad_life (s : State) : (s.beginLoad).life = s.life := rfl
@[simp] theorem State.beginLoad_time (s : State) : (s.beginLoad).time = s.time := rfl
@[simp] theorem State.beginLoad_status (s : State) : (s.beginLoad).status = s.status := rfl
@[simp] theorem State.beginLoad_slots (s : State) : (s.beginLoad).slots = s.slots := rfl
@[simp] theorem State.beginLoad_engine (s : State) : (s.beginLoad).engine = s.engine := rfl
@[simp] theorem State.beginLoad_filter (s : State) : (s.beginLoad).filter = s.filter := rfl
@[simp] theorem State.beginLoad_keys (s : State) : (s.beginLoad).keys = s.keys := rfl
@[simp] theorem State.beginLoad_nv (s : State) : (s.beginLoad).nv = s.nv := rfl
@[simp] theorem State.beginLoad_writer (s : State) : (s.beginLoad).writer = s.writer := rfl
@[simp] theorem State.beginLoad_memOut (s : State) : (s.beginLoad).memOut = s.memOut := rfl
@[simp] theorem State.beginLoad_sysOut (s : State) : (s.beginLoad).sysOut = s.sysOut := rfl
@[simp] theorem State.beginLoad_freeCount (s : State) : (s.beginLoad).freeCount = s.freeCount := rfl
@[simp] theorem State.beginLoad_pending (s : State) : (s.beginLoad).pending = s.pending := rfl

@[simp] theorem State.setRecord_life (i : Fin 64) (r : NvRecord) (s : State) : (s.setRecord i r).life = s.life := rfl
@[simp] theorem State.setRecord_time (i : Fin 64) (r : NvRecord) (s : State) : (s.setRecord i r).time = s.time := rfl
@[simp] theorem State.setRecord_status (i : Fin 64) (r : NvRecord) (s : State) :
    (s.setRecord i r).status = s.status := rfl
@[simp] theorem State.setRecord_path (i : Fin 64) (r : NvRecord) (s : State) : (s.setRecord i r).path = s.path := rfl
@[simp] theorem State.setRecord_map (i : Fin 64) (r : NvRecord) (s : State) : (s.setRecord i r).map = s.map := rfl
@[simp] theorem State.setRecord_slots (i : Fin 64) (r : NvRecord) (s : State) : (s.setRecord i r).slots = s.slots := rfl
@[simp] theorem State.setRecord_engine (i : Fin 64) (r : NvRecord) (s : State) :
    (s.setRecord i r).engine = s.engine := rfl
@[simp] theorem State.setRecord_filter (i : Fin 64) (r : NvRecord) (s : State) :
    (s.setRecord i r).filter = s.filter := rfl
@[simp] theorem State.setRecord_keys (i : Fin 64) (r : NvRecord) (s : State) : (s.setRecord i r).keys = s.keys := rfl
@[simp] theorem State.setRecord_writer (i : Fin 64) (r : NvRecord) (s : State) :
    (s.setRecord i r).writer = s.writer := rfl
@[simp] theorem State.setRecord_memOut (i : Fin 64) (r : NvRecord) (s : State) :
    (s.setRecord i r).memOut = s.memOut := rfl
@[simp] theorem State.setRecord_sysOut (i : Fin 64) (r : NvRecord) (s : State) :
    (s.setRecord i r).sysOut = s.sysOut := rfl
@[simp] theorem State.setRecord_freeCount (i : Fin 64) (r : NvRecord) (s : State) :
    (s.setRecord i r).freeCount = s.freeCount := rfl
@[simp] theorem State.setRecord_pending (i : Fin 64) (r : NvRecord) (s : State) :
    (s.setRecord i r).pending = s.pending := rfl

@[simp] theorem State.setLifeWord_life (l : LifeCycle) (s : State) : (s.setLifeWord l).life = s.life := rfl
@[simp] theorem State.setLifeWord_time (l : LifeCycle) (s : State) : (s.setLifeWord l).time = s.time := rfl
@[simp] theorem State.setLifeWord_status (l : LifeCycle) (s : State) : (s.setLifeWord l).status = s.status := rfl
@[simp] theorem State.setLifeWord_path (l : LifeCycle) (s : State) : (s.setLifeWord l).path = s.path := rfl
@[simp] theorem State.setLifeWord_map (l : LifeCycle) (s : State) : (s.setLifeWord l).map = s.map := rfl
@[simp] theorem State.setLifeWord_slots (l : LifeCycle) (s : State) : (s.setLifeWord l).slots = s.slots := rfl
@[simp] theorem State.setLifeWord_engine (l : LifeCycle) (s : State) : (s.setLifeWord l).engine = s.engine := rfl
@[simp] theorem State.setLifeWord_filter (l : LifeCycle) (s : State) : (s.setLifeWord l).filter = s.filter := rfl
@[simp] theorem State.setLifeWord_keys (l : LifeCycle) (s : State) : (s.setLifeWord l).keys = s.keys := rfl
@[simp] theorem State.setLifeWord_writer (l : LifeCycle) (s : State) : (s.setLifeWord l).writer = s.writer := rfl
@[simp] theorem State.setLifeWord_memOut (l : LifeCycle) (s : State) : (s.setLifeWord l).memOut = s.memOut := rfl
@[simp] theorem State.setLifeWord_sysOut (l : LifeCycle) (s : State) : (s.setLifeWord l).sysOut = s.sysOut := rfl
@[simp] theorem State.setLifeWord_freeCount (l : LifeCycle) (s : State) :
    (s.setLifeWord l).freeCount = s.freeCount := rfl
@[simp] theorem State.setLifeWord_pending (l : LifeCycle) (s : State) : (s.setLifeWord l).pending = s.pending := rfl

@[simp] theorem State.takeFromNv_status (l : LifeCycle) (s : State) : (s.takeFromNv l).status = s.status := rfl
@[simp] theorem State.takeFromNv_path (l : LifeCycle) (s : State) : (s.takeFromNv l).path = s.path := rfl
@[simp] theorem State.takeFromNv_map (l : LifeCycle) (s : State) : (s.takeFromNv l).map = s.map := rfl
@[simp] theorem State.takeFromNv_slots (l : LifeCycle) (s : State) : (s.takeFromNv l).slots = s.slots := rfl
@[simp] theorem State.takeFromNv_engine (l : LifeCycle) (s : State) : (s.takeFromNv l).engine = s.engine := rfl
@[simp] theorem State.takeFromNv_filter (l : LifeCycle) (s : State) : (s.takeFromNv l).filter = s.filter := rfl
@[simp] theorem State.takeFromNv_keys (l : LifeCycle) (s : State) : (s.takeFromNv l).keys = s.keys := rfl
@[simp] theorem State.takeFromNv_nv (l : LifeCycle) (s : State) : (s.takeFromNv l).nv = s.nv := rfl
@[simp] theorem State.takeFromNv_writer (l : LifeCycle) (s : State) : (s.takeFromNv l).writer = s.writer := rfl
@[simp] theorem State.takeFromNv_memOut (l : LifeCycle) (s : State) : (s.takeFromNv l).memOut = s.memOut := rfl
@[simp] theorem State.takeFromNv_sysOut (l : LifeCycle) (s : State) : (s.takeFromNv l).sysOut = s.sysOut := rfl
@[simp] theorem State.takeFromNv_freeCount (l : LifeCycle) (s : State) : (s.takeFromNv l).freeCount = s.freeCount := rfl
@[simp] theorem State.takeFromNv_pending (l : LifeCycle) (s : State) : (s.takeFromNv l).pending = s.pending := rfl

@[simp] theorem State.noteVerify_life (passed : Bool) (s : State) : (s.noteVerify passed).life = s.life := rfl
@[simp] theorem State.noteVerify_time (passed : Bool) (s : State) : (s.noteVerify passed).time = s.time := rfl
@[simp] theorem State.noteVerify_path (passed : Bool) (s : State) : (s.noteVerify passed).path = s.path := rfl
@[simp] theorem State.noteVerify_map (passed : Bool) (s : State) : (s.noteVerify passed).map = s.map := rfl
@[simp] theorem State.noteVerify_slots (passed : Bool) (s : State) : (s.noteVerify passed).slots = s.slots := rfl
@[simp] theorem State.noteVerify_engine (passed : Bool) (s : State) : (s.noteVerify passed).engine = s.engine := rfl
@[simp] theorem State.noteVerify_filter (passed : Bool) (s : State) : (s.noteVerify passed).filter = s.filter := rfl
@[simp] theorem State.noteVerify_keys (passed : Bool) (s : State) : (s.noteVerify passed).keys = s.keys := rfl
@[simp] theorem State.noteVerify_nv (passed : Bool) (s : State) : (s.noteVerify passed).nv = s.nv := rfl
@[simp] theorem State.noteVerify_writer (passed : Bool) (s : State) : (s.noteVerify passed).writer = s.writer := rfl
@[simp] theorem State.noteVerify_memOut (passed : Bool) (s : State) : (s.noteVerify passed).memOut = s.memOut := rfl
@[simp] theorem State.noteVerify_sysOut (passed : Bool) (s : State) : (s.noteVerify passed).sysOut = s.sysOut := rfl
@[simp] theorem State.noteVerify_freeCount (passed : Bool) (s : State) :
    (s.noteVerify passed).freeCount = s.freeCount := rfl
@[simp] theorem State.noteVerify_pending (passed : Bool) (s : State) : (s.noteVerify passed).pending = s.pending := rfl

@[simp] theorem State.setSampler_time (count : BitVec 4) (armed : Bool) (s : State) :
    (s.setSampler count armed).time = s.time := rfl
@[simp] theorem State.setSampler_status (count : BitVec 4) (armed : Bool) (s : State) :
    (s.setSampler count armed).status = s.status := rfl
@[simp] theorem State.setSampler_path (count : BitVec 4) (armed : Bool) (s : State) :
    (s.setSampler count armed).path = s.path := rfl
@[simp] theorem State.setSampler_map (count : BitVec 4) (armed : Bool) (s : State) :
    (s.setSampler count armed).map = s.map := rfl
@[simp] theorem State.setSampler_slots (count : BitVec 4) (armed : Bool) (s : State) :
    (s.setSampler count armed).slots = s.slots := rfl
@[simp] theorem State.setSampler_engine (count : BitVec 4) (armed : Bool) (s : State) :
    (s.setSampler count armed).engine = s.engine := rfl
@[simp] theorem State.setSampler_filter (count : BitVec 4) (armed : Bool) (s : State) :
    (s.setSampler count armed).filter = s.filter := rfl
@[simp] theorem State.setSampler_keys (count : BitVec 4) (armed : Bool) (s : State) :
    (s.setSampler count armed).keys = s.keys := rfl
@[simp] theorem State.setSampler_nv (count : BitVec 4) (armed : Bool) (s : State) :
    (s.setSampler count armed).nv = s.nv := rfl
@[simp] theorem State.setSampler_writer (count : BitVec 4) (armed : Bool) (s : State) :
    (s.setSampler count armed).writer = s.writer := rfl
@[simp] theorem State.setSampler_memOut (count : BitVec 4) (armed : Bool) (s : State) :
    (s.setSampler count armed).memOut = s.memOut := rfl
@[simp] theorem State.setSampler_sysOut (count : BitVec 4) (armed : Bool) (s : State) :
    (s.setSampler count armed).sysOut = s.sysOut := rfl
@[simp] theorem State.setSampler_freeCount (count : BitVec 4) (armed : Bool) (s : State) :
    (s.setSampler count armed).freeCount = s.freeCount := rfl
@[simp] theorem State.setSampler_pending (count : BitVec 4) (armed : Bool) (s : State) :
    (s.setSampler count armed).pending = s.pending := rfl

@[simp] theorem State.issueChallenge_life (s : State) : (s.issueChallenge).life = s.life := rfl
@[simp] theorem State.issueChallenge_time (s : State) : (s.issueChallenge).time = s.time := rfl
@[simp] theorem State.issueChallenge_status (s : State) : (s.issueChallenge).status = s.status := rfl
@[simp] theorem State.issueChallenge_path (s : State) : (s.issueChallenge).path = s.path := rfl
@[simp] theorem State.issueChallenge_map (s : State) : (s.issueChallenge).map = s.map := rfl
@[simp] theorem State.issueChallenge_engine (s : State) : (s.issueChallenge).engine = s.engine := rfl
@[simp] theorem State.issueChallenge_filter (s : State) : (s.issueChallenge).filter = s.filter := rfl
@[simp] theorem State.issueChallenge_keys (s : State) : (s.issueChallenge).keys = s.keys := rfl
@[simp] theorem State.issueChallenge_nv (s : State) : (s.issueChallenge).nv = s.nv := rfl
@[simp] theorem State.issueChallenge_writer (s : State) : (s.issueChallenge).writer = s.writer := rfl
@[simp] theorem State.issueChallenge_memOut (s : State) : (s.issueChallenge).memOut = s.memOut := rfl
@[simp] theorem State.issueChallenge_sysOut (s : State) : (s.issueChallenge).sysOut = s.sysOut := rfl
@[simp] theorem State.issueChallenge_freeCount (s : State) : (s.issueChallenge).freeCount = s.freeCount := rfl
@[simp] theorem State.issueChallenge_pending (s : State) : (s.issueChallenge).pending = s.pending := rfl

@[simp] theorem State.endLoad_time (s : State) : (s.endLoad).time = s.time := rfl
@[simp] theorem State.endLoad_status (s : State) : (s.endLoad).status = s.status := rfl
@[simp] theorem State.endLoad_path (s : State) : (s.endLoad).path = s.path := rfl
@[simp] theorem State.endLoad_map (s : State) : (s.endLoad).map = s.map := rfl
@[simp] theorem State.endLoad_slots (s : State) : (s.endLoad).slots = s.slots := rfl
@[simp] theorem State.endLoad_engine (s : State) : (s.endLoad).engine = s.engine := rfl
@[simp] theorem State.endLoad_filter (s : State) : (s.endLoad).filter = s.filter := rfl
@[simp] theorem State.endLoad_keys (s : State) : (s.endLoad).keys = s.keys := rfl
@[simp] theorem State.endLoad_nv (s : State) : (s.endLoad).nv = s.nv := rfl
@[simp] theorem State.endLoad_writer (s : State) : (s.endLoad).writer = s.writer := rfl
@[simp] theorem State.endLoad_memOut (s : State) : (s.endLoad).memOut = s.memOut := rfl
@[simp] theorem State.endLoad_sysOut (s : State) : (s.endLoad).sysOut = s.sysOut := rfl
@[simp] theorem State.endLoad_freeCount (s : State) : (s.endLoad).freeCount = s.freeCount := rfl
@[simp] theorem State.endLoad_pending (s : State) : (s.endLoad).pending = s.pending := rfl

end Sys2Proof.Machine
end

