-- ==== Sys2Proof/Laws/Flags.lean ====
section
/-! SUPPORT. What raising a cause and counting an event do to the causes and the counters. -/

namespace Sys2Proof.Machine

open Sys2Proof.Safety

/-- The causes have different bits (R202). -/
theorem causeBit_injective {a b : Cause} (h : causeBit a = causeBit b) : a = b := by
  cases a <;> cases b <;> simp [causeBit] at h ⊢ <;> omega

/-- The causes lie in the low 26 bits (R202). -/
theorem causeBit_lt (c : Cause) : causeBit c < 26 := by
  cases c <;> simp [causeBit]
  omega

/-- Raising a cause sets it and leaves every other (R185). -/
theorem State.causeSet_raise (s : State) (c d : Cause) :
    (s.raise c).causeSet d = (s.causeSet d || decide (c = d)) := by
  simp only [State.causeSet, State.raise, BitVec.getLsbD_or, BitVec.getLsbD_twoPow]
  have := causeBit_lt d
  by_cases h : c = d
  · subst h; simp [this]
  · have : causeBit c ≠ causeBit d := fun e => h (causeBit_injective e)
    simp [h, this]

/-- Raising CHALLENGE_LOW when its condition has come true (R185). -/
theorem State.causeSet_raiseLow (s : State) (was : Bool) (c : Cause) :
    (s.raiseLow was).causeSet c =
      (s.causeSet c || (!was && s.challengeLow && decide (Cause.challengeLow = c))) := by
  by_cases h : (!was && s.challengeLow) = true
  · have : (s.raiseLow was).causeSet c = (s.raise .challengeLow).causeSet c := by
      simp [State.raiseLow, State.causeSet, h]
    rw [this, causeSet_raise, h]; simp
  · have h' : (!was && s.challengeLow) = false := by simpa using h
    simp [State.raiseLow, State.causeSet, h']

/-- Counting an event leaves every other counter. -/
theorem State.counter_bump_of_ne (s : State) (c d : Counter) (n : Nat) (h : d ≠ c) :
    (s.bump c n).counter d = s.counter d := by
  simp only [State.counter, State.bump]
  have : (counterIndex c).val ≠ (counterIndex d).val := by cases c <;> cases d <;> simp [counterIndex] at h ⊢
  simp [Fin.getElem_fin, this]

/-- Counting an event adds to its counter, saturating (R188). -/
theorem State.counter_bump_self (s : State) (c : Counter) (n : Nat) :
    (s.bump c n).counter c = saturate (s.counter c) n := by
  simp [State.counter, State.bump, Fin.getElem_fin]

/-- One increment, in the words of R188. -/
theorem saturate_one (v : BitVec 32) : saturate v 1 = counted v := by
  simp only [saturate, counted]
  split
  · subst_vars; decide
  · rename_i h
    apply BitVec.eq_of_toNat_eq
    have : v.toNat ≠ 2 ^ 32 - 1 := fun e => h (BitVec.eq_of_toNat_eq (by simpa using e))
    have := v.isLt
    simp [BitVec.toNat_add]; omega

/-- A state whose Status Unit is that of `s` with a cause raised. -/
theorem onlyRaised_of_raise (s t : State) (c : Cause) (raised : List Cause) (hc : c ∈ raised)
    (h : t.status = (s.raise c).status) : OnlyRaised raised s t := by
  have e : ∀ d, t.causeSet d = (s.raise c).causeSet d := fun d => by simp [State.causeSet, h]
  refine ⟨fun d hd => ?_, fun d hd => ?_, by rw [h]; rfl, by rw [h]; rfl⟩
  · have : c ≠ d := fun e => hd (e ▸ hc)
    rw [e, State.causeSet_raise]; simp [this]
  · rw [e, State.causeSet_raise, hd]; rfl

/-- A state whose causes, enables and hold are those of `s`. -/
theorem onlyRaised_of_same (s t : State) (raised : List Cause) (hc : t.status.causes = s.status.causes)
    (he : t.status.enables = s.status.enables) (hh : t.status.hold = s.status.hold) : OnlyRaised raised s t :=
  ⟨fun d _ => by simp [State.causeSet, hc], fun d h => by simpa [State.causeSet, hc] using h, he, hh⟩

/-- Two effects that raise at most the same causes. -/
theorem onlyRaised_trans {raised : List Cause} {s t u : State} (a : OnlyRaised raised s t)
    (b : OnlyRaised raised t u) : OnlyRaised raised s u :=
  ⟨fun c hc => (b.1 c hc).trans (a.1 c hc), fun c hc => b.2.1 c (a.2.1 c hc), b.2.2.1.trans a.2.2.1,
    b.2.2.2.trans a.2.2.2⟩

/-- A state whose Status Unit is that of another. -/
theorem onlyRaised_of_status {raised : List Cause} {s t u : State} (a : OnlyRaised raised s t)
    (h : u.status = t.status) : OnlyRaised raised s u := by
  have e : ∀ c, u.causeSet c = t.causeSet c := fun c => by simp [State.causeSet, h]
  exact ⟨fun c hc => by rw [e]; exact a.1 c hc, fun c hc => by rw [e]; exact a.2.1 c hc,
    by rw [h]; exact a.2.2.1, by rw [h]; exact a.2.2.2⟩

/-- A state whose counters are those of `s`. -/
theorem countersKept_of_same (s t : State) (except : List Counter) (h : t.status.counters = s.status.counters) :
    CountersKept except s t := fun c _ => by simp [State.counter, h]

end Sys2Proof.Machine
end

