-- ==== Sys2Proof/Laws/Ops.lean ====
section
/-! SUPPORT. What each shared operation leaves as it was, said once, so that later proofs cite it and never unfold the
operation. -/

namespace Sys2Proof.Machine

/-- `refuse` changes at most: status, path, sysOut. -/
@[simp] theorem State.refuse_frame (i : Initiator) (r : Request) (reason : RefusalReason) (s : State) :
    (s.refuse i r reason).life = s.life ∧ (s.refuse i r reason).time = s.time ∧ (s.refuse i r reason).map = s.map ∧
    (s.refuse i r reason).slots = s.slots ∧ (s.refuse i r reason).engine = s.engine ∧
    (s.refuse i r reason).filter = s.filter ∧ (s.refuse i r reason).keys = s.keys ∧ (s.refuse i r reason).nv = s.nv ∧
    (s.refuse i r reason).writer = s.writer ∧ (s.refuse i r reason).memOut = s.memOut ∧
    (s.refuse i r reason).freeCount = s.freeCount ∧ (s.refuse i r reason).pending = s.pending := by
  (repeat' apply And.intro) <;> rfl

/-- `enterEnd` changes at most: slots, status. -/
@[simp] theorem State.enterEnd_frame (r : SlotRef) (c : SlotCtx) (s : State) :
    (s.enterEnd r c).life = s.life ∧ (s.enterEnd r c).time = s.time ∧ (s.enterEnd r c).path = s.path ∧
    (s.enterEnd r c).map = s.map ∧ (s.enterEnd r c).engine = s.engine ∧ (s.enterEnd r c).filter = s.filter ∧
    (s.enterEnd r c).keys = s.keys ∧ (s.enterEnd r c).nv = s.nv ∧ (s.enterEnd r c).writer = s.writer ∧
    (s.enterEnd r c).memOut = s.memOut ∧ (s.enterEnd r c).sysOut = s.sysOut ∧
    (s.enterEnd r c).freeCount = s.freeCount ∧ (s.enterEnd r c).pending = s.pending := by
  (repeat' apply And.intro) <;> rfl

/-- `withdraw` changes at most: slots, engine, status, path, memOut, sysOut. -/
@[simp] theorem State.withdraw_frame (k : Fin 64) (s : State) :
    (s.withdraw k).life = s.life ∧ (s.withdraw k).time = s.time ∧ (s.withdraw k).map = s.map ∧
    (s.withdraw k).filter = s.filter ∧ (s.withdraw k).keys = s.keys ∧ (s.withdraw k).nv = s.nv ∧
    (s.withdraw k).writer = s.writer ∧ (s.withdraw k).freeCount = s.freeCount ∧
    (s.withdraw k).pending = s.pending := by
  (repeat' apply And.intro) <;> rfl

/-- `askReservation` changes at most: slots, writer. -/
@[simp] theorem State.askReservation_frame (s : State) :
    (s.askReservation).life = s.life ∧ (s.askReservation).time = s.time ∧ (s.askReservation).status = s.status ∧
    (s.askReservation).path = s.path ∧ (s.askReservation).map = s.map ∧ (s.askReservation).engine = s.engine ∧
    (s.askReservation).filter = s.filter ∧ (s.askReservation).keys = s.keys ∧ (s.askReservation).nv = s.nv ∧
    (s.askReservation).memOut = s.memOut ∧ (s.askReservation).sysOut = s.sysOut ∧
    (s.askReservation).freeCount = s.freeCount ∧ (s.askReservation).pending = s.pending := by
  (repeat' apply And.intro) <;> rfl

/-- `reserveIfLow` changes at most: slots, writer. -/
@[simp] theorem State.reserveIfLow_frame (s : State) :
    (s.reserveIfLow).life = s.life ∧ (s.reserveIfLow).time = s.time ∧ (s.reserveIfLow).status = s.status ∧
    (s.reserveIfLow).path = s.path ∧ (s.reserveIfLow).map = s.map ∧ (s.reserveIfLow).engine = s.engine ∧
    (s.reserveIfLow).filter = s.filter ∧ (s.reserveIfLow).keys = s.keys ∧ (s.reserveIfLow).nv = s.nv ∧
    (s.reserveIfLow).memOut = s.memOut ∧ (s.reserveIfLow).sysOut = s.sysOut ∧
    (s.reserveIfLow).freeCount = s.freeCount ∧ (s.reserveIfLow).pending = s.pending := by
  (repeat' apply And.intro) <;> rfl

/-- `endAtOnce` changes at most: keys, status. -/
@[simp] theorem State.endAtOnce_frame (command : Byte) (code : ImportCode) (index : Fin 64) (check : BitVec 24) (s : State) :
    (s.endAtOnce command code index check).life = s.life ∧ (s.endAtOnce command code index check).time = s.time ∧
    (s.endAtOnce command code index check).path = s.path ∧ (s.endAtOnce command code index check).map = s.map ∧
    (s.endAtOnce command code index check).slots = s.slots ∧
    (s.endAtOnce command code index check).engine = s.engine ∧
    (s.endAtOnce command code index check).filter = s.filter ∧ (s.endAtOnce command code index check).nv = s.nv ∧
    (s.endAtOnce command code index check).writer = s.writer ∧
    (s.endAtOnce command code index check).memOut = s.memOut ∧
    (s.endAtOnce command code index check).sysOut = s.sysOut ∧
    (s.endAtOnce command code index check).freeCount = s.freeCount ∧
    (s.endAtOnce command code index check).pending = s.pending := by
  (repeat' apply And.intro) <;> rfl

/-- `switchEpoch` changes at most: time, status, writer. -/
@[simp] theorem State.switchEpoch_frame (epoch : BitVec 16) (s : State) :
    (s.switchEpoch epoch).life = s.life ∧ (s.switchEpoch epoch).path = s.path ∧ (s.switchEpoch epoch).map = s.map ∧
    (s.switchEpoch epoch).slots = s.slots ∧ (s.switchEpoch epoch).engine = s.engine ∧
    (s.switchEpoch epoch).filter = s.filter ∧ (s.switchEpoch epoch).keys = s.keys ∧ (s.switchEpoch epoch).nv = s.nv ∧
    (s.switchEpoch epoch).memOut = s.memOut ∧ (s.switchEpoch epoch).sysOut = s.sysOut ∧
    (s.switchEpoch epoch).freeCount = s.freeCount ∧ (s.switchEpoch epoch).pending = s.pending := by
  (repeat' apply And.intro) <;> rfl

/-- `countDown` changes at most: time, status, writer. -/
@[simp] theorem State.countDown_frame (s : State) :
    (s.countDown).life = s.life ∧ (s.countDown).path = s.path ∧ (s.countDown).map = s.map ∧
    (s.countDown).slots = s.slots ∧ (s.countDown).engine = s.engine ∧ (s.countDown).filter = s.filter ∧
    (s.countDown).keys = s.keys ∧ (s.countDown).nv = s.nv ∧ (s.countDown).memOut = s.memOut ∧
    (s.countDown).sysOut = s.sysOut ∧ (s.countDown).freeCount = s.freeCount ∧ (s.countDown).pending = s.pending := by
  simp only [State.countDown]; (repeat' split) <;> simp

/-- `endReserve` changes at most: life, status, map, path. -/
@[simp] theorem State.endReserve_frame (s : State) :
    (s.endReserve).time = s.time ∧ (s.endReserve).slots = s.slots ∧ (s.endReserve).engine = s.engine ∧
    (s.endReserve).filter = s.filter ∧ (s.endReserve).keys = s.keys ∧ (s.endReserve).nv = s.nv ∧
    (s.endReserve).writer = s.writer ∧ (s.endReserve).memOut = s.memOut ∧ (s.endReserve).sysOut = s.sysOut ∧
    (s.endReserve).freeCount = s.freeCount ∧ (s.endReserve).pending = s.pending := by
  (repeat' apply And.intro) <;> rfl

/-- `beginReserve` changes at most: life, slots, writer, status, map, path. -/
@[simp] theorem State.beginReserve_frame (s : State) :
    (s.beginReserve).time = s.time ∧ (s.beginReserve).engine = s.engine ∧ (s.beginReserve).filter = s.filter ∧
    (s.beginReserve).keys = s.keys ∧ (s.beginReserve).nv = s.nv ∧ (s.beginReserve).memOut = s.memOut ∧
    (s.beginReserve).sysOut = s.sysOut ∧ (s.beginReserve).freeCount = s.freeCount ∧
    (s.beginReserve).pending = s.pending := by
  simp only [State.beginReserve]; (repeat' split) <;> simp

/-- `continueCheck` changes at most: life, slots, writer, status, map, path, engine. -/
@[simp] theorem State.continueCheck_frame (n : Nat) (s : State) :
    (s.continueCheck n).time = s.time ∧ (s.continueCheck n).filter = s.filter ∧ (s.continueCheck n).keys = s.keys ∧
    (s.continueCheck n).nv = s.nv ∧ (s.continueCheck n).memOut = s.memOut ∧ (s.continueCheck n).sysOut = s.sysOut ∧
    (s.continueCheck n).freeCount = s.freeCount ∧ (s.continueCheck n).pending = s.pending := by
  simp only [State.continueCheck]; (repeat' split) <;> simp

/-- `endImportByZeroize` changes at most: keys, status. -/
@[simp] theorem State.endImportByZeroize_frame (s : State) :
    (s.endImportByZeroize).life = s.life ∧ (s.endImportByZeroize).time = s.time ∧
    (s.endImportByZeroize).path = s.path ∧ (s.endImportByZeroize).map = s.map ∧
    (s.endImportByZeroize).slots = s.slots ∧ (s.endImportByZeroize).engine = s.engine ∧
    (s.endImportByZeroize).filter = s.filter ∧ (s.endImportByZeroize).nv = s.nv ∧
    (s.endImportByZeroize).writer = s.writer ∧ (s.endImportByZeroize).memOut = s.memOut ∧
    (s.endImportByZeroize).sysOut = s.sysOut ∧ (s.endImportByZeroize).freeCount = s.freeCount ∧
    (s.endImportByZeroize).pending = s.pending := by
  simp only [State.endImportByZeroize]; (repeat' split) <;> simp

/-- `startZeroization` changes at most: life, slots, engine, filter, keys, writer, status, path, memOut, sysOut, map. -/
@[simp] theorem State.startZeroization_frame (s : State) :
    (s.startZeroization).time = s.time ∧ (s.startZeroization).nv = s.nv ∧
    (s.startZeroization).freeCount = s.freeCount ∧ (s.startZeroization).pending = s.pending := by
  simp only [State.startZeroization]; split <;> simp

/-- `carryOpen` changes at most: slots, writer, status. -/
@[simp] theorem State.carryOpen_frame (r : SlotRef) (c : SlotCtx) (s : State) :
    (s.carryOpen r c).life = s.life ∧ (s.carryOpen r c).time = s.time ∧ (s.carryOpen r c).path = s.path ∧
    (s.carryOpen r c).map = s.map ∧ (s.carryOpen r c).engine = s.engine ∧ (s.carryOpen r c).filter = s.filter ∧
    (s.carryOpen r c).keys = s.keys ∧ (s.carryOpen r c).nv = s.nv ∧ (s.carryOpen r c).memOut = s.memOut ∧
    (s.carryOpen r c).sysOut = s.sysOut ∧ (s.carryOpen r c).freeCount = s.freeCount ∧
    (s.carryOpen r c).pending = s.pending := by
  (repeat' apply And.intro) <;> rfl

/-- A failed stage of the NV zeroize leaves the reader number and the high-water, whatever the stage (R176, R178). -/
@[simp] theorem failedStage_frame (stage draw : Nat) (nv : NvArray) :
    (failedStage stage draw nv).reader = nv.reader ∧ (failedStage stage draw nv).highWater = nv.highWater := by
  simp only [failedStage]
  split <;> exact ⟨rfl, rfl⟩

/-- Stage 1 leaves the life-cycle word ZEROIZED when its verify fails as when it passes (R178). -/
theorem failedStage_zero (draw : Nat) (nv : NvArray) : failedStage 0 draw nv = { nv with lifeWord := 4#8 } := rfl

@[simp] theorem restartZeroize_running (w : NvWriter) : (restartZeroize w).running = some (.nvZeroize 0) := rfl
@[simp] theorem restartZeroize_waiting (w : NvWriter) : (restartZeroize w).waiting = w.waiting := rfl
@[simp] theorem restartZeroize_zeroizeWaiting (w : NvWriter) :
    (restartZeroize w).zeroizeWaiting = w.zeroizeWaiting := rfl

/-- An erase request holds no key, and every other field of its entry (R106). -/
@[simp] theorem keptWithRequest_fields (e : DirEntry) :
    (keptWithRequest e).key = none ∧ (keptWithRequest e).usage = e.usage ∧ (keptWithRequest e).keySet = e.keySet ∧
    (keptWithRequest e).version = e.version ∧ (keptWithRequest e).validFrom = e.validFrom ∧
    (keptWithRequest e).validUntil = e.validUntil ∧ (keptWithRequest e).check = e.check := by
  (repeat' apply And.intro) <;> rfl

end Sys2Proof.Machine
end

