-- ==== Sys2Proof/Laws/Words.lean ====
section
/-! SUPPORT. The bytes of merged words and of command words. -/

namespace Sys2Proof.Machine

/-- A byte of eight bytes laid end to end. -/
theorem byteOf_eight (b7 b6 b5 b4 b3 b2 b1 b0 : Byte) (k : Fin 8) :
    byteOf (b7 ++ b6 ++ b5 ++ b4 ++ b3 ++ b2 ++ b1 ++ b0) k.val = [b0, b1, b2, b3, b4, b5, b6, b7][k] := by
  apply BitVec.eq_of_getLsbD_eq
  intro i hi
  simp only [byteOf, BitVec.getLsbD_extractLsb', BitVec.getLsbD_append]
  fin_cases k <;> simp [hi] <;> (repeat' (first | omega | split)) <;> (try congr 1) <;> (try simp) <;> (try omega)

/-- Each byte of a merge is the new byte or the old one, as its strobe says (R18). -/
theorem byteOf_mergeBytes (old new : Word) (strobes : BitVec 8) (k : Fin 8) :
    byteOf (mergeBytes old new strobes) k.val = if strobes.getLsbD k.val then byteOf new k.val else byteOf old k.val := by
  rw [mergeBytes, byteOf_eight]
  fin_cases k <;> rfl

/-- The low byte of the upper bytes of a slot command word with six zero bytes is its generation. -/
@[simp] theorem generation_of_upper (g : BitVec 8) : (0#48 ++ g).extractLsb' 0 8 = g := by
  apply BitVec.eq_of_getLsbD_eq
  intro i hi
  simp only [BitVec.getLsbD_extractLsb', BitVec.getLsbD_append]
  simp [hi]

/-- The other six bytes of such a word are zero. -/
@[simp] theorem spare_of_upper (g : BitVec 8) : (0#48 ++ g).extractLsb' 8 48 = 0#48 := by
  apply BitVec.eq_of_getLsbD_eq
  intro i hi
  simp only [BitVec.getLsbD_extractLsb', BitVec.getLsbD_append]
  simp

end Sys2Proof.Machine
end

