-- ==== Sys2Proof/Laws/Slots.lean ====
section
/-! SUPPORT. The context of a slot after each update of the contexts, and the taking of a slot command that passes its
checks. -/

namespace Sys2Proof.Machine

/-- The context at a reference in a list of contexts. -/
def contextIn (l : List (SlotRef × SlotCtx)) (r : SlotRef) : Option SlotCtx :=
  (l.find? fun p => p.1 == r).map (·.2)

/-- Looking a context up in the state. -/
theorem State.ctx?_eq (s : State) (r : SlotRef) : s.ctx? r = contextIn s.slots.contexts r := rfl

/-- Two states with the same contexts. -/
theorem State.ctx?_congr {s t : State} (h : t.slots.contexts = s.slots.contexts) (r : SlotRef) :
    t.ctx? r = s.ctx? r := by simp [State.ctx?, h]

/-- Replacing the context of a slot that exists: that slot has the new one. -/
theorem State.ctx?_setCtx_self (s : State) (r : SlotRef) (c c0 : SlotCtx) (h : s.ctx? r = some c0) :
    (s.setCtx r c).ctx? r = some c := by
  rw [State.ctx?_eq] at h ⊢
  show contextIn (s.slots.contexts.map fun p => if p.1 = r then (r, c) else p) r = some c
  generalize s.slots.contexts = l at h ⊢
  induction l with
  | nil => simp [contextIn] at h
  | cons p l ih =>
    simp only [contextIn, List.map_cons, List.find?_cons] at h ih ⊢
    by_cases hp : p.1 = r
    · simp [hp]
    · have : (p.1 == r) = false := by simpa using hp
      simp only [hp, if_false, this] at h ⊢
      exact ih h

/-- Replacing the context of a slot: every other slot is as it was. -/
theorem State.ctx?_setCtx_of_ne (s : State) (r q : SlotRef) (c : SlotCtx) (h : q ≠ r) :
    (s.setCtx r c).ctx? q = s.ctx? q := by
  rw [State.ctx?_eq, State.ctx?_eq]
  show contextIn (s.slots.contexts.map fun p => if p.1 = r then (r, c) else p) q = _
  induction s.slots.contexts with
  | nil => rfl
  | cons p l ih =>
    simp only [contextIn, List.map_cons, List.find?_cons] at ih ⊢
    by_cases hp : p.1 = r
    · have h1 : (r == q) = false := by simp; exact fun e => h e.symm
      simp only [hp, if_true, h1]
      exact ih
    · simp only [hp, if_false]
      cases hq : (p.1 == q)
      · exact ih
      · rfl

/-- Changing every context by one function. -/
theorem contextIn_map (l : List (SlotRef × SlotCtx)) (f : SlotCtx → SlotCtx) (r : SlotRef) :
    contextIn (l.map fun p => (p.1, f p.2)) r = (contextIn l r).map f := by
  induction l with
  | nil => rfl
  | cons p l ih =>
    simp only [contextIn, List.map_cons, List.find?_cons] at ih ⊢
    cases hq : (p.1 == r)
    · exact ih
    · rfl

/-- Freeing every slot clears every context (R29, R30). -/
theorem State.ctx?_freeAllSlots (s : State) (r : SlotRef) : s.freeAllSlots.ctx? r = (s.ctx? r).map clearCtx :=
  contextIn_map s.slots.contexts clearCtx r

/-- A beat to a slot that exists, while no reload runs, acts and goes to memory. -/
theorem State.slotBeat_taken (r : SlotRef) (offset : Nat) (b : WriteBeat) (act : State → State) (s : State)
    (c : SlotCtx) (hc : s.ctx? r = some c) (hr : s.reloading = false) :
    s.slotBeat r offset b act = (act s).forwardBeat (s.slotAddr r offset) b := by
  simp [State.slotBeat, hc, hr]

/-- A slot command that passes the checks of R9, and for OPEN those of R11, is carried out. -/
theorem State.takeSlotCommand_carried (s : State) (i : Initiator) (r : SlotRef) (cmd : SlotCmd) (g : BitVec 8)
    (c : SlotCtx) (hc : s.ctx? r = some c) (hh : s.status.hold = false)
    (hr : hasSlotRight (s.groupOf r) cmd i = true) (hg : cmd = .open' ∨ g = c.generation)
    (ha : acceptedFrom cmd c.state = true) (ho : cmd = .open' → s.openRefusal = none) :
    s.takeSlotCommand i r (some cmd) (0#48 ++ g) = s.carrySlot cmd r c := by
  have href : s.slotRefusal i r (some cmd) (0#48 ++ g) c = none := by
    simp only [State.slotRefusal, hh, spare_of_upper, generation_of_upper, hr, ha]
    by_cases hcmd : cmd = .open'
    · subst hcmd; simp [ho rfl]
    · rcases hg with h | h
      · exact absurd h hcmd
      · simp [h, hcmd]
  simp [State.takeSlotCommand, hc, href]

/-! The context that a VERIFY job leaves as it is taken (R43, R44): what its later completion finds. -/

@[simp] theorem derivedCtx_state (k : Fin 64) (tagKey : Block) (c : SlotCtx) : (derivedCtx k tagKey c).state = .busy := rfl
@[simp] theorem derivedCtx_jobKind (k : Fin 64) (tagKey : Block) (c : SlotCtx) :
    (derivedCtx k tagKey c).jobKind = c.jobKind := rfl
@[simp] theorem derivedCtx_generation (k : Fin 64) (tagKey : Block) (c : SlotCtx) :
    (derivedCtx k tagKey c).generation = c.generation := rfl
@[simp] theorem derivedCtx_tagEntry (k : Fin 64) (tagKey : Block) (c : SlotCtx) :
    (derivedCtx k tagKey c).tagEntry = some k := rfl
@[simp] theorem derivedCtx_derivedKey (k : Fin 64) (tagKey : Block) (c : SlotCtx) :
    (derivedCtx k tagKey c).derivedKey = some tagKey := rfl
@[simp] theorem derivedCtx_verdict (k : Fin 64) (tagKey : Block) (c : SlotCtx) :
    (derivedCtx k tagKey c).verdict = c.verdict := rfl
@[simp] theorem derivedCtx_challenge (k : Fin 64) (tagKey : Block) (c : SlotCtx) :
    (derivedCtx k tagKey c).challenge = c.challenge := rfl
@[simp] theorem derivedCtx_inbound (k : Fin 64) (tagKey : Block) (c : SlotCtx) :
    (derivedCtx k tagKey c).inbound = c.inbound := rfl

/-- A VERIFY job whose lookup finds a usable key starts, its tag key derived (R41, R43, R44). -/
theorem State.takeSlotJob_verify (r : SlotRef) (rest : List SlotRef) (s : State) (c : SlotCtx) (k : Fin 64)
    (hc : s.ctx? r = some c) (hj : c.jobKind = some .verify) (hk : s.lookupTag c = .inr k) :
    s.takeSlotJob r rest =
      (((s.popFifo rest).setCtx r (derivedCtx k (deriveTagKey ((s.entry k).key.getD 0#128) c) c)).startJob
        (.verify r c.generation s.time.epoch (deriveTagKey ((s.entry k).key.getD 0#128) c))) := by
  simp [State.takeSlotJob, hc, hj, hk]

end Sys2Proof.Machine
end

