-- ==== Sys2Proof/Laws/Path.lean ====
section
/-! SUPPORT. Order queues: what giving responses and settling holds do to each queue, and the command and setting beats that
are taken. -/

namespace Sys2Proof.Machine

open Sys2Proof.Safety

/-- What is left in a queue was in it. -/
theorem mem_of_mem_drain {q : List QueueEntry} {e : QueueEntry} (h : e ∈ (drain q).2) : e ∈ q := by
  induction q with
  | nil => simp [drain] at h
  | cons a l ih =>
    unfold drain at h
    split at h
    · exact List.mem_cons_of_mem _ (ih h)
    · exact h

/-- A queue whose head is not ready gives nothing. -/
theorem drain_of_head (q : List QueueEntry)
    (h : ∀ e, q.head? = some e → ∀ reply, e.stage ≠ .ready reply) : drain q = ([], q) := by
  cases q with
  | nil => rfl
  | cons e l =>
    unfold drain
    split
    · rename_i r hr; exact absurd hr (h e rfl r)
    · rfl

/-- Each queue after responses have been given (R137). -/
theorem State.queue_giveResponses (s : State) (i : Initiator) : s.giveResponses.queue i = (drain (s.queue i)).2 := by
  simp [State.giveResponses, State.queue, Fin.getElem_fin]

/-- Each queue after held reads have been settled (R25). -/
theorem State.queue_settleHolds (s : State) (i : Initiator) :
    s.settleHolds.queue i = (drain ((s.queue i).map fun e => (s.settleEntry e).1)).2 := by
  simp [State.settleHolds, State.queue_giveResponses]
  simp [State.queue, Fin.getElem_fin]

/-- Each queue after one has been replaced. -/
theorem State.queue_setQueue (s : State) (i j : Initiator) (q : List QueueEntry) :
    (s.setQueue i q).queue j = if j = i then q else s.queue j := by
  simp only [State.queue, State.setQueue, Fin.getElem_fin]
  by_cases h : j = i
  · subst h; simp
  · have : i.val ≠ j.val := fun e => h (Fin.ext e.symm)
    simp [h, this]

/-- After settling, a read is still held only for slots that are still in the jobs that hold it (R25). -/
theorem State.held_of_settleHolds (s : State) (i : Initiator) (e : QueueEntry) (h : e ∈ s.settleHolds.queue i)
    (endsAt : Word) (places : List Place) (waits : List (SlotRef × JobKind)) (hs : e.stage = .held endsAt places waits) :
    waits ≠ [] ∧ ∀ w ∈ waits, s.stillHolds w = true := by
  rw [State.queue_settleHolds] at h
  have h := mem_of_mem_drain h
  simp only [List.mem_map] at h
  obtain ⟨e0, _, rfl⟩ := h
  unfold State.settleEntry at hs
  split at hs
  · split at hs
    · simp only [State.finishRead] at hs
      split at hs <;> simp at hs
    · rename_i hne
      simp at hs
      obtain ⟨_, _, rfl⟩ := hs
      exact ⟨fun hh => hne (by simp [hh]), fun x hx => (List.mem_filter.mp hx).2⟩
  · rename_i hne
    exact absurd hs (hne _ _ _)

/-- After settling, no read is held for a slot that is in no job (R25). -/
theorem State.noReadHeldFor_settleHolds (s : State) (r : SlotRef) (c : SlotCtx) (hc : s.ctx? r = some c)
    (hn : inJob c = false) : NoReadHeldFor r s.settleHolds := by
  intro i e he endsAt places waits hs w hw heq
  have := (s.held_of_settleHolds i e he endsAt places waits hs).2 w hw
  simp [State.stillHolds, heq, hc, hn] at this

/-- The head of the untaken part moves to a stage. -/
theorem takeHead_of_next (st : Stage) (pre : List QueueEntry) (r : Request) (post : List QueueEntry)
    (h : ∀ e ∈ pre, isUntaken e = false ∧ isHeld e = false) :
    takeHead st (pre ++ { req := r, stage := .untaken } :: post) = pre ++ { req := r, stage := st } :: post := by
  induction pre with
  | nil => simp [takeHead, isUntaken]
  | cons e l ih =>
    have h1 := (h e (by simp)).1
    simp [takeHead, h1, ih fun e he => h e (by simp [he])]

/-- The next request of an initiator, as the model finds it. -/
theorem State.nextRequest_of_next (s : State) (i : Initiator) (pre : List QueueEntry) (r : Request)
    (post : List QueueEntry) (h : NextIs s i pre r post) : s.nextRequest i = some r := by
  obtain ⟨h1, h2, h3, h4⟩ := h
  have hx : isHeld { req := r, stage := .untaken } = false := rfl
  have hp : pre.find? isUntaken = none := by simp; exact fun e he => (h3 e he).1
  simp only [State.nextRequest, h1, h2]
  simp [List.find?_append, hp, isUntaken]
  exact ⟨fun e he => (h3 e he).2, hx, h4⟩

/-- A setting beat, while no reload runs, is handed on and goes to memory (R181). -/
theorem State.settingBeat_taken (word : StatusWord) (offset : Nat) (w : Word) (s : State) (h : s.reloading = false) :
    s.settingBeat word offset w = (s.writeStatus word w).forwardBeat (s.base + offset) (fullBeat w) := by
  simp [State.settingBeat, State.controlBeat, h]

/-- In RUNNING, with the hold clear and no reload running, every setting is taken (R181). -/
theorem State.writeStatus_taken (word : StatusWord) (w : Word) (s : State) (hr : s.reloading = false)
    (hp : s.life.phase = .running) (hh : s.status.hold = false) : s.writeStatus word w = s.applySetting word w := by
  simp [State.writeStatus, State.settingTaken, hp, hh, hr]

end Sys2Proof.Machine
end

