-- ==== Sys2Proof/WellFormed.lean ====
section
/-! DEFINITION. Which commands the two ports and the pins can present at all: AXI4's limits on a burst, and the lengths of
the part's own table read. `exec` gives an ill-formed command a meaning too; nothing is refused for being ill formed. -/

namespace Sys2Proof

/-- An AXI4 burst the system port can carry (R134; the limits of AXI4 are PRESUMED, log entry 10): beats of at most 8 bytes,
at most 16 beats for FIXED, 2, 4, 8 or 16 aligned beats for WRAP, and no byte past the top of the 4 GiB space. -/
def Request.wf (r : Request) : Bool :=
  let beats := r.len.toNat + 1
  let size := 2 ^ r.size.toNat
  decide (r.size ≤ 3#3) &&
    (match r.burst with
      | .incr => decide (r.addr.toNat / size * size + beats * size ≤ 2 ^ 32)
      | .fixed => decide (beats ≤ 16)
      | .wrap => [2, 4, 8, 16].contains beats && r.addr.toNat % size == 0)

/-- The number of beats of a burst: 1 to 256. -/
def burstLength (n : Nat) : Bool := decide (1 ≤ n) && decide (n ≤ 256)

/-- Memory returned an error response on a beat (R156). -/
def hasError (b : ReadBeat) : Bool := b.resp == .slverr || b.resp == .decerr

/-- The two bursts of a table read (R156): 16 beats each; after an error in the first there is no second. -/
def tableBursts (first second : List ReadBeat) : Bool :=
  first.length == 16 && (if first.any hasError then second.isEmpty else second.length == 16)

/-- A well-formed command. -/
def Instr.wf : Instr → Bool
  | .powerOnReset _ => true
  | .tick => true
  | .syncEdge => true
  | .tamperSample _ => true
  | .deadlineReached _ => true
  | .readHoldLimit _ => true
  | .requestAccept req => req.wf
  | .readTaken _ => true
  | .writeTaken _ beats => burstLength beats.length
  | .memoryReadResponse _ _ beats => burstLength beats.length
  | .memoryWriteResponse _ _ _ => true
  | .inboundShadowWrite _ _ _ => true
  | .payloadShadowWrite _ _ _ => true
  | .openSlot _ _ _ _ => true
  | .arm _ _ _ _ => true
  | .sealSlot _ _ _ _ => true
  | .release _ _ _ _ => true
  | .abort _ _ _ _ => true
  | .engineTakeJob => true
  | .verifyComplete => true
  | .sealComplete => true
  | .importComplete => true
  | .checkComplete => true
  | .blobWrite _ _ => true
  | .loadPlain _ => true
  | .load _ => true
  | .revoke _ => true
  | .erase _ => true
  | .inquire _ => true
  | .setReader _ => true
  | .fieldLock _ => true
  | .zeroize _ => true
  | .nvOperationEnd _ => true
  | .nvZeroizeAttemptEnd _ => true
  | .nvReadEnd => true
  | .mapTableReadStart => true
  | .mapTableReadEnd first second => tableBursts first second
  | .mapWordWrite _ => true
  | .preWrite _ => true
  | .epochScheduleWrite _ => true
  | .switchNow => true
  | .cancel => true
  | .attentionCausesWrite _ => true
  | .attentionEnablesWrite _ => true
  | .unmappedRightsWrite _ => true
  | .duplicateIntervalWrite _ => true
  | .holdTimeWrite _ => true
  | .holdSet _ => true
  | .holdClear _ => true
  | .counterClear _ => true
  | .resetNRelease => true
  | .nvZeroizeStageEnd => true

end Sys2Proof
end

