-- ==== Sys2Proof/Laws/PerInstr.lean ====
section
/-! SUPPORT. The family of statements made per command: each command's constructor stands for one row of the table. -/

namespace Sys2Proof.Laws

/-- The mnemonic of a command's row, as spec/opcode_table.json spells it. -/
def mnemonic : Instr → String
  | .powerOnReset _ => "POWER_ON_RESET"
  | .tick => "TICK"
  | .syncEdge => "SYNC_EDGE"
  | .tamperSample _ => "TAMPER_SAMPLE"
  | .deadlineReached _ => "DEADLINE_REACHED"
  | .readHoldLimit _ => "READ_HOLD_LIMIT"
  | .requestAccept _ => "REQUEST_ACCEPT"
  | .readTaken _ => "READ_TAKEN"
  | .writeTaken _ _ => "WRITE_TAKEN"
  | .memoryReadResponse _ _ _ => "MEMORY_READ_RESPONSE"
  | .memoryWriteResponse _ _ _ => "MEMORY_WRITE_RESPONSE"
  | .inboundShadowWrite _ _ _ => "INBOUND_SHADOW_WRITE"
  | .payloadShadowWrite _ _ _ => "PAYLOAD_SHADOW_WRITE"
  | .openSlot _ _ _ _ => "OPEN"
  | .arm _ _ _ _ => "ARM"
  | .sealSlot _ _ _ _ => "SEAL"
  | .release _ _ _ _ => "RELEASE"
  | .abort _ _ _ _ => "ABORT"
  | .engineTakeJob => "ENGINE_TAKE_JOB"
  | .verifyComplete => "VERIFY_COMPLETE"
  | .sealComplete => "SEAL_COMPLETE"
  | .importComplete => "IMPORT_COMPLETE"
  | .checkComplete => "CHECK_COMPLETE"
  | .blobWrite _ _ => "BLOB_WRITE"
  | .loadPlain _ => "LOAD_PLAIN"
  | .load _ => "LOAD"
  | .revoke _ => "REVOKE"
  | .erase _ => "ERASE"
  | .inquire _ => "INQUIRE"
  | .setReader _ => "SET_READER"
  | .fieldLock _ => "FIELD_LOCK"
  | .zeroize _ => "ZEROIZE"
  | .nvOperationEnd _ => "NV_OPERATION_END"
  | .nvZeroizeAttemptEnd _ => "NV_ZEROIZE_ATTEMPT_END"
  | .nvReadEnd => "NV_READ_END"
  | .mapTableReadStart => "MAP_TABLE_READ_START"
  | .mapTableReadEnd _ _ => "MAP_TABLE_READ_END"
  | .mapWordWrite _ => "MAP_WORD_WRITE"
  | .preWrite _ => "PRE_WRITE"
  | .epochScheduleWrite _ => "EPOCH_SCHEDULE_WRITE"
  | .switchNow => "SWITCH_NOW"
  | .cancel => "CANCEL"
  | .attentionCausesWrite _ => "ATTENTION_CAUSES_WRITE"
  | .attentionEnablesWrite _ => "ATTENTION_ENABLES_WRITE"
  | .unmappedRightsWrite _ => "UNMAPPED_RIGHTS_WRITE"
  | .duplicateIntervalWrite _ => "DUPLICATE_INTERVAL_WRITE"
  | .holdTimeWrite _ => "HOLD_TIME_WRITE"
  | .holdSet _ => "HOLD_SET"
  | .holdClear _ => "HOLD_CLEAR"
  | .counterClear _ => "COUNTER_CLEAR"
  | .resetNRelease => "RESET_N_RELEASE"
  | .nvZeroizeStageEnd => "NV_ZEROIZE_STAGE_END"

/-- The rows of spec/opcode_table.json in their order. -/
def tableRows : List String :=
  ["POWER_ON_RESET", "TICK", "SYNC_EDGE", "TAMPER_SAMPLE", "DEADLINE_REACHED", "READ_HOLD_LIMIT",
   "REQUEST_ACCEPT", "READ_TAKEN", "WRITE_TAKEN", "MEMORY_READ_RESPONSE", "MEMORY_WRITE_RESPONSE",
   "INBOUND_SHADOW_WRITE", "PAYLOAD_SHADOW_WRITE", "OPEN", "ARM", "SEAL", "RELEASE", "ABORT", "ENGINE_TAKE_JOB",
   "VERIFY_COMPLETE", "SEAL_COMPLETE", "IMPORT_COMPLETE", "CHECK_COMPLETE", "BLOB_WRITE", "LOAD_PLAIN", "LOAD",
   "REVOKE", "ERASE", "INQUIRE", "SET_READER", "FIELD_LOCK", "ZEROIZE", "NV_OPERATION_END",
   "NV_ZEROIZE_ATTEMPT_END", "NV_READ_END", "MAP_TABLE_READ_START", "MAP_TABLE_READ_END", "MAP_WORD_WRITE",
   "PRE_WRITE", "EPOCH_SCHEDULE_WRITE", "SWITCH_NOW", "CANCEL", "ATTENTION_CAUSES_WRITE",
   "ATTENTION_ENABLES_WRITE", "UNMAPPED_RIGHTS_WRITE", "DUPLICATE_INTERVAL_WRITE", "HOLD_TIME_WRITE",
   "HOLD_SET", "HOLD_CLEAR", "COUNTER_CLEAR", "RESET_N_RELEASE", "NV_ZEROIZE_STAGE_END"]

/-- A command's mnemonic is the entry of the table at the place of its constructor. -/
def Mnemonic.Statement (i : Instr) : Prop := tableRows[i.ctorIdx]? = some (mnemonic i)

theorem Mnemonic.powerOnReset : ∀ a, Mnemonic.Statement (.powerOnReset a) := fun _ => rfl
theorem Mnemonic.tick : Mnemonic.Statement .tick := rfl
theorem Mnemonic.syncEdge : Mnemonic.Statement .syncEdge := rfl
theorem Mnemonic.tamperSample : ∀ a, Mnemonic.Statement (.tamperSample a) := fun _ => rfl
theorem Mnemonic.deadlineReached : ∀ a, Mnemonic.Statement (.deadlineReached a) := fun _ => rfl
theorem Mnemonic.readHoldLimit : ∀ a, Mnemonic.Statement (.readHoldLimit a) := fun _ => rfl
theorem Mnemonic.requestAccept : ∀ a, Mnemonic.Statement (.requestAccept a) := fun _ => rfl
theorem Mnemonic.readTaken : ∀ a, Mnemonic.Statement (.readTaken a) := fun _ => rfl
theorem Mnemonic.writeTaken : ∀ a b, Mnemonic.Statement (.writeTaken a b) := fun _ _ => rfl
theorem Mnemonic.memoryReadResponse : ∀ a b c, Mnemonic.Statement (.memoryReadResponse a b c) := fun _ _ _ => rfl
theorem Mnemonic.memoryWriteResponse : ∀ a b c, Mnemonic.Statement (.memoryWriteResponse a b c) := fun _ _ _ => rfl
theorem Mnemonic.inboundShadowWrite : ∀ a b c, Mnemonic.Statement (.inboundShadowWrite a b c) := fun _ _ _ => rfl
theorem Mnemonic.payloadShadowWrite : ∀ a b c, Mnemonic.Statement (.payloadShadowWrite a b c) := fun _ _ _ => rfl
theorem Mnemonic.openSlot : ∀ a b c d, Mnemonic.Statement (.openSlot a b c d) := fun _ _ _ _ => rfl
theorem Mnemonic.arm : ∀ a b c d, Mnemonic.Statement (.arm a b c d) := fun _ _ _ _ => rfl
theorem Mnemonic.sealSlot : ∀ a b c d, Mnemonic.Statement (.sealSlot a b c d) := fun _ _ _ _ => rfl
theorem Mnemonic.release : ∀ a b c d, Mnemonic.Statement (.release a b c d) := fun _ _ _ _ => rfl
theorem Mnemonic.abort : ∀ a b c d, Mnemonic.Statement (.abort a b c d) := fun _ _ _ _ => rfl
theorem Mnemonic.engineTakeJob : Mnemonic.Statement .engineTakeJob := rfl
theorem Mnemonic.verifyComplete : Mnemonic.Statement .verifyComplete := rfl
theorem Mnemonic.sealComplete : Mnemonic.Statement .sealComplete := rfl
theorem Mnemonic.importComplete : Mnemonic.Statement .importComplete := rfl
theorem Mnemonic.checkComplete : Mnemonic.Statement .checkComplete := rfl
theorem Mnemonic.blobWrite : ∀ a b, Mnemonic.Statement (.blobWrite a b) := fun _ _ => rfl
theorem Mnemonic.loadPlain : ∀ a, Mnemonic.Statement (.loadPlain a) := fun _ => rfl
theorem Mnemonic.load : ∀ a, Mnemonic.Statement (.load a) := fun _ => rfl
theorem Mnemonic.revoke : ∀ a, Mnemonic.Statement (.revoke a) := fun _ => rfl
theorem Mnemonic.erase : ∀ a, Mnemonic.Statement (.erase a) := fun _ => rfl
theorem Mnemonic.inquire : ∀ a, Mnemonic.Statement (.inquire a) := fun _ => rfl
theorem Mnemonic.setReader : ∀ a, Mnemonic.Statement (.setReader a) := fun _ => rfl
theorem Mnemonic.fieldLock : ∀ a, Mnemonic.Statement (.fieldLock a) := fun _ => rfl
theorem Mnemonic.zeroize : ∀ a, Mnemonic.Statement (.zeroize a) := fun _ => rfl
theorem Mnemonic.nvOperationEnd : ∀ a, Mnemonic.Statement (.nvOperationEnd a) := fun _ => rfl
theorem Mnemonic.nvZeroizeAttemptEnd : ∀ a, Mnemonic.Statement (.nvZeroizeAttemptEnd a) := fun _ => rfl
theorem Mnemonic.nvReadEnd : Mnemonic.Statement .nvReadEnd := rfl
theorem Mnemonic.mapTableReadStart : Mnemonic.Statement .mapTableReadStart := rfl
theorem Mnemonic.mapTableReadEnd : ∀ a b, Mnemonic.Statement (.mapTableReadEnd a b) := fun _ _ => rfl
theorem Mnemonic.mapWordWrite : ∀ a, Mnemonic.Statement (.mapWordWrite a) := fun _ => rfl
theorem Mnemonic.preWrite : ∀ a, Mnemonic.Statement (.preWrite a) := fun _ => rfl
theorem Mnemonic.epochScheduleWrite : ∀ a, Mnemonic.Statement (.epochScheduleWrite a) := fun _ => rfl
theorem Mnemonic.switchNow : Mnemonic.Statement .switchNow := rfl
theorem Mnemonic.cancel : Mnemonic.Statement .cancel := rfl
theorem Mnemonic.attentionCausesWrite : ∀ a, Mnemonic.Statement (.attentionCausesWrite a) := fun _ => rfl
theorem Mnemonic.attentionEnablesWrite : ∀ a, Mnemonic.Statement (.attentionEnablesWrite a) := fun _ => rfl
theorem Mnemonic.unmappedRightsWrite : ∀ a, Mnemonic.Statement (.unmappedRightsWrite a) := fun _ => rfl
theorem Mnemonic.duplicateIntervalWrite : ∀ a, Mnemonic.Statement (.duplicateIntervalWrite a) := fun _ => rfl
theorem Mnemonic.holdTimeWrite : ∀ a, Mnemonic.Statement (.holdTimeWrite a) := fun _ => rfl
theorem Mnemonic.holdSet : ∀ a, Mnemonic.Statement (.holdSet a) := fun _ => rfl
theorem Mnemonic.holdClear : ∀ a, Mnemonic.Statement (.holdClear a) := fun _ => rfl
theorem Mnemonic.counterClear : ∀ a, Mnemonic.Statement (.counterClear a) := fun _ => rfl
theorem Mnemonic.resetNRelease : Mnemonic.Statement .resetNRelease := rfl
theorem Mnemonic.nvZeroizeStageEnd : Mnemonic.Statement .nvZeroizeStageEnd := rfl

end Sys2Proof.Laws
end

