-- ==== Sys2Proof/Laws/StartUp.lean ====
section
/-! SUPPORT. What the phases of start-up hand over to each other: a load that begins, RESERVE that ends at once, and
KEY_CHECK that goes on. -/

namespace Sys2Proof.Machine

open Sys2Proof.Safety

/-- Marking an entry, in the words of `LoadBegan`: a forwarded write is waited for, all else stays (R146). -/
theorem markEntry_eq (e : QueueEntry) :
    markEntry e =
      match e.stage with
      | .forwarded a m => { e with stage := .forwarded a (m || decide (e.req.dir = .write)) }
      | _ => e := by
  obtain ⟨r, stage⟩ := e
  cases stage <;> simp only [markEntry]
  split <;> simp [*]

/-- A load of the table that begins changes the map state and the marks of the queues, and nothing else (R146, R161). -/
theorem State.beginLoad_began (s : State) : LoadBegan s s.beginLoad := by
  refine ⟨rfl, rfl, fun i => ?_⟩
  simp only [State.beginLoad, State.queue, Vector.getElem_ofFn, Fin.getElem_fin]
  exact List.map_congr_left fun e _ => markEntry_eq e

/-- RESERVE ends with counter and ceiling equal, and nothing pending: CHALLENGE_LOW is raised (R170, R185). -/
theorem State.endReserve_low (s : State) (h : s.slots.ceiling = s.slots.counter)
    (hp : s.slots.reservationPending = false) : s.endReserve.status = (s.raise .challengeLow).status := by
  simp [State.endReserve, State.beginLoad, State.raiseLow, State.challengeLow, State.raise, h, hp, Config.lowMargin]

/-- RESERVE without a program ends at once (R170, R172). -/
theorem State.beginReserve_atOnce (s : State) (h : 2 ^ 48 ≤ s.nv.highWater ∨ s.zeroing = true) :
    ReserveEndedAtOnce s s.beginReserve := by
  let v : State := { s with
    life := { s.life with phase := .reserve }
    slots := { s.slots with
      counter := s.nv.highWater, ceiling := s.nv.highWater, reservationPending := false
      exhausted := s.slots.exhausted || decide (2 ^ 48 ≤ s.nv.highWater) } }
  have e : s.beginReserve = v.endReserve := by
    by_cases hw : 2 ^ 48 ≤ s.nv.highWater
    · have hc : Config.counterEnd ≤ s.nv.highWater := hw
      simp only [State.beginReserve, if_pos hc, v, decide_eq_true hw, Bool.or_true]
    · have hc : ¬Config.counterEnd ≤ s.nv.highWater := hw
      simp only [State.beginReserve, if_neg hc, if_pos (h.resolve_left hw), v, decide_eq_false hw, Bool.or_false]
  rw [e]
  have hs : v.endReserve.status = (s.raise .challengeLow).status := v.endReserve_low rfl rfl
  refine ⟨rfl, ?_, onlyRaised_of_raise s _ _ _ (by simp) hs, countersKept_of_same s _ _ (by rw [hs]; rfl),
    ⟨rfl, rfl, v.beginLoad_began.2.2⟩, rfl⟩
  have : v.endReserve.causeSet .challengeLow = (s.raise .challengeLow).causeSet .challengeLow := by
    simp only [State.causeSet, hs]
  rw [this, State.causeSet_raise]
  simp

/-- RESERVE with a program begins it (R170). -/
theorem State.beginReserve_program (s : State) (h : s.nv.highWater < 2 ^ 48) (hz : s.zeroing = false) :
    s.beginReserve = { s with
      life := { s.life with phase := .reserve }
      slots := { s.slots with
        counter := s.nv.highWater, ceiling := s.nv.highWater, reservationPending := false }
      writer := { s.writer with running := some (.reserve (s.nv.highWater + 4096)) } } := by
  have hc : ¬Config.counterEnd ≤ s.nv.highWater := Nat.not_le.mpr h
  simp [State.beginReserve, if_neg hc, Config.reserveStep, hz]

/-- Everything that KEY_CHECK can do as it goes on from an index (R54, R169, R170). -/
theorem State.continueCheck_wentOn (n : Nat) (s : State) : StartUpWentOn n s (s.continueCheck n) := by
  refine ⟨fun i hn hi hlow => ?_, fun hall => ?_⟩
  · have : s.nextToCheck n = some i := by
      rw [State.nextToCheck, List.find?_eq_some_iff_getElem]
      refine ⟨by simp [hn, hi], i.val, by simp, by simp, fun j hj => ?_⟩
      have hj64 : j < 64 := by omega
      by_cases hnj : n ≤ j
      · simp [hlow ⟨j, hj64⟩ hnj hj]
      · simp [hnj]
    simp [State.continueCheck, this]
  · have : s.nextToCheck n = none := by
      rw [State.nextToCheck, List.find?_eq_none]
      intro i _
      by_cases hni : n ≤ i.val
      · simp [hall i hni]
      · simp [hni]
    have e : s.continueCheck n = s.beginReserve := by simp [State.continueCheck, this]
    rw [e]
    exact ⟨s.beginReserve_program, s.beginReserve_atOnce⟩

end Sys2Proof.Machine
end

