-- ==== Sys2Proof/Laws/Writer.lean ====
section
/-! SUPPORT. The requests that the NV writer holds, after each of its operations: what an invariant over them needs of
`take` and `goOn`. -/

namespace Sys2Proof.Safety

open Sys2Proof.Machine

/-- An idle writer holds the requests that wait. -/
theorem heldRequests_idle {w : NvWriter} (h : w.running = none) : heldRequests w = w.waiting := by
  simp [heldRequests, h]

/-- An idle writer that takes a request holds it first. -/
theorem heldRequests_take_idle {w : NvWriter} (r : NvRequest) (h : w.running = none) :
    heldRequests (w.take r) = r :: w.waiting := by
  simp [heldRequests, NvWriter.take, h]

/-- A busy writer that takes a request holds it in the waiting list, in the place of its kind. -/
theorem heldRequests_take_busy {w : NvWriter} (r : NvRequest) (h : w.running ≠ none) :
    heldRequests (w.take r) = heldRequests { w with waiting := enqueueRequest r w.waiting } := by
  cases hr : w.running with
  | none => exact absurd hr h
  | some op => simp [NvWriter.take, hr]

/-- Where no zeroize waits, a writer that goes on holds exactly the requests that waited. -/
theorem heldRequests_goOn {w : NvWriter} (h : w.zeroizeWaiting = false) : heldRequests w.goOn = w.waiting := by
  cases hw : w.waiting <;> simp [heldRequests, NvWriter.goOn, h, hw]

/-- A writer that goes on to the zeroize that waits keeps the waiting list. -/
theorem heldRequests_goOn_zeroize {w : NvWriter} (h : w.zeroizeWaiting = true) : heldRequests w.goOn = w.waiting := by
  simp [heldRequests, NvWriter.goOn, h]

end Sys2Proof.Safety
end

