-- ==== Sys2Proof/Tests/Slice0.lean ====
section
/-! SUPPORT. Small tests: the well-formedness checks, the worked examples of the spec, each row on a small state, and for
every statement with hypotheses a state and operands that meet them. Expected results are the spec's own numbers, or hand
calculation from its rules; nothing is copied from what the model answers. -/

namespace Sys2Proof.Tests

set_option Elab.async false

open Sys2Proof Sys2Proof.Machine Sys2Proof.Safety

/-! ### Well-formedness: a term that each check refuses -/

/-- A request of initiator 0, privileged, at an address. -/
def request (dir : Direction) (addr : BitVec 32) (len : BitVec 8) : Request :=
  { initiator := 0, dir := dir, addr := addr, len := len, size := 3#3, burst := .incr, exclusive := false, prot := 1#3,
    idRest := 0, attrs := 0 }

/-- Beats of data, with every strobe. -/
def full (w : Word) : WriteBeat := { data := w, strobes := 0xFF#8 }

/-- A read beat with response OKAY. -/
def okay (w : Word) : ReadBeat := { data := w, resp := .okay }

theorem test_wf_accepts_word : (Instr.requestAccept (request .read 0#32 15#8)).wf = true := by decide
theorem test_wf_refuses_wide_beat : (Instr.requestAccept { request .read 0#32 0#8 with size := 4#3 }).wf = false := by
  decide
theorem test_wf_refuses_long_fixed :
    (Instr.requestAccept { request .read 0#32 16#8 with burst := .fixed }).wf = false := by decide
theorem test_wf_refuses_wrap_length :
    (Instr.requestAccept { request .read 0#32 2#8 with burst := .wrap }).wf = false := by decide
theorem test_wf_refuses_unaligned_wrap :
    (Instr.requestAccept { request .read 4#32 3#8 with burst := .wrap }).wf = false := by decide
theorem test_wf_refuses_past_the_top : (Instr.requestAccept (request .read 0xFFFFFFF8#32 1#8)).wf = false := by decide
theorem test_wf_refuses_empty_burst : (Instr.writeTaken 0 []).wf = false := by decide
theorem test_wf_refuses_long_burst : (Instr.writeTaken 0 (List.replicate 257 (full 0#64))).wf = false := by decide +kernel
theorem test_wf_refuses_empty_response : (Instr.memoryReadResponse 0 0 []).wf = false := by decide
theorem test_wf_refuses_short_table :
    (Instr.mapTableReadEnd (List.replicate 15 (okay 0#64)) (List.replicate 16 (okay 0#64))).wf = false := by decide
theorem test_wf_refuses_second_burst_after_error :
    (Instr.mapTableReadEnd (List.replicate 16 { data := 0#64, resp := .slverr }) (List.replicate 16 (okay 0#64))).wf =
      false := by decide

/-! ### Formats: the worked examples of chapters 3 and 11, and FIPS 197 -/

/-- FIPS 197, Appendix B. -/
theorem test_aes_fips_197 :
    aes128 0x2b7e151628aed2a6abf7158809cf4f3c#128 0x3243f6a8885a308d313198a2e0370734#128 =
      0x3925841d02dc09fbdc118597196a0b32#128 := by decide +kernel

/-- The first bytes of the encryption of the zero block under the key of FIPS 197, Appendix B (R58). -/
theorem test_check_value : checkValue 0x2b7e151628aed2a6abf7158809cf4f3c#128 = 0x7df76b#24 := by decide +kernel

/-- Slot (0, 7) of the worked example: its inbound shadow, challenge, arrival and generation. -/
def slot7 : SlotCtx :=
  { SlotCtx.fresh with
    state := .verified, generation := 0x2A#8, lastResult := .ok, challenge := some 0x0312000000004E20#64
    arrival := some 1140000#64, deadline := some 1152000#64, verdict := some .accept, derivedKey := some 7#128
    inbound := #v[0x0000020302000001#64, 0x0E913C070000105A#64, 0xC73B008819E4026D#64, 0#64] }

theorem test_derive_block : deriveBlock slot7 = 0x44030200000000005A100000073C910E#128 := by decide +kernel
theorem test_auth_block_1 : authBlock1 slot7 = 0x41030200000100005A100000073C910E#128 := by decide +kernel
theorem test_auth_block_2 : authBlock2 slot7 = 0x0312000000004E206D02E41988003BC7#128 := by decide +kernel
theorem test_write_mac_block : writeMacBlock slot7 = 0x57030200000102000312000000004E20#128 := by decide +kernel
theorem test_seal_block_1 : sealBlock1 slot7 = 0x52030202001165200000010100000000#128 := by decide +kernel
theorem test_seal_block_2 : sealBlock2 slot7 = 0x0312000000004E205A100000073C910E#128 := by decide +kernel
theorem test_mac_length_4 : truncateMac 4 0x8877665544332211#64 = 0x44332211#64 := by decide

/-- "After verification the state word of slot (0, 7) reads 0x0000_0000_012A_0004". -/
theorem test_state_word : stateWord slot7 = 0x00000000012A0004#64 := by decide +kernel

/-- The verdict detail of slot (0, 8), "the first DUPLICATE of that passage". -/
theorem test_verdict_word :
    verdictWord { slot7 with
      state := .rejected, verdict := some .reject, reason := some .duplicate
      duplicate := some { first := { slot := ⟨0, 7⟩, generation := 42#8, antenna := 2#3 }, ordinal := 1#8 } } =
      0x0001022A07000602#64 := by decide +kernel

/-- "arrival LT 4,294,963,200 with B = 20,000": the times word shows 15,904 above 4,294,963,200. -/
theorem test_times_word :
    timesWord { slot7 with arrival := some 4294963200#64, deadline := some 4294983200#64 } =
      BitVec.ofNat 64 (15904 * 2 ^ 32 + 4294963200) := by decide +kernel

/-- "the header is 0x2900_2800_0105_0303 at offset 0x00 and 0x0000_0000_00E7_219C at offset 0x08". -/
def exampleHeader : Block := blockOfWords 0x2900280001050303#64 0x0000000000E7219C#64

theorem test_header_fields :
    headerUsage exampleHeader = 0x03#8 ∧ headerKeySet exampleHeader = 3#8 ∧ headerVersion exampleHeader = 5#8 ∧
      headerTransportVersion exampleHeader = 1#8 ∧ headerValidFrom exampleHeader = 40#16 ∧
      headerValidUntil exampleHeader = 41#16 ∧ headerCheck exampleHeader = 0x9C21E7#24 ∧
      headerTailZero exampleHeader = true := by decide +kernel

/-- "H_t, which ends in 54 ... Bytes 0 to 14 of both equal those of H". -/
theorem test_header_tail : headerWithTail exampleHeader 0x54#8 = 0x03030501002800299C21E70000000054#128 := by
  decide +kernel

/-- The descriptor of section 11.3: "Word 0 is 0x0000_0000_0040_3335. Word 1 is 0x0000_0FA0_2EE0_0810." -/
def group40 : Descriptor := { word0 := 0x0000000000403335#64, word1 := 0x00000FA02EE00810#64 }

theorem test_descriptor_fields :
    group40.isSlots = true ∧ group40.base = 0x40 ∧ group40.readMask = 3#4 ∧ group40.writeMask = 3#4 ∧
      group40.manageMask = 3#4 ∧ group40.privilegedOnly = false ∧ group40.slotCount = 16 ∧ group40.macLength = 8 ∧
      group40.budget = 12000#16 ∧ group40.holdLimit = 4000#16 := by decide +kernel

/-- "The full ZEROIZE word is 0xA5F0_C396_3C5A_0008" (R200). -/
theorem test_zeroize_word : (0xA5F0C3963C5A#48 ++ 0#8) ++ importCode .zeroize = 0xA5F0C3963C5A0008#64 := by decide

/-- "SET_READER for reader number 0x0312 is 0x0000_0000_0312_0006" (R200). -/
theorem test_set_reader_word :
    readerOperand ((0x0000000003120006#64).extractLsb' 8 56) = 0x0312#16 ∧
      importFormGood .setReader ((0x0000000003120006#64).extractLsb' 8 56) = true := by decide

/-! ### States to test on -/

/-- A run of one command. -/
def after (c : Instr) (s : State) : State :=
  match exec c s with
  | .next t => t
  | .fault _ => s
  | .refused _ => s

/-- What a test looks at after one command; false where the command stops. -/
def ends (c : Instr) (s : State) (look : State → Bool) : Bool :=
  match exec c s with
  | .next t => look t
  | .fault _ => false
  | .refused _ => false

/-- A PLAIN window of one page at 0x0010_0000, privileged, which initiators 0 and 1 may read and initiator 0 may write. -/
def plainPage : Descriptor := { word0 := 0x000000000100013B#64, word1 := 0#64 }

/-- The group of section 11.3 as descriptor 0, its bases and masks, a PLAIN window as descriptor 1, and nothing else in the
map. -/
def demoTable : Vector Descriptor 16 :=
  #v[group40, plainPage, ⟨0, 0⟩, ⟨0, 0⟩, ⟨0, 0⟩, ⟨0, 0⟩, ⟨0, 0⟩, ⟨0, 0⟩, ⟨0, 0⟩, ⟨0, 0⟩, ⟨0, 0⟩, ⟨0, 0⟩, ⟨0, 0⟩, ⟨0, 0⟩,
    ⟨0, 0⟩, ⟨0, 0⟩]

/-- The slot the tests use: slot (0, 0). -/
def slot0 : SlotRef := { group := 0, index := 0 }

/-- A part in service (FIELD, reader 0x312, counter 20,000 below its ceiling) whose slot (0, 0) has a given context and
whose other slots are FREE. -/
def part (c : SlotCtx) : State :=
  { State.reset with
    life := { State.reset.life with cycle := .field, reader := 0x312#16, phase := .running, resetAsserted := false }
    map := { State.reset.map with table := demoTable, state := .loaded }
    slots := {
      contexts := (slot0, c) :: (List.range 15).map fun i => ({ group := 0, index := Fin.ofNat 32 (i + 1) }, SlotCtx.fresh)
      counter := 20000, ceiling := 24576, exhausted := false, reservationPending := false }
    nv := { State.reset.nv with lifeWord := 2#8, reader := 0x312#16, highWater := 24576 } }

/-- The part with no transaction. -/
def idle : State := part SlotCtx.fresh

/-- A part in a start-up phase, RESET_N released. -/
def starting (p : Phase) : State :=
  { State.reset with life := { State.reset.life with phase := p, resetAsserted := false } }

/-- The part with a directory entry in one place. -/
def withEntry (i : Fin 64) (e : DirEntry) (s : State) : State :=
  { s with keys := { s.keys with dir := s.keys.dir.set i.val e i.isLt } }

/-- A LOADED entry of key set 3, version 2, valid in epoch 0 alone. -/
def tagEntry : DirEntry :=
  { state := .loaded, usage := .tag, keySet := 3#5, version := 2#4, validFrom := 0#16, validUntil := 0#16
    check := 0x9C21E7#24, key := some 0x2b7e151628aed2a6abf7158809cf4f3c#128 }

/-- A LOADED RECORD entry of key set 3. -/
def recordEntry (version : BitVec 4) : DirEntry := { tagEntry with usage := .record, version := version }

/-- A LOADED TRANSPORT entry. -/
def transportEntry (version : BitVec 4) : DirEntry :=
  { state := .loaded, usage := .transport, keySet := 0#5, version := version, validFrom := 0#16, validUntil := 0xFFFF#16
    check := 0x7df76b#24, key := some 0x2b7e151628aed2a6abf7158809cf4f3c#128 }

/-- The import buffer with a header of a usage, key set, version and transport version, all else zero. -/
def withHeader (usage keySet version transport : Byte) (s : State) : State :=
  { s with keys := { s.keys with buffer := #v[0#32 ++ transport ++ version ++ keySet ++ usage, 0#64, 0#64, 0#64, 0#64] } }

/-- A slot that waits in the engine FIFO with a job. -/
def queuedCtx (kind : JobKind) : SlotCtx :=
  { slot7 with
    state := .queued, jobKind := some kind
    verdict := if kind = .verify then none else some .accept
    derivedKey := if kind = .verify then none else some 7#128 }

/-- The part with slot (0, 0) queued. -/
def queued (kind : JobKind) : State :=
  { part (queuedCtx kind) with engine := { State.reset.engine with fifo := [slot0] } }

/-- The part with slot (0, 0) in work. -/
def busy (c : SlotCtx) (work : Work) : State :=
  { part c with engine := { State.reset.engine with job := some { work := work, discard := false } } }

theorem test_slot_address : idle.slotAddr { group := 0, index := 7 } 0 = 0x00040380 := by decide +kernel
theorem test_map_is_the_example : idle.descriptor 0 = group40 := by decide
theorem test_plain_window :
    (idle.descriptor 1).isPlain = true ∧ (idle.descriptor 1).base = 0x100 ∧ (idle.descriptor 1).size = 1 ∧
      (idle.descriptor 1).privilegedOnly = true ∧ (idle.descriptor 1).readMask = 3#4 ∧
      (idle.descriptor 1).writeMask = 1#4 := by decide +kernel

/-! ### Each row on a small state; the expected results are worked out from the rules by hand -/

theorem test_power_on_reset_keeps_nv :
    ends (.powerOnReset 3#2) idle (fun t => t.nv == idle.nv && t.base == 0xFFFFF000 && t.life.cycle == .blank) = true := by
  decide +kernel
theorem test_reset_n_release : ends .resetNRelease State.reset (fun t => !t.life.resetAsserted) = true := by decide +kernel
theorem test_tick_wraps :
    ends .tick { idle with time := { idle.time with lt := 0xFFFFFFFFFFFFFFFF#64, pendingPre := some 99#8 } }
      (fun t => t.time.lt == 0#64 && t.time.pre == 99#8 && t.time.pendingPre == none) = true := by decide +kernel
theorem test_tick_waits_for_reset_n : ends .tick State.reset (fun t => t.time.lt == 0#64) = true := by decide +kernel

/-- A pending schedule: epoch 7 when `n` more pulses have been accepted. -/
def scheduled (n : BitVec 16) (s : State) : State :=
  { s with time := { s.time with schedule := some { epoch := 7#16, countdown := n } } }

/-- A SYNC edge was captured at LT 0, and LT is now `n`. -/
def sinceEdge (n : Word) (s : State) : State := { s with time := { s.time with capture := some 0#64, lt := n } }

theorem test_sync_edge_switches :
    ends .syncEdge (scheduled 1#16 (sinceEdge 500000#64 idle))
      (fun t => t.time.epoch == 7#16 && t.time.schedule == none && t.causeSet .epochSwitched) = true := by decide +kernel
theorem test_sync_edge_glitch :
    ends .syncEdge (sinceEdge 499999#64 idle)
      (fun t => t.counter .pulseGlitches == 1#32 && t.time.pulses == 0#16) = true := by decide +kernel
theorem test_epoch_schedule_countdown_0 :
    ends (.epochScheduleWrite 0x0000000000070000#64) idle
      (fun t => t.time.schedule == some { epoch := 7#16, countdown := 1#16 }) = true := by decide +kernel
theorem test_epoch_schedule_rejected :
    ends (.epochScheduleWrite 0x0000000500000000#64) (scheduled 2#16 idle)
      (fun t => t.time.schedule == some { epoch := 7#16, countdown := 2#16 } && t.time.reason == .rejected &&
        t.causeSet .scheduleRejected) = true := by decide +kernel
theorem test_switch_now :
    ends .switchNow (scheduled 9#16 idle) (fun t => t.time.epoch == 7#16 && t.causeSet .epochSwitched) = true := by
  decide +kernel
theorem test_cancel : ends .cancel (scheduled 9#16 idle) (fun t => t.time.schedule == none) = true := by decide +kernel
theorem test_pre_write : ends (.preWrite 0x1FF#64) idle (fun t => t.time.pendingPre == some 0xFF#8) = true := by
  decide +kernel
theorem test_unmapped_rights :
    ends (.unmappedRightsWrite 0x0F01#64) idle
      (fun t => t.map.unmappedRead == 1#4 && t.map.unmappedWrite == 0xF#4) = true := by decide +kernel
theorem test_duplicate_interval : ends (.duplicateIntervalWrite 5#64) idle (fun t => t.filter.d == 5#64) = true := by
  decide +kernel
theorem test_hold_time_is_capped :
    ends (.holdTimeWrite 0xFFFFFFFFFFFFFFFF#64) idle (fun t => t.filter.h == 0x10000000000#64) = true := by decide +kernel
theorem test_causes_clear_where_1 :
    ends (.attentionCausesWrite 0x8000001#64) { idle with status := { idle.status with causes := 0x3FFFFFF#26 } }
      (fun t => t.status.causes == 0x3FFFFFE#26) = true := by decide +kernel
theorem test_enables : ends (.attentionEnablesWrite 0x3#64) idle (fun t => t.status.enables == 3#26) = true := by
  decide +kernel
theorem test_counter_clear :
    ends (.counterClear 1#64) { idle with status := { idle.status with counters := Vector.replicate 11 9#32 } }
      (fun t => t.counter .accept == 0#32 && t.counter .duplicate == 9#32) = true := by decide +kernel
theorem test_hold_set :
    ends (.holdSet 0#63) (queued .verify)
      (fun t => t.status.hold && t.engine.fifo == [] && (t.ctx? slot0).map (·.state) == some .free) = true := by
  decide +kernel
theorem test_hold_clear :
    ends (.holdClear 0#63) { idle with status := { idle.status with hold := true } } (fun t => !t.status.hold) = true := by
  decide +kernel

/-- The sampler armed, with `n` asserted samples counted. -/
def sampled (n : BitVec 4) (s : State) : State := { s with life := { s.life with tamperCount := n } }

theorem test_tamper_seventh : ends (.tamperSample true) (sampled 6#4 idle) (fun t => t.life.cycle == .field) = true := by
  decide +kernel
theorem test_tamper_eighth :
    ends (.tamperSample true) (sampled 7#4 (queued .verify))
      (fun t => t.life.cycle == .zeroizing && t.causeSet .tamper && t.writer.running == some (.nvZeroize 0) &&
        (t.ctx? slot0).map (·.state) == some .free) = true := by decide +kernel

/-! Transaction slots: chapter 1's first sequence has reader 0x0312, counter 20,000, arrival 1,140,000 and B = 12,000. -/

theorem test_open :
    ends (.openSlot 0 slot0 .a (0#48 ++ 0x5A#8)) { idle with time := { idle.time with lt := 1140000#64 } }
      (fun t => (t.ctx? slot0).map (fun c => (c.state, c.generation, c.challenge, c.deadline)) ==
          some (.open', 1#8, some 0x0312000000004E20#64, some 1152000#64) && t.slots.counter == 20001) = true := by
  decide +kernel
theorem test_open_not_free :
    ends (.openSlot 0 slot0 .a 0#56) (part slot7)
      (fun t => t.ctx? slot0 == some { slot7 with lastResult := .wrongState } && t.slots.counter == 20000) = true := by
  decide +kernel
theorem test_arm :
    ends (.arm 0 slot0 .b (0#48 ++ 0x2A#8)) (part { slot7 with state := .open' })
      (fun t => (t.ctx? slot0).map (fun c => (c.state, c.jobKind)) == some (.queued, some .verify) &&
        t.engine.fifo == [slot0]) = true := by decide +kernel
theorem test_arm_stale :
    ends (.arm 0 slot0 .b (0#48 ++ 0x29#8)) (part { slot7 with state := .open' })
      (fun t => (t.ctx? slot0).map (·.lastResult) == some .stale && t.engine.fifo == []) = true := by decide +kernel
theorem test_seal :
    ends (.sealSlot 1 slot0 .a (0#48 ++ 0x2A#8)) (part slot7)
      (fun t => (t.ctx? slot0).map (fun c => (c.state, c.jobKind)) == some (.queued, some .sealing)) = true := by
  decide +kernel
theorem test_release_not_manager :
    ends (.release 2 slot0 .a (0#48 ++ 0x2A#8)) (part slot7)
      (fun t => t.ctx? slot0 == some { slot7 with lastResult := .notPermitted }) = true := by decide +kernel
theorem test_release :
    ends (.release 0 slot0 .a (0#48 ++ 0x2A#8)) (part slot7)
      (fun t => t.ctx? slot0 == some { SlotCtx.fresh with generation := 0x2A#8, lastResult := .ok }) = true := by
  decide +kernel
theorem test_abort_queued :
    ends (.abort 0 slot0 .a (0#48 ++ 0x2A#8)) (queued .verify)
      (fun t => t.engine.fifo == [] && (t.ctx? slot0).map (·.state) == some .free) = true := by decide +kernel
theorem test_inbound_strobes :
    ends (.inboundShadowWrite slot0 1 { data := 0x8877665544332211#64, strobes := 0x81#8 }) (part { slot7 with state := .open' })
      (fun t => (t.ctx? slot0).map (fun c => c.inbound[1]) == some 0x88913C0700001011#64) = true := by
  decide +kernel
theorem test_payload_after_verify :
    ends (.payloadShadowWrite slot0 3 (full 0x99#64)) (part slot7)
      (fun t => (t.ctx? slot0).map (fun c => c.payload[3]) == some 0x99#64) = true := by decide +kernel
theorem test_deadline_expires :
    ends (.deadlineReached slot0) { queued .verify with time := { idle.time with lt := 1152000#64 } }
      (fun t => (t.ctx? slot0).map (·.state) == some .expired && t.engine.fifo == [] && t.counter .expired == 1#32) =
      true := by decide +kernel
theorem test_deadline_late :
    ends (.deadlineReached slot0) { part slot7 with time := { idle.time with lt := 1152000#64 } }
      (fun t => (t.ctx? slot0).map (·.late) == some true && t.counter .late == 1#32) = true := by decide +kernel

/-! Engine: the tag key of slot (0, 7), key set 3 and version 2, is entry 17. -/

/-- The key of FIPS 197, Appendix B, as the master key. -/
def master : Block := 0x2b7e151628aed2a6abf7158809cf4f3c#128

/-- The part with slot (0, 0) waiting with VERIFY, and its key LOADED. -/
def verifyReady : State := withEntry 17 tagEntry (queued .verify)

/-- The slot is BUSY, and holds the tag key derived from the master key of entry 17 (R5, R59). -/
theorem test_engine_takes_verify :
    ends .engineTakeJob verifyReady
      (fun t => (t.ctx? slot0).map (fun c => (c.state, c.tagEntry, c.derivedKey)) ==
          some (.busy, some 17, some (aes128 master 0x44030200000000005A100000073C910E#128)) && t.engine.fifo == []) =
      true := by decide +kernel
theorem test_engine_key_out_of_epoch :
    ends .engineTakeJob { verifyReady with time := { verifyReady.time with epoch := 1#16 } }
      (fun t => (t.ctx? slot0).map (fun c => (c.state, c.reason)) == some (.rejected, some .keyOutOfEpoch) &&
        t.counter .key == 1#32 && t.causeSet (.slotDone 0)) = true := by decide +kernel

/-- The context of the slot that `verifying` has in work, with an authenticator. -/
def verifyCtx (auth : Word) : SlotCtx :=
  { slot7 with
    state := .busy, jobKind := some .verify, verdict := none, derivedKey := some 7#128
    inbound := #v[0x0000020302000001#64, 0x0E913C070000105A#64, 0xC73B008819E4026D#64, auth] }

/-- The slot in work with VERIFY, its derived tag key 7. -/
def verifying (auth : Word) : State := busy (verifyCtx auth) (.verify slot0 0x2A#8 0#16 7#128)

theorem test_verify_bad_mac :
    ends .verifyComplete (verifying 0#64)
      (fun t => (t.ctx? slot0).map (fun c => (c.state, c.reason, c.derivedKey)) ==
          some (.rejected, some .badMac, none) && t.counter .badMac == 1#32 && t.engine.job == none) = true := by
  decide +kernel

/-- The slot in work with SEAL. -/
def sealing : State :=
  busy { slot7 with state := .busy, jobKind := some .sealing } (.sealing slot0 0x2A#8 0#16 1#128)

theorem test_seal_complete :
    ends .sealComplete sealing
      (fun t => (t.ctx? slot0).map (fun c => (c.state, c.derivedKey, c.verdict)) ==
        some (.sealed, none, some .accept)) = true := by decide +kernel

/-- A reading of tag 9 in key set 3 with a counter, at an LT. -/
def reading (counter : BitVec 24) (now : Word) : Reading :=
  { keySet := 3#8, tagId := 9#64, counter := counter, now := now
    ref := { slot := slot0, generation := 1#8, antenna := 2#3 } }

/-- What the filter with D = 50 says of a second reading of a tag, current at position 3 with counter 5 since LT 100. -/
def second (counter : BitVec 24) (now : Word) : PassageClass :=
  ({ State.reset.filter with d := 50#64 }.judge 3 (acceptedEntry (reading 5#24 100#64)) (reading counter now)).2

theorem test_filter_duplicate_within_d :
    second 5#24 149#64 = .duplicate { first := (reading 5#24 100#64).ref, ordinal := 1#8 } := by decide +kernel
theorem test_filter_replay_at_d : second 5#24 150#64 = .replay := by decide +kernel
theorem test_filter_advance_limit : second 8388612#24 101#64 = .accept false := by decide +kernel
theorem test_filter_advance_too_far : second 8388613#24 101#64 = .replay := by decide +kernel

/-! Key Store and NV writer. -/

theorem test_blob_write :
    ends (.blobWrite 4 { data := 0x8877665544332211#64, strobes := 0x01#8 }) idle
      (fun t => t.keys.buffer[4] == 0x11#64 && t.memOut == [.beat 0x1FFFF320 { data := 0#64, strobes := 0x01#8 }]) =
      true := by decide +kernel

/-- The part BLANK, with the header of a TRANSPORT key, version 5, valid in every epoch. -/
def blankWithHeader : State :=
  let s := withHeader 1#8 0#8 5#8 0#8 idle
  { s with
    life := { s.life with cycle := .blank }
    keys := { s.keys with buffer := s.keys.buffer.set 0 0xFFFF000000050001#64 } }

theorem test_load_plain :
    ends (.loadPlain 0#56) blankWithHeader
      (fun t => t.keys.importState == .queued && t.engine.importPlace == some .loadPlain) = true := by decide +kernel
theorem test_load_without_transport :
    ends (.load 0#56) (withHeader 2#8 3#8 2#8 1#8 idle)
      (fun t => t.keys.result.code == .noTransport && t.causeSet .importDone) = true := by decide +kernel

/-- The part with TRANSPORT versions 0 and 1 LOADED, and the key of set 3, version 2. -/
def stocked : State := withEntry 0 (transportEntry 0#4) (withEntry 1 (transportEntry 1#4) (withEntry 17 tagEntry idle))

theorem test_load :
    ends (.load 0#56) (withHeader 2#8 3#8 3#8 1#8 stocked)
      (fun t => t.keys.importState == .queued && t.engine.importPlace == some .load) = true := by decide +kernel
theorem test_revoke :
    ends (.revoke 0#56) (withHeader 2#8 3#8 2#8 0#8 stocked)
      (fun t => (t.entry 17).state == .revoked && t.writer.running == some (.request (.admin (.markRevoked 17)))) =
      true := by decide +kernel
/-- What the NV writer is asked to erase has no key (R106). -/
theorem test_erase :
    ends (.erase 0#56) (withHeader 2#8 3#8 2#8 0#8 stocked)
      (fun t => t.entry 17 == DirEntry.emptied && t.keys.importState == .nvWriting &&
        t.writer.running == some (.request (.admin (.eraseEntry 17 { tagEntry with state := .empty, key := none })))) =
      true := by decide +kernel
theorem test_revoke_last_transport :
    ends (.revoke 0#56) (withHeader 1#8 0#8 0#8 0#8 (withEntry 0 (transportEntry 0#4) idle))
      (fun t => t.keys.result.code == .protected' && (t.entry 0).state == .loaded) = true := by decide +kernel
theorem test_inquire :
    ends (.inquire (0#48 ++ 17#8)) stocked
      (fun t => resultWord t.keys == 0x009C21E711010500#64 && inquiryWord1 t.keys.inquiry == 0x9C21E70203020111#64) =
      true := by decide +kernel
theorem test_inquire_64 :
    ends (.inquire (0#48 ++ 64#8)) stocked (fun t => t.keys.result.code == .badCommand) = true := by decide +kernel

/-- The part in another life cycle. -/
def inCycle (l : LifeCycle) (s : State) : State := { s with life := { s.life with cycle := l } }

theorem test_set_reader :
    ends (.setReader 0x312#56) (inCycle .blank idle) (fun t => t.keys.result.code == .badCommand) = true := by
  decide +kernel
theorem test_set_reader_in_form :
    ends (.setReader (0#32 ++ 0x312#16 ++ 0#8)) (inCycle .blank idle)
      (fun t => t.writer.running == some (.request (.admin (.writeReader 0x312#16)))) = true := by decide +kernel
theorem test_field_lock :
    ends (.fieldLock 0#56) (inCycle .personalized stocked)
      (fun t => t.writer.running == some (.request (.admin .lockField))) = true := by decide +kernel
theorem test_zeroize :
    ends (.zeroize (0xA5F0C3963C5A#48 ++ 0#8)) stocked
      (fun t => t.life.cycle == .zeroizing && t.entry 17 == DirEntry.emptied && t.keys.result.code == .ok) = true := by
  decide +kernel

/-- The engine at work on an import of a header and a plain key. -/
def importing (h w : Block) : State :=
  { idle with
    engine := { idle.engine with job := some { work := .importing .loadPlain h w 0#64 none, discard := false } }
    keys := { idle.keys with importState := .working, inFlight := 0x01#8 } }

theorem test_import_check_mismatch :
    ends .importComplete (importing exampleHeader 0x2b7e151628aed2a6abf7158809cf4f3c#128)
      (fun t => t.keys.result.code == .checkMismatch && t.keys.importState == .idle) = true := by decide +kernel

/-- A start-up check of entry 17, whose stored check value is not its key's. -/
def checking : State :=
  { withEntry 17 tagEntry (starting .keyCheck) with
    engine := { State.reset.engine with job := some { work := .checking 17 tagEntry.key, discard := false } } }

theorem test_check_complete_damages :
    ends .checkComplete checking
      (fun t => (t.entry 17).state == .damaged && t.life.phase == .reserve &&
        t.writer.running == some (.reserve 4096)) = true := by decide +kernel

/-- The start-up check of entry 17 where NV_READ placed it DAMAGED, without a key (R167). -/
def checkingDamaged : State :=
  { withEntry 17 { tagEntry with state := .damaged, key := none } checking with
    engine := { State.reset.engine with job := some { work := .checking 17 none, discard := false } } }

/-- A DAMAGED entry stays DAMAGED, and KEY_CHECK goes on past it (R54, R169). -/
theorem test_check_complete_damaged :
    ends .checkComplete (withEntry 63 tagEntry checkingDamaged)
      (fun t => t.entry 17 == { tagEntry with state := .damaged, key := none } && t.life.phase == .keyCheck &&
        t.engine.job == some { work := .checking 63 tagEntry.key, discard := false }) = true := by decide +kernel

/-- The NV writer at work. -/
def writing (op : NvOp) (s : State) : State := { s with writer := { s.writer with running := some op } }

theorem test_nv_reservation_end :
    ends (.nvOperationEnd true) (writing (.request (.reservation 28672)) idle)
      (fun t => t.slots.ceiling == 28672 && t.nv.highWater == 28672 && t.writer.running == none) = true := by
  decide +kernel
theorem test_nv_failure_damages :
    ends (.nvOperationEnd false) (writing (.request (.admin (.markRevoked 17))) stocked)
      (fun t => (t.entry 17).state == .damaged && t.keys.result.code == .nvFault && t.causeSet .nvFault) = true := by
  decide +kernel
theorem test_nv_read_end :
    ends .nvReadEnd (starting .nvRead) (fun t => t.life.cycle == .blank && t.life.phase == .reserve) = true := by
  decide +kernel
theorem test_nv_zeroize_stage :
    ends .nvZeroizeStageEnd (writing (.nvZeroize 0) (inCycle .zeroizing idle))
      (fun t => t.nv.lifeWord == 4#8 && t.writer.running == some (.nvZeroize 1)) = true := by decide +kernel
/-- "in a repeated attempt | ZEROIZED" (R178): the word is there although stage 1 failed its verify. -/
theorem test_nv_zeroize_fails :
    ends (.nvZeroizeAttemptEnd false) (writing (.nvZeroize 0) (inCycle .zeroizing idle))
      (fun t => t.writer.running == some (.nvZeroize 0) && t.writer.attemptsFailed == 1#8 && t.causeSet .nvFault &&
        t.nv == { idle.nv with lifeWord := 4#8 }) = true := by decide +kernel

/-! Memory Path and Window Map. -/

/-- The part with requests waiting in the order queue of initiator 0. -/
def waiting (entries : List QueueEntry) (s : State) : State := s.setQueue 0 entries

theorem test_request_accept :
    ends (.requestAccept (request .read 0#32 0#8)) idle
      (fun t => t.queue 0 == [{ req := request .read 0#32 0#8, stage := .untaken }]) = true := by decide +kernel
theorem test_read_identity :
    ends (.readTaken 0) (waiting [{ req := request .read 0x1FFFF000#32 0#8, stage := .untaken }] idle)
      (fun t => t.queue 0 == [] && t.sysOut.length == 1 && t.memOut == []) = true := by decide +kernel
theorem test_write_to_reserved_word :
    ends (.writeTaken 0 [full 1#64]) (waiting [{ req := request .write 0x1FFFF000#32 0#8, stage := .untaken }] idle)
      (fun t => t.path.refusal.reason == some .reserved && t.counter .refusals == 1#32) = true := by decide +kernel
/-- A write waits in the order queue of initiator 0. -/
def toWrite (addr : BitVec 32) (len : BitVec 8) : State :=
  waiting [{ req := request .write addr len, stage := .untaken }] idle

/-- A burst of D and H; then an unknown slot command code, an unknown import command code, and an epoch control word 3. -/
theorem test_write_beats_act :
    ends (.writeTaken 0 [full 0x77#64, full 0x99#64]) (toWrite 0x1FFFF060#32 1#8)
        (fun t => t.filter.d == 0x77#64 && t.filter.h == 0x99#64 && t.memOut.length == 1 && (t.queue 0).length == 1) =
      true ∧
    ends (.writeTaken 0 [full 9#64]) (toWrite 0x00040068#32 0#8)
        (fun t => (t.ctx? slot0).map (·.lastResult) == some .badCommand) = true ∧
    ends (.writeTaken 0 [full 9#64]) (toWrite 0x1FFFF340#32 0#8)
        (fun t => t.keys.result.code == .badCommand && t.keys.result.command == 9#8 && t.causeSet .importDone) = true ∧
    ends (.writeTaken 0 [full 3#64]) (toWrite 0x1FFFF038#32 0#8)
        (fun t => t.time == idle.time && t.status == idle.status) = true := by decide +kernel
theorem test_read_held_and_limit :
    ends (.readTaken 0) (waiting [{ req := request .read 0x00040018#32 0#8, stage := .untaken }] (queued .verify))
      (fun t => (t.queue 0).any isHeld) = true := by decide +kernel

/-- The part with a read of the verdict word of slot (0, 0) held to LT 4,000. -/
def holding : State :=
  waiting [{ req := request .read 0x00040018#32 0#8, stage := .held 4000#64 [.slot slot0 3] [(slot0, .verify)] }]
    (queued .verify)

theorem test_read_hold_limit :
    ends (.readHoldLimit 0) { holding with time := { holding.time with lt := 4000#64 } }
      (fun t => t.queue 0 == [] && t.sysOut.length == 1) = true := by decide +kernel
theorem test_memory_read_response :
    ends (.memoryReadResponse 0 0 [okay 5#64])
      (waiting [{ req := request .read 0#32 0#8, stage := .forwarded [none] false }] idle)
      (fun t => t.sysOut == [{ req := request .read 0#32 0#8, reply := .read [okay 5#64] }]) = true := by decide +kernel
theorem test_memory_write_response_waits :
    ends (.memoryWriteResponse 0 1 .okay)
      (waiting [{ req := request .read 0#32 0#8, stage := .forwarded [none] false },
        { req := request .write 0#32 0#8, stage := .forwarded [] false }] idle)
      (fun t => t.sysOut == [] && (t.queue 0).length == 2) = true := by decide +kernel

theorem test_map_word :
    ends (.mapWordWrite 0x12#64) idle
      (fun t => t.map.requested == 0x12#16 && t.map.state == .loading && t.reloading) = true := by decide +kernel

/-- The part with a reload of the table under way. -/
def loading (stage : LoadStage) (s : State) : State :=
  { s with map := { s.map with state := .loading, load := some stage, requested := 0x12#16 } }

theorem test_map_read_start :
    ends .mapTableReadStart (loading .draining idle)
      (fun t => t.map.load == some .reading && t.memOut == [.tableRead 0x1FFFF200]) = true := by decide +kernel

/-- The beats of a burst of the table read that begins with two words, the rest zero. -/
def burst (w0 w1 : Word) : List ReadBeat := [okay w0, okay w1] ++ List.replicate 14 (okay 0#64)

theorem test_map_install :
    ends (.mapTableReadEnd (burst 0x403335#64 0x00000FA02EE00802#64) (burst 0#64 0#64)) (loading .reading idle)
      (fun t => t.map.state == .loaded && t.map.installed == 0x12#16 && t.slots.contexts.length == 2 &&
        t.causeSet .mapLoaded) = true := by decide +kernel
/-- A read beat with an error response. -/
def bad : ReadBeat := { data := 0#64, resp := .decerr }

/-- An overlap in the second burst; and an error in the first, after which no further burst goes out (R156). -/
theorem test_map_faults :
    ends (.mapTableReadEnd (burst 0x403335#64 0x00000FA02EE00802#64) (burst 0x403335#64 0x00000FA02EE00802#64))
        (loading .reading idle)
        (fun t => t.map.state == .fault && t.map.fault == .overlap && t.map.faultIndex == 8 &&
          t.map.installed == 0#16 && t.memOut == [.tableRead 0x1FFFF280]) = true ∧
      ends (.mapTableReadEnd ((burst 0#64 0#64).set 15 bad) []) (loading .reading idle)
        (fun t => t.map.state == .fault && t.map.fault == .readError && t.map.faultIndex == 7 && t.memOut == []) =
        true := by decide +kernel

/-! ### Witnesses: for each statement with hypotheses, states and operands that meet them, clause by clause

A name says the statement; its conjuncts are the hypotheses, at a boundary value where a clause has a range. -/

/-- The part is in RUNNING, the hold is clear, and no reload runs. -/
abbrev Serving (s : State) : Prop := s.life.phase = .running ∧ s.status.hold = false ∧ s.reloading = false

theorem witness_StepRunsFrontCommand :
    ({ idle with pending := [.tick, .syncEdge] } : State).pending = Instr.tick :: [.syncEdge] := rfl

/-- The NV writer busy, an epoch record and an admin request waiting. -/
def busyWriter : NvWriter :=
  { running := some (.request (.reservation 28672)), waiting := [.epochRecord 3#16, .admin .lockField]
    zeroizeWaiting := false, attemptsFailed := 0#8 }

/-- A request finds the writer idle, busy with an epoch record waiting, busy without one, or the part zeroizing; the writer
goes on to an NV zeroize, to the head of its list, or to nothing. -/
theorem witness_RequestReached_WriterWentOn :
    idle.life.cycle ≠ .zeroizing ∧ idle.life.cycle ≠ .zeroized ∧ idle.writer.running = none ∧
      idle.writer.waiting = [] ∧ busyWriter.running ≠ none ∧ NvRequest.epochRecord 3#16 ∈ busyWriter.waiting ∧
      (∀ v, NvRequest.reservation 28672 ≠ .epochRecord v) ∧ busyWriter.zeroizeWaiting = false ∧
      busyWriter.waiting = .epochRecord 3#16 :: [.admin .lockField] ∧
      ({ busyWriter with zeroizeWaiting := true } : NvWriter).zeroizeWaiting = true :=
  ⟨by decide +kernel, by decide +kernel, rfl, rfl, nofun, by decide +kernel, nofun, rfl, rfl, rfl⟩

theorem witness_TicksAndSyncEdges_reset :
    State.reset.life.resetAsserted = true ∧ idle.life.resetAsserted = false := by decide +kernel

theorem witness_TicksAndSyncEdges_first_edge :
    (∀ c, idle.time.capture = some c → 500000#64 ≤ idle.time.lt - c) ∧ idle.time.schedule = none :=
  ⟨nofun, rfl⟩
theorem witness_TicksAndSyncEdges_at_500000 :
    let s := scheduled 2#16 (sinceEdge 500000#64 idle)
    (∀ c, s.time.capture = some c → 500000#64 ≤ s.time.lt - c) ∧
      s.time.schedule = some { epoch := 7#16, countdown := 2#16 } ∧ 1#16 < 2#16 :=
  ⟨fun _ h => by cases h; decide, rfl, by decide +kernel⟩
theorem witness_TicksAndSyncEdges_switches :
    let s := scheduled 1#16 (sinceEdge 500000#64 idle)
    (∀ c, s.time.capture = some c → 500000#64 ≤ s.time.lt - c) ∧
      s.time.schedule = some { epoch := 7#16, countdown := 1#16 } ∧ 1#16 ≤ 1#16 :=
  ⟨fun _ h => by cases h; decide, rfl, by decide +kernel⟩
theorem witness_TicksAndSyncEdges_glitch :
    (sinceEdge 499999#64 idle).time.capture = some 0#64 ∧ (sinceEdge 499999#64 idle).time.lt - 0#64 < 500000#64 := by
  decide +kernel

theorem witness_Schedules_taken_just_above :
    Serving (scheduled 2#16 idle) ∧ idle.time.epoch < (0x10000#64).extractLsb' 16 16 := by decide +kernel
theorem witness_Schedules_rejected_at_equal :
    Serving (scheduled 2#16 idle) ∧ (0x500000000#64).extractLsb' 16 16 ≤ idle.time.epoch := by decide +kernel
theorem witness_Schedules_pending :
    (scheduled 2#16 idle).time.schedule = some { epoch := 7#16, countdown := 2#16 } ∧ idle.time.schedule = none := by
  decide +kernel

theorem witness_SettingsReachOwners : Serving idle := by decide +kernel
theorem witness_AttentionWordsAct :
    idle.life.phase = .running ∧ idle.reloading = false ∧ idle.life.resetAsserted = false := by decide +kernel

/-- The part with the hold set. -/
def heldPart (s : State) : State := { s with status := { s.status with hold := true } }

theorem witness_HoldSet :
    Serving (queued .verify) ∧ (heldPart idle).life.phase = .running ∧ (heldPart idle).reloading = false ∧
      (heldPart idle).status.hold = true ∧ (importing 0#128 0#128).keys.importState = .working ∧
      Serving (importing 0#128 0#128) ∧ idle.keys.importState = .idle := by decide +kernel

theorem witness_SettingsReachOnlyMemory :
    settingRow (.preWrite 9#64) = some (.pre, 0x018, 9#64) ∧ (starting .mapLoad).reloading = false ∧
      (starting .mapLoad).life.phase ≠ .running ∧ (heldPart idle).reloading = false ∧
      (heldPart idle).status.hold = true ∧ StatusWord.pre ∉ [StatusWord.hold, .causes, .enables] := by decide +kernel

/-- The sampler disarmed. -/
def disarmed (s : State) : State := { s with life := { s.life with armed := false } }

theorem witness_TamperOrZeroize_sampler :
    idle.life.resetAsserted = false ∧ (disarmed idle).life.armed = false ∧ (sampled 6#4 idle).life.armed = true ∧
      (sampled 6#4 idle).life.tamperCount < 7#4 := by decide +kernel
theorem witness_TamperOrZeroize_eighth :
    (∀ s ∈ [sampled 7#4 (starting .nvRead), sampled 7#4 (inCycle .personalized idle), sampled 7#4 idle,
        sampled 7#4 (inCycle .field (starting .keyCheck))],
      s.life.resetAsserted = false ∧ s.life.armed = true ∧ s.life.tamperCount = 7#4) ∧
      (starting .nvRead).life.phase = .nvRead ∧
      (inCycle .personalized idle).life.phase ≠ .nvRead ∧ (inCycle .personalized idle).life.cycle ≠ .field ∧
      idle.life.phase ≠ .nvRead ∧ idle.life.phase ≠ .keyCheck ∧ idle.life.cycle = .field ∧
      (inCycle .field (starting .keyCheck)).life.phase = .keyCheck ∧
      (inCycle .field (starting .keyCheck)).life.cycle = .field := by decide +kernel

theorem witness_TamperOrZeroize_command :
    ∀ s ∈ [inCycle .blank idle, inCycle .personalized idle, inCycle .field idle],
      Serving s ∧ s.keys.importState = .idle ∧
        (s.life.cycle = .blank ∨ s.life.cycle = .personalized ∨ s.life.cycle = .field) := by decide +kernel

theorem witness_AnsweredWords :
    idle.ctx? slot0 = some SlotCtx.fresh ∧ (part slot7).ctx? slot0 = some slot7 ∧
      idle.ctx? { group := 0, index := 16 } = none ∧ busyWriter.waiting.length ≤ 3 ∧
      busyWriter.waiting = [.epochRecord 3#16] ++ .admin .lockField :: [] ∧ requestKindOf (.admin .lockField) = 0 ∧
      (∀ x ∈ [NvRequest.epochRecord 3#16], requestKindOf x ≠ 0) ∧
      (∀ r ∈ busyWriter.waiting, requestKindOf r ≠ 2) := by decide +kernel

/-! Transaction slots -/

/-- The part with a counter and a ceiling. -/
def counting (counter ceiling : Nat) (s : State) : State :=
  { s with slots := { s.slots with counter := counter, ceiling := ceiling } }

theorem witness_OpenIssuesChallenge :
    ∀ s ∈ [idle, counting 23551 24576 idle, counting 23550 24576 idle, counting (2 ^ 48 - 1) (2 ^ 48) idle,
        inCycle .personalized idle],
      s.ctx? slot0 = some SlotCtx.fresh ∧ s.reloading = false ∧ s.status.hold = false ∧
        (s.descriptor slot0.group).manageMask.getLsbD (0 : Initiator).val = true ∧ SlotCtx.fresh.state = .free ∧
        (s.life.cycle = .personalized ∨ s.life.cycle = .field) ∧ s.life.reader ≠ 0#16 ∧ s.slots.exhausted = false ∧
        s.slots.counter < s.slots.ceiling := by decide +kernel
theorem witness_Open_reserves_at_1024 :
    24576 - (23551 + 1) = 1024 ∧ 24576 - (23550 + 1) = 1025 ∧ idle.slots.reservationPending = false := by decide +kernel

/-- The slot OPEN, with an inbound word. -/
def openCtx (word : Word) : SlotCtx :=
  { slot7 with state := .open', verdict := none, derivedKey := none, inbound := slot7.inbound.set 0 word }

/-- Initiators 0 and 1 are in every mask of the group. -/
abbrev Admitted (s : State) (i : Initiator) : Prop :=
  (s.descriptor 0).writeMask.getLsbD i.val = true ∧ (s.descriptor 0).manageMask.getLsbD i.val = true

theorem witness_Arm_key_set_31 :
    (part (openCtx 0x1F00000000#64)).ctx? slot0 = some (openCtx 0x1F00000000#64) ∧
      (part (openCtx 0#64)).reloading = false ∧ (part (openCtx 0#64)).status.hold = false ∧
      Admitted (part (openCtx 0#64)) 1 ∧ (openCtx 0x1F00000000#64).state = .open' ∧
      ((openCtx 0x1F00000000#64).inbound[0].extractLsb' 28 4 = 0#4 ∧
        (openCtx 0x1F00000000#64).inbound[0].extractLsb' 43 21 = 0#21 ∧
        (openCtx 0x1F00000000#64).inbound[0].extractLsb' 32 8 ≤ 31#8) := by decide +kernel
/-- An inbound word that ARM does not accept: a nonzero spare bit, or a key set above 31. -/
abbrev OutOfForm (w : Word) : Prop :=
  ¬(w.extractLsb' 28 4 = 0#4 ∧ w.extractLsb' 43 21 = 0#21 ∧ w.extractLsb' 32 8 ≤ 31#8)

theorem witness_Arm_out_of_form :
    (part (openCtx 0x2000000000#64)).ctx? slot0 = some (openCtx 0x2000000000#64) ∧
      OutOfForm (openCtx 0x2000000000#64).inbound[0] ∧ OutOfForm (openCtx 0x10000000#64).inbound[0] ∧
      OutOfForm (openCtx 0x80000000000#64).inbound[0] := by decide +kernel

theorem witness_SealQueuesVerifiedSlot :
    (part slot7).ctx? slot0 = some slot7 ∧ (part slot7).reloading = false ∧ (part slot7).status.hold = false ∧
      Admitted (part slot7) 0 ∧ slot7.state = .verified := by decide +kernel

/-- The slot in a state. -/
def inState (st : SlotState) : SlotCtx := { slot7 with state := st }

theorem witness_ReleaseFreesEndedSlot :
    ∀ st ∈ [SlotState.verified, .rejected, .sealed, .expired, .faulted],
      (part (inState st)).ctx? slot0 = some (inState st) ∧ (part (inState st)).reloading = false ∧
        (part (inState st)).status.hold = false ∧ Admitted (part (inState st)) 0 ∧ (inState st).state = st := by
  decide +kernel
theorem witness_AbortStopsTransaction :
    ∀ st ∈ [SlotState.free, .aborting, .open', .queued, .busy, .verified, .faulted],
      (part (inState st)).ctx? slot0 = some (inState st) ∧ (part (inState st)).reloading = false ∧
        (part (inState st)).status.hold = false ∧ Admitted (part (inState st)) 0 ∧ (inState st).state = st := by
  decide +kernel

/-- Initiator 2 is in no mask of the group; a VERIFIED slot is not OPEN, an OPEN one neither VERIFIED nor ended. -/
theorem witness_SlotCommands_refused :
    ((part slot7).descriptor 0).writeMask.getLsbD 2 = false ∧ ((part slot7).descriptor 0).manageMask.getLsbD 2 = false ∧
      Admitted (part slot7) 0 ∧ slot7.state ≠ .open' ∧ (inState .open').state ≠ .verified ∧
      ∀ st ∈ [SlotState.free, .open', .queued, .busy, .aborting],
        (inState st).state ∉ [SlotState.verified, .rejected, .sealed, .expired, .faulted] := by decide +kernel

/-- One command for each check of the order: HELD, BAD_COMMAND, NOT_PERMITTED, STALE, WRONG_STATE, NO_SERVICE, EXHAUSTED,
CHALLENGE_WAIT. -/
theorem witness_SlotCommandChecksInOrder :
    slotRow (.openSlot 0 slot0 .a 0#56) = some (0, slot0, .a, .open', 0#56) ∧
      idle.ctx? slot0 = some SlotCtx.fresh ∧ idle.reloading = false ∧
      slotCheck (heldPart idle) 0 slot0 .open' 0#56 SlotCtx.fresh = some .held ∧
      slotCheck idle 2 slot0 .open' 0x100#56 SlotCtx.fresh = some .badCommand ∧
      slotCheck idle 2 slot0 .open' 0xFF#56 SlotCtx.fresh = some .notPermitted ∧
      slotCheck (part slot7) 0 slot0 .arm 0x29#56 slot7 = some .stale ∧
      slotCheck (part slot7) 0 slot0 .arm 0x2A#56 slot7 = some .wrongState ∧
      slotCheck (inCycle .blank idle) 0 slot0 .open' 0#56 SlotCtx.fresh = some .noService ∧
      slotCheck { idle with slots := { idle.slots with exhausted := true } } 0 slot0 .open' 0#56 SlotCtx.fresh =
        some .exhausted ∧
      slotCheck (counting 24576 24576 idle) 0 slot0 .open' 0#56 SlotCtx.fresh = some .challengeWait ∧
      slotCheck (counting 24575 24576 idle) 0 slot0 .open' 0#56 SlotCtx.fresh = none := by decide +kernel
theorem witness_ChallengeWait_reserves :
    idle.slots.reservationPending = false ∧ 24576 < 2 ^ 48 ∧
      (counting (2 ^ 48) (2 ^ 48) idle).slots.ceiling = 2 ^ 48 := by decide +kernel

theorem witness_ShadowsTakeStrobedBytes :
    (part (openCtx 0#64)).ctx? slot0 = some (openCtx 0#64) ∧ (part (openCtx 0#64)).reloading = false ∧
      (openCtx 0#64).state = .open' ∧ (queuedCtx .verify).state = .queued ∧
      (queuedCtx .verify).jobKind = some .verify := by decide +kernel

/-- The part at an LT. -/
def atLt (n : Word) (s : State) : State := { s with time := { s.time with lt := n } }

theorem witness_Deadline_expires :
    ∀ c ∈ [openCtx 0#64, queuedCtx .verify],
      (atLt 1152000#64 (part c)).ctx? slot0 = some c ∧ c.deadline = some (atLt 1152000#64 (part c)).time.lt ∧
        (c.state = .open' ∨ (c.state = .queued ∧ c.jobKind = some .verify)) := by decide +kernel
theorem witness_Deadline_late :
    ∀ c ∈ [inState .busy, slot7, queuedCtx .sealing],
      (atLt 1152000#64 (part c)).ctx? slot0 = some c ∧ c.deadline = some (atLt 1152000#64 (part c)).time.lt ∧
        (c.state = .busy ∨ c.state = .verified ∨ (c.state = .queued ∧ c.jobKind = some .sealing)) ∧
        c.late = false := by decide +kernel
theorem witness_Deadline_done :
    ∀ st ∈ [SlotState.aborting, .rejected, .sealed, .expired, .faulted],
      (atLt 1152000#64 (part (inState st))).ctx? slot0 = some (inState st) ∧
        (inState st).state ∈ [SlotState.free, .aborting, .rejected, .sealed, .expired, .faulted] := by decide +kernel

/-! Engine -/

/-- The idle engine has slot (0, 0) at the head of its FIFO, to be taken next, and the slot's job is of a kind. -/
abbrev Waiting (s : State) (kind : JobKind) : Prop :=
  s.engine.job = none ∧ s.engine.fifo = [slot0] ∧ (s.engine.importPlace = none ∨ s.engine.waitCount < 8) ∧
    s.ctx? slot0 = some (queuedCtx kind) ∧ (queuedCtx kind).jobKind = some kind ∧ (queuedCtx kind).withdrawn = false

/-- The lookup of R43 for the slot's tag key. -/
abbrev found (s : State) : Option (Fin 64) :=
  s.findEntry .tag (tagKeySet (queuedCtx .verify)) ((tagVersion (queuedCtx .verify)).setWidth 8)

/-- An import job waits, behind `n` slot jobs. -/
def importWaiting (n : Nat) (s : State) : State :=
  { s with engine := { s.engine with importPlace := some .load, waitCount := n } }

theorem witness_EngineTakesVerifyJob :
    Waiting verifyReady .verify ∧ Waiting (importWaiting 7 verifyReady) .verify ∧ found verifyReady = some 17 ∧
      (verifyReady.entry 17).state = .loaded ∧ (verifyReady.entry 17).validFrom ≤ verifyReady.time.epoch ∧
      verifyReady.time.epoch ≤ (verifyReady.entry 17).validUntil := by decide +kernel
theorem witness_EngineRejectsVerifyJob :
    Waiting (queued .verify) .verify ∧ found (queued .verify) = none ∧
      found (withEntry 17 { tagEntry with state := .revoked } (queued .verify)) = some 17 ∧
      found (withEntry 17 { tagEntry with state := .damaged } (queued .verify)) = some 17 ∧
      found (withEntry 17 { tagEntry with validFrom := 1#16, validUntil := 9#16 } (queued .verify)) = some 17 ∧
      (queued .verify).time.epoch < 1#16 := by decide +kernel

/-- The part with slot (0, 0) waiting with SEAL, and two RECORD keys of its key set. -/
def sealReady : State := withEntry 5 (recordEntry 1#4) (withEntry 6 (recordEntry 4#4) (queued .sealing))

theorem witness_EngineTakesSealJob :
    Waiting sealReady .sealing ∧ sealReady.recordCandidate (tagKeySet (queuedCtx .sealing)) 6 = true ∧
      Waiting (queued .sealing) .sealing ∧
      ∀ k, (queued .sealing).recordCandidate (tagKeySet (queuedCtx .sealing)) k = false := by decide +kernel

theorem witness_EngineTakesImportJob :
    (importWaiting 0 idle).engine.job = none ∧ (importWaiting 0 idle).engine.importPlace = some .load ∧
      (importWaiting 0 idle).engine.fifo = [] ∧ (importWaiting 8 verifyReady).engine.fifo = [slot0] ∧
      8 ≤ (importWaiting 8 verifyReady).engine.waitCount ∧ sealing.engine.job ≠ none ∧ idle.engine.fifo = [] ∧
      idle.engine.importPlace = none := by decide +kernel

/-- What the tag answers when it holds the derived key. -/
def rightAuth : Word := tagAuth 7#128 (verifyCtx 0#64)

theorem witness_VerifyResult_bad_mac :
    (verifying 0#64).engine.job = some { work := .verify slot0 0x2A#8 0#16 7#128, discard := false } ∧
      (verifying 0#64).ctx? slot0 = some (verifyCtx 0#64) ∧ (verifyCtx 0#64).state = .busy ∧
      (verifyCtx 0#64).withdrawn = false ∧ tagAuth 7#128 (verifyCtx 0#64) ≠ (verifyCtx 0#64).inbound[3] := by
  decide +kernel
theorem witness_VerifyResult_authentic :
    (verifying rightAuth).ctx? slot0 = some (verifyCtx rightAuth) ∧
      tagAuth 7#128 (verifyCtx rightAuth) = (verifyCtx rightAuth).inbound[3] := by decide +kernel

theorem witness_SealResultIsDelivered :
    sealing.engine.job = some { work := .sealing slot0 0x2A#8 0#16 1#128, discard := false } ∧
      sealing.ctx? slot0 = some { slot7 with state := .busy, jobKind := some .sealing } ∧
      slot7.withdrawn = false ∧ slot7.derivedKey = some 7#128 := by decide +kernel

/-- The part with slot (0, 0) in work as one of the three ends of R45 finds it. -/
def undelivered (c : SlotCtx) (discard : Bool) : State :=
  { part c with
    engine := { State.reset.engine with
      job := some { work := .verify slot0 0x2A#8 0#16 master, discard := discard } } }

theorem witness_UndeliveredJobs :
    (undelivered slot7 true).engine.job = some { work := .verify slot0 0x2A#8 0#16 master, discard := true } ∧
      (undelivered (inState .aborting) false).ctx? slot0 = some (inState .aborting) ∧
      (inState .aborting).state = .aborting ∧
      (undelivered { inState .busy with withdrawn := true } false).ctx? slot0 =
        some { inState .busy with withdrawn := true } ∧ (inState .busy).state = .busy := by decide +kernel

/-- A header of a TRANSPORT key, version 5, with the check value of the FIPS 197 key. -/
def plainHeader : Block := 0x010005000000FFFF7df76b0000000000#128

theorem witness_ImportResult_hand_over :
    (importing plainHeader master).engine.job =
        some { work := .importing .loadPlain plainHeader master 0#64 none, discard := false } ∧
      checkValue master = headerCheck plainHeader ∧ ((importing plainHeader master).entry 0).state = .empty ∧
      ∀ j, j < (0 : Fin 64) → ((importing plainHeader master).entry j).state ≠ .empty := by decide +kernel
theorem witness_ImportResult_failures :
    blobMacOf master exampleHeader 0#128 ≠ 0#64 ∧ checkValue master ≠ headerCheck exampleHeader := by decide +kernel

theorem witness_StartUpChecks_last :
    checking.engine.job = some { work := .checking 17 (some master), discard := false } ∧
      (∀ j, (17 : Fin 64) < j → (checking.entry j).state = .empty) ∧ checking.nv.highWater < 2 ^ 48 ∧
      checking.zeroing = false := by decide +kernel
theorem witness_StartUpChecks_damaged :
    checkingDamaged.engine.job = some { work := .checking 17 none, discard := false } ∧
      (checkingDamaged.entry 17).state = .damaged ∧ ¬((checkingDamaged.entry 17).state = .loaded) ∧
      ¬((checkingDamaged.entry 17).state = .revoked) := by decide +kernel
theorem witness_StartUpChecks_next :
    (17 : Fin 64) < 63 ∧ ((withEntry 63 tagEntry checking).entry 63).state ≠ .empty ∧
      ∀ k, (17 : Fin 64) < k → k < 63 → ((withEntry 63 tagEntry checking).entry k).state = .empty := by decide +kernel
theorem witness_StartUpChecks_zeroizing :
    (inCycle .zeroizing checking).engine.job = some { work := .checking 17 (some master), discard := false } ∧
      (inCycle .zeroizing checking).zeroing = true ∧ (inCycle .zeroizing checking).nv.highWater < 2 ^ 48 := by
  decide +kernel
theorem witness_StartUpChecks_exhausted :
    let s : State := { checking with nv := { checking.nv with highWater := 2 ^ 48 } }
    s.engine.job = some { work := .checking 17 (some master), discard := false } ∧ 2 ^ 48 ≤ s.nv.highWater := by
  decide +kernel

theorem witness_CipherBlocks :
    slot7.challenge = some 0x0312000000004E20#64 ∧ slot7.arrival = some 1140000#64 ∧ idle.groupOf slot0 = group40 ∧
      group40.macLength = 8 ∧ ({ word0 := 0#64, word1 := 0x400#64 } : Descriptor).macLength = 4 := by decide +kernel

/-! Filter -/

/-- The filter with one entry at position 3: tag 9 of key set 3, counter 5, accepted at LT 100. -/
def oneEntry : Filter :=
  ({ State.reset.filter with d := 50#64, h := 1000#64 }).put 3 (acceptedEntry (reading 5#24 100#64))

theorem witness_Filter_current :
    (∀ r ∈ [reading 5#24 149#64, reading 5#24 150#64, reading 8388612#24 1099#64, reading 8388613#24 1099#64],
      oneEntry.lookup r = some 3 ∧ oneEntry.at 3 = some (acceptedEntry (reading 5#24 100#64)) ∧
        r.now - 100#64 < oneEntry.h) ∧
      149#64 - 100#64 < oneEntry.d ∧ oneEntry.d ≤ 150#64 - 100#64 ∧ 8388612#24 - 5#24 ≤ 8388607#24 ∧
      8388607#24 < 8388613#24 - 5#24 := by decide +kernel
theorem witness_Filter_retired :
    oneEntry.lookup (reading 5#24 1100#64) = some 3 ∧ oneEntry.h ≤ 1100#64 - 100#64 := by decide +kernel

/-- A reading of another tag. -/
def stranger (now : Word) : Reading := { reading 5#24 now with tagId := 10#64 }

theorem witness_Filter_free_position :
    oneEntry.lookup (stranger 200#64) = none ∧ oneEntry.at 0 = none ∧
      ∀ j, j < (0 : Fin 256) → oneEntry.at j ≠ none := by decide +kernel

/-- The filter with every position in use by one tag; no run makes it so, but the statement holds of it too. -/
def fullFilter : Filter :=
  { State.reset.filter with positions := Vector.replicate 256 (some (acceptedEntry (reading 5#24 100#64))) }

theorem fullFilter_at (i : Fin 256) : fullFilter.at i = some (acceptedEntry (reading 5#24 100#64)) := by
  simp [fullFilter, Filter.at]

theorem witness_Filter_eviction :
    fullFilter.lookup (stranger 200#64) = none ∧
      fullFilter.at 0 = some (acceptedEntry (reading 5#24 100#64)) ∧ (∀ j, fullFilter.at j ≠ none) ∧
      (∀ j e', fullFilter.at j = some e' → (200#64 : Word) - e'.lastTime ≤ 200#64 - 100#64) ∧
      ∀ j e', j < (0 : Fin 256) → fullFilter.at j = some e' → (200#64 : Word) - e'.lastTime < 200#64 - 100#64 := by
  refine ⟨by decide +kernel, fullFilter_at 0, fun j => by simp [fullFilter_at], fun j e' h => ?_,
    fun j e' hj => absurd hj (Fin.not_lt_zero j)⟩
  rw [fullFilter_at] at h
  cases h
  decide

theorem witness_AcceptedReading :
    (∀ i j e e', State.reset.filter.at i = some e → State.reset.filter.at j = some e' → e.keySet = e'.keySet →
      e.tagId = e'.tagId → i = j) ∧
      (∃ f', State.reset.filter.classify (reading 5#24 100#64) = (f', .accept false)) ∧
      (reading 5#24 101#64).counter = (reading 5#24 100#64).counter ∧ 101#64 - 100#64 < State.reset.filter.h := by
  have hc : (State.reset.filter.classify (reading 5#24 100#64)).2 = .accept false := by decide +kernel
  refine ⟨fun i j e e' h => ?_, ⟨_, by rw [← hc]⟩, by decide +kernel, by decide +kernel⟩
  simp [State.reset, State.powerOn, Filter.at] at h

/-! Import area -/

theorem witness_BlobBeatsAreCaptured :
    idle.reloading = false ∧ (4 : Fin 8).val < 5 ∧ idle.life.phase = .running ∧ idle.keys.importState = .idle ∧
      idle.life.cycle ≠ .zeroizing ∧ idle.life.cycle ≠ .zeroized := by decide +kernel

/-- No import command runs, and the part takes one. -/
abbrev TakesImports (s : State) : Prop := Serving s ∧ s.keys.importState = .idle

/-- The entry that the header of the buffer names. -/
abbrev named (s : State) : Option (Fin 64) :=
  s.findEntry (usageOf (headerUsage (importHeader s.keys))) (headerKeySet (importHeader s.keys))
    (headerVersion (importHeader s.keys))

/-- The directory with no EMPTY entry, every one the key of set 3, version 2. -/
def fullDirectory (s : State) : State := { s with keys := { s.keys with dir := Vector.replicate 64 tagEntry } }

theorem witness_LoadPlain_header :
    TakesImports blankWithHeader ∧ blankWithHeader.life.cycle = .blank ∧
      headerUsage (importHeader blankWithHeader.keys) = 0x01#8 ∧
      headerKeySet (importHeader blankWithHeader.keys) = 0#8 ∧
      headerVersion (importHeader blankWithHeader.keys) = 5#8 ∧
      headerTransportVersion (importHeader blankWithHeader.keys) = 0#8 ∧
      headerValidFrom (importHeader blankWithHeader.keys) = 0#16 ∧
      headerValidUntil (importHeader blankWithHeader.keys) = 0xFFFF#16 ∧
      (importHeader blankWithHeader.keys).extractLsb' 0 40 = 0#40 := by decide +kernel
theorem witness_LoadPlain_ends :
    headerUsage (importHeader idle.keys) ≠ 0x01#8 ∧
      named (withEntry 63 (transportEntry 5#4) blankWithHeader) = some 63 ∧ named blankWithHeader = none ∧
      named (fullDirectory blankWithHeader) = none ∧
      (∀ i, ((fullDirectory blankWithHeader).entry i).state ≠ .empty) ∧
      (blankWithHeader.entry 63).state = .empty := by decide +kernel

/-- The part with the header of a TAG key of set 31, version 15, under TRANSPORT version 1, valid in epoch 0 alone. -/
def loadHeader : State := withHeader 2#8 31#8 15#8 1#8 stocked

theorem witness_Load_header :
    TakesImports loadHeader ∧ loadHeader.life.cycle = .field ∧
      headerUsage (importHeader loadHeader.keys) ∈ [0x01#8, 0x02#8, 0x03#8] ∧
      headerKeySet (importHeader loadHeader.keys) ≤ 31#8 ∧ headerVersion (importHeader loadHeader.keys) ≤ 15#8 ∧
      headerTransportVersion (importHeader loadHeader.keys) ≤ 15#8 ∧
      (importHeader loadHeader.keys).extractLsb' 0 40 = 0#40 ∧
      headerValidFrom (importHeader loadHeader.keys) ≤ headerValidUntil (importHeader loadHeader.keys) ∧
      loadHeader.findEntry .transport 0#8 (headerTransportVersion (importHeader loadHeader.keys)) = some 1 ∧
      (loadHeader.entry 1).state = .loaded ∧ named loadHeader = none ∧ (loadHeader.entry 63).state = .empty := by
  decide +kernel
theorem witness_Load_ends :
    ¬headerKeySet (importHeader (withHeader 2#8 32#8 2#8 1#8 stocked).keys) ≤ 31#8 ∧
      (withHeader 2#8 3#8 2#8 2#8 stocked).findEntry .transport 0#8 2#8 = none ∧
      named (withHeader 2#8 3#8 2#8 1#8 stocked) = some 17 ∧
      named (withEntry 1 (transportEntry 1#4) (withHeader 3#8 3#8 2#8 1#8 (fullDirectory idle))) = none := by
  decide +kernel

/-- The part with a key in use: slot (0, 0) VERIFIED with entry 17, which the header names. -/
def inUse : State :=
  withHeader 2#8 3#8 2#8 0#8 (withEntry 0 (transportEntry 0#4) (withEntry 1 (transportEntry 1#4)
    (withEntry 17 tagEntry (part { slot7 with tagEntry := some 17 }))))

theorem witness_RevokeAndErase :
    OneContextEach inUse ∧ TakesImports inUse ∧ inUse.life.cycle = .field ∧
      headerUsage (importHeader inUse.keys) ∈ [0x01#8, 0x02#8, 0x03#8] ∧
      headerKeySet (importHeader inUse.keys) ≤ 31#8 ∧ headerVersion (importHeader inUse.keys) ≤ 15#8 ∧
      headerUsage (importHeader inUse.keys) ≠ 0x01#8 ∧ named inUse = some 17 ∧
      (inUse.entry 17).usage ≠ .transport ∧ (inUse.entry 17).state = .loaded := by
  unfold OneContextEach
  decide +kernel
theorem witness_Revoke_transport :
    named (withHeader 1#8 0#8 0#8 0#8 stocked) = some 0 ∧ (stocked.entry 0).usage = .transport ∧
      ((1 : Fin 64) ≠ 0 ∧ (stocked.entry 1).usage = .transport ∧ (stocked.entry 1).state = .loaded) := by decide +kernel

theorem witness_LastTransport :
    let s := withHeader 1#8 0#8 0#8 0#8 (withEntry 0 (transportEntry 0#4) idle)
    TakesImports s ∧ s.life.cycle = .field ∧ named s = some 0 ∧ (s.entry 0).usage = .transport ∧
      (s.entry 0).state = .loaded ∧
      ∀ j, j ≠ 0 → ¬((s.entry j).usage = .transport ∧ (s.entry j).state = .loaded) := by decide +kernel
theorem witness_Revoke_ends :
    headerUsage (importHeader stocked.keys) ∉ [0x01#8, 0x02#8, 0x03#8] ∧
      named (withHeader 2#8 3#8 9#8 0#8 stocked) = none ∧
      named (withHeader 2#8 3#8 2#8 0#8 (withEntry 17 { tagEntry with state := .revoked } idle)) = some 17 := by
  decide +kernel

theorem witness_InquireReaderAndLock_inquire : TakesImports stocked ∧ TakesImports (inCycle .zeroized stocked) := by
  decide +kernel

theorem witness_InquireReaderAndLock_programs :
    TakesImports (inCycle .blank idle) ∧ (inCycle .blank idle).life.cycle = .blank ∧
      (inCycle .personalized stocked).life.cycle = .personalized ∧ TakesImports (inCycle .personalized stocked) ∧
      (inCycle .personalized stocked).life.reader ≠ 0#16 ∧
      (inCycle .personalized { idle with life := { idle.life with reader := 0#16 } }).life.reader = 0#16 ∧
      (stocked.entry 0).usage = .transport ∧ (stocked.entry 0).state = .loaded ∧
      (∀ i, ¬((idle.entry i).usage = .transport ∧ (idle.entry i).state = .loaded)) := by decide +kernel

/-- One command for each of the common checks: WRONG_LIFECYCLE while zeroizing, HELD, BUSY, BAD_COMMAND, WRONG_LIFECYCLE. -/
theorem witness_ImportCommandChecksInOrder :
    importRow (.load 1#56) = some (.load, 1#56) ∧ importRow (.load 0#56) = some (.load, 0#56) ∧
      (starting .reserve).reloading = false ∧ (starting .reserve).life.phase ≠ .running ∧
      (inCycle .zeroized idle).life.cycle = .zeroized ∧ (heldPart idle).status.hold = true ∧
      (importing 0#128 0#128).keys.importState ≠ .idle ∧ ¬operandGood .load 1#56 ∧ operandGood .load 0#56 ∧
      (inCycle .blank idle).life.cycle ∉ cyclesOf .load := by
  unfold operandGood
  decide +kernel

/-! NV writer and start-up -/

theorem witness_AdminOperations :
    ∀ op ∈ [AdminOp.program 0 tagEntry true, .program 0 tagEntry false, .personalize 0 0#24, .markRevoked 17,
        .eraseEntry 17 { tagEntry with state := .empty, key := none }, .writeReader 0x312#16, .lockField],
      (writing (.request (.admin op)) stocked).writer.running = some (.request (.admin op)) ∧
        (writing (.request (.admin op)) stocked).life.cycle ≠ .zeroizing ∧
        (writing (.request (.admin op)) stocked).life.cycle ≠ .zeroized := by decide +kernel
theorem witness_AdminOperations_zeroizing :
    (writing (.request (.admin (.markRevoked 17))) (inCycle .zeroizing stocked)).writer.running =
        some (.request (.admin (.markRevoked 17))) ∧
      (inCycle .zeroizing stocked).life.cycle = .zeroizing ∧ (inCycle .zeroized stocked).life.cycle = .zeroized := by
  decide +kernel

theorem witness_CounterAndEpochOperations :
    (writing (.request (.epochRecord 7#16)) idle).writer.running = some (.request (.epochRecord 7#16)) ∧
      (writing (.request (.reservation 28672)) idle).writer.running = some (.request (.reservation 28672)) ∧
      (writing (.reserve 4096) (starting .reserve)).writer.running = some (.reserve 4096) := by decide +kernel

/-- A part as NV_READ finds it: record 0 EMPTY, 1 a LOADED tag key, 2 of no known state, 3 the DAMAGED key of set 31, version
15, 4 of key set 32, 5 a RECORD key whose epochs and check value are of any value, 6 with the triple of 1, 7 of version 16, 8
of no known usage, 9 a TRANSPORT key of key set 1. -/
def storedPart : State :=
  let r := recordOfEntry tagEntry
  { starting .nvRead with
    nv := { NvArray.blank with
      lifeWord := 2#8
      records := Vector.ofFn fun i =>
        match i.val with
        | 1 => r
        | 2 => { r with state := 4#8, version := 9#8 }
        | 3 => { r with state := 3#8, keySet := 31#8, version := 15#8 }
        | 4 => { r with keySet := 32#8 }
        | 5 => { r with usage := 0x03#8, validFrom := 9#16, validUntil := 1#16, check := 0#24 }
        | 6 => { r with state := 2#8 }
        | 7 => { r with version := 16#8 }
        | 8 => { r with usage := 4#8 }
        | 9 => { r with usage := 0x01#8, keySet := 1#8, version := 0#8, validUntil := 0xFFFF#16 }
        | _ => NvRecord.erased } }

theorem stored_one_triple_each : ∀ i ∈ [(1 : Fin 64), 2, 3, 4, 5, 7, 8, 9], ¬RepeatsTriple storedPart i := by
  have h : ∀ i ∈ [(1 : Fin 64), 2, 3, 4, 5, 7, 8, 9], ∀ j : Fin 64, j < i →
      ¬SameTriple (storedPart.record j) (storedPart.record i) := by
    unfold SameTriple RecordEmpty
    decide +kernel
  exact fun i hi ⟨j, hj, same⟩ => h i hi j hj same

theorem witness_NvRead :
    storedPart.life.phase = .nvRead ∧ storedPart.writer.running = none ∧ storedPart.nv.lifeWord ∈ [0#8, 1#8, 2#8] ∧
      storedPart.life.deferred = false ∧ RecordEmpty (storedPart.record 0) := by
  unfold RecordEmpty
  decide +kernel
theorem witness_NvRead_in_range : ∀ i ∈ [(1 : Fin 64), 3, 5], RecordInRange (storedPart.record i) := by
  unfold RecordInRange
  decide +kernel
theorem witness_NvRead_out_of_range :
    ∀ i ∈ [(2 : Fin 64), 4, 7, 8, 9], ¬RecordEmpty (storedPart.record i) ∧ ¬RecordInRange (storedPart.record i) := by
  unfold RecordEmpty RecordInRange
  decide +kernel
theorem witness_NvRead_repeat : RepeatsTriple storedPart 6 := by
  refine ⟨1, by decide, ?_⟩
  unfold SameTriple RecordEmpty
  decide +kernel

/-- The entries of the records above, worked out from R167: the kept key set and version of each, and the repeat. -/
theorem test_nv_read_end_records :
    ends .nvReadEnd storedPart (fun t =>
      ([0, 1, 2, 3, 4, 6, 7, 8, 9] : List (Fin 64)).map (fun i =>
          ((t.entry i).state, (t.entry i).usage, (t.entry i).keySet, (t.entry i).version, (t.entry i).key.isSome)) ==
        [(.empty, .none, 0#5, 0#4, false), (.loaded, .tag, 3#5, 2#4, true), (.damaged, .tag, 3#5, 9#4, false),
          (.damaged, .tag, 31#5, 15#4, true), (.damaged, .tag, 0#5, 2#4, false), (.damaged, .none, 0#5, 0#4, false),
          (.damaged, .tag, 3#5, 0#4, false), (.damaged, .none, 3#5, 2#4, false),
          (.damaged, .transport, 0#5, 0#4, false)]) = true := by decide +kernel
theorem witness_NvRead_first_entry :
    ends .nvReadEnd storedPart (fun t => (t.entry 1).state != .empty && (t.entry 0).state == .empty) = true := by
  decide +kernel

/-- A part as NV_READ finds it, its entries all EMPTY, with a life-cycle word and a high-water. -/
def emptyPart (word : Byte) (highWater : Nat) : State :=
  { starting .nvRead with nv := { NvArray.blank with lifeWord := word, highWater := highWater } }

theorem witness_NvRead_all_empty :
    (∀ s ∈ [emptyPart 1#8 4096, emptyPart 1#8 (2 ^ 48)],
      s.life.phase = .nvRead ∧ s.writer.running = none ∧ s.nv.lifeWord ∈ [0#8, 1#8, 2#8] ∧ s.life.deferred = false ∧
        ends .nvReadEnd s (fun t => (List.finRange 64).all fun i => (t.entry i).state == .empty) = true) ∧
      (emptyPart 1#8 4096).nv.highWater < 2 ^ 48 ∧ 2 ^ 48 ≤ (emptyPart 1#8 (2 ^ 48)).nv.highWater := by decide +kernel
theorem witness_NvRead_deferred :
    let deferred := fun (s : State) => { s with life := { s.life with deferred := true } }
    (deferred storedPart).life.phase = .nvRead ∧ (deferred storedPart).writer.running = none ∧
      (deferred storedPart).nv.lifeWord = 2#8 ∧ (deferred storedPart).life.deferred = true ∧
      (deferred (emptyPart 1#8 4096)).nv.lifeWord ≠ 2#8 ∧ (deferred (emptyPart 1#8 4096)).nv.lifeWord ∈ [0#8, 1#8, 2#8] :=
  by decide +kernel

/-- An NV array as the three stages of an NV zeroize leave it. -/
def zeroizedNv : NvArray := { NvArray.blank with lifeWord := 4#8, reader := 0x312#16, highWater := 24576 }

theorem witness_NvZeroize_stages :
    ∀ n : Fin 4, (writing (.nvZeroize n) (inCycle .zeroizing idle)).writer.running = some (.nvZeroize n) := by
  decide +kernel
theorem witness_NvZeroize_completes :
    let s : State := { writing (.nvZeroize 3) (inCycle .zeroizing idle) with nv := zeroizedNv }
    s.nv.lifeWord = 4#8 ∧ s.nv.records = Vector.replicate 64 NvRecord.erased ∧ s.nv.epoch = 0#16 ∧
      s.life.phase ≠ .nvRead ∧ (writing (.nvZeroize 3) (starting .nvRead)).life.phase = .nvRead := by decide +kernel
theorem witness_NvZeroize_at_start_up :
    let s : State := { starting .nvRead with nv := zeroizedNv }
    s.life.phase = .nvRead ∧ s.writer.running = none ∧ s.nv.lifeWord ∉ [0#8, 1#8, 2#8] ∧
      (writing .blankWord (starting .nvRead)).life.phase = .nvRead ∧
      (writing .blankWord (starting .nvRead)).writer.running = some .blankWord := by decide +kernel

/-! Memory Path -/

/-- An entry whose response is ready. -/
def isReady (e : QueueEntry) : Bool :=
  match e.stage with
  | .ready _ => true
  | _ => false

theorem inOrder_of (s : State)
    (h : ∀ i : Initiator, (∀ e ∈ s.queue i, e.req.initiator = i) ∧ (s.queue i).length ≤ 8 ∧
      ((s.queue i).filter isHeld).length ≤ 1 ∧
      List.Pairwise (fun e e' => isUntaken e = true → isUntaken e' = true) (s.queue i) ∧
      ((s.queue i).head?.all fun e => !isReady e) = true) : QueuesInOrder s := by
  intro i
  obtain ⟨h1, h2, h3, h4, h5⟩ := h i
  refine ⟨h1, h2, h3, h4, fun e he reply hr => ?_⟩
  simp [he, isReady, hr] at h5

/-- The queue of initiator 0 holds one request, not taken. -/
def next (r : Request) (s : State) : State := waiting [{ req := r, stage := .untaken }] s

theorem witness_RequestJoins :
    (idle.queue 0).length < 8 ∧
      ((waiting (List.replicate 7 { req := request .read 0#32 0#8, stage := .untaken }) idle).queue 0).length < 8 ∧
      8 ≤ ((waiting (List.replicate 8 { req := request .read 0#32 0#8, stage := .untaken }) idle).queue 0).length := by
  decide +kernel

/-- A read of the status block from the identity word to the LT high word. -/
def statusRead : Request := request .read 0x1FFFF000#32 2#8

/-- A place outside the slot records holds no read. -/
theorem notPending_of_noSlot (s : State) (p : Place) (h : ∀ ref word, p ≠ .slot ref word) : ¬PendingWord s p :=
  fun ⟨ref, word, hp, _⟩ => h ref word hp

theorem witness_Read_answered :
    QueuesInOrder (next statusRead idle) ∧ NextIs (next statusRead idle) 0 [] statusRead [] ∧
      (next statusRead idle).refusalReason statusRead [] = none ∧
      (∀ p ∈ (next statusRead idle).requestPlaces statusRead, ¬PendingWord (next statusRead idle) p) ∧
      ∀ a ∈ ((next statusRead idle).requestPlaces statusRead).map
        (answer (latched (next statusRead idle) ((next statusRead idle).requestPlaces statusRead))), a ≠ none := by
  have hp : (next statusRead idle).requestPlaces statusRead = [.status .identity, .status .ltLow, .status .ltHigh] := by
    decide +kernel
  have h : ((next statusRead idle).requestPlaces statusRead).map
      (answer (latched (next statusRead idle) ((next statusRead idle).requestPlaces statusRead))) =
        [some 0x0004031202027C20#64, some 0#64, some 0#64] := by decide +kernel
  refine ⟨inOrder_of _ (by decide +kernel), by unfold NextIs; decide +kernel, by decide +kernel, fun p h => ?_,
    fun a ha => ?_⟩
  · rw [hp] at h
    refine notPending_of_noSlot _ p fun ref word e => ?_
    subst e
    simp at h
  · rw [h] at ha
    rintro rfl
    simp at ha
theorem witness_Read_forwarded :
    let r := request .read 0#32 0#8
    QueuesInOrder (next r idle) ∧ NextIs (next r idle) 0 [] r [] ∧ (next r idle).refusalReason r [] = none ∧
      (next r idle).requestPlaces r = [.memory] ∧ ¬PendingWord (next r idle) .memory ∧
      ((next r idle).requestPlaces r).map (answer (latched (next r idle) ((next r idle).requestPlaces r))) = [none] := by
  refine ⟨inOrder_of _ (by decide +kernel), by unfold NextIs; decide +kernel, by decide +kernel, by decide +kernel,
    notPending_of_noSlot _ _ nofun, by decide +kernel⟩

/-- A read of the verdict word of slot (0, 0). -/
def verdictRead : Request := request .read 0x00040018#32 0#8

theorem queued_inJob : InJob (next verdictRead (queued .verify)) (slot0, .verify) :=
  ⟨queuedCtx .verify, by decide +kernel, .inl rfl, rfl⟩

theorem witness_PendingRead :
    let s := next verdictRead (queued .verify)
    QueuesInOrder s ∧ NextIs s 0 [] verdictRead [] ∧ s.refusalReason verdictRead [] = none ∧ s.status.hold = false ∧
      (s.descriptor slot0.group).holdLimit ≠ 0#16 ∧ Place.slot slot0 3 ∈ s.requestPlaces verdictRead ∧
      PendingWord s (.slot slot0 3) := by
  refine ⟨inOrder_of _ (by decide +kernel), by unfold NextIs; decide +kernel, by decide +kernel, rfl,
    by decide +kernel, by decide +kernel, slot0, 3, rfl, .inl ⟨rfl, queued_inJob⟩⟩

/-- The part with a group whose hold limit is 0. -/
def unheld (s : State) : State :=
  { s with map := { s.map with table := s.map.table.set 0 { group40 with word1 := 0x000000002EE00810#64 } } }

theorem witness_Read_not_held :
    (∀ s ∈ [next verdictRead (unheld (queued .verify)), next verdictRead (heldPart (queued .verify))],
      s.reloading = false ∧ s.refusalReason verdictRead [] = none ∧ s.requestPlaces verdictRead = [.slot slot0 3]) ∧
      ((next verdictRead (unheld (queued .verify))).descriptor 0).holdLimit = 0#16 ∧
      (next verdictRead (heldPart (queued .verify))).status.hold = true := by decide +kernel

/-- A read is held for slot (0, 0), and slot (0, 1) is OPEN. -/
def holdingTwo : State :=
  { holding with
    slots := { holding.slots with contexts := holding.slots.contexts.map fun p =>
      if p.1 = { group := 0, index := 1 } then (p.1, openCtx 0#64) else p } }

/-- ABORT of slot (0, 1) leaves the read held for slot (0, 0); ABORT of slot (0, 0) ends it, answered. -/
theorem witness_HeldReadsSettled :
    QueuesInOrder holdingTwo ∧
      holdingTwo.queue 0 =
        [] ++ { req := verdictRead, stage := .held 4000#64 [.slot slot0 3] [(slot0, .verify)] } :: [] ∧
      ends (.abort 0 { group := 0, index := 1 } .a (0#48 ++ 0x2A#8)) holdingTwo
        (fun t => t.ctx? slot0 == some (queuedCtx .verify) && t.queue 0 == holdingTwo.queue 0) = true ∧
      ends (.abort 0 slot0 .a (0#48 ++ 0x2A#8)) holdingTwo
        (fun t => (t.ctx? slot0).map (·.state) == some .free && t.queue 0 == [] &&
          t.sysOut == [{ req := verdictRead, reply := .read [okay 0#64] }]) = true :=
  ⟨inOrder_of _ (by decide +kernel), by decide +kernel⟩
theorem witness_ReadHoldLimit :
    QueuesInOrder (atLt 3999#64 holding) ∧ QueuesInOrder (atLt 4000#64 holding) ∧ holding.queue 0 =
        [{ req := verdictRead, stage := .held 4000#64 [.slot slot0 3] [(slot0, .verify)] }] ∧
      (atLt 3999#64 holding).time.lt < 4000#64 ∧ 4000#64 ≤ (atLt 4000#64 holding).time.lt ∧
      (answer holding (.slot slot0 3)).isSome = true :=
  ⟨inOrder_of _ (by decide +kernel), inOrder_of _ (by decide +kernel), by decide +kernel⟩

theorem witness_RefusedRequest :
    let r := request .write 0x1FFFF000#32 0#8
    QueuesInOrder (next r idle) ∧ NextIs (next r idle) 0 [] r [] ∧ [full 1#64].length = r.len.toNat + 1 ∧
      (next r idle).refusalReason r [full 1#64] = some .reserved ∧
      (let u : Request := { request .read 0x1FFFF300#32 0#8 with prot := 0#3 };
        NextIs (next u idle) 0 [] u [] ∧ (next u idle).refusalReason u [] = some .privilege) := by
  refine ⟨inOrder_of _ (by decide +kernel), ?_⟩
  unfold NextIs
  decide +kernel

/-- The map of the tests is legal, and its group's slots are the ones with contexts. -/
theorem demo_map_legal : MapLegal idle := by
  refine ⟨by decide +kernel, by decide +kernel, by decide +kernel, ?_, ?_, by decide +kernel, fun r => ?_⟩
  · unfold apart
    decide +kernel
  · unfold apart
    decide +kernel
  · have h : ∀ g : Fin 16, ∀ i : Fin 32, (idle.ctx? { group := g, index := i }).isSome =
        ((idle.descriptor g).isSlots && decide (i.val < (idle.descriptor g).slotCount)) := by decide +kernel
    exact h r.group r.index

/-- The words at both ends of each part of the control region. -/
theorem witness_Checks_control_words :
    MapLegal idle ∧ ∀ off ∈ [0, 0x1F8, 0x200, 0x2F8, 0x300, 0x340, 0x348, 0x358, 0x378, 0x380, 0xFF8],
      isWordAt idle (request .write (0x1FFFF000#32 + BitVec.ofNat 32 off) 0#8) off := by
  refine ⟨demo_map_legal, ?_⟩
  unfold isWordAt
  decide +kernel

/-- The bytes that an incrementing request of the tests touches. -/
theorem touches_request {dir : Direction} {addr : BitVec 32} {len : BitVec 8} {a : Nat} :
    Touches (request dir addr len) a ↔
      addr.toNat ≤ a ∧ a < addr.toNat / 8 * 8 + (len.toNat + 1) * 8 := by
  simp [Touches, request]

/-- What the test map has, by descriptor: the group of 16 slots at 0x0004_0000, the page at 0x0010_0000, nothing else. -/
theorem idle_regions :
    idle.base = 0x1FFFF000 ∧ (idle.descriptor 0).isSlots = true ∧ (idle.descriptor 0).base * 4096 = 0x40000 ∧
      (idle.descriptor 0).slotCount * 128 = 0x800 ∧ (idle.descriptor 1).isPlain = true ∧
      (idle.descriptor 1).base * 4096 = 0x100000 ∧
      ((idle.descriptor 1).base + (idle.descriptor 1).size) * 4096 = 0x101000 ∧
      (∀ i, (idle.descriptor i).isSlots = true → i = 0) ∧ (∀ i, (idle.descriptor i).isPlain = true → i = 1) := by
  decide +kernel

/-- A burst across two regions: the last word below the control region is unmapped. -/
theorem witness_Checks_limit :
    let r := request .read 0x1FFFEFF8#32 1#8
    Touches r 0x1FFFEFF8 ∧ InRegion idle 0x1FFFEFF8 .unmapped ∧ Touches r 0x1FFFF000 ∧
      InRegion idle 0x1FFFF000 .control ∧ Region.unmapped ≠ .control := by
  simp only [touches_request, InRegion]
  decide +kernel
/-- Each word of the last slot record of the group. -/
theorem witness_Checks_group_words (k : Nat) (hk : k < 16) :
    LiesIn idle (request .write (0x40780#32 + 8#32 * BitVec.ofNat 32 k) 0#8) (.group 0) ∧
      BurstInForm (request .write (0x40780#32 + 8#32 * BitVec.ofNat 32 k) 0#8) := by
  obtain ⟨-, h1, h2, h3, -⟩ := idle_regions
  simp only [LiesIn, touches_request, InRegion, h1, h2, h3]
  simp [BurstInForm, request, BitVec.toNat_add, BitVec.toNat_mul]
  omega
/-- Bursts of 16 and of 17 words from the first slot record on. -/
theorem witness_Checks_group :
    LiesIn idle (request .read 0x40000#32 15#8) (.group 0) ∧ BurstInForm (request .read 0x40000#32 15#8) ∧
      LiesIn idle (request .read 0x40000#32 16#8) (.group 0) ∧ ¬BurstInForm (request .read 0x40000#32 16#8) := by
  obtain ⟨-, h1, h2, h3, -⟩ := idle_regions
  simp only [LiesIn, touches_request, InRegion, h1, h2, h3]
  refine ⟨fun a => ?_, ?_, fun a => ?_, ?_⟩ <;> simp [BurstInForm, request]
  all_goals omega
theorem witness_Checks_control :
    LiesIn idle (request .write 0x1FFFFF80#32 15#8) .control ∧ BurstInForm (request .write 0x1FFFFF80#32 15#8) ∧
      ¬BurstInForm { request .write 0x1FFFFF80#32 15#8 with exclusive := true } := by
  obtain ⟨h, -⟩ := idle_regions
  simp only [LiesIn, touches_request, InRegion, h]
  refine ⟨fun a => ?_, ?_, ?_⟩ <;> simp [BurstInForm, request]
  omega
/-- Both ends of the PLAIN window, and the unmapped words at each side of it. -/
theorem witness_Checks_plain_and_unmapped :
    LiesIn idle (request .read 0x100000#32 255#8) (.plain 1) ∧ LiesIn idle (request .write 0x100FF8#32 0#8) (.plain 1) ∧
      LiesIn idle (request .read 0xFFFF8#32 0#8) .unmapped ∧ LiesIn idle (request .write 0x101000#32 0#8) .unmapped ∧
      LiesIn idle (request .write 0x40800#32 0#8) .unmapped := by
  obtain ⟨h0, h1, h2, h3, h4, h5, h6, slots, plain⟩ := idle_regions
  have unmapped : ∀ a, (0x40800 ≤ a ∧ a < 0x100000) ∨ (0x101000 ≤ a ∧ a < 0x1FFFF000) →
      InRegion idle a .unmapped := by
    intro a ha
    refine ⟨by omega, fun i => ⟨fun ⟨hs, h⟩ => ?_, fun ⟨hp, h⟩ => ?_⟩⟩
    · cases slots i hs
      omega
    · cases plain i hp
      omega
  refine ⟨fun a h => ?_, fun a h => ?_, fun a h => unmapped a ?_, fun a h => unmapped a ?_, fun a h => unmapped a ?_⟩ <;>
    simp [touches_request, InRegion, h4, h5, h6] at h ⊢ <;> omega

theorem witness_Write_memory_alone :
    let r := request .write 0#32 1#8
    QueuesInOrder (next r idle) ∧ NextIs (next r idle) 0 [] r [] ∧ [full 1#64, full 2#64].length = r.len.toNat + 1 ∧
      (next r idle).refusalReason r [full 1#64, full 2#64] = none ∧
      (next r idle).requestPlaces r = [.memory, .memory] := by
  refine ⟨inOrder_of _ (by decide +kernel), ?_⟩
  unfold NextIs
  decide +kernel
/-- A burst of two settings, and the words whose values name no row. -/
theorem witness_Write_burst :
    let r := request .write 0x1FFFF060#32 1#8
    QueuesInOrder (next r idle) ∧ NextIs (next r idle) 0 [] r [] ∧ [full 1#64, full 2#64].length = r.len.toNat + 1 ∧
      (next r idle).refusalReason r [full 1#64, full 2#64] = none ∧
      (next r idle).requestPlaces r = [.status .dInterval, .status .holdTime] := by
  refine ⟨inOrder_of _ (by decide +kernel), ?_⟩
  unfold NextIs
  decide +kernel
theorem witness_Write_rowless :
    (rowOfBeat 0 (.slot slot0 8) (full 6#64)).isNone = true ∧ (rowOfBeat 0 (.importArea 8) (full 9#64)).isNone = true ∧
      (rowOfBeat 0 (.status .epochControl) (full 3#64)).isNone = true ∧ (rowOfBeat 0 .memory (full 1#64)).isNone = true ∧
      (next (request .write 0x00040040#32 0#8) idle).refusalReason (request .write 0x00040040#32 0#8) [full 9#64] = none ∧
      (next (request .write 0x1FFFF340#32 0#8) idle).refusalReason (request .write 0x1FFFF340#32 0#8) [full 9#64] = none ∧
      (next (request .write 0x1FFFF038#32 0#8) idle).refusalReason (request .write 0x1FFFF038#32 0#8) [full 9#64] = none := by
  decide +kernel
theorem witness_Write_slot_command :
    let r := request .write 0x00040068#32 0#8
    QueuesInOrder (next r idle) ∧ NextIs (next r idle) 0 [] r [] ∧ r.len = 0#8 ∧ (next r idle).refusalReason r [full 1#64] = none ∧
      (next r idle).requestPlaces r = [.slot slot0 13] ∧
      slotRow (.openSlot 0 slot0 .b 0#56) = some (0, slot0, .b, .open', 0#56) ∧
      (full 1#64).data = 0#56 ++ slotCode .open' ∧ ((next r idle).ctx? slot0).isSome = true := by
  refine ⟨inOrder_of _ (by decide +kernel), ?_⟩
  unfold NextIs
  decide +kernel
theorem witness_Write_setting :
    let r := request .write 0x1FFFF018#32 0#8
    QueuesInOrder (next r idle) ∧ NextIs (next r idle) 0 [] r [] ∧ (next r idle).refusalReason r [full 9#64] = none ∧
      (next r idle).requestPlaces r = [.status .pre] ∧
      settingRow (.preWrite 9#64) = some (.pre, 0x018, (full 9#64).data) := by
  refine ⟨inOrder_of _ (by decide +kernel), ?_⟩
  unfold NextIs
  decide +kernel
theorem witness_Write_import_command :
    let r := request .write 0x1FFFF340#32 0#8
    QueuesInOrder (next r idle) ∧ NextIs (next r idle) 0 [] r [] ∧ (next r idle).refusalReason r [full 2#64] = none ∧
      (next r idle).requestPlaces r = [.importArea 8] ∧ importRow (.load 0#56) = some (.load, 0#56) ∧
      (full 2#64).data = 0#56 ++ importCode .load := by
  refine ⟨inOrder_of _ (by decide +kernel), ?_⟩
  unfold NextIs
  decide +kernel

/-- Two requests of initiator 0 forwarded, the read after the write. -/
def forwarded : State :=
  waiting [{ req := request .write 0#32 0#8, stage := .forwarded [] true },
    { req := request .read 0#32 1#8, stage := .forwarded [some 7#64, none] false }] idle

theorem forwarded_in_order : QueuesInOrder forwarded := inOrder_of _ (by decide +kernel)

theorem witness_MemoryResponses :
    QueuesInOrder forwarded ∧ forwarded.queue 0 = [{ req := request .write 0#32 0#8, stage := .forwarded [] true }] ++
        { req := request .read 0#32 1#8, stage := .forwarded [some 7#64, none] false } :: [] ∧
      (1 : Fin 8).val = [QueueEntry.mk (request .write 0#32 0#8) (.forwarded [] true)].length ∧
      [okay 1#64, okay 2#64].length = (request .read 0#32 1#8).len.toNat + 1 ∧
      [some 7#64, none].length = [okay 1#64, okay 2#64].length ∧ (request .write 0#32 0#8).dir = .write :=
  ⟨forwarded_in_order, by decide +kernel⟩

/-! Window Map -/

theorem witness_MapWordStartsReload :
    Serving forwarded ∧ (loading .draining idle).map.load = some .draining ∧
      (∀ i, (loading .draining idle).queue i = []) ∧
      { req := request .write 0#32 0#8, stage := Stage.forwarded [] true } ∈ (loading .draining forwarded).queue 0 := by
  decide +kernel

theorem witness_TableRead_errors :
    (loading .reading idle).map.load = some .reading ∧ (burst 0#64 0#64).length = 16 ∧
      ((burst 0#64 0#64).set 15 bad).length = 16 ∧ ((burst 0#64 0#64).set 15 bad)[15]? = some bad ∧
      bad.resp = .decerr ∧ (∀ b ∈ ((burst 0#64 0#64).set 15 bad).take 15, b.resp = .okay) := by decide +kernel
/-- A table whose descriptor 0 is of two words, the others absent. -/
def tableOf (w0 w1 : Word) : List Descriptor := { word0 := w0, word1 := w1 } :: List.replicate 15 { word0 := 0, word1 := 0 }

theorem good_of_absent (base : Nat) (ds : List Descriptor) (n : Nat) (h : ∀ d, ds[n]? = some d → d.present = false) :
    DescriptorGood base ds n := fun d hd hp => absurd hp (by simp [h d hd])
/-- The example's group with 2 slots is a legal table. -/
theorem witness_TableRead_legal :
    ∀ n, n < 16 → DescriptorGood idle.base (tableOf 0x403335#64 0x00000FA02EE00802#64) n := by
  refine fun n hn => ?_
  obtain rfl | h := Nat.eq_zero_or_pos n
  · intro d hd _ x hx
    obtain rfl : (Descriptor.mk 0x403335#64 0x00000FA02EE00802#64) = d := Option.some.inj hd
    simp only [tableChecks, presentBelow, List.mem_cons, List.not_mem_nil, or_false] at hx
    obtain rfl | rfl | rfl | rfl | rfl | rfl | rfl := hx
    · unfold SpareBitsZero
      decide +kernel
    · decide +kernel
    · decide +kernel
    · decide +kernel
    · rintro ⟨a, ha, hb⟩
      have hw : (Descriptor.mk 0x403335#64 0x00000FA02EE00802#64).kind = 2#2 ∧
          (Descriptor.mk 0x403335#64 0x00000FA02EE00802#64).base * 4096 + 4096 = 0x41000 ∧ idle.base = 0x1FFFF000 := by
        decide +kernel
      simp only [InWindow, hw.1, hw.2.1, if_true] at ha
      rw [hw.2.2] at hb
      omega
    · simp
    · decide +kernel
  · have all : ∀ n : Fin 16, 0 < n.val →
        (tableOf 0x403335#64 0x00000FA02EE00802#64)[n.val]?.all (fun d => !d.present) = true := by decide +kernel
    refine good_of_absent _ _ _ fun d hd => ?_
    simpa [hd] using all ⟨n, hn⟩ h
/-- The spare bit 6 of word 1 set; and, with it zero, 33 slots. -/
theorem witness_TableRead_faulty :
    TableFaulty idle.base (tableOf 0x403335#64 0x00000FA02EE00842#64) .spareBits 0 ∧
      TableFaulty idle.base (tableOf 0x403335#64 0x00000FA02EE00821#64) .badField 0 := by
  refine ⟨⟨nofun, _, rfl, by decide +kernel, [], _, _, rfl, ?_, nofun⟩,
    ⟨nofun, _, rfl, by decide +kernel, [_, _], _, _, rfl, ?_, fun x hx => ?_⟩⟩
  · unfold SpareBitsZero
    decide +kernel
  · decide +kernel
  · simp only [List.mem_cons, List.not_mem_nil, or_false] at hx
    obtain rfl | rfl := hx
    · unfold SpareBitsZero
      decide +kernel
    · decide +kernel
theorem witness_TableRead_judged :
    (∀ b ∈ burst 0x403335#64 0x00000FA02EE00802#64, b.resp = .okay) ∧
      (List.range 16).map (fun n =>
          Descriptor.mk (((burst 0x403335#64 0x00000FA02EE00802#64 ++ burst 0#64 0#64).getD (2 * n) (okay 0#64)).data)
            (((burst 0x403335#64 0x00000FA02EE00802#64 ++ burst 0#64 0#64).getD (2 * n + 1) (okay 0#64)).data)) =
        tableOf 0x403335#64 0x00000FA02EE00802#64 := by decide +kernel

/-! Invariants -/

/-- The state with one TICK waiting: the step that each invariant's witness takes. -/
def ticking (s : State) : State := { s with pending := [.tick] }

/-- A transaction under way: slot (0, 0) QUEUED with VERIFY and the challenge of counter value 20,000. -/
def live : State := ticking (counting 20001 24576 verifyReady)

theorem startUp_of_running (s : State) (hp : s.life.phase = .running) (hj : s.engine.job = none)
    (hw : s.writer.running = none) (hz : s.writer.zeroizeWaiting = false) : StartUpOrder s :=
  ⟨fun h => absurd hp h, fun h => by simp [hp] at h, fun j h => by simp [hj] at h, fun op h => by simp [hw] at h,
    fun h => by simp [hz] at h, fun h => by simp [hp] at h⟩

theorem live_startUp : StartUpOrder live := startUp_of_running _ rfl rfl rfl rfl

theorem witness_StepKeepsStartUpOrder : StartUpOrder live ∧ ∃ t, step live = .next t := ⟨live_startUp, _, rfl⟩

theorem live_slotsAndEngine : SlotsAndEngine live := by
  refine ⟨?_, ?_, ?_, fun p hp h => ?_⟩
  · unfold OneContextEach
    decide +kernel
  · unfold CtxInForm FieldsAsPresent VerdictAsState
    decide +kernel
  · unfold FifoExact
    decide +kernel
  · have none : ∀ p ∈ live.slots.contexts, ¬(p.2.state = .busy ∨ p.2.state = .aborting) := by decide +kernel
    exact absurd h (none p hp)

theorem witness_StepKeepsSlotsAndEngineInStep : StartUpOrder live ∧ SlotsAndEngine live ∧ ∃ t, step live = .next t :=
  ⟨live_startUp, live_slotsAndEngine, _, rfl⟩

/-- In `live` the one slot with a challenge is slot (0, 0). -/
theorem live_challenges : ∀ p ∈ live.slots.contexts, p.2.challenge.isSome = true →
    p.1 = slot0 ∧ p.2.challenge = some 0x0312000000004E20#64 := by decide +kernel

theorem live_challengesReserved : ChallengesReserved live := by
  have asked : askedCeilings live.writer = [] := by decide +kernel
  refine ⟨by decide +kernel, by decide +kernel, by decide +kernel, by decide +kernel, by decide +kernel,
    fun _ => by decide +kernel, nofun, nofun, by decide +kernel, fun v h => (by rw [asked] at h; cases h),
    fun h => absurd asked h, fun p hp ch h => ?_, fun p hp q hq ch h h' => ?_⟩
  · have hc := (live_challenges p hp (by rw [h]; rfl)).2
    rw [h] at hc
    cases hc
    decide +kernel
  · rw [(live_challenges p hp (by rw [h]; rfl)).1, (live_challenges q hq (by rw [h']; rfl)).1]

theorem witness_StepIssuesEachChallengeOnce :
    StartUpOrder live ∧ ChallengesReserved live ∧ ∃ t, step live = .next t :=
  ⟨live_startUp, live_challengesReserved, _, rfl⟩

/-- The part with its NV zeroize running. -/
def zeroizing : State := ticking (writing (.nvZeroize 1) (inCycle .zeroizing idle))

theorem witness_StepKeepsStoppedPartClean :
    StartUpOrder zeroizing ∧ zeroizing.zeroing = true ∧ ZeroizedClean zeroizing ∧ ∃ t, step zeroizing = .next t := by
  refine ⟨⟨fun h => absurd rfl h, fun h => absurd h (by decide +kernel), nofun, fun op h => ?_, nofun, nofun⟩,
    by decide +kernel, fun _ => ?_, _, rfl⟩
  · cases h
    exact ⟨.inl rfl, rfl⟩
  · unfold NothingHeld
    decide +kernel
theorem witness_HoldIsStill :
    (heldPart idle).status.hold = true ∧ HoldIsStill (ticking (heldPart idle)) ∧
      ∃ t, step (ticking (heldPart idle)) = .next t :=
  ⟨rfl, fun _ => ⟨by decide +kernel, by decide +kernel, by decide +kernel, by decide +kernel, nofun⟩, _, rfl⟩

/-- A LOAD of a RECORD key waits for the engine while the NV writer runs an epoch record. -/
def loadingKey : State :=
  let s := withHeader 3#8 3#8 9#8 1#8 (withEntry 1 (transportEntry 1#4) (withEntry 17 tagEntry idle))
  ticking { s with
    engine := { s.engine with importPlace := some .load }
    keys := { s.keys with importState := .queued }
    writer := { s.writer with running := some (.request (.epochRecord 3#16)) } }

theorem loadingKey_startUp : StartUpOrder loadingKey := by
  refine ⟨fun h => absurd rfl h, fun h => absurd h (by decide +kernel), nofun, fun op h => ?_, nofun, nofun⟩
  cases h
  rfl

theorem loadingKey_importAndWriter : ImportAndWriter loadingKey := by
  unfold ImportAndWriter
  decide +kernel

theorem witness_StepKeepsImportAndWriter :
    StartUpOrder loadingKey ∧ ImportAndWriter loadingKey ∧ ZeroizeStagesStand loadingKey ∧
      ∃ t, step loadingKey = .next t :=
  ⟨loadingKey_startUp, loadingKey_importAndWriter, by unfold ZeroizeStagesStand; decide +kernel, _, rfl⟩
/-- A repeated attempt of the NV zeroize in its second stage. -/
theorem witness_ZeroizeStagesStand :
    let w : NvWriter := { running := some (.nvZeroize 1), waiting := [], zeroizeWaiting := false, attemptsFailed := 1#8 }
    ZeroizeStagesStand { inCycle .zeroizing idle with nv := zeroizedNv, writer := w } := by
  unfold ZeroizeStagesStand
  decide +kernel

theorem witness_StepKeepsTriplesUnique :
    StartUpOrder loadingKey ∧ ImportAndWriter loadingKey ∧ TriplesUnique loadingKey ∧
      keptTriples loadingKey = [(.record, 3#5, 9#4)] ∧ HasTriple (loadingKey.entry 17) (.tag, 3#5, 2#4) ∧
      ∃ t, step loadingKey = .next t := by
  have filled : ∀ i : Fin 64, (loadingKey.entry i).state ≠ .empty →
      (i = 1 ∧ (loadingKey.entry i).usage = .transport) ∨ (i = 17 ∧ (loadingKey.entry i).usage = .tag) := by
    decide +kernel
  have kept : keptTriples loadingKey = [(.record, 3#5, 9#4)] := by decide +kernel
  have headers : importsUnderWay loadingKey = [0x03030901000000000000000000000000#128] := by decide +kernel
  have ops : adminOps loadingKey.writer = [] := by decide +kernel
  refine ⟨loadingKey_startUp, loadingKey_importAndWriter,
    ⟨?_, fun i j t hi hj => ?_, fun t ht => ?_, fun h hh => ?_, fun i e plain h => ?_⟩, kept, ⟨by decide +kernel, by decide +kernel, by decide +kernel⟩, _, rfl⟩
  · unfold DirectoryInForm
    decide +kernel
  · have same := congrArg Prod.fst (hi.2.2.symm.trans hj.2.2)
    obtain ⟨rfl, ui⟩ | ⟨rfl, ui⟩ := filled i hi.1 <;> obtain ⟨rfl, uj⟩ | ⟨rfl, uj⟩ := filled j hj.1 <;>
      first
        | rfl
        | exact absurd (ui.symm.trans (same.trans uj)) (by decide)
  · rw [kept] at ht
    obtain rfl := List.mem_singleton.mp ht
    refine ⟨by decide, by decide, fun i h => ?_⟩
    have used := congrArg Prod.fst h.2.2
    obtain ⟨rfl, u⟩ | ⟨rfl, u⟩ := filled i h.1 <;> exact absurd (used.trans u) (by decide)
  · rw [headers] at hh
    obtain rfl := List.mem_singleton.mp hh
    decide
  · rw [ops] at h
    cases h

/-- The part with one filter entry. -/
def filtering : State := ticking { idle with filter := oneEntry }

theorem witness_StepKeepsFilterKeysUnique : FilterKeysUnique filtering ∧ ∃ t, step filtering = .next t := by
  have only : ∀ i : Fin 256, (oneEntry.at i).isSome = true → i = 3 := by decide +kernel
  refine ⟨⟨by decide +kernel, fun i j e e' h h' _ _ => ?_⟩, _, rfl⟩
  rw [only i (by rw [show oneEntry.at i = some e from h]; rfl),
    only j (by rw [show oneEntry.at j = some e' from h']; rfl)]

theorem witness_StepNeverLowersActiveEpoch :
    StartUpOrder (ticking (scheduled 2#16 idle)) ∧ ScheduleAhead (ticking (scheduled 2#16 idle)) ∧
      ∃ t, step (ticking (scheduled 2#16 idle)) = .next t := by
  refine ⟨startUp_of_running _ rfl rfl rfl rfl, fun p h => ?_, _, rfl⟩
  cases h
  decide +kernel

theorem witness_StepKeepsLoadedMapLegal : MapLegal (ticking idle) ∧ ∃ t, step (ticking idle) = .next t :=
  ⟨demo_map_legal, _, rfl⟩

theorem witness_StepAnswersRequestsInOrder :
    QueuesInOrder (ticking forwarded) ∧ ∃ t, step (ticking forwarded) = .next t := ⟨forwarded_in_order, _, rfl⟩

end Sys2Proof.Tests
end

