-- ==== Sys2Proof/Proofs/Events.lean ====
section
/-! SUPPORT. What one step can do, said once: the events of the part in the words of the model's own operations, and the
inversion of `step` into them. Every invariant below is proved event by event. -/

namespace Sys2Proof.Machine

open Sys2Proof.Safety

/-- Two states that agree on all that the invariants of slots, engine, keys, NV writer and map speak of. They may
differ in the queue of commands, the two ports, causes and counters, clocks and settings; in RUNNING also in the
schedule, the enables and the load of a map. -/
structure SamePart (s t : State) : Prop where
  phase : t.life.phase = s.life.phase
  cycle : t.life.cycle = s.life.cycle
  slots : t.slots = s.slots
  engine : t.engine = s.engine
  positions : t.filter.positions = s.filter.positions
  dir : t.keys.dir = s.keys.dir
  buffer : t.keys.buffer = s.keys.buffer
  importState : t.keys.importState = s.keys.importState
  nv : t.nv = s.nv
  writer : t.writer = s.writer
  table : t.map.table = s.map.table
  straps : t.map.straps = s.map.straps
  hold : t.status.hold = s.status.hold
  schedule : s.life.phase ≠ .running → s.time.schedule = none → t.time.schedule = none
  enables : s.life.phase ≠ .running → t.status.enables = s.status.enables
  load : s.life.phase ≠ .running → s.map.load = none → t.map.load = none

theorem SamePart.refl (s : State) : SamePart s s := by constructor <;> simp

theorem SamePart.trans {s t u : State} (a : SamePart s t) (b : SamePart t u) : SamePart s u where
  phase := b.phase.trans a.phase
  cycle := b.cycle.trans a.cycle
  slots := b.slots.trans a.slots
  engine := b.engine.trans a.engine
  positions := b.positions.trans a.positions
  dir := b.dir.trans a.dir
  buffer := b.buffer.trans a.buffer
  importState := b.importState.trans a.importState
  nv := b.nv.trans a.nv
  writer := b.writer.trans a.writer
  table := b.table.trans a.table
  straps := b.straps.trans a.straps
  hold := b.hold.trans a.hold
  schedule := fun h hl => b.schedule (a.phase ▸ h) (a.schedule h hl)
  enables := fun h => (b.enables (a.phase ▸ h)).trans (a.enables h)
  load := fun h hl => b.load (a.phase ▸ h) (a.load h hl)

/-- What one beat of a write, or the row that is one such beat, does in the part. -/
inductive BeatEvent (s : State) : State → Prop
  /-- Nothing that an invariant speaks of (settings, passed beats, a refused beat). -/
  | same {t} : SamePart s t → BeatEvent s t
  /-- A slot command is refused, but for CHALLENGE_WAIT (R9). -/
  | refused (r c res) : s.ctx? r = some c → BeatEvent s (s.setCtx r { c with lastResult := res })
  /-- OPEN is refused with CHALLENGE_WAIT, and a reservation asked for (R35). -/
  | waits (r c) : s.ctx? r = some c → BeatEvent s (s.setCtx r { c with lastResult := .challengeWait }).askReservation
  /-- OPEN is carried out (R12). -/
  | opened (r c) : s.ctx? r = some c → s.status.hold = false → c.state = .free → s.openRefusal = none →
      BeatEvent s (s.carryOpen r c)
  /-- ARM is carried out (R13). -/
  | armed (r c) : s.ctx? r = some c → s.status.hold = false → c.state = .open' → BeatEvent s (s.carryArm r c)
  /-- SEAL is carried out (R14). -/
  | sealing (r c) : s.ctx? r = some c → s.status.hold = false → c.state = .verified → BeatEvent s (s.carrySeal r c)
  /-- RELEASE is carried out (R15). -/
  | released (r c) : s.ctx? r = some c → s.status.hold = false → isEndState c.state = true →
      BeatEvent s (s.carryRelease r c)
  /-- ABORT is carried out (R16). -/
  | aborted (r c) : s.ctx? r = some c → s.status.hold = false → acceptedFrom .abort c.state = true →
      BeatEvent s (s.carryAbort r c)
  /-- An inbound beat enters the shadow (R18). -/
  | inbound (r c v) : s.ctx? r = some c → c.state = .open' → BeatEvent s (s.setCtx r { c with inbound := v })
  /-- A payload beat enters the shadow (R19). -/
  | payload (r c v) : s.ctx? r = some c → payloadOpen c = true → BeatEvent s (s.setCtx r { c with payload := v })
  /-- A blob beat is captured (R96). -/
  | captured (v) : s.capturing = true → BeatEvent s { s with keys := { s.keys with buffer := v } }
  /-- An import command ends as it is taken (R100); an INQUIRE writes its record (R108). -/
  | ended (q command code index check) : s.life.phase = .running → (code = .busy → s.keys.importState ≠ .idle) →
      BeatEvent s ({ s with keys := { s.keys with inquiry := q } }.endAtOnce command code index check)
  /-- LOAD_PLAIN or LOAD places its import job (R102, R103). -/
  | placedJob (cmd kind) : s.life.phase = .running → s.zeroing = false → s.status.hold = false →
      s.keys.importState = .idle → s.lowestEmpty ≠ none → BeatEvent s (s.placeImportJob cmd kind)
  /-- REVOKE or ERASE changes an entry, withdraws it and places its admin request (R105, R106). -/
  | withdrawn (cmd i e op) : s.life.phase = .running → s.zeroing = false → s.status.hold = false →
      s.keys.importState = .idle → op = .markRevoked i ∨ (∃ kept, op = .eraseEntry i kept) →
      BeatEvent s (((s.setEntry i e).withdraw i).placeAdmin cmd op)
  /-- SET_READER or FIELD_LOCK places its admin request (R109, R110). -/
  | placedAdmin (cmd op) : s.life.phase = .running → s.zeroing = false → s.status.hold = false →
      s.keys.importState = .idle → op = .lockField ∨ (∃ v, op = .writeReader v) → BeatEvent s (s.placeAdmin cmd op)
  /-- ZEROIZE ends OK, and a zeroization starts (R111). -/
  | zeroized (command code index check) : s.life.phase = .running → s.zeroing = false →
      BeatEvent s (s.endAtOnce command code index check).startZeroization
  /-- The active epoch switches (R127, R128). -/
  | switched (e) : s.time.schedule ≠ none → BeatEvent s (s.switchEpoch e)
  /-- The hold is set (R192). -/
  | holdSet : s.life.phase = .running → s.status.hold = false → BeatEvent s s.setHold
  /-- The hold is cleared (R194). -/
  | holdCleared : s.life.phase = .running → BeatEvent s { s with status := { s.status with hold := false } }

/-- A context BUSY with `c` whose job does not succeed, as it is left (R45, R46, R48). -/
inductive JobFails (c : SlotCtx) : SlotCtx → Prop
  | fault (reason) : reason ≠ .duplicate → JobFails c (faultCtx reason c)
  | reject (reason) : reason ≠ .duplicate → c.withdrawn = false → JobFails c (rejectCtx reason c)

/-- A context BUSY with `c` whose job of a kind is delivered, as it is left (R45, R46, R48). -/
inductive JobEnds (c : SlotCtx) : JobKind → SlotCtx → Prop
  | fails {kind c'} : JobFails c c' → JobEnds c kind c'
  | duplicate (info) : c.withdrawn = false →
      JobEnds c .verify { rejectCtx .duplicate c with duplicate := some info }
  | accept : c.withdrawn = false →
      JobEnds c .verify { c with state := .verified, jobKind := none, verdict := some .accept }
  | sealed (m w) : c.withdrawn = false →
      JobEnds c .sealing
        { c with state := .sealed, jobKind := none, derivedKey := none, mac := some m, recordSeal := some w }

/-- What a row does that is no beat of a write. -/
inductive RowEvent (s : State) : State → Prop
  /-- POWER_ON_RESET (R166). -/
  | powerOn (straps) : RowEvent s (State.powerOn s.nv straps)
  /-- A tamper event in FIELD starts a zeroization (R174). -/
  | tamper : s.life.phase ≠ .nvRead → s.zeroing = false → RowEvent s s.startZeroization
  /-- An accepted SYNC edge switches the epoch (R121). -/
  | switched (e) : s.time.schedule ≠ none → RowEvent s (s.switchEpoch e)
  /-- The deadline expires a slot (R21). -/
  | expired (r c) : s.ctx? r = some c → c.deadline ≠ none → deadlineExpires c = true →
      RowEvent s ((s.setCtx r { c with state := .expired, jobKind := none }).leaveFifo r)
  /-- The deadline marks a slot late (R21). -/
  | late (r c) : s.ctx? r = some c → c.deadline ≠ none → deadlineLate c = true →
      RowEvent s (s.setCtx r { c with late := true })
  /-- The engine starts a VERIFY job (R41, R44). -/
  | tookVerify (r rest c k key) : s.engine.job = none → s.engine.fifo = r :: rest → s.ctx? r = some c →
      c.jobKind = some .verify →
      RowEvent s (((s.popFifo rest).setCtx r (derivedCtx k key c)).startJob (.verify r c.generation s.time.epoch key))
  /-- The engine starts a SEAL job (R41, R47). -/
  | tookSeal (r rest c k key) : s.engine.job = none → s.engine.fifo = r :: rest → s.ctx? r = some c →
      c.jobKind = some .sealing →
      RowEvent s (((s.popFifo rest).setCtx r { c with state := .busy, recordEntry := some k }).startJob
        (.sealing r c.generation s.time.epoch key))
  /-- The engine takes a job that fails at once (R43, R48, R55). -/
  | tookFailing (r rest c c') : s.engine.job = none → s.engine.fifo = r :: rest → s.ctx? r = some c →
      JobFails { c with state := .busy } c' → RowEvent s ((s.popFifo rest).setCtx r c')
  /-- The engine takes the import job (R42). -/
  | tookImport (kind) : s.engine.job = none → s.engine.importPlace = some kind → RowEvent s (s.takeImportJob kind)
  /-- A job ends without effect (R45, R49). -/
  | jobLost (j) : s.engine.job = some j → isServiceJob j = true → liveImport s.engine = none →
      (∀ r kind c, liveJob s.engine = some (r, kind) → s.ctx? r = some c → c.state ≠ .busy ∧ c.state ≠ .aborting) →
      RowEvent s s.idleEngine
  /-- The job of an ABORTING slot ends (R16, R45). -/
  | jobAborted (r kind c) : liveJob s.engine = some (r, kind) → s.ctx? r = some c → c.state = .aborting →
      RowEvent s (s.idleEngine.setCtx r (clearCtx c))
  /-- The job of a BUSY slot ends (R45, R46, R48). -/
  | jobEnded (r kind c c' f) : liveJob s.engine = some (r, kind) → s.ctx? r = some c → c.state = .busy →
      JobEnds c kind c' → RowEvent s ({ s with filter := f }.idleEngine.setCtx r c')
  /-- The result of an import job is handed over (R53). -/
  | handedOver (kind h res) : liveImport s.engine = some h → RowEvent s (s.idleEngine.handOver kind h res)
  /-- A CHECK job ends (R54). -/
  | checked (i key) : (∃ d, s.engine.job = some { work := .checking i key, discard := d }) →
      RowEvent s ((s.idleEngine.setEntry i (checkedEntry (s.entry i) key)).continueCheck (i.val + 1))
  /-- An admin operation ends (R92, R93). -/
  | adminEnded (op passed) : s.writer.running = some (.request (.admin op)) → RowEvent s (s.endAdmin op passed)
  /-- An epoch record ends (R92, R93). -/
  | epochEnded (v passed) : s.writer.running = some (.request (.epochRecord v)) →
      RowEvent s (s.endEpochRecord v passed)
  /-- A reservation ends (R35). -/
  | reservationEnded (v passed) : s.writer.running = some (.request (.reservation v)) →
      RowEvent s (s.endReservation v passed)
  /-- The program of RESERVE ends (R170). -/
  | reserveEnded (v passed) : s.writer.running = some (.reserve v) → RowEvent s (s.endReserveProgram v passed)
  /-- The life-cycle word BLANK that ends an interrupted zeroization is written (R168). -/
  | blankWritten : s.writer.running = some .blankWord → RowEvent s (s.endBlankWord true)
  /-- A stage of the NV zeroize passes (R176). -/
  | stagePassed (n : Fin 4) : s.writer.running = some (.nvZeroize n) → n ≠ 3 →
      RowEvent s { s with
        nv := zeroizeStage n.val s.nv, writer := { s.writer with running := some (.nvZeroize (n + 1)) } }
  /-- An attempt of the NV zeroize fails (R176, R178). -/
  | attemptFailed (n : Fin 4) : s.writer.running = some (.nvZeroize n) → n ≠ 3 →
      RowEvent s { s with nv := failedStage n.val s.freeCount s.nv, writer := restartZeroize s.writer }
  /-- The NV zeroize of an interrupted zeroization passes: the word BLANK is written next (R168). -/
  | zeroizeThenBlank (n : Fin 4) : s.writer.running = some (.nvZeroize n) → s.life.phase = .nvRead →
      RowEvent s { s with
        nv := zeroizeStage 2 (zeroizeStage 1 (zeroizeStage 0 s.nv))
        writer := { s.writer with running := some .blankWord } }
  /-- The NV zeroize passes (R176). -/
  | zeroizeDone (n : Fin 4) : s.writer.running = some (.nvZeroize n) → s.life.phase ≠ .nvRead →
      RowEvent s { s with nv := zeroizeStage 2 (zeroizeStage 1 (zeroizeStage 0 s.nv)) }.completeZeroize
  /-- NV_READ finds an interrupted zeroization (R168). -/
  | readZeroized : s.life.phase = .nvRead → s.writer.running = none →
      RowEvent s { s with writer := { s.writer with running := some (.nvZeroize 0), attemptsFailed := 0#8 } }
  /-- NV_READ ends (R167). -/
  | readEnded (l d) : s.life.phase = .nvRead → s.writer.running = none → l ≠ .zeroizing → l ≠ .zeroized →
      RowEvent s { s.takeFromNv l with keys := { s.keys with dir := d } }.leaveNvRead
  /-- A map is installed (R158, R159). -/
  | installed (beats) : s.map.load = some .reading → beats.length = 32 →
      validateFrom s.base [] 0 (descriptorsOf beats) = none →
      RowEvent s (s.installMap (Vector.ofFn fun i : Fin 16 =>
        (descriptorsOf beats).getD i.val { word0 := 0#64, word1 := 0#64 }))
  /-- The load of a map ends with a fault (R157). -/
  | mapFaulted (f n) : s.map.load = some .reading → RowEvent s (s.faultMap f n)

end Sys2Proof.Machine
end

