-- ==== Sys2Proof/Proofs/Beats.lean ====
section
/-! SUPPORT. Each operation of a beat, as an event of the part. -/

namespace Sys2Proof.Machine

open Sys2Proof.Safety

/-! ### Operations that leave the part the same -/

theorem SamePart.giveResponses (s : State) : SamePart s s.giveResponses := by
  constructor <;> intros <;> first | rfl | assumption
theorem SamePart.settleHolds (s : State) : SamePart s s.settleHolds := by
  constructor <;> intros <;> first | rfl | assumption
theorem SamePart.raise (c : Cause) (s : State) : SamePart s (s.raise c) := by
  constructor <;> intros <;> first | rfl | assumption
theorem SamePart.raiseAll (cs : List Cause) (s : State) : SamePart s (s.raiseAll cs) := by
  constructor <;> intros <;> first | rfl | assumption
theorem SamePart.bump (c : Counter) (n : Nat) (s : State) : SamePart s (s.bump c n) := by
  constructor <;> intros <;> first | rfl | assumption
theorem SamePart.forwardBeat (addr : Nat) (b : WriteBeat) (s : State) : SamePart s (s.forwardBeat addr b) := by
  constructor <;> intros <;> first | rfl | assumption
theorem SamePart.refuse (i : Initiator) (r : Request) (reason : RefusalReason) (s : State) :
    SamePart s (s.refuse i r reason) := by constructor <;> intros <;> first | rfl | assumption
theorem SamePart.setQueue (i : Initiator) (q : List QueueEntry) (s : State) : SamePart s (s.setQueue i q) := by
  constructor <;> intros <;> first | rfl | assumption
theorem SamePart.endAtLimit (i : Initiator) (s : State) : SamePart s (s.endAtLimit i) := by
  constructor <;> intros <;> first | rfl | assumption
theorem SamePart.pending (l : List Instr) (s : State) : SamePart s { s with pending := l } := by
  constructor <;> intros <;> first | rfl | assumption
theorem SamePart.memOut (l : List MemOut) (s : State) : SamePart s { s with memOut := l } := by
  constructor <;> intros <;> first | rfl | assumption
theorem SamePart.noteVerify (passed : Bool) (s : State) : SamePart s (s.noteVerify passed) := by
  cases passed <;> constructor <;> intros <;> first | rfl | assumption
theorem SamePart.raiseLow (was : Bool) (s : State) : SamePart s (s.raiseLow was) := by
  constructor <;> intros <;> simp only [State.raiseLow] <;> first | rfl | assumption | (split <;> rfl)

/-- Raising SLOT_DONE and counting the end leaves what `setCtx` has written (R7). -/
theorem SamePart.enterEnd (r : SlotRef) (c : SlotCtx) (s : State) : SamePart (s.setCtx r c) (s.enterEnd r c) := by
  constructor <;> intros <;> simp only [State.enterEnd, State.countEnd] <;>
    first | rfl | assumption | (split <;> rfl)

/-- A tamper event is recorded (R173, R174). -/
theorem SamePart.sampler (l : LifeUnit) (s : State) (hp : l.phase = s.life.phase) (hc : l.cycle = s.life.cycle) :
    SamePart s { s with life := l } := by
  constructor <;> intros <;> first | rfl | assumption

/-! ### Slot commands -/

/-- What a slot command that no check refuses has passed (R9). -/
theorem State.slotRefusal_none {s : State} {i : Initiator} {r : SlotRef} {cmd : SlotCmd} {upper : BitVec 56}
    {c : SlotCtx} (h : s.slotRefusal i r (some cmd) upper c = none) :
    s.status.hold = false ∧ acceptedFrom cmd c.state = true ∧ (cmd = .open' → s.openRefusal = none) := by
  simp only [State.slotRefusal] at h
  split at h
  · simp at h
  next hh =>
    repeat' split at h
    all_goals simp_all

/-- A refused slot command writes its code, and for CHALLENGE_WAIT asks for a reservation (R9, R35). -/
theorem BeatEvent.refuseSlot {s : State} {r : SlotRef} {c : SlotCtx} (res : SlotResult) (hc : s.ctx? r = some c) :
    BeatEvent s (s.refuseSlot res r c) := by
  by_cases h : res = .challengeWait
  · subst h; simpa [State.refuseSlot] using BeatEvent.waits r c hc
  · simpa [State.refuseSlot, h] using BeatEvent.refused r c res hc

/-- A slot command carried out, by command. -/
theorem BeatEvent.carrySlot {s : State} {r : SlotRef} {c : SlotCtx} {cmd : SlotCmd} (hc : s.ctx? r = some c)
    (hh : s.status.hold = false) (ha : acceptedFrom cmd c.state = true) (ho : cmd = .open' → s.openRefusal = none) :
    BeatEvent s (s.carrySlot cmd r c) := by
  cases cmd with
  | open' => exact .opened r c hc hh (by simpa [acceptedFrom] using ha) (ho rfl)
  | arm => exact .armed r c hc hh (by simpa [acceptedFrom] using ha)
  | sealing => exact .sealing r c hc hh (by simpa [acceptedFrom] using ha)
  | release => exact .released r c hc hh ha
  | abort => exact .aborted r c hc hh ha

/-- A slot command word is taken (R9). -/
theorem BeatEvent.takeSlotCommand (i : Initiator) (r : SlotRef) (cmd : Option SlotCmd) (upper : BitVec 56) (s : State) :
    BeatEvent s (s.takeSlotCommand i r cmd upper) := by
  cases hc : s.ctx? r with
  | none => simpa [State.takeSlotCommand, hc] using BeatEvent.same (SamePart.refl s)
  | some c =>
    cases hr : s.slotRefusal i r cmd upper c with
    | some res => simpa [State.takeSlotCommand, hc, hr] using BeatEvent.refuseSlot res hc
    | none =>
      cases cmd with
      | none => simpa [State.takeSlotCommand, hc, hr] using BeatEvent.same (SamePart.refl s)
      | some cmd =>
        obtain ⟨hh, ha, ho⟩ := State.slotRefusal_none hr
        simpa [State.takeSlotCommand, hc, hr] using BeatEvent.carrySlot hc hh ha ho

/-- An inbound beat (R18). -/
theorem BeatEvent.shadowInbound (r : SlotRef) (w : Fin 4) (b : WriteBeat) (s : State) :
    BeatEvent s (s.shadowInbound r w b) := by
  simp only [State.shadowInbound]
  split
  next c hc =>
    split
    next ho => exact .inbound r c _ hc ho
    next => exact .same (.refl s)
  next => exact .same (.refl s)

/-- A payload beat (R19). -/
theorem BeatEvent.shadowPayload (r : SlotRef) (w : Fin 4) (b : WriteBeat) (s : State) :
    BeatEvent s (s.shadowPayload r w b) := by
  simp only [State.shadowPayload]
  split
  next c hc =>
    split
    next ho => exact .payload r c _ hc ho
    next => exact .same (.refl s)
  next => exact .same (.refl s)

/-! ### The import area -/

/-- A blob beat (R96). -/
theorem BeatEvent.captureBlob (w : Nat) (b : WriteBeat) (s : State) : BeatEvent s (s.captureBlob w b) := by
  simp only [State.captureBlob]
  split
  · split
    next hc => exact .captured _ hc
    next => exact .same (.refl s)
  · exact .same (.refl s)

/-- What an import command that no step of R100 refuses has passed. -/
theorem State.importRefusal_none {s : State} {cmd : ImportCmd} {upper : BitVec 56}
    (h : s.importRefusal (some cmd) upper = none) :
    (s.zeroing = true → cmd = .inquire) ∧ s.status.hold = false ∧ s.keys.importState = .idle ∧
      acceptedIn cmd s.life.cycle = true := by
  simp only [State.importRefusal] at h
  repeat' split at h
  all_goals simp_all

/-- Only a command that is not IDLE is refused with BUSY (R100). -/
theorem State.importRefusal_busy {s : State} {cmd : Option ImportCmd} {upper : BitVec 56}
    (h : s.importRefusal cmd upper = some .busy) : s.keys.importState ≠ .idle := by
  simp only [State.importRefusal] at h
  repeat' split at h
  all_goals simp_all

/-- A command that ends as it is taken, in RUNNING. -/
theorem BeatEvent.endAtOnce {s : State} (hp : s.life.phase = .running) (command : Byte) (code : ImportCode)
    (index : Fin 64) (check : BitVec 24) (hb : code = .busy → s.keys.importState ≠ .idle) :
    BeatEvent s (s.endAtOnce command code index check) :=
  .ended s.keys.inquiry command code index check hp hb

section
variable {s : State} (hp : s.life.phase = .running) (hz : s.zeroing = false) (hh : s.status.hold = false)
  (hi : s.keys.importState = .idle)
include hp hz hh hi

theorem BeatEvent.placeUnlessTaken (cmd : ImportCmd) (kind : ImportKind) (h : Block) :
    BeatEvent s (s.placeUnlessTaken cmd kind h) := by
  simp only [State.placeUnlessTaken]
  split
  next => exact .endAtOnce hp _ _ _ _ (by simp)
  next =>
    split
    next => exact .endAtOnce hp _ _ _ _ (by simp)
    next hl => exact .placedJob cmd kind hp hz hh hi (by simpa using hl)

theorem BeatEvent.carryLoadPlain : BeatEvent s s.carryLoadPlain := by
  simp only [State.carryLoadPlain]
  split
  · exact .endAtOnce hp _ _ _ _ (by simp)
  · exact .placeUnlessTaken hp hz hh hi _ _ _

theorem BeatEvent.carryLoad : BeatEvent s s.carryLoad := by
  simp only [State.carryLoad]
  split
  · exact .endAtOnce hp _ _ _ _ (by simp)
  · split
    · exact .endAtOnce hp _ _ _ _ (by simp)
    · exact .placeUnlessTaken hp hz hh hi _ _ _

theorem BeatEvent.carryRevoke : BeatEvent s s.carryRevoke := by
  simp only [State.carryRevoke]
  repeat' split
  any_goals exact .endAtOnce hp _ _ _ _ (by simp)
  exact .withdrawn _ _ _ _ hp hz hh hi (.inl rfl)

theorem BeatEvent.carryErase : BeatEvent s s.carryErase := by
  simp only [State.carryErase]
  repeat' split
  any_goals exact .endAtOnce hp _ _ _ _ (by simp)
  exact .withdrawn _ _ _ _ hp hz hh hi (.inr ⟨_, rfl⟩)

theorem BeatEvent.carrySetReader (upper : BitVec 56) : BeatEvent s (s.carrySetReader upper) := by
  simp only [State.carrySetReader]
  split
  · exact .endAtOnce hp _ _ _ _ (by simp)
  · exact .placedAdmin _ _ hp hz hh hi (.inr ⟨_, rfl⟩)

theorem BeatEvent.carryFieldLock : BeatEvent s s.carryFieldLock := by
  simp only [State.carryFieldLock]
  repeat' split
  any_goals exact .endAtOnce hp _ _ _ _ (by simp)
  exact .placedAdmin _ _ hp hz hh hi (.inl rfl)

end

/-- An import command that steps 1 to 5 of R100 let pass. -/
theorem BeatEvent.carryImport {s : State} {cmd : ImportCmd} {upper : BitVec 56} (hp : s.life.phase = .running)
    (h : s.importRefusal (some cmd) upper = none) : BeatEvent s (s.carryImport cmd upper) := by
  obtain ⟨hz, hh, hi, -⟩ := State.importRefusal_none h
  have hz' : cmd ≠ .inquire → s.zeroing = false := fun hc => by
    cases he : s.zeroing
    · rfl
    · exact absurd (hz he) hc
  cases cmd with
  | loadPlain => exact .carryLoadPlain hp (hz' (by simp)) hh hi
  | load => exact .carryLoad hp (hz' (by simp)) hh hi
  | revoke => exact .carryRevoke hp (hz' (by simp)) hh hi
  | erase => exact .carryErase hp (hz' (by simp)) hh hi
  | inquire => exact .ended _ _ _ _ _ hp (by simp)
  | setReader => exact .carrySetReader hp (hz' (by simp)) hh hi upper
  | fieldLock => exact .carryFieldLock hp (hz' (by simp)) hh hi
  | zeroize => exact .zeroized _ _ _ _ hp (hz' (by simp))

/-- An import command word is taken (R100). -/
theorem BeatEvent.takeImportCommand (code : Byte) (upper : BitVec 56) (s : State) :
    BeatEvent s (s.takeImportCommand code upper) := by
  by_cases hp : s.life.phase = .running
  · cases hr : s.importRefusal (importCommandOf code) upper with
    | some refused =>
      simpa [State.takeImportCommand, hp, hr] using
        BeatEvent.endAtOnce hp code refused 0 0#24 fun hb => State.importRefusal_busy (hb ▸ hr)
    | none =>
      cases hc : importCommandOf code with
      | none =>
        rw [hc] at hr
        simpa [State.takeImportCommand, hp, hr, hc] using BeatEvent.same (SamePart.refl s)
      | some cmd =>
        rw [hc] at hr
        simpa [State.takeImportCommand, hp, hr, hc] using BeatEvent.carryImport hp hr
  · simpa [State.takeImportCommand, hp] using BeatEvent.same (SamePart.refl s)

/-! ### The settings -/

/-- A taken setting, in RUNNING (R181). -/
theorem BeatEvent.applySetting {s : State} (hp : s.life.phase = .running) (word : StatusWord) (w : Word) :
    BeatEvent s (s.applySetting word w) := by
  cases word
  case hold =>
    simp only [State.applySetting, State.writeHold]
    repeat' split
    · exact .same (.refl s)
    next hh => exact .holdSet hp (by simpa using hh)
    · exact .holdCleared hp
  case epochControl =>
    simp only [State.applySetting, State.writeEpochControl, State.switchNow, State.cancelSchedule]
    repeat' split
    next p hs => exact .switched _ (by simp [hs])
    all_goals exact .same (by constructor <;> intros <;> first | rfl | contradiction)
  case epoch =>
    simp only [State.applySetting, State.writeSchedule]
    split
    all_goals exact .same (by constructor <;> intros <;> first | rfl | contradiction)
  case causes =>
    simp only [State.applySetting, State.clearCauses]
    split
    all_goals exact .same (by constructor <;> intros <;> first | rfl | contradiction)
  all_goals exact .same (by constructor <;> intros <;> first | rfl | contradiction)

/-- A beat to a status word (R181). -/
theorem BeatEvent.writeStatus (word : StatusWord) (w : Word) (s : State) : BeatEvent s (s.writeStatus word w) := by
  by_cases h : s.settingTaken word = true
  · have hp : s.life.phase = .running := by
      simp only [State.settingTaken, Bool.and_eq_true, beq_iff_eq] at h
      exact h.1.1
    simpa [State.writeStatus, h] using BeatEvent.applySetting hp word w
  · simpa [State.writeStatus, h] using BeatEvent.same (SamePart.refl s)

/-! ### Beats, and the rows that are one beat -/

/-- Any beat of a write (R142). -/
theorem BeatEvent.applyBeat (i : Initiator) (p : Place) (b : WriteBeat) (s : State) :
    BeatEvent s (s.applyBeat i p b) := by
  cases p with
  | memory => exact .same (.refl s)
  | slot r word =>
    simp only [State.applyBeat]
    repeat' split
    · exact .shadowInbound r _ b s
    · exact .shadowPayload r _ b s
    · exact .takeSlotCommand i r _ _ s
    · exact .same (.refl s)
  | status word => exact .writeStatus word b.data s
  | importArea word =>
    simp only [State.applyBeat]
    split
    · exact .takeImportCommand _ _ s
    · exact .captureBlob _ b s

/-- Beats one after another. -/
abbrev BeatRun : State → State → Prop := Relation.ReflTransGen fun s t => BeatEvent s t

theorem BeatRun.single {s t : State} (h : BeatEvent s t) : BeatRun s t := Relation.ReflTransGen.single h

theorem BeatRun.same {s t : State} (h : SamePart s t) : BeatRun s t := BeatRun.single (.same h)

/-- The beats of a write (R4, R142). -/
theorem BeatRun.applyBeats (i : Initiator) (l : List (Place × WriteBeat)) (s : State) :
    BeatRun s (State.applyBeats i l s) := by
  induction l generalizing s with
  | nil => exact .refl
  | cons pb l ih => exact (BeatRun.single (.applyBeat i pb.1 pb.2 s)).trans (ih _)

/-- A row that is one beat of a slot record. -/
theorem BeatRun.slotBeat {r : SlotRef} {offset : Nat} {b : WriteBeat} {act : State → State} {s : State}
    (h : BeatEvent s (act s)) : BeatRun s (s.slotBeat r offset b act) := by
  simp only [State.slotBeat]
  split
  · exact .refl
  · exact (BeatRun.single h).trans (BeatRun.same (.forwardBeat _ _ _))

/-- A row that is one beat of the control region. -/
theorem BeatRun.controlBeat {offset : Nat} {b : WriteBeat} {act : State → State} {s : State}
    (h : BeatEvent s (act s)) : BeatRun s (s.controlBeat offset b act) := by
  simp only [State.controlBeat]
  split
  · exact .refl
  · exact (BeatRun.single h).trans (BeatRun.same (.forwardBeat _ _ _))

/-- WRITE_TAKEN (R142). -/
theorem BeatRun.admitWrite (i : Initiator) (r : Request) (beats : List WriteBeat) (s : State) :
    BeatRun s (s.admitWrite i r beats) :=
  (BeatRun.applyBeats i _ s).trans ((BeatRun.same (.setQueue _ _ _)).trans (BeatRun.same (.memOut _ _)))

end Sys2Proof.Machine
end

