-- ==== Sys2Proof/Proofs/Jobs.lean ====
section
/-! SUPPORT. Each row, as an event of the part, and the inversion of `step`. -/

namespace Sys2Proof.Machine

open Sys2Proof.Safety

/-- A row that is no beat did one event, up to what no invariant speaks of. -/
def RowDoes (s t : State) : Prop := ∃ u v, SamePart s u ∧ RowEvent u v ∧ SamePart v t

theorem RowDoes.of_event {s t : State} (h : RowEvent s t) : RowDoes s t := ⟨s, t, .refl s, h, .refl t⟩

theorem RowDoes.before {s u t : State} (h : SamePart s u) (e : RowDoes u t) : RowDoes s t := by
  obtain ⟨v, w, hv, he, hw⟩ := e
  exact ⟨v, w, h.trans hv, he, hw⟩

theorem RowDoes.after {s t u : State} (e : RowDoes s t) (h : SamePart t u) : RowDoes s u := by
  obtain ⟨v, w, hv, he, hw⟩ := e
  exact ⟨v, w, hv, he, hw.trans h⟩

/-- What any row did: beats, or one event of its own. -/
def StepDoes (s t : State) : Prop := BeatRun s t ∨ RowDoes s t

theorem StepDoes.same {s t : State} (h : SamePart s t) : StepDoes s t := .inl (BeatRun.same h)

theorem StepDoes.event {s t : State} (h : RowEvent s t) : StepDoes s t := .inr (.of_event h)

theorem StepDoes.before {s u t : State} (h : SamePart s u) : StepDoes u t → StepDoes s t
  | .inl r => .inl ((BeatRun.same h).trans r)
  | .inr e => .inr (e.before h)

/-! ### Slot jobs -/

/-- Replacing a context twice leaves the second. -/
theorem State.setCtx_setCtx (s : State) (r : SlotRef) (a b : SlotCtx) : (s.setCtx r a).setCtx r b = s.setCtx r b := by
  simp only [State.setCtx, List.map_map]
  congr 2
  apply List.map_congr_left
  intro p _
  by_cases h : p.1 = r <;> simp [h]

/-- The completion of the job of a BUSY slot (R45). -/
theorem State.completeSlotJob_busy {s : State} {r : SlotRef} {c : SlotCtx} (deliver : SlotCtx → State → State)
    (hc : s.ctx? r = some c) (hb : c.state = .busy) :
    s.completeSlotJob r false deliver =
      (if c.withdrawn then s.idleEngine.enterEnd r (faultCtx .keyWithdrawn c)
        else deliver c s.idleEngine).settleHolds := by
  have hc' : s.idleEngine.ctx? r = some c := hc
  simp only [State.completeSlotJob, hc', hb]
  cases c.withdrawn <;> simp

/-- The completion of the job of an ABORTING slot (R16, R45). -/
theorem State.completeSlotJob_aborting {s : State} {r : SlotRef} {c : SlotCtx} (deliver : SlotCtx → State → State)
    (hc : s.ctx? r = some c) (ha : c.state = .aborting) :
    s.completeSlotJob r false deliver = (s.idleEngine.setCtx r (clearCtx c)).settleHolds := by
  have hc' : s.idleEngine.ctx? r = some c := hc
  simp [State.completeSlotJob, hc', ha]

/-- The completion of a discarded job (R45, R49). -/
theorem State.completeSlotJob_discarded (s : State) (r : SlotRef) (deliver : SlotCtx → State → State) :
    s.completeSlotJob r true deliver = s.idleEngine := by simp [State.completeSlotJob]

/-- The completion of a job whose slot is in no job (R45; log entry 28). -/
theorem State.completeSlotJob_lost {s : State} {r : SlotRef} (deliver : SlotCtx → State → State)
    (h : ∀ c, s.ctx? r = some c → c.state ≠ .busy ∧ c.state ≠ .aborting) :
    s.completeSlotJob r false deliver = s.idleEngine := by
  have hi : s.idleEngine.ctx? r = s.ctx? r := rfl
  simp only [State.completeSlotJob, hi]
  cases hc : s.ctx? r with
  | none => simp
  | some c => simp [h c hc]

/-- What the delivery of a VERIFY result leaves of the slot (R46). -/
theorem State.deliverVerify_ends (s : State) (r : SlotRef) (g : BitVec 8) (res : VerifyResult) (c : SlotCtx)
    (hw : c.withdrawn = false) (hr : res ≠ .keyReason .duplicate) :
    ∃ c' f, JobEnds c .verify c' ∧ SamePart ({ s with filter := f }.setCtx r c') (s.deliverVerify r g res c) := by
  cases res with
  | authenticated =>
    simp only [State.deliverVerify]
    generalize s.filter.classify (readingOf r g c s.time.lt) = out
    obtain ⟨f, cls⟩ := out
    cases cls with
    | accept evicted =>
      refine ⟨_, f, .accept hw, (SamePart.enterEnd r _ { s with filter := f }).trans ?_⟩
      cases evicted
      · exact SamePart.bump _ _ _
      · exact (SamePart.bump .accept 1 _).trans (SamePart.bump .evictions 1 _)
    | duplicate info =>
      exact ⟨_, f, .duplicate info hw, (SamePart.enterEnd r _ { s with filter := f }).trans (SamePart.bump _ _ _)⟩
    | replay =>
      exact ⟨_, f, .fails (.reject .replay (by simp) hw),
        (SamePart.enterEnd r _ { s with filter := f }).trans (SamePart.bump _ _ _)⟩
  | badMac =>
    exact ⟨_, s.filter, .fails (.reject .badMac (by simp) hw), (SamePart.enterEnd r _ s).trans (SamePart.bump _ _ _)⟩
  | keyReason reason =>
    exact ⟨_, s.filter, .fails (.reject reason (fun h => hr (h ▸ rfl)) hw),
      (SamePart.enterEnd r _ s).trans (SamePart.bump _ _ _)⟩

/-- A lookup that fails gives one of the key reasons (R43). -/
theorem State.lookupTag_ne_duplicate {s : State} {c : SlotCtx} {reason : Reason} (h : s.lookupTag c = .inl reason) :
    reason ≠ .duplicate := by
  simp only [State.lookupTag] at h
  repeat' split at h
  all_goals simp_all
  all_goals subst h; simp

/-- A slot job that completes (R45). -/
theorem StepDoes.completeSlotJob {s : State} {r : SlotRef} {kind : JobKind} {j : Job}
    {deliver : SlotCtx → State → State} (hj : s.engine.job = some j) (hs : isServiceJob j = true)
    (hi : liveImport s.engine = none)
    (hl : liveJob s.engine = if j.discard then none else some (r, kind))
    (hd : ∀ c, s.ctx? r = some c → c.withdrawn = false →
      ∃ c' f, JobEnds c kind c' ∧ SamePart ({ s with filter := f }.idleEngine.setCtx r c') (deliver c s.idleEngine)) :
    StepDoes s (s.completeSlotJob r j.discard deliver) := by
  cases hdis : j.discard with
  | true =>
    rw [State.completeSlotJob_discarded]
    exact .event (.jobLost j hj hs hi fun r' k c h => by simp [hdis] at hl; simp [hl] at h)
  | false =>
    simp only [hdis] at hl
    by_cases hbusy : ∃ c, s.ctx? r = some c ∧ c.state = .busy
    · obtain ⟨c, hc, hb⟩ := hbusy
      rw [State.completeSlotJob_busy deliver hc hb]
      cases hw : c.withdrawn with
      | true =>
        refine .inr ((RowDoes.of_event
          (.jobEnded r kind c _ s.filter hl hc hb (.fails (.fault .keyWithdrawn (by simp))))).after ?_)
        simpa using (SamePart.enterEnd r _ s.idleEngine).trans (.settleHolds _)
      | false =>
        obtain ⟨c', f, he, hsame⟩ := hd c hc hw
        refine .inr ((RowDoes.of_event (.jobEnded r kind c c' f hl hc hb he)).after ?_)
        simpa using hsame.trans (.settleHolds _)
    · by_cases hab : ∃ c, s.ctx? r = some c ∧ c.state = .aborting
      · obtain ⟨c, hc, ha⟩ := hab
        rw [State.completeSlotJob_aborting deliver hc ha]
        exact .inr ((RowDoes.of_event (.jobAborted r kind c hl hc ha)).after (.settleHolds _))
      · have hn : ∀ c, s.ctx? r = some c → c.state ≠ .busy ∧ c.state ≠ .aborting :=
          fun c hc => ⟨fun h => hbusy ⟨c, hc, h⟩, fun h => hab ⟨c, hc, h⟩⟩
        rw [State.completeSlotJob_lost deliver hn]
        refine .event (.jobLost j hj hs hi fun r' k c h hc => ?_)
        simp only [hl, Bool.false_eq_true, if_false, Option.some.injEq, Prod.mk.injEq] at h
        exact hn c (h.1 ▸ hc)

/-- VERIFY_COMPLETE (R44, R45, R46). -/
theorem StepDoes.verifyComplete {s t : State} (h : execVerifyComplete s = .next t) : StepDoes s t := by
  simp only [execVerifyComplete] at h
  split at h
  next r g e key discard hj =>
    cases h
    refine StepDoes.completeSlotJob (kind := .verify) hj rfl (by simp [liveImport, hj]) ?_ fun c hc hw => ?_
    · cases discard <;> simp [liveJob, hj]
    · exact s.idleEngine.deliverVerify_ends r g _ c hw (by simp only [verifyResult]; split <;> simp)
  next => cases h; exact .same (.refl s)

/-- SEAL_COMPLETE (R45, R48). -/
theorem StepDoes.sealComplete {s t : State} (h : execSealComplete s = .next t) : StepDoes s t := by
  simp only [execSealComplete] at h
  split at h
  next r g e key discard hj =>
    cases h
    refine StepDoes.completeSlotJob (kind := .sealing) hj rfl (by simp [liveImport, hj]) ?_ fun c hc hw => ?_
    · cases discard <;> simp [liveJob, hj]
    · exact ⟨_, s.filter, .sealed _ _ hw, SamePart.enterEnd r _ s.idleEngine⟩
  next => cases h; exact .same (.refl s)

/-- A slot job that fails as it is taken (R43, R48, R55). -/
theorem StepDoes.tookFailing {s : State} {r : SlotRef} {rest : List SlotRef} {c : SlotCtx}
    {deliver : SlotCtx → State → State} (hj : s.engine.job = none) (hf : s.engine.fifo = r :: rest)
    (hc : s.ctx? r = some c)
    (hd : c.withdrawn = false → ∃ c', JobFails { c with state := .busy } c' ∧ ∀ u : State,
      SamePart (u.setCtx r c') (deliver { c with state := .busy } u)) :
    StepDoes s (((s.popFifo rest).setCtx r { c with state := .busy }).completeSlotJob r false deliver) := by
  have hc1 : ((s.popFifo rest).setCtx r { c with state := .busy }).ctx? r = some { c with state := .busy } :=
    State.ctx?_setCtx_self _ r _ c hc
  have hid : ((s.popFifo rest).setCtx r { c with state := .busy }).idleEngine =
      (s.popFifo rest).setCtx r { c with state := .busy } := by
    simp [State.idleEngine, State.setCtx, State.popFifo, hj]
  rw [State.completeSlotJob_busy deliver hc1 rfl, hid]
  obtain ⟨c', hf', hsame⟩ : ∃ c', JobFails { c with state := .busy } c' ∧
      SamePart ((s.popFifo rest).setCtx r c') (if c.withdrawn then
        ((s.popFifo rest).setCtx r { c with state := .busy }).enterEnd r
          (faultCtx .keyWithdrawn { c with state := .busy })
        else deliver { c with state := .busy } ((s.popFifo rest).setCtx r { c with state := .busy })) := by
    by_cases hw : c.withdrawn = true
    · refine ⟨_, .fault .keyWithdrawn (by simp), ?_⟩
      have := SamePart.enterEnd r (faultCtx .keyWithdrawn { c with state := .busy })
        ((s.popFifo rest).setCtx r { c with state := .busy })
      rw [State.setCtx_setCtx] at this
      simpa [hw] using this
    · obtain ⟨c', h1, h2⟩ := hd (by simpa using hw)
      refine ⟨c', h1, ?_⟩
      have := h2 ((s.popFifo rest).setCtx r { c with state := .busy })
      rw [State.setCtx_setCtx] at this
      simpa [hw] using this
  exact .inr ((RowDoes.of_event (.tookFailing r rest c c' hj hf hc hf')).after (hsame.trans (.settleHolds _)))

/-- A VERIFY job whose lookup finds no usable key completes as it is taken (R43, R55). -/
theorem State.takeSlotJob_verify_failing {s : State} {r : SlotRef} (rest : List SlotRef) {c : SlotCtx} {reason : Reason}
    (hc : s.ctx? r = some c) (hk : c.jobKind = some .verify) (hl : s.lookupTag c = .inl reason) :
    s.takeSlotJob r rest = ((s.popFifo rest).setCtx r { c with state := .busy }).completeSlotJob r false
      fun c' t => t.deliverVerify r c.generation (.keyReason reason) c' := by
  simp [State.takeSlotJob, hc, hk, hl]

/-- A SEAL job that finds no RECORD key completes as it is taken (R47, R48). -/
theorem State.takeSlotJob_sealing_failing {s : State} {r : SlotRef} (rest : List SlotRef) {c : SlotCtx}
    (hc : s.ctx? r = some c) (hk : c.jobKind = some .sealing) (hl : s.selectRecord (tagKeySet c) = none) :
    s.takeSlotJob r rest = ((s.popFifo rest).setCtx r { c with state := .busy }).completeSlotJob r false
      fun c' t => t.deliverSeal r none c' := by
  simp [State.takeSlotJob, hc, hk, hl]

/-- A SEAL job starts with the RECORD key that the selection finds (R41, R47). -/
theorem State.takeSlotJob_sealing {s : State} {r : SlotRef} (rest : List SlotRef) {c : SlotCtx} {k : Fin 64}
    (hc : s.ctx? r = some c) (hk : c.jobKind = some .sealing) (hl : s.selectRecord (tagKeySet c) = some k) :
    s.takeSlotJob r rest = ((s.popFifo rest).setCtx r { c with state := .busy, recordEntry := some k }).startJob
      (.sealing r c.generation s.time.epoch ((s.entry k).key.getD 0#128)) := by
  simp [State.takeSlotJob, hc, hk, hl]

/-- The engine takes a slot job (R41, R43, R47). -/
theorem StepDoes.takeSlotJob {s : State} {r : SlotRef} {rest : List SlotRef} (hj : s.engine.job = none)
    (hf : s.engine.fifo = r :: rest) : StepDoes s (s.takeSlotJob r rest) := by
  cases hc : s.ctx? r with
  | none => simpa [State.takeSlotJob, hc] using StepDoes.same (SamePart.refl s)
  | some c =>
    cases hk : c.jobKind with
    | none => simpa [State.takeSlotJob, hc, hk] using StepDoes.same (SamePart.refl s)
    | some kind =>
      cases kind with
      | verify =>
        cases hl : s.lookupTag c with
        | inl reason =>
          rw [State.takeSlotJob_verify_failing rest hc hk hl]
          refine .tookFailing hj hf hc fun hw => ⟨_, .reject reason (State.lookupTag_ne_duplicate hl) hw, fun u => ?_⟩
          exact (SamePart.enterEnd r _ u).trans (.bump _ _ _)
        | inr k =>
          rw [State.takeSlotJob_verify r rest s c k hc hk hl]
          exact .event (.tookVerify r rest c k _ hj hf hc hk)
      | sealing =>
        cases hl : s.selectRecord (tagKeySet c) with
        | none =>
          rw [State.takeSlotJob_sealing_failing rest hc hk hl]
          refine .tookFailing hj hf hc fun _ => ⟨_, .fault .noRecordKey (by simp), fun u => ?_⟩
          exact SamePart.enterEnd r _ u
        | some k =>
          rw [State.takeSlotJob_sealing rest hc hk hl]
          exact .event (.tookSeal r rest c k _ hj hf hc hk)

/-- ENGINE_TAKE_JOB (R40). -/
theorem StepDoes.engineTakeJob {s t : State} (h : execEngineTakeJob s = .next t) : StepDoes s t := by
  simp only [execEngineTakeJob] at h
  split at h
  next hj =>
    cases h
    simp only [State.arbitrate]
    split
    next => exact .same (.refl s)
    next kind hp _ => exact .event (.tookImport kind hj (by assumption))
    next => exact .takeSlotJob hj (by assumption)
    next =>
      split
      · exact .takeSlotJob hj (by assumption)
      · exact .event (.tookImport _ hj (by assumption))
  next => cases h; exact .same (.refl s)

end Sys2Proof.Machine
end

