-- ==== Sys2Proof/Proofs/Steps.lean ====
section
/-! SUPPORT. The remaining rows as events, and the inversion of `step`. -/

namespace Sys2Proof.Machine

open Sys2Proof.Safety

/-! ### Completions of other jobs -/

/-- IMPORT_COMPLETE (R49, R53). -/
theorem StepDoes.importComplete {s t : State} (h : execImportComplete s = .next t) : StepDoes s t := by
  simp only [execImportComplete] at h
  split at h
  next kind hd w mac tr discard hj =>
    cases discard with
    | true =>
      cases h
      exact .event (.jobLost _ hj rfl (by simp [liveImport, hj]) fun r k c hl => by simp [liveJob, hj] at hl)
    | false =>
      cases h
      exact .event (.handedOver kind hd _ (by simp [liveImport, hj]))
  next => cases h; exact .same (.refl s)

/-- CHECK_COMPLETE (R54). -/
theorem StepDoes.checkComplete {s t : State} (h : execCheckComplete s = .next t) : StepDoes s t := by
  simp only [execCheckComplete] at h
  split at h
  next i key d hj => cases h; exact .event (.checked i key ⟨d, hj⟩)
  next => cases h; exact .same (.refl s)

/-! ### Clocks and pins -/

/-- TICK (R115). -/
theorem StepDoes.tick {s t : State} (h : execTick s = .next t) : StepDoes s t := by
  simp only [execTick] at h
  split at h <;> cases h
  · exact .same (.refl s)
  · exact .same (by constructor <;> intros <;> first | rfl | assumption)

/-- SYNC_EDGE (R120, R121). A countdown that goes on is no event. -/
theorem StepDoes.syncEdge {s t : State} (h : execSyncEdge s = .next t) : StepDoes s t := by
  simp only [execSyncEdge] at h
  split at h <;> cases h
  · refine StepDoes.before (u := { s with time := { s.time with
      capture := some s.time.lt, pulses := s.time.pulses + 1#16 } }) ?_ ?_
    · constructor <;> intros <;> first | rfl | assumption
    · simp only [State.countDown]
      split
      next => exact .same (.refl _)
      next p hp =>
        split
        · exact .event (.switched _ (by simp [hp]))
        · exact .same (by constructor <;> intros <;> first | rfl | assumption | simp_all)
  · exact .same (.bump _ _ s)

/-- A tamper event (R174). -/
theorem StepDoes.tamperEvent (s : State) : StepDoes s s.tamperEvent := by
  have hrec : SamePart s ({ s with life := { s.life with tamperSeen := true } }.raise .tamper) :=
    (SamePart.sampler { s.life with tamperSeen := true } s rfl rfl).trans (.raise _ _)
  simp only [State.tamperEvent]
  split
  · exact .same (hrec.trans (.sampler _ _ rfl rfl))
  next hp =>
    split
    next hc => exact .before hrec (.event (.tamper hp (by simp [State.zeroing, hc])))
    · exact .same hrec

/-- TAMPER_SAMPLE (R173, R174). -/
theorem StepDoes.tamperSample {s t : State} {asserted : Bool} (h : execTamperSample asserted s = .next t) :
    StepDoes s t := by
  simp only [execTamperSample] at h
  repeat' split at h
  all_goals cases h
  · exact .same (.refl s)
  · exact .before (.sampler { s.life with tamperCount := 0#4, armed := false } s rfl rfl)
      (.tamperEvent (s.setSampler 0#4 false))
  · exact .same (.sampler _ s rfl rfl)
  · exact .same (.refl s)
  · exact .same (.sampler _ s rfl rfl)

/-- DEADLINE_REACHED (R21, R23). -/
theorem StepDoes.deadlineReached {s t : State} {r : SlotRef} (h : execDeadlineReached r s = .next t) :
    StepDoes s t := by
  simp only [execDeadlineReached] at h
  split at h
  next c hc =>
    split at h <;> cases h
    next hd =>
      have hd' : c.deadline ≠ none := by simp [hd]
      simp only [State.deadline]
      split
      next he =>
        refine .inr ((RowDoes.of_event (.expired r c hc hd' he)).after ?_)
        refine SamePart.trans ?_ (.settleHolds _)
        constructor <;> intros <;> first | rfl | assumption
      next =>
        split
        next hl =>
          simp only [Bool.and_eq_true] at hl
          exact .inr ((RowDoes.of_event (.late r c hc hd' hl.1)).after (.bump _ _ _))
        next => exact .same (.refl s)
    next => exact .same (.refl s)
  next => cases h; exact .same (.refl s)

/-! ### The ports -/

/-- READ_TAKEN (R143). -/
theorem StepDoes.readTaken {s t : State} {i : Initiator} (h : execReadTaken i s = .next t) : StepDoes s t := by
  have hadmit : ∀ r, SamePart s (s.admitRead i r) := fun r => by
    simp only [State.admitRead]
    split <;> constructor <;> intros <;> first | rfl | assumption
  simp only [execReadTaken] at h
  repeat' split at h
  all_goals cases h
  · exact .same (.refl s)
  · exact .same (.refl s)
  · exact .same (.refuse _ _ _ s)
  · exact .same (hadmit _)

/-- WRITE_TAKEN (R142). -/
theorem StepDoes.writeTaken {s t : State} {i : Initiator} {beats : List WriteBeat}
    (h : execWriteTaken i beats s = .next t) : StepDoes s t := by
  simp only [execWriteTaken] at h
  repeat' split at h
  all_goals cases h
  · exact .same (.refl s)
  · exact .same (.refl s)
  · exact .same (.refuse _ _ _ s)
  · exact .inl (.admitWrite i _ beats s)

/-- REQUEST_ACCEPT (R136). -/
theorem StepDoes.requestAccept {s t : State} {r : Request} (h : execRequestAccept r s = .next t) : StepDoes s t := by
  simp only [execRequestAccept] at h
  split at h <;> cases h
  · exact .same (.setQueue _ _ s)
  · exact .same (.refl s)

/-- MEMORY_READ_RESPONSE (R143). -/
theorem StepDoes.memoryReadResponse {s t : State} {i : Initiator} {place : Fin 8} {beats : List ReadBeat}
    (h : execMemoryReadResponse i place beats s = .next t) : StepDoes s t := by
  simp only [execMemoryReadResponse] at h
  split at h
  · split at h <;> cases h
    · exact .same (.refl s)
    · exact .same ((SamePart.setQueue _ _ s).trans (.giveResponses _))
  · cases h; exact .same (.refl s)

/-- MEMORY_WRITE_RESPONSE (R142). -/
theorem StepDoes.memoryWriteResponse {s t : State} {i : Initiator} {place : Fin 8} {resp : Resp}
    (h : execMemoryWriteResponse i place resp s = .next t) : StepDoes s t := by
  simp only [execMemoryWriteResponse] at h
  split at h
  · split at h <;> cases h
    · exact .same (.refl s)
    · exact .same ((SamePart.setQueue _ _ s).trans (.giveResponses _))
  · cases h; exact .same (.refl s)

/-! ### The NV writer and start-up -/

/-- NV_OPERATION_END (R92, R93). -/
theorem StepDoes.nvOperationEnd {s t : State} {passed : Bool} (h : execNvOperationEnd passed s = .next t) :
    StepDoes s t := by
  simp only [execNvOperationEnd] at h
  split at h <;> cases h
  next op hr => exact .before (.noteVerify passed s) (.event (.adminEnded op passed hr))
  next v hr => exact .before (.noteVerify passed s) (.event (.epochEnded v passed hr))
  next v hr => exact .before (.noteVerify passed s) (.event (.reservationEnded v passed hr))
  next v hr => exact .before (.noteVerify passed s) (.event (.reserveEnded v passed hr))
  next hr =>
    cases passed with
    | true => exact .before (.noteVerify true s) (.event (.blankWritten hr))
    | false => exact .before (.noteVerify false s) (.same (.refl _))
  next => exact .same (.refl s)
  next => exact .same (.refl s)

/-- NV_ZEROIZE_STAGE_END (R176). -/
theorem StepDoes.nvZeroizeStageEnd {s t : State} (h : execNvZeroizeStageEnd s = .next t) : StepDoes s t := by
  simp only [execNvZeroizeStageEnd] at h
  split at h
  next n hr =>
    split at h <;> cases h
    · exact .same (.refl s)
    next hn => exact .event (.stagePassed n hr hn)
  next => cases h; exact .same (.refl s)

/-- NV_ZEROIZE_ATTEMPT_END (R176, R178). -/
theorem StepDoes.nvZeroizeAttemptEnd {s t : State} {passed : Bool} (h : execNvZeroizeAttemptEnd passed s = .next t) :
    StepDoes s t := by
  simp only [execNvZeroizeAttemptEnd] at h
  split at h
  next n hr =>
    cases passed with
    | true =>
      simp only [if_true] at h
      split at h <;> cases h
      next hp => exact .event (.zeroizeThenBlank n hr hp)
      next hp => exact .event (.zeroizeDone n hr hp)
    | false =>
      simp only [Bool.false_eq_true, if_false] at h
      split at h <;> cases h
      · exact .same (.refl s)
      next hn =>
        refine .inr ((RowDoes.of_event (.attemptFailed n hr hn)).after ?_)
        constructor <;> intros <;> first | rfl | assumption
  next => cases h; exact .same (.refl s)

/-- A life-cycle word never reads as ZEROIZING (R167). -/
theorem lifeOfWord_ne_zeroizing (w : Byte) : lifeOfWord w ≠ .zeroizing := by
  simp only [lifeOfWord]
  repeat' split
  all_goals simp

/-- NV_READ_END (R167, R168). -/
theorem StepDoes.nvReadEnd {s t : State} (h : execNvReadEnd s = .next t) : StepDoes s t := by
  simp only [execNvReadEnd] at h
  split at h
  · cases h; exact .same (.refl s)
  next hn =>
    simp only [ne_eq, not_or, not_not, Bool.not_eq_true, Option.isSome_eq_false_iff, Option.isNone_iff_eq_none] at hn
    obtain ⟨hp, hr⟩ := hn
    split at h <;> cases h
    · exact .event (.readZeroized hp hr)
    next hl => exact .event (.readEnded _ _ hp hr (lifeOfWord_ne_zeroizing _) hl)

/-- MAP_TABLE_READ_START (R146). -/
theorem StepDoes.mapTableReadStart {s t : State} (h : execMapTableReadStart s = .next t) : StepDoes s t := by
  simp only [execMapTableReadStart] at h
  split at h <;> cases h
  next hl => exact .same (by constructor <;> intros <;> first | rfl | simp_all)
  next => exact .same (.refl s)

/-- MAP_TABLE_READ_END (R156). -/
theorem StepDoes.mapTableReadEnd {s t : State} {first second : List ReadBeat}
    (h : execMapTableReadEnd first second s = .next t) : StepDoes s t := by
  simp only [execMapTableReadEnd] at h
  split at h
  · cases h; exact .same (.refl s)
  next hl =>
    simp only [ne_eq, not_or, not_not] at hl
    obtain ⟨hl, hf⟩ := hl
    split at h
    next => cases h; exact .event (.mapFaulted _ _ hl)
    next =>
      split at h
      · cases h; exact .same (.refl s)
      next hs =>
        split at h
        next => cases h; exact .before (.memOut _ s) (.event (.mapFaulted _ _ hl))
        next =>
          cases h
          refine .before (.memOut (s.memOut ++ [.tableRead (s.tableAddr 1)]) s) ?_
          simp only [State.judgeTable]
          split
          next => exact .event (.mapFaulted _ _ hl)
          next hv => exact .event (.installed _ hl (by simp only [ne_eq, not_not] at hs; simp [hf, hs]) hv)

/-! ### Every row -/

/-- Every row did beats, or one event of its own. -/
theorem exec_does {row : Instr} {s t : State} (h : exec row s = .next t) : StepDoes s t := by
  cases row with
  | powerOnReset straps =>
    cases h
    refine .inr ((RowDoes.of_event (.powerOn straps)).after ?_)
    constructor <;> intros <;> rfl
  | tick => exact .tick h
  | syncEdge => exact .syncEdge h
  | tamperSample asserted => exact .tamperSample h
  | deadlineReached r => exact .deadlineReached h
  | readHoldLimit i => cases h; exact .same (.endAtLimit i s)
  | requestAccept r => exact .requestAccept h
  | readTaken i => exact .readTaken h
  | writeTaken i beats => exact .writeTaken h
  | memoryReadResponse i place beats => exact .memoryReadResponse h
  | memoryWriteResponse i place resp => exact .memoryWriteResponse h
  | inboundShadowWrite r w b => cases h; exact .inl (.slotBeat (.shadowInbound r w b s))
  | payloadShadowWrite r w b => cases h; exact .inl (.slotBeat (.shadowPayload r w b s))
  | openSlot i r cw upper => cases h; exact .inl (.slotBeat (.takeSlotCommand i r _ upper s))
  | arm i r cw upper => cases h; exact .inl (.slotBeat (.takeSlotCommand i r _ upper s))
  | sealSlot i r cw upper => cases h; exact .inl (.slotBeat (.takeSlotCommand i r _ upper s))
  | release i r cw upper => cases h; exact .inl (.slotBeat (.takeSlotCommand i r _ upper s))
  | abort i r cw upper => cases h; exact .inl (.slotBeat (.takeSlotCommand i r _ upper s))
  | engineTakeJob => exact .engineTakeJob h
  | verifyComplete => exact .verifyComplete h
  | sealComplete => exact .sealComplete h
  | importComplete => exact .importComplete h
  | checkComplete => exact .checkComplete h
  | blobWrite w b => cases h; exact .inl (.controlBeat (.captureBlob w.val b s))
  | loadPlain upper => cases h; exact .inl (.controlBeat (.takeImportCommand _ upper s))
  | load upper => cases h; exact .inl (.controlBeat (.takeImportCommand _ upper s))
  | revoke upper => cases h; exact .inl (.controlBeat (.takeImportCommand _ upper s))
  | erase upper => cases h; exact .inl (.controlBeat (.takeImportCommand _ upper s))
  | inquire upper => cases h; exact .inl (.controlBeat (.takeImportCommand _ upper s))
  | setReader upper => cases h; exact .inl (.controlBeat (.takeImportCommand _ upper s))
  | fieldLock upper => cases h; exact .inl (.controlBeat (.takeImportCommand _ upper s))
  | zeroize upper => cases h; exact .inl (.controlBeat (.takeImportCommand _ upper s))
  | nvOperationEnd passed => exact .nvOperationEnd h
  | nvZeroizeAttemptEnd passed => exact .nvZeroizeAttemptEnd h
  | nvReadEnd => exact .nvReadEnd h
  | mapTableReadStart => exact .mapTableReadStart h
  | mapTableReadEnd first second => exact .mapTableReadEnd h
  | mapWordWrite w => cases h; exact .inl (.controlBeat (.writeStatus _ w s))
  | preWrite w => cases h; exact .inl (.controlBeat (.writeStatus _ w s))
  | epochScheduleWrite w => cases h; exact .inl (.controlBeat (.writeStatus _ w s))
  | switchNow => cases h; exact .inl (.controlBeat (.writeStatus _ _ s))
  | cancel => cases h; exact .inl (.controlBeat (.writeStatus _ _ s))
  | attentionCausesWrite w => cases h; exact .inl (.controlBeat (.writeStatus _ w s))
  | attentionEnablesWrite w => cases h; exact .inl (.controlBeat (.writeStatus _ w s))
  | unmappedRightsWrite w => cases h; exact .inl (.controlBeat (.writeStatus _ w s))
  | duplicateIntervalWrite w => cases h; exact .inl (.controlBeat (.writeStatus _ w s))
  | holdTimeWrite w => cases h; exact .inl (.controlBeat (.writeStatus _ w s))
  | holdSet upper => cases h; exact .inl (.controlBeat (.writeStatus _ _ s))
  | holdClear upper => cases h; exact .inl (.controlBeat (.writeStatus _ _ s))
  | counterClear w => cases h; exact .inl (.controlBeat (.writeStatus _ w s))
  | resetNRelease =>
    simp only [exec, execResetNRelease] at h
    split at h <;> cases h
    · exact .same (by constructor <;> intros <;> first | rfl | assumption)
    · exact .same (.refl s)
  | nvZeroizeStageEnd => exact .nvZeroizeStageEnd h

/-- A step does beats, or one event of its own. -/
theorem step_does {s t : State} (h : step s = .next t) : StepDoes s t := by
  simp only [step] at h
  split at h
  · cases h; exact .same (.refl s)
  · exact .before (.pending _ s) (exec_does h)

/-- An invariant that no event breaks, each in a state of which `Q` holds, is kept by every step; `Q` is kept by beats.
-/
theorem step_keeps {Q P : State → Prop} (hQsame : ∀ s t, SamePart s t → Q s → Q t)
    (hQbeat : ∀ s t, BeatEvent s t → Q s → Q t) (hsame : ∀ s t, SamePart s t → P s → P t)
    (hbeat : ∀ s t, Q s → BeatEvent s t → P s → P t) (hrow : ∀ s t, Q s → RowEvent s t → P s → P t) {s t : State}
    (hQ : Q s) (hP : P s) (h : step s = .next t) : P t := by
  have hdoes := step_does h
  clear h
  rcases hdoes with hrun | ⟨u, v, hsu, he, hvt⟩
  · have : Q t ∧ P t := by
      induction hrun with
      | refl => exact ⟨hQ, hP⟩
      | tail _ he ih => exact ⟨hQbeat _ _ he ih.1, hbeat _ _ ih.1 he ih.2⟩
    exact this.2
  · exact hsame _ _ hvt (hrow _ _ (hQsame _ _ hsu hQ) he (hsame _ _ hsu hP))

end Sys2Proof.Machine
end

