-- ==== Sys2Proof/Proofs/StartUpBeats.lean ====
section
/-! SUPPORT. The order of start-up under the events of a beat: the beats of one write act one after another, so the
later ones need it of the states between. -/

namespace Sys2Proof.Machine

open Sys2Proof.Safety

/-- The NV writer in RUNNING: its operation is a request, or the NV zeroize of a zeroization that has started. -/
def WriterInService (cycle : LifeCycle) (w : NvWriter) : Prop :=
  (∀ op, w.running = some op →
    (∃ r, op = .request r) ∨ ((∃ n, op = .nvZeroize n) ∧ cycle = .zeroizing ∧ w.zeroizeWaiting = false)) ∧
  (w.zeroizeWaiting = true → cycle = .zeroizing ∧ w.running.isSome = true)

/-- What `StartUpOrder` says in RUNNING. -/
theorem startUpOrder_running {s : State} (hp : s.life.phase = .running) :
    StartUpOrder s ↔
      (∀ j, s.engine.job = some j → isServiceJob j = true) ∧ WriterInService s.life.cycle s.writer := by
  simp only [StartUpOrder, WriterInService, hp]
  constructor
  · rintro ⟨-, -, hj, hop, hz, -⟩
    refine ⟨fun j h => ?_, fun op h => ?_, hz⟩
    · have := hj j h
      split at this
      · assumption
      · simp at this
    · have := hop op h
      cases op with
      | request r => exact .inl ⟨r, rfl⟩
      | reserve v => simp at this
      | blankWord => simp at this
      | nvZeroize n => exact .inr ⟨⟨n, rfl⟩, by simpa using this⟩
  · rintro ⟨hj, hop, hz⟩
    refine ⟨by simp, by simp, fun j h => by simp [hj j h], fun op h => ?_, hz, by simp⟩
    rcases hop op h with ⟨r, rfl⟩ | ⟨⟨n, rfl⟩, hc⟩
    · trivial
    · exact ⟨.inl hc.1, hc.2⟩

/-- A slot exists in RUNNING alone. -/
theorem StartUpOrder.running_of_ctx {s : State} {r : SlotRef} {c : SlotCtx} (h : StartUpOrder s)
    (hc : s.ctx? r = some c) : s.life.phase = .running := by
  by_contra hp
  have := (h.1 hp).1
  simp [State.ctx?, this] at hc

theorem StartUpOrder.same {s t : State} (h : SamePart s t) (hs : StartUpOrder s) : StartUpOrder t := by
  obtain ⟨h1, h2, h3, h4, h5, h6⟩ := hs
  refine ⟨fun hp => ?_, fun hp => ?_, fun j hj => ?_, fun op hop => ?_, fun hz => ?_, fun hp => ?_⟩
  · rw [h.phase] at hp
    rw [h.slots, h.engine, h.importState, h.hold, h.writer, h.enables hp]
    obtain ⟨a, b, c, d, e, f⟩ := h1 hp
    exact ⟨a, b, c, d, h.schedule hp e, f⟩
  · rw [h.phase] at hp
    exact h.load (by rcases hp with hp | hp | hp <;> simp [hp]) (h2 hp)
  · rw [h.phase]; exact h3 j (h.engine ▸ hj)
  · rw [h.phase, h.cycle, h.writer]; exact h4 op (h.writer ▸ hop)
  · rw [h.cycle, h.writer]; exact h5 (h.writer ▸ hz)
  · simpa [State.zeroing, h.cycle] using h6 (h.phase ▸ hp)

theorem WriterInService.take {cycle : LifeCycle} {w : NvWriter} (r : NvRequest) (h : WriterInService cycle w) :
    WriterInService cycle (w.take r) := by
  cases hr : w.running with
  | none =>
    have hz : w.zeroizeWaiting = false := by
      cases hz : w.zeroizeWaiting
      · rfl
      · simpa [hr] using (h.2 hz).2
    exact ⟨by simp [NvWriter.take, hr], by simp [NvWriter.take, hr, hz]⟩
  | some op => simpa [WriterInService, NvWriter.take, hr] using h

theorem WriterInService.startZeroize (cycle : LifeCycle) {w : NvWriter} (h : WriterInService cycle w)
    (hc : cycle ≠ .zeroizing) : WriterInService .zeroizing (startZeroizeOperation w) := by
  cases hr : w.running with
  | none => simp [WriterInService, startZeroizeOperation, hr]
  | some op =>
    rcases h.1 op hr with ⟨r, rfl⟩ | ⟨_, hz, _⟩
    · simp [WriterInService, startZeroizeOperation, hr]
    · exact absurd hz hc

/-- In RUNNING a zeroization leaves the phase, and starts its NV operation (R175). -/
theorem State.startZeroization_running {s : State} (hp : s.life.phase = .running) :
    s.startZeroization.life.phase = .running ∧ s.startZeroization.life.cycle = .zeroizing ∧
      s.startZeroization.engine.job = none ∧ s.startZeroization.writer = startZeroizeOperation s.writer := by
  simp [State.startZeroization, hp]

/-- An event of a beat leaves the phase. -/
theorem BeatEvent.phase {s t : State} (h : BeatEvent s t) : t.life.phase = s.life.phase := by
  cases h with
  | same h => exact h.phase
  | armed r c _ _ _ => simp only [State.carryArm]; split <;> simp
  | aborted r c _ _ _ => simp only [State.carryAbort, State.carryRelease]; repeat' split
                         all_goals simp
  | zeroized command code index check hp _ =>
    rw [hp]; exact (State.startZeroization_running (s := s.endAtOnce command code index check) (by simpa using hp)).1
  | holdSet _ _ => simp only [State.setHold, State.endImportByHold]; split <;> simp
  | _ => simp [State.carrySeal, State.carryRelease, State.placeImportJob, State.placeAdmin]

/-- An event of a beat changes the life cycle, if at all, to ZEROIZING. -/
theorem BeatEvent.cycle {s t : State} (h : BeatEvent s t) :
    t.life.cycle = s.life.cycle ∨ s.zeroing = false ∧ t.life.cycle = .zeroizing := by
  cases h with
  | same h => exact .inl h.cycle
  | zeroized command code index check hp hz =>
    exact .inr ⟨hz, (State.startZeroization_running (s := s.endAtOnce command code index check)
      (by simpa using hp)).2.1⟩
  | armed r c _ _ _ => left; simp only [State.carryArm]; split <;> simp
  | aborted r c _ _ _ => left; simp only [State.carryAbort, State.carryRelease]; repeat' split
                         all_goals simp
  | holdSet _ _ => left; simp only [State.setHold, State.endImportByHold]; split <;> simp
  | _ => left; simp [State.carrySeal, State.carryRelease, State.placeImportJob, State.placeAdmin]

/-- An event of a beat starts no job. -/
theorem BeatEvent.job {s t : State} (h : BeatEvent s t) :
    ∀ j, t.engine.job = some j → ∃ j0, s.engine.job = some j0 ∧ j.work = j0.work := by
  have of_eq : ∀ u : State, u.engine.job = s.engine.job →
      ∀ j, u.engine.job = some j → ∃ j0, s.engine.job = some j0 ∧ j.work = j0.work :=
    fun u hu j hj => ⟨j, hu ▸ hj, rfl⟩
  cases h with
  | same h => exact of_eq _ (by rw [h.engine])
  | armed r c _ _ _ => refine of_eq _ ?_; simp only [State.carryArm]; split <;> simp [State.joinFifo]
  | aborted r c _ _ _ =>
    refine of_eq _ ?_
    simp only [State.carryAbort, State.carryRelease]; repeat' split
    all_goals simp [State.leaveFifo]
  | zeroized command code index check hp _ =>
    have := (State.startZeroization_running (s := s.endAtOnce command code index check) (by simpa using hp)).2.2.1
    simp [this]
  | holdSet _ _ =>
    intro j hj
    have : s.setHold.engine.job = s.engine.job.map fun j => { j with discard := true } := by
      simp only [State.setHold, State.endImportByHold, holdEngine]; split <;> simp
    rw [this, Option.map_eq_some_iff] at hj
    obtain ⟨j0, h0, rfl⟩ := hj
    exact ⟨j0, h0, rfl⟩
  | withdrawn cmd i e op _ _ _ _ _ => exact of_eq _ (by simp [State.placeAdmin, State.withdraw])
  | _ => exact of_eq _ (by
    simp [State.carrySeal, State.joinFifo, State.carryRelease, State.placeImportJob, State.placeAdmin])

/-- What an event of a beat does to the NV writer: a request reaches it, a zeroization starts, or nothing. -/
theorem BeatEvent.writer {s t : State} (h : BeatEvent s t) :
    t.writer = s.writer ∨ (∃ r, t.writer = s.writer.take r) ∨
      (s.zeroing = false ∧ t.life.cycle = .zeroizing ∧ t.writer = startZeroizeOperation s.writer) := by
  have hreq : ∀ r : NvRequest, (if s.zeroing then s.writer else s.writer.take r) = s.writer ∨
      ∃ r', (if s.zeroing then s.writer else s.writer.take r) = s.writer.take r' := fun r => by
    split
    · exact .inl rfl
    · exact .inr ⟨r, rfl⟩
  have hres : ∀ (go : Bool) (u : State), u.writer = s.writer →
      (u.reserveWhen go).writer = s.writer ∨ ∃ r, (u.reserveWhen go).writer = s.writer.take r := fun go u hu => by
    simp only [State.reserveWhen]
    split
    · exact .inr ⟨_, by rw [hu]⟩
    · exact .inl hu
  cases h with
  | same h => exact .inl h.writer
  | waits r c _ => exact (hres _ _ rfl).imp_right .inl
  | opened r c _ _ _ _ => exact (hres _ _ rfl).imp_right .inl
  | armed r c _ _ _ => left; simp only [State.carryArm]; split <;> simp
  | aborted r c _ _ _ =>
    left; simp only [State.carryAbort, State.carryRelease]; repeat' split
    all_goals simp
  | withdrawn cmd i e op _ _ _ _ _ => exact (hreq (.admin op)).imp_right .inl
  | placedAdmin cmd op _ _ _ _ _ => exact (hreq (.admin op)).imp_right .inl
  | switched e _ => exact (hreq (.epochRecord e)).imp_right .inl
  | zeroized command code index check hp hz =>
    have := State.startZeroization_running (s := s.endAtOnce command code index check) (by simpa using hp)
    exact .inr (.inr ⟨hz, this.2.1, by simpa using this.2.2.2⟩)
  | holdSet _ _ => left; simp only [State.setHold, State.endImportByHold]; split <;> simp
  | _ => left; simp [State.carrySeal, State.carryRelease, State.placeImportJob]

/-- An event of a beat keeps the order of start-up. -/
theorem StartUpOrder.beat {s t : State} (h : BeatEvent s t) (hs : StartUpOrder s) : StartUpOrder t := by
  by_cases hp : s.life.phase = .running
  · have hp' : t.life.phase = .running := h.phase.trans hp
    rw [startUpOrder_running hp] at hs
    rw [startUpOrder_running hp']
    obtain ⟨hj, hw⟩ := hs
    refine ⟨fun j hjt => ?_, ?_⟩
    · obtain ⟨j0, h0, hwork⟩ := h.job j hjt
      simpa [isServiceJob, hwork] using hj j0 h0
    · rcases h.writer with e | ⟨r, e⟩ | ⟨hz, hc, e⟩
      · rw [e]
        rcases h.cycle with hc | ⟨hz, hc⟩
        · rwa [hc]
        · have hne : s.life.cycle ≠ .zeroizing := fun e => by simp [State.zeroing, e] at hz
          refine ⟨fun op hop => ?_, fun hwait => absurd (hw.2 hwait).1 hne⟩
          exact .inl ((hw.1 op hop).resolve_right fun hh => hne hh.2.1)
      · rw [e]
        rcases h.cycle with hc | ⟨hz, hc⟩
        · rw [hc]; exact hw.take r
        · have hne : s.life.cycle ≠ .zeroizing := fun e => by simp [State.zeroing, e] at hz
          refine WriterInService.take r ⟨fun op hop => ?_, fun hwait => absurd (hw.2 hwait).1 hne⟩
          exact .inl ((hw.1 op hop).resolve_right fun hh => hne hh.2.1)
      · rw [e, hc]
        exact hw.startZeroize _ fun e => by simp [State.zeroing, e] at hz
  · have hno : ∀ r c, s.ctx? r ≠ some c := fun r c hc => hp (StartUpOrder.running_of_ctx hs hc)
    have hsch : s.time.schedule = none := by obtain ⟨-, -, -, -, hn, -⟩ := hs.1 hp; exact hn
    cases h with
    | same h => exact StartUpOrder.same h hs
    | captured v hc =>
      exact absurd (by simp only [State.capturing, Bool.and_eq_true, beq_iff_eq] at hc; exact hc.1.1) hp
    | switched e hsc => exact absurd hsch hsc
    | holdCleared hp' => exact absurd hp' hp
    | refused r c _ hc => exact absurd hc (hno r c)
    | waits r c hc => exact absurd hc (hno r c)
    | opened r c hc => exact absurd hc (hno r c)
    | armed r c hc => exact absurd hc (hno r c)
    | sealing r c hc => exact absurd hc (hno r c)
    | released r c hc => exact absurd hc (hno r c)
    | aborted r c hc => exact absurd hc (hno r c)
    | inbound r c _ hc => exact absurd hc (hno r c)
    | payload r c _ hc => exact absurd hc (hno r c)
    | _ => contradiction

end Sys2Proof.Machine
end

