-- ==== Sys2Proof/Proofs/Fields.lean ====
section
/-! SUPPORT. What a zeroization, the begin of RESERVE and the end of an import leave of each field, once for all
invariants; and the references of the contexts, which few events change. -/

namespace Sys2Proof.Machine

open Sys2Proof.Safety

/-! ### RESERVE and KEY_CHECK -/

@[simp] theorem State.beginReserve_contexts (s : State) : s.beginReserve.slots.contexts = s.slots.contexts := by
  simp only [State.beginReserve]; (repeat' split) <;> simp
@[simp] theorem State.beginReserve_counter (s : State) : s.beginReserve.slots.counter = s.nv.highWater := by
  simp only [State.beginReserve]; (repeat' split) <;> simp
@[simp] theorem State.beginReserve_ceiling (s : State) : s.beginReserve.slots.ceiling = s.nv.highWater := by
  simp only [State.beginReserve]; (repeat' split) <;> simp
@[simp] theorem State.beginReserve_pending (s : State) : s.beginReserve.slots.reservationPending = false := by
  simp only [State.beginReserve]; (repeat' split) <;> simp
@[simp] theorem State.beginReserve_table (s : State) : s.beginReserve.map.table = s.map.table := by
  simp only [State.beginReserve, State.endReserve, State.beginLoad]; (repeat' split) <;> simp
@[simp] theorem State.beginReserve_straps (s : State) : s.beginReserve.map.straps = s.map.straps := by
  simp only [State.beginReserve, State.endReserve, State.beginLoad]; (repeat' split) <;> simp
@[simp] theorem State.beginReserve_cycle (s : State) : s.beginReserve.life.cycle = s.life.cycle := by
  simp only [State.beginReserve, State.endReserve, State.beginLoad]; (repeat' split) <;> simp
@[simp] theorem State.beginReserve_hold (s : State) : s.beginReserve.status.hold = s.status.hold := by
  simp only [State.beginReserve, State.endReserve, State.beginLoad, State.raiseLow, State.raise]
  (repeat' split) <;> simp

/-- RESERVE is left, or begun with its program (R170). -/
theorem State.beginReserve_phase (s : State) :
    (s.beginReserve.life.phase = .mapLoad ∧ s.beginReserve.writer = s.writer) ∨
    (s.beginReserve.life.phase = .reserve ∧ s.zeroing = false ∧ s.nv.highWater < Config.counterEnd ∧
      s.beginReserve.writer =
        { s.writer with running := some (.reserve (s.nv.highWater + Config.reserveStep)) }) := by
  simp only [State.beginReserve]
  split
  · exact .inl ⟨rfl, by simp⟩
  next hw =>
    split
    · exact .inl ⟨rfl, by simp⟩
    next hz => exact .inr ⟨rfl, by simpa using hz, by omega, rfl⟩

/-- In a zeroization RESERVE ends at once, whatever the high-water (R172). -/
theorem State.beginReserve_zeroing {s : State} (h : s.zeroing = true) :
    s.beginReserve.life.phase = .mapLoad ∧ s.beginReserve.writer = s.writer :=
  s.beginReserve_phase.resolve_right fun e => by simp [h] at e

@[simp] theorem State.continueCheck_contexts (n : Nat) (s : State) :
    (s.continueCheck n).slots.contexts = s.slots.contexts := by
  simp only [State.continueCheck]; split <;> simp
@[simp] theorem State.continueCheck_table (n : Nat) (s : State) : (s.continueCheck n).map.table = s.map.table := by
  simp only [State.continueCheck]; split <;> simp
@[simp] theorem State.continueCheck_straps (n : Nat) (s : State) : (s.continueCheck n).map.straps = s.map.straps := by
  simp only [State.continueCheck]; split <;> simp
@[simp] theorem State.continueCheck_cycle (n : Nat) (s : State) : (s.continueCheck n).life.cycle = s.life.cycle := by
  simp only [State.continueCheck]; split <;> simp
@[simp] theorem State.continueCheck_hold (n : Nat) (s : State) : (s.continueCheck n).status.hold = s.status.hold := by
  simp only [State.continueCheck]; split <;> simp

/-- KEY_CHECK goes on with a CHECK job, or ends (R54). -/
theorem State.continueCheck_cases (n : Nat) (s : State) :
    (∃ i, s.continueCheck n =
      { s with engine := { s.engine with job := some { work := .checking i (s.entry i).key, discard := false } } }) ∨
    s.continueCheck n = s.beginReserve := by
  simp only [State.continueCheck]
  split
  next i _ => exact .inl ⟨i, rfl⟩
  next => exact .inr rfl

/-! ### The start of a zeroization -/

@[simp] theorem State.endImport_importState (code : ImportCode) (index : Fin 64) (check : BitVec 24) (s : State) :
    (s.endImport code index check).keys.importState = .idle := rfl
@[simp] theorem State.endImport_buffer (code : ImportCode) (index : Fin 64) (check : BitVec 24) (s : State) :
    (s.endImport code index check).keys.buffer = Vector.replicate 5 0#64 := rfl
@[simp] theorem State.endImport_dir (code : ImportCode) (index : Fin 64) (check : BitVec 24) (s : State) :
    (s.endImport code index check).keys.dir = s.keys.dir := rfl

@[simp] theorem State.endImportByZeroize_importState (s : State) : s.endImportByZeroize.keys.importState = .idle := by
  simp only [State.endImportByZeroize]
  split
  next h => exact h
  · rfl
@[simp] theorem State.endImportByZeroize_buffer (s : State) :
    s.endImportByZeroize.keys.buffer = Vector.replicate 5 0#64 := by
  simp only [State.endImportByZeroize]; split <;> rfl
@[simp] theorem State.endImportByZeroize_hold (s : State) : s.endImportByZeroize.status.hold = s.status.hold := by
  simp only [State.endImportByZeroize]; split <;> rfl

/-- What the start of a zeroization leaves of each field, and what it makes of it (R175). -/
structure ZeroizationFields (s t : State) : Prop where
  contexts : t.slots.contexts = s.slots.contexts.map fun p => (p.1, clearCtx p.2)
  pending : t.slots.reservationPending = false
  cycle : t.life.cycle = .zeroizing
  engine : t.engine = { fifo := [], importPlace := none, waitCount := 0, job := none }
  filter : t.filter = s.filter.cleared
  dir : t.keys.dir = Vector.replicate 64 DirEntry.emptied
  buffer : t.keys.buffer = Vector.replicate 5 0#64
  importState : t.keys.importState = .idle
  nv : t.nv = s.nv
  writer : t.writer = startZeroizeOperation s.writer
  table : t.map.table = s.map.table
  straps : t.map.straps = s.map.straps
  hold : t.status.hold = s.status.hold
  counter : (s.life.phase = .keyCheck ∧ t.life.phase = .mapLoad ∧ t.slots.counter = s.nv.highWater ∧
      t.slots.ceiling = s.nv.highWater) ∨
    (s.life.phase ≠ .keyCheck ∧ t.life.phase = s.life.phase ∧ t.slots.counter = s.slots.counter ∧
      t.slots.ceiling = s.slots.ceiling)

/-- A zeroization starts (R169, R172, R175). -/
theorem State.startZeroization_fields (s : State) : ZeroizationFields s s.startZeroization := by
  by_cases hk : s.life.phase = .keyCheck
  · have hz : ∀ u : State, u.life.cycle = .zeroizing → u.beginReserve.life.phase = .mapLoad ∧
        u.beginReserve.writer = u.writer := fun u hu => u.beginReserve_zeroing (by simp [State.zeroing, hu])
    constructor <;> simp [State.startZeroization, hk, State.freeAllSlots]
    case writer => exact (hz _ rfl).2
    case counter => exact (hz _ rfl).1
  · constructor <;> simp [State.startZeroization, hk, State.freeAllSlots]

/-! ### The hold, and the ends of admin operations -/

/-- `endImportByHold` changes at most: keys, status. -/
@[simp] theorem State.endImportByHold_frame (s : State) :
    s.endImportByHold.life = s.life ∧ s.endImportByHold.time = s.time ∧ s.endImportByHold.path = s.path ∧
    s.endImportByHold.map = s.map ∧ s.endImportByHold.slots = s.slots ∧ s.endImportByHold.engine = s.engine ∧
    s.endImportByHold.filter = s.filter ∧ s.endImportByHold.nv = s.nv ∧ s.endImportByHold.writer = s.writer ∧
    s.endImportByHold.memOut = s.memOut ∧ s.endImportByHold.sysOut = s.sysOut ∧
    s.endImportByHold.freeCount = s.freeCount ∧ s.endImportByHold.pending = s.pending := by
  simp only [State.endImportByHold]; split <;> simp

/-- `adminInNv` changes at most: nv, freeCount. -/
@[simp] theorem State.adminInNv_frame (op : AdminOp) (passed : Bool) (s : State) :
    (s.adminInNv op passed).life = s.life ∧ (s.adminInNv op passed).time = s.time ∧
    (s.adminInNv op passed).status = s.status ∧ (s.adminInNv op passed).path = s.path ∧
    (s.adminInNv op passed).map = s.map ∧ (s.adminInNv op passed).slots = s.slots ∧
    (s.adminInNv op passed).engine = s.engine ∧ (s.adminInNv op passed).filter = s.filter ∧
    (s.adminInNv op passed).keys = s.keys ∧ (s.adminInNv op passed).writer = s.writer ∧
    (s.adminInNv op passed).memOut = s.memOut ∧ (s.adminInNv op passed).sysOut = s.sysOut ∧
    (s.adminInNv op passed).pending = s.pending := by
  cases op <;> cases passed <;> simp [State.adminInNv, State.damageRecord]

/-- No admin operation writes the challenge high-water (R92). -/
@[simp] theorem State.adminInNv_highWater (op : AdminOp) (passed : Bool) (s : State) :
    (s.adminInNv op passed).nv.highWater = s.nv.highWater := by
  cases op <;> cases passed <;> rfl

/-- `deliverAdmin` changes at most: life, status, keys. -/
@[simp] theorem State.deliverAdmin_frame (op : AdminOp) (passed : Bool) (s : State) :
    (s.deliverAdmin op passed).time = s.time ∧ (s.deliverAdmin op passed).path = s.path ∧
    (s.deliverAdmin op passed).map = s.map ∧ (s.deliverAdmin op passed).slots = s.slots ∧
    (s.deliverAdmin op passed).engine = s.engine ∧ (s.deliverAdmin op passed).filter = s.filter ∧
    (s.deliverAdmin op passed).nv = s.nv ∧ (s.deliverAdmin op passed).writer = s.writer ∧
    (s.deliverAdmin op passed).memOut = s.memOut ∧ (s.deliverAdmin op passed).sysOut = s.sysOut ∧
    (s.deliverAdmin op passed).freeCount = s.freeCount ∧ (s.deliverAdmin op passed).pending = s.pending := by
  simp only [State.deliverAdmin]; split <;> simp

@[simp] theorem State.deliverAdmin_phase (op : AdminOp) (passed : Bool) (s : State) :
    (s.deliverAdmin op passed).life.phase = s.life.phase := by
  simp only [State.deliverAdmin]; split <;> simp

@[simp] theorem State.deliverAdmin_hold (op : AdminOp) (passed : Bool) (s : State) :
    (s.deliverAdmin op passed).status.hold = s.status.hold := by
  simp only [State.deliverAdmin]; split <;> rfl

/-- `endAdmin` changes at most: life, status, keys, nv, writer, freeCount. -/
@[simp] theorem State.endAdmin_frame (op : AdminOp) (passed : Bool) (s : State) :
    (s.endAdmin op passed).time = s.time ∧ (s.endAdmin op passed).path = s.path ∧
    (s.endAdmin op passed).map = s.map ∧ (s.endAdmin op passed).slots = s.slots ∧
    (s.endAdmin op passed).engine = s.engine ∧ (s.endAdmin op passed).filter = s.filter ∧
    (s.endAdmin op passed).memOut = s.memOut ∧ (s.endAdmin op passed).sysOut = s.sysOut ∧
    (s.endAdmin op passed).pending = s.pending := by
  simp only [State.endAdmin]; (repeat' split) <;> simp

@[simp] theorem State.endAdmin_phase (op : AdminOp) (passed : Bool) (s : State) :
    (s.endAdmin op passed).life.phase = s.life.phase := by
  simp only [State.endAdmin]; (repeat' split) <;> simp

@[simp] theorem State.endAdmin_hold (op : AdminOp) (passed : Bool) (s : State) :
    (s.endAdmin op passed).status.hold = s.status.hold := by
  simp only [State.endAdmin]; (repeat' split) <;> simp

@[simp] theorem State.endAdmin_highWater (op : AdminOp) (passed : Bool) (s : State) :
    (s.endAdmin op passed).nv.highWater = s.nv.highWater := by
  simp only [State.endAdmin]; (repeat' split) <;> simp

/-! ### The end of NV_READ -/

/-- NV_READ is left into a zeroization, by a deferred tamper event in FIELD, or into KEY_CHECK (R167, R174). -/
theorem State.leaveNvRead_cases (s : State) :
    s.leaveNvRead = ({ s with life := { s.life with phase := .keyCheck, deferred := false } }.startZeroization) ∧
      s.life.cycle = .field ∨
    s.leaveNvRead = ({ s with life := { s.life with phase := .keyCheck, deferred := false } }.continueCheck 0) := by
  simp only [State.leaveNvRead]
  split
  next h => simp only [Bool.and_eq_true, beq_iff_eq] at h; exact .inl ⟨rfl, h.2⟩
  next => exact .inr rfl

/-! ### The references of the contexts -/

/-- The slots that exist, in the order of their contexts. -/
def State.refs (s : State) : List SlotRef := s.slots.contexts.map (·.1)

/-- A slot exists where its reference is among those of the contexts (R5). -/
theorem State.isSome_ctx? (s : State) (r : SlotRef) : (s.ctx? r).isSome = decide (r ∈ s.refs) := by
  rw [Bool.eq_iff_iff, decide_eq_true_iff]
  simp [State.ctx?, State.refs, List.find?_isSome]

@[simp] theorem State.refs_setCtx (r : SlotRef) (c : SlotCtx) (s : State) : (s.setCtx r c).refs = s.refs := by
  simp only [State.refs, State.setCtx, List.map_map]
  apply List.map_congr_left
  intro p _
  by_cases h : p.1 = r <;> simp [h]

/-- Changing contexts in place leaves the references. -/
theorem State.refs_of_map {s t : State} (f : SlotCtx → SlotCtx)
    (h : t.slots.contexts = s.slots.contexts.map fun p => (p.1, f p.2)) : t.refs = s.refs := by
  simp [State.refs, h, Function.comp_def]

/-- Two states with the same contexts. -/
theorem State.refs_congr {s t : State} (h : t.slots.contexts = s.slots.contexts) : t.refs = s.refs := by
  simp [State.refs, h]

/-- The contexts after a withdrawal (R27). -/
theorem State.withdraw_contexts (k : Fin 64) (s : State) :
    (s.withdraw k).slots.contexts = s.slots.contexts.map fun p => (p.1, withdrawCtx k p.2) := rfl

/-- The contexts as the hold is set (R29, R192). -/
theorem State.setHold_contexts (s : State) :
    s.setHold.slots.contexts = s.slots.contexts.map fun p => (p.1, clearCtx p.2) := by
  simp [State.setHold, State.freeAllSlots]

theorem State.refs_leaveNvRead (s : State) : s.leaveNvRead.refs = s.refs := by
  rcases s.leaveNvRead_cases with ⟨e, -⟩ | e <;> rw [e]
  · exact State.refs_of_map clearCtx (State.startZeroization_fields _).contexts
  · exact State.refs_congr (by simp)

/-- An event of a beat makes no slot and drops none. -/
theorem BeatEvent.refs {s t : State} (h : BeatEvent s t) : t.refs = s.refs := by
  cases h with
  | same h => exact State.refs_congr (by rw [h.slots])
  | refused r c res _ => exact State.refs_setCtx r _ s
  | waits r c _ => exact State.refs_setCtx r _ s
  | opened r c _ _ _ _ => exact State.refs_setCtx r _ s
  | armed r c _ _ _ => simp only [State.carryArm]; split <;> exact State.refs_setCtx r _ s
  | sealing r c _ _ _ => exact State.refs_setCtx r _ s
  | released r c _ _ _ => exact State.refs_setCtx r _ s
  | aborted r c _ _ _ =>
    simp only [State.carryAbort, State.carryRelease]
    repeat' split
    all_goals exact State.refs_setCtx r _ s
  | inbound r c v _ _ => exact State.refs_setCtx r _ s
  | payload r c v _ _ => exact State.refs_setCtx r _ s
  | withdrawn cmd i e op _ _ _ _ _ => exact State.refs_of_map (withdrawCtx i) rfl
  | zeroized command code index check _ _ =>
    exact State.refs_of_map clearCtx (State.startZeroization_fields _).contexts
  | holdSet _ _ => exact State.refs_of_map clearCtx s.setHold_contexts
  | _ => exact State.refs_congr rfl

/-- Rows make or drop slots only at power-on and as a map is installed. -/
theorem RowEvent.refs {s t : State} (h : RowEvent s t) :
    t.refs = s.refs ∨ (∃ straps, t = State.powerOn s.nv straps) ∨ ∃ new, t = s.installMap new := by
  cases h with
  | powerOn straps => exact .inr (.inl ⟨straps, rfl⟩)
  | installed beats _ _ _ => exact .inr (.inr ⟨_, rfl⟩)
  | tamper _ _ => exact .inl (State.refs_of_map clearCtx (State.startZeroization_fields _).contexts)
  | expired r c _ _ _ => exact .inl (State.refs_setCtx r _ s)
  | late r c _ _ _ => exact .inl (State.refs_setCtx r _ s)
  | tookVerify r rest c k key _ _ _ _ => exact .inl (State.refs_setCtx r _ s)
  | tookSeal r rest c k key _ _ _ _ => exact .inl (State.refs_setCtx r _ s)
  | tookFailing r rest c c' _ _ _ _ => exact .inl (State.refs_setCtx r _ s)
  | jobAborted r kind c _ _ _ => exact .inl (State.refs_setCtx r _ s)
  | jobEnded r kind c c' f _ _ _ _ => exact .inl (State.refs_setCtx r _ s)
  | handedOver kind h res _ =>
    refine .inl (State.refs_congr ?_)
    simp only [State.handOver]; repeat' split
    all_goals simp
  | checked i key _ => exact .inl (State.refs_congr (by simp))
  | adminEnded op passed _ => exact .inl (State.refs_congr (by simp))
  | readEnded l d _ _ _ _ => exact .inl (State.refs_leaveNvRead _)
  | reservationEnded v passed _ => refine .inl (State.refs_congr ?_); cases passed <;> rfl
  | reserveEnded v passed _ => refine .inl (State.refs_congr ?_); cases passed <;> rfl
  | epochEnded v passed _ => refine .inl (State.refs_congr ?_); cases passed <;> rfl
  | blankWritten _ => exact .inl (State.refs_leaveNvRead _)
  | _ => exact .inl (State.refs_congr rfl)

end Sys2Proof.Machine
end

