-- ==== Sys2Proof/Proofs/Table.lean ====
section
/-! SUPPORT. Validation of a window table, and the map and the contexts that an installation leaves (chapter 8). -/

namespace Sys2Proof.Machine

open Sys2Proof.Safety

/-! ### Validation -/

/-- One check of a chain does not fail, and the rest does not. -/
theorem ite_some_eq_none {α : Type} {c : Prop} [Decidable c] (a : α) (x : Option α) :
    (if c then some a else x) = none ↔ ¬c ∧ x = none := by
  split <;> simp [*]

/-- A descriptor passes validation (R156). -/
theorem descriptorFault_none_iff (base : Nat) (lower : List Descriptor) (d : Descriptor) :
    descriptorFault base lower d = none ↔
      spareZero d = true ∧ (d.kind = 1#2 ∨ d.kind = 2#2) ∧ (d.kind = 2#2 → slotsFieldsGood d = true) ∧
      (d.kind = 1#2 → d.base + d.size ≤ 1048576) ∧ rangesMeet (windowRange d) (base, base + 4096) = false ∧
      (∀ e ∈ lower, rangesMeet (windowRange d) (windowRange e) = false) ∧
      (d.kind = 2#2 → d.slotCount + ((lower.filter Descriptor.isSlots).map Descriptor.slotCount).sum ≤ 64) := by
  have hlast : ∀ (c : Prop) [Decidable c], (if c then some MapFault.tooManySlots else none) = none ↔ ¬c :=
    fun c _ => by split <;> simp [*]
  simp only [descriptorFault, ite_some_eq_none, hlast]
  simp only [Config.slotLimit]
  simp only [Bool.not_eq_true', Bool.not_eq_false, not_and, Bool.not_eq_true, List.any_eq_false, not_lt]
  have hk : (d.kind ≠ 1#2 → ¬d.kind ≠ 2#2) ↔ d.kind = 1#2 ∨ d.kind = 2#2 := by tauto
  rw [hk]

/-- The present descriptors below an index that is one more. -/
theorem presentBelow_cons (d : Descriptor) (ds : List Descriptor) (m : Nat) :
    presentBelow (d :: ds) (m + 1) = (if d.present then [d] else []) ++ presentBelow ds m := by
  simp only [presentBelow, List.take_succ_cons, List.filter_cons]
  split <;> simp

/-- A table passes validation where each present descriptor does (R156). -/
theorem validateFrom_none_iff (base : Nat) (lower : List Descriptor) (n : Nat) (ds : List Descriptor) :
    validateFrom base lower n ds = none ↔
      ∀ m d, ds[m]? = some d → d.present = true → descriptorFault base (lower ++ presentBelow ds m) d = none := by
  induction ds generalizing lower n with
  | nil => simp [validateFrom]
  | cons d ds ih =>
    have hsucc : (∀ m e, (d :: ds)[m]? = some e → e.present = true →
          descriptorFault base (lower ++ presentBelow (d :: ds) m) e = none) ↔
        (d.present = true → descriptorFault base lower d = none) ∧
        ∀ m e, ds[m]? = some e → e.present = true →
          descriptorFault base ((lower ++ if d.present then [d] else []) ++ presentBelow ds m) e = none := by
      constructor
      · intro h
        refine ⟨fun hp => by simpa [presentBelow] using h 0 d rfl hp, fun m e he hp => ?_⟩
        simpa [presentBelow_cons] using h (m + 1) e he hp
      · rintro ⟨h0, hs⟩ m e he hp
        cases m with
        | zero =>
          cases he
          simpa [presentBelow] using h0 hp
        | succ m => simpa [presentBelow_cons] using hs m e he hp
    rw [hsucc, validateFrom]
    cases hp : d.present with
    | false => simpa using ih lower (n + 1)
    | true =>
      cases hf : descriptorFault base lower d with
      | none => simpa [hf] using ih (lower ++ [d]) (n + 1)
      | some f => simp

/-- Validation ends with the fault of the first present descriptor that has one (R156). -/
theorem validateFrom_some (base : Nat) (lower : List Descriptor) (n m : Nat) (ds : List Descriptor) (d : Descriptor)
    (f : MapFault) (hd : ds[m]? = some d) (hp : d.present = true)
    (hf : descriptorFault base (lower ++ presentBelow ds m) d = some f)
    (hbelow : ∀ k e, k < m → ds[k]? = some e → e.present = true →
      descriptorFault base (lower ++ presentBelow ds k) e = none) :
    validateFrom base lower n ds = some (f, n + m) := by
  induction ds generalizing lower n m with
  | nil => simp at hd
  | cons e ds ih =>
    cases m with
    | zero =>
      cases hd
      have : descriptorFault base lower d = some f := by simpa [presentBelow] using hf
      simp [validateFrom, hp, this]
    | succ m =>
      have h0 : e.present = true → descriptorFault base lower e = none := fun hpe => by
        simpa [presentBelow] using hbelow 0 e (by omega) rfl hpe
      have hrec := ih (lower ++ if e.present then [e] else []) (n + 1) m hd
        (by simpa [presentBelow_cons] using hf) fun k x hk hx hpx => by
          simpa [presentBelow_cons] using hbelow (k + 1) x (by omega) hx hpx
      rw [validateFrom]
      cases hpe : e.present with
      | false => simpa [hpe, Nat.add_assoc, Nat.add_comm 1] using hrec
      | true => simpa [hpe, h0 hpe, Nat.add_assoc, Nat.add_comm 1] using hrec

/-- Two beats make a descriptor (R156). -/
theorem descriptorsOf_getElem? (beats : List ReadBeat) (n : Nat) :
    (descriptorsOf beats)[n]? =
      match beats[2 * n]?, beats[2 * n + 1]? with
      | some b0, some b1 => some { word0 := b0.data, word1 := b1.data }
      | _, _ => none := by
  induction n generalizing beats with
  | zero =>
    match beats with
    | [] => rfl
    | [_] => rfl
    | b0 :: b1 :: rest => rfl
  | succ n ih =>
    match beats with
    | [] => rfl
    | [b] => simp [descriptorsOf, Nat.mul_add]
    | b0 :: b1 :: rest => simpa [descriptorsOf, Nat.mul_add] using ih rest

/-- 32 beats make 16 descriptors. -/
theorem descriptorsOf_length (beats : List ReadBeat) : (descriptorsOf beats).length = beats.length / 2 := by
  induction beats using descriptorsOf.induct with
  | case1 b0 b1 rest ih => simp [descriptorsOf, ih]; omega
  | case2 l h =>
    match l with
    | [] => rfl
    | [_] => simp [descriptorsOf]
    | b0 :: b1 :: rest => exact absurd rfl (h b0 b1 rest)

/-! ### The contexts after an installation -/

/-- The one index of a list at which a function answers is the one that is found. -/
theorem findSome?_finRange {α : Type} {n : Nat} (f : Fin n → Option α) (g : Fin n) (h : ∀ i, i ≠ g → f i = none) :
    (List.finRange n).findSome? f = f g := by
  cases hg : f g with
  | none =>
    rw [List.findSome?_eq_none_iff]
    intro i _
    by_cases e : i = g
    · rw [e, hg]
    · exact h i e
  | some a =>
    obtain ⟨b, hb⟩ : ∃ b, (List.finRange n).findSome? f = some b := by
      rw [← Option.isSome_iff_exists, ← Option.not_isNone, Bool.not_eq_true', ← Bool.not_eq_true,
        Option.isNone_iff_eq_none, List.findSome?_eq_none_iff]
      exact fun h => by simp [h g (by simp)] at hg
    obtain ⟨i, -, hi⟩ := List.exists_of_findSome?_eq_some hb
    have : i = g := by
      by_contra e
      simp [h i e] at hi
    rw [hb, ← hi, this, hg]

/-- The contexts that an installation leaves for one group. -/
def groupContexts (s : State) (new : Vector Descriptor 16) (g : Fin 16) : List (SlotRef × SlotCtx) :=
  if groupKept s.map.table new g then s.slots.contexts.filter fun p => p.1.group == g
  else if new[g].isSlots then
    ((List.finRange 32).filter fun i => decide (i.val < new[g].slotCount)).map fun i =>
      ({ group := g, index := i }, SlotCtx.fresh)
  else []

theorem installContexts_eq (s : State) (new : Vector Descriptor 16) :
    installContexts s new = (List.finRange 16).flatMap (groupContexts s new) := rfl

/-- The contexts of a group are for its slots. -/
theorem group_of_mem_groupContexts {s : State} {new : Vector Descriptor 16} {g : Fin 16} {p : SlotRef × SlotCtx}
    (h : p ∈ groupContexts s new g) : p.1.group = g := by
  simp only [groupContexts] at h
  repeat' split at h
  · simpa using (List.mem_filter.mp h).2
  · obtain ⟨i, -, rfl⟩ := List.mem_map.mp h
    rfl
  · simp at h

/-- The fresh contexts of a group are those of its slots (R28). -/
theorem contextIn_fresh (g : Fin 16) (count : Nat) (r : SlotRef) (hg : r.group = g) :
    contextIn (((List.finRange 32).filter fun i => decide (i.val < count)).map fun i =>
      ({ group := g, index := i }, SlotCtx.fresh)) r =
      if decide (r.index.val < count) then some SlotCtx.fresh else none := by
  obtain ⟨rg, ri⟩ := r
  cases hg
  simp only [contextIn, List.find?_map, Option.map_map, Function.comp_def, List.find?_filter]
  by_cases h : ri.val < count
  · have : (List.finRange 32).find? (fun i => decide (i.val < count) && decide (i = ri)) = some ri := by
      rw [List.find?_eq_some_iff_getElem]
      refine ⟨by simpa using h, ri.val, by simp, by simp, fun j hj => ?_⟩
      have : ¬(⟨j, by omega⟩ : Fin 32) = ri := fun e => by simp [← e] at hj
      simp [this]
    simp [this, h]
  · have : (List.finRange 32).find? (fun i => decide (i.val < count) && decide (i = ri)) = none := by
      rw [List.find?_eq_none]
      intro i _
      by_cases e : i = ri
      · simp [e, h]
      · simp [e]
    simp [this, h]

/-- The context of a slot after an installation (R28, R159). -/
theorem contextIn_installContexts (s : State) (new : Vector Descriptor 16) (r : SlotRef) :
    contextIn (installContexts s new) r =
      if groupKept s.map.table new r.group then s.ctx? r
      else if new[r.group].isSlots && decide (r.index.val < new[r.group].slotCount) then some SlotCtx.fresh
      else none := by
  have hfind : contextIn (installContexts s new) r =
      ((groupContexts s new r.group).find? fun p => p.1 == r).map (·.2) := by
    rw [contextIn, installContexts_eq, List.find?_flatMap, findSome?_finRange _ r.group]
    intro g hg
    rw [List.find?_eq_none]
    intro p hp
    have := group_of_mem_groupContexts hp
    simp only [beq_iff_eq]
    rintro rfl
    exact hg this.symm
  rw [hfind]
  simp only [groupContexts]
  split
  · rw [State.ctx?, List.find?_filter]
    congr 2
    funext p
    by_cases e : p.1 = r <;> simp [e]
  · cases hs : new[r.group].isSlots with
    | false => simp
    | true =>
      simp only [if_true, Bool.true_and]
      exact contextIn_fresh r.group new[r.group].slotCount r rfl

end Sys2Proof.Machine
end

