-- ==== Sys2Proof/Proofs/LoadedMap.lean ====
section
/-! The loaded map is legal at every moment (R152, R154, R156): what validation lets pass is legal, and no other event
touches the map or the slots that exist. -/

namespace Sys2Proof.Machine

open Sys2Proof.Safety

/-- `MapLegal` speaks of the table, the straps and the references of the contexts alone. -/
theorem mapLegal_congr {s t : State} (ht : t.map.table = s.map.table) (hs : t.map.straps = s.map.straps)
    (hr : t.refs = s.refs) (h : MapLegal s) : MapLegal t := by
  have hd : ∀ i, t.descriptor i = s.descriptor i := fun i => by simp only [State.descriptor, ht]
  have hb : t.base = s.base := by simp only [State.base, hs]
  have hc : ∀ r, (t.ctx? r).isSome = (s.ctx? r).isSome := fun r => by simp only [State.isSome_ctx?, hr]
  simpa only [MapLegal, hd, hb, hc] using h

/-- No beat touches the installed map. -/
theorem BeatEvent.map {s t : State} (h : BeatEvent s t) :
    t.map.table = s.map.table ∧ t.map.straps = s.map.straps := by
  cases h with
  | same h => exact ⟨h.table, h.straps⟩
  | armed r c _ _ _ => simp only [State.carryArm]; split <;> simp
  | aborted r c _ _ _ =>
    simp only [State.carryAbort, State.carryRelease]
    repeat' split
    all_goals simp
  | zeroized command code index check _ _ =>
    exact ⟨(State.startZeroization_fields _).table, (State.startZeroization_fields _).straps⟩
  | holdSet _ _ => simp [State.setHold, State.freeAllSlots]
  | _ => exact ⟨rfl, rfl⟩

theorem State.leaveNvRead_map (s : State) :
    s.leaveNvRead.map.table = s.map.table ∧ s.leaveNvRead.map.straps = s.map.straps := by
  rcases s.leaveNvRead_cases with ⟨e, -⟩ | e <;> rw [e]
  · exact ⟨(State.startZeroization_fields _).table, (State.startZeroization_fields _).straps⟩
  · simp

/-- Rows touch the installed map only at power-on and as a map is installed. -/
theorem RowEvent.map {s t : State} (h : RowEvent s t) :
    (t.map.table = s.map.table ∧ t.map.straps = s.map.straps ∧ t.refs = s.refs) ∨
    (∃ straps, t = State.powerOn s.nv straps) ∨
    ∃ beats, beats.length = 32 ∧ validateFrom s.base [] 0 (descriptorsOf beats) = none ∧
      t = s.installMap (Vector.ofFn fun i : Fin 16 =>
        (descriptorsOf beats).getD i.val { word0 := 0#64, word1 := 0#64 }) := by
  cases h with
  | powerOn straps => exact .inr (.inl ⟨straps, rfl⟩)
  | installed beats _ hlen hv => exact .inr (.inr ⟨beats, hlen, hv, rfl⟩)
  | tamper _ _ =>
    exact .inl ⟨(State.startZeroization_fields _).table, (State.startZeroization_fields _).straps,
      State.refs_of_map clearCtx (State.startZeroization_fields _).contexts⟩
  | expired r c _ _ _ => exact .inl ⟨rfl, rfl, State.refs_setCtx r _ s⟩
  | late r c _ _ _ => exact .inl ⟨rfl, rfl, State.refs_setCtx r _ s⟩
  | tookVerify r rest c k key _ _ _ _ => exact .inl ⟨rfl, rfl, State.refs_setCtx r _ s⟩
  | tookSeal r rest c k key _ _ _ _ => exact .inl ⟨rfl, rfl, State.refs_setCtx r _ s⟩
  | tookFailing r rest c c' _ _ _ _ => exact .inl ⟨rfl, rfl, State.refs_setCtx r _ s⟩
  | jobAborted r kind c _ _ _ => exact .inl ⟨rfl, rfl, State.refs_setCtx r _ s⟩
  | jobEnded r kind c c' f _ _ _ _ => exact .inl ⟨rfl, rfl, State.refs_setCtx r _ s⟩
  | handedOver kind h res _ =>
    left
    simp only [State.handOver]
    repeat' split
    all_goals exact ⟨rfl, rfl, rfl⟩
  | checked i key _ => exact .inl ⟨by simp, by simp, State.refs_congr (by simp)⟩
  | adminEnded op passed _ => exact .inl ⟨by simp, by simp, State.refs_congr (by simp)⟩
  | readEnded l d _ _ _ _ =>
    exact .inl ⟨(State.leaveNvRead_map _).1, (State.leaveNvRead_map _).2, State.refs_leaveNvRead _⟩
  | blankWritten _ => exact .inl ⟨(State.leaveNvRead_map _).1, (State.leaveNvRead_map _).2, State.refs_leaveNvRead _⟩
  | reservationEnded v passed _ => left; cases passed <;> exact ⟨rfl, rfl, rfl⟩
  | reserveEnded v passed _ => left; cases passed <;> exact ⟨rfl, rfl, rfl⟩
  | epochEnded v passed _ => left; cases passed <;> exact ⟨rfl, rfl, rfl⟩
  | _ => exact .inl ⟨rfl, rfl, rfl⟩

/-! ### The map right after power-on, and a map that validation has let pass -/

/-- After power-on no window is present and no slot exists (R154). -/
theorem mapLegal_powerOn (nv : NvArray) (straps : BitVec 2) : MapLegal (State.powerOn nv straps) := by
  have hd : ∀ i, (State.powerOn nv straps).descriptor i = { word0 := 0#64, word1 := 0#64 } := fun i => by
    simp [State.powerOn, State.descriptor]
  have hp : (Descriptor.mk 0#64 0#64).present = false := rfl
  have hs : (Descriptor.mk 0#64 0#64).isSlots = false := rfl
  have hc : ∀ r, (State.powerOn nv straps).ctx? r = none := fun r => rfl
  simp [MapLegal, hd, hp, hs, hc]

/-- A present descriptor that passes validation: its form, and its window against the control region and the windows
below (R156). -/
theorem descriptor_legal {base : Nat} {lower : List Descriptor} {d : Descriptor} (hp : d.present = true)
    (h : descriptorFault base lower d = none) :
    (d.isPlain = true ∨ d.isSlots = true) ∧
    (d.isSlots = true → 1 ≤ d.slotCount ∧ d.slotCount ≤ 32 ∧ d.budget ≠ 0#16 ∧ d.holdLimit ≤ 4095#16 ∧
      (d.macLength = 4 ∨ d.macLength = 8)) ∧
    (windowOf d).2 ≤ 2 ^ 32 ∧ apart (windowOf d) (base, base + 4096) ∧
    (∀ e ∈ lower, e.present = true → (e.kind = 1#2 ∨ e.kind = 2#2) → apart (windowOf e) (windowOf d)) ∧
    (d.isSlots = true →
      d.slotCount + ((lower.filter Descriptor.isSlots).map Descriptor.slotCount).sum ≤ 64) := by
  obtain ⟨-, hkind, hslots, hplain, hcontrol, hover, hsum⟩ := (descriptorFault_none_iff base lower d).mp h
  have hw : ∀ e : Descriptor, e.present = true → windowOf e = windowRange e := fun e he => by
    by_cases hk : e.kind = 2#2 <;> simp [windowOf, windowRange, Descriptor.isSlots, he, hk]
  have hmeet : ∀ x y : Nat × Nat, rangesMeet x y = false → apart x y := fun x y hm => by
    simp only [rangesMeet, Bool.and_eq_false_iff, decide_eq_false_iff_not, not_lt] at hm
    exact hm.symm
  have hbase : d.base < 2 ^ 20 := (d.word0.extractLsb' 16 20).isLt
  refine ⟨by simpa [Descriptor.isPlain, Descriptor.isSlots, hp] using hkind, fun hs => ?_, ?_, ?_, ?_, fun hs => ?_⟩
  · have hk : d.kind = 2#2 := by simpa [Descriptor.isSlots, hp] using hs
    simpa [slotsFieldsGood, and_assoc] using hslots hk
  · rw [hw d hp, windowRange]
    rcases hkind with hk | hk
    · have := hplain hk
      simp only [hk]
      simp; omega
    · simp only [hk, if_true]; omega
  · rw [hw d hp]; exact hmeet _ _ hcontrol
  · intro e he hpe _
    rw [hw d hp, hw e hpe]
    exact (hmeet _ _ (hover e he)).symm
  · exact hsum (by simpa [Descriptor.isSlots, hp] using hs)

/-- The slots below an index number at most 64 in a table that passes validation (R156). -/
theorem slots_below_le {base : Nat} {ds : List Descriptor} (h : validateFrom base [] 0 ds = none) (m : Nat) :
    (((ds.take m).filter Descriptor.isSlots).map Descriptor.slotCount).sum ≤ 64 := by
  rw [validateFrom_none_iff] at h
  induction m with
  | zero => simp
  | succ m ih =>
    cases hd : ds[m]? with
    | none =>
      have : ds.take (m + 1) = ds.take m := by
        rw [List.getElem?_eq_none_iff] at hd
        rw [List.take_of_length_le hd, List.take_of_length_le (by omega)]
      rwa [this]
    | some d =>
      rw [List.take_add_one, hd]
      simp only [Option.toList_some, List.filter_append, List.map_append, List.sum_append]
      cases hs : d.isSlots with
      | false => simpa [hs] using ih
      | true =>
        have hp : d.present = true := by simp only [Descriptor.isSlots, Bool.and_eq_true] at hs; exact hs.1
        obtain ⟨-, -, -, -, -, hsum⟩ := descriptor_legal hp (h m d hd hp)
        have hlower : (presentBelow ds m).filter Descriptor.isSlots = (ds.take m).filter Descriptor.isSlots := by
          rw [presentBelow, List.filter_filter]
          congr 1
          funext e
          simp only [Descriptor.isSlots]
          cases e.present <;> simp
        have := hsum hs
        simp only [List.nil_append, hlower] at this
        simp only [hs, List.filter_cons, if_true, List.filter_nil, List.map_cons, List.map_nil, List.sum_cons,
          List.sum_nil, Nat.add_zero]
        omega

/-- A map that validation has let pass is legal (R152, R154, R156). -/
theorem mapLegal_installed {s : State} {beats : List ReadBeat} (hlen : beats.length = 32)
    (hv : validateFrom s.base [] 0 (descriptorsOf beats) = none) (h : MapLegal s) :
    MapLegal (s.installMap (Vector.ofFn fun i : Fin 16 =>
      (descriptorsOf beats).getD i.val { word0 := 0#64, word1 := 0#64 })) := by
  have hslots := slots_below_le hv
  rw [validateFrom_none_iff] at hv
  generalize hds : descriptorsOf beats = ds at hv hslots ⊢
  have hdl : ds.length = 16 := by rw [← hds, descriptorsOf_length, hlen]
  generalize hnew : (Vector.ofFn fun i : Fin 16 => ds.getD i.val { word0 := 0#64, word1 := 0#64 }) = new
  have hget : ∀ i : Fin 16, ds[i.val]? = some new[i] := fun i => by
    simp [← hnew, List.getElem?_eq_getElem (show i.val < ds.length by omega), List.getD_eq_getElem?_getD]
  have hdesc : ∀ i, (s.installMap new).descriptor i = new[i] := fun i => rfl
  have hbase : (s.installMap new).base = s.base := rfl
  have hctx : ∀ r, (s.installMap new).ctx? r = contextIn (installContexts s new) r := fun r => rfl
  have hfine : ∀ i : Fin 16, new[i].present = true → descriptorFault s.base (presentBelow ds i.val) new[i] = none :=
    fun i hp => by simpa using hv i.val new[i] (hget i) hp
  have hlegal := fun (i : Fin 16) (hp : new[i].present = true) => descriptor_legal hp (hfine i hp)
  have hpres : ∀ i : Fin 16, new[i].isSlots = true → new[i].present = true := fun i hs => by
    simp only [Descriptor.isSlots, Bool.and_eq_true] at hs; exact hs.1
  simp only [MapLegal, hdesc, hbase, hctx]
  refine ⟨fun i hp => (hlegal i hp).1, fun i hs => (hlegal i (hpres i hs)).2.1 hs, fun i hp => (hlegal i hp).2.2.1,
    fun i hp => (hlegal i hp).2.2.2.1, fun i j hij hpi hpj => ?_, ?_, fun r => ?_⟩
  · obtain ⟨-, -, -, -, hbelow, -⟩ := hlegal j hpj
    refine hbelow new[i] ?_ hpi ?_
    · simp only [presentBelow, List.mem_filter, hpi, and_true]
      exact List.mem_iff_getElem?.mpr ⟨i.val, by rw [List.getElem?_take_of_lt hij, hget]⟩
    · refine (hlegal i hpi).1.imp (fun hk => ?_) fun hk => ?_
      · simp only [Descriptor.isPlain, Bool.and_eq_true, beq_iff_eq] at hk; exact hk.2
      · simp only [Descriptor.isSlots, Bool.and_eq_true, beq_iff_eq] at hk; exact hk.2
  · have hlist : ds = (List.finRange 16).map fun i => new[i] := by
      apply List.ext_getElem?
      intro n
      by_cases hn : n < 16
      · rw [hget ⟨n, hn⟩]; simp [hn]
      · simp [hdl, Nat.not_lt.mp hn]
    have := hslots 16
    rw [List.take_of_length_le (by omega), hlist, List.filter_map, List.map_map] at this
    exact this
  · rw [contextIn_installContexts]
    split
    next hk =>
      simp only [groupKept, Bool.and_eq_true, beq_iff_eq] at hk
      obtain ⟨-, -, -, -, -, -, hex⟩ := h
      have hsame : s.descriptor r.group = new[r.group] := hk.2
      rw [hex r, hsame]
    next hk => split <;> simp_all

end Sys2Proof.Machine

namespace Sys2Proof.Proofs

open Sys2Proof.Machine Sys2Proof.Safety

/-- Settles O59: every event keeps the legality of the loaded map. -/
theorem stepKeepsLoadedMapLegal : Obligations.StepKeepsLoadedMapLegal := by
  intro s t hs h
  refine step_keeps (Q := fun _ => True) (P := MapLegal) (fun _ _ _ _ => trivial) (fun _ _ _ _ => trivial)
    (fun s t h => ?_) (fun s t _ h => ?_) (fun s t _ h hs => ?_) trivial hs h
  · exact mapLegal_congr h.table h.straps (State.refs_congr (by rw [h.slots]))
  · exact mapLegal_congr h.map.1 h.map.2 h.refs
  · rcases h.map with ⟨ht, hst, hr⟩ | ⟨straps, rfl⟩ | ⟨beats, hlen, hv, rfl⟩
    · exact mapLegal_congr ht hst hr hs
    · exact mapLegal_powerOn _ _
    · exact mapLegal_installed hlen hv hs

end Sys2Proof.Proofs
end

