-- ==== Sys2Proof/Proofs/ContextForms.lean ====
section
/-! SUPPORT. The form of a context under each change that an event makes to one slot (R5, R16, R27, R44 to R48). -/

namespace Sys2Proof.Machine

open Sys2Proof.Safety

@[simp] theorem clearCtx_state (c : SlotCtx) : (clearCtx c).state = .free := rfl
@[simp] theorem clearCtx_clearCtx (c : SlotCtx) : clearCtx (clearCtx c) = clearCtx c := rfl
@[simp] theorem clearCtx_challenge (c : SlotCtx) : (clearCtx c).challenge = none := rfl

/-- What `CtxInForm` says of a FREE context: it is cleared. -/
theorem ctxInForm_clear (c : SlotCtx) : CtxInForm (clearCtx c) := by
  simp [CtxInForm, FieldsAsPresent, VerdictAsState, clearCtx, SlotCtx.fresh, inJob]

theorem ctxInForm_fresh : CtxInForm SlotCtx.fresh := ctxInForm_clear SlotCtx.fresh

section
variable {c : SlotCtx} (h : CtxInForm c)
include h

theorem CtxInForm.lastResult (res : SlotResult) : CtxInForm { c with lastResult := res } := by
  obtain ⟨⟨h1, h2, h3, h4, h5, h6, h7, h8, h9⟩, hk, hv, hw⟩ := h
  refine ⟨⟨h1, h2, h3, h4, h5, h6, h7, h8, fun hf => ?_⟩, hk, hv, hw⟩
  have := h9 hf
  rw [this]
  rfl

/-- The idea of every case below: with the state known, the clauses of the form decide every field. -/
theorem CtxInForm.armed (ho : c.state = .open') :
    CtxInForm { c with lastResult := .ok, state := .queued, jobKind := some .verify } := by
  obtain ⟨⟨h1, h2, h3, h4, h5, h6, h7, h8, h9⟩, hk, ⟨hv1, hv2, hv3, hv4⟩, hw⟩ := h
  simp_all [CtxInForm, FieldsAsPresent, VerdictAsState, mayHoldKey, inJob, bne, beq_eq_decide]

theorem CtxInForm.badInbound (ho : c.state = .open') :
    CtxInForm (faultCtx .badInbound { c with lastResult := .ok }) := by
  obtain ⟨⟨h1, h2, h3, h4, h5, h6, h7, h8, h9⟩, hk, ⟨hv1, hv2, hv3, hv4⟩, hw⟩ := h
  simp_all [CtxInForm, FieldsAsPresent, VerdictAsState, mayHoldKey, inJob, bne, beq_eq_decide, faultCtx]

theorem CtxInForm.sealing (ho : c.state = .verified) :
    CtxInForm { c with lastResult := .ok, state := .queued, jobKind := some .sealing } := by
  obtain ⟨⟨h1, h2, h3, h4, h5, h6, h7, h8, h9⟩, hk, ⟨hv1, hv2, hv3, hv4⟩, hw⟩ := h
  simp_all [CtxInForm, FieldsAsPresent, VerdictAsState, mayHoldKey, inJob, bne, beq_eq_decide]

theorem CtxInForm.aborting (ho : c.state = .busy) :
    CtxInForm { c with lastResult := .ok, state := .aborting } := by
  obtain ⟨⟨h1, h2, h3, h4, h5, h6, h7, h8, h9⟩, hk, ⟨hv1, hv2, hv3, hv4⟩, hw⟩ := h
  simp_all [CtxInForm, FieldsAsPresent, VerdictAsState, mayHoldKey, inJob, bne, beq_eq_decide]

theorem CtxInForm.inbound (v : Vector Word 4) (ho : c.state = .open') : CtxInForm { c with inbound := v } := by
  obtain ⟨⟨h1, h2, h3, h4, h5, h6, h7, h8, h9⟩, hk, ⟨hv1, hv2, hv3, hv4⟩, hw⟩ := h
  simp_all [CtxInForm, FieldsAsPresent, VerdictAsState, mayHoldKey, inJob, bne, beq_eq_decide]

theorem CtxInForm.payload (v : Vector Word 4) (ho : c.state ≠ .free) : CtxInForm { c with payload := v } := by
  obtain ⟨⟨h1, h2, h3, h4, h5, h6, h7, h8, h9⟩, hk, hv, hw⟩ := h
  exact ⟨⟨h1, h2, h3, h4, h5, h6, h7, h8, fun hf => absurd hf ho⟩, hk, hv, hw⟩

theorem CtxInForm.late (ho : c.state ≠ .free) : CtxInForm { c with late := true } := by
  obtain ⟨⟨h1, h2, h3, h4, h5, h6, h7, h8, h9⟩, hk, hv, hw⟩ := h
  exact ⟨⟨h1, h2, h3, h4, h5, h6, h7, h8, fun hf => absurd hf ho⟩, hk, hv, hw⟩

theorem CtxInForm.expired (he : deadlineExpires c = true) :
    CtxInForm { c with state := .expired, jobKind := none } := by
  obtain ⟨⟨h1, h2, h3, h4, h5, h6, h7, h8, h9⟩, hk, ⟨hv1, hv2, hv3, hv4⟩, hw⟩ := h
  simp only [deadlineExpires, Bool.or_eq_true, Bool.and_eq_true, beq_iff_eq] at he
  rcases he with he | ⟨he, hj⟩ <;> simp_all [CtxInForm, FieldsAsPresent, VerdictAsState, mayHoldKey, inJob, bne,
    beq_eq_decide]

theorem CtxInForm.derived (k : Fin 64) (key : Block) (ho : c.state = .queued) (hj : c.jobKind = some .verify) :
    CtxInForm (derivedCtx k key c) := by
  obtain ⟨⟨h1, h2, h3, h4, h5, h6, h7, h8, h9⟩, hk, ⟨hv1, hv2, hv3, hv4⟩, hw⟩ := h
  simp_all [CtxInForm, FieldsAsPresent, VerdictAsState, mayHoldKey, inJob, bne, beq_eq_decide, derivedCtx]

theorem CtxInForm.sealBusy (k : Fin 64) (ho : c.state = .queued) (hj : c.jobKind = some .sealing) :
    CtxInForm { c with state := .busy, recordEntry := some k } := by
  obtain ⟨⟨h1, h2, h3, h4, h5, h6, h7, h8, h9⟩, hk, ⟨hv1, hv2, hv3, hv4⟩, hw⟩ := h
  simp_all [CtxInForm, FieldsAsPresent, VerdictAsState, mayHoldKey, inJob, bne, beq_eq_decide]

/-- A fault from a state that has no reason and is no end state but VERIFIED leaves a context in form. -/
theorem CtxInForm.faulted {reason : Reason} (hr : reason ≠ .duplicate)
    (ho : c.state = .queued ∨ c.state = .busy ∨ c.state = .verified) : CtxInForm (faultCtx reason c) := by
  obtain ⟨⟨h1, h2, h3, h4, h5, h6, h7, h8, h9⟩, hk, ⟨hv1, hv2, hv3, hv4⟩, hw⟩ := h
  rcases ho with ho | ho | ho <;> simp_all [CtxInForm, FieldsAsPresent, VerdictAsState, mayHoldKey, inJob, bne,
    beq_eq_decide, faultCtx]

theorem CtxInForm.rejected {reason : Reason} (hr : reason ≠ .duplicate) (hn : c.withdrawn = false)
    (ho : c.state = .queued ∨ c.state = .busy) : CtxInForm (rejectCtx reason c) := by
  obtain ⟨⟨h1, h2, h3, h4, h5, h6, h7, h8, h9⟩, hk, ⟨hv1, hv2, hv3, hv4⟩, hw⟩ := h
  rcases ho with ho | ho <;> simp_all [CtxInForm, FieldsAsPresent, VerdictAsState, mayHoldKey, inJob, bne,
    beq_eq_decide, rejectCtx]

/-- How a QUEUED slot ends whose job fails as it is taken, or a BUSY one whose job fails: the state BUSY between is not
seen in the end (R43, R45, R48). -/
theorem CtxInForm.jobFails {c' : SlotCtx} (ho : c.state = .queued ∨ c.state = .busy)
    (hf : JobFails { c with state := .busy } c') : CtxInForm c' := by
  cases hf with
  | fault reason hr => exact CtxInForm.faulted h hr (ho.imp_right .inl)
  | reject reason hr hn => exact CtxInForm.rejected h hr hn ho

theorem CtxInForm.jobEnds {c' : SlotCtx} {kind : JobKind} (ho : c.state = .busy) (hj : c.jobKind = some kind)
    (he : JobEnds c kind c') : CtxInForm c' := by
  cases he with
  | fails hf => exact CtxInForm.jobFails h (.inr ho) (by rw [← ho]; exact hf)
  | duplicate info hn =>
    obtain ⟨⟨h1, h2, h3, h4, h5, h6, h7, h8, h9⟩, hk, ⟨hv1, hv2, hv3, hv4⟩, hw⟩ := h
    simp_all [CtxInForm, FieldsAsPresent, VerdictAsState, mayHoldKey, inJob, bne, beq_eq_decide, rejectCtx]
  | accept hn =>
    obtain ⟨⟨h1, h2, h3, h4, h5, h6, h7, h8, h9⟩, hk, ⟨hv1, hv2, hv3, hv4⟩, hw⟩ := h
    simp_all [CtxInForm, FieldsAsPresent, VerdictAsState, mayHoldKey, inJob, bne, beq_eq_decide]
  | sealed m w hn =>
    obtain ⟨⟨h1, h2, h3, h4, h5, h6, h7, h8, h9⟩, hk, ⟨hv1, hv2, hv3, hv4⟩, hw⟩ := h
    simp_all [CtxInForm, FieldsAsPresent, VerdictAsState, mayHoldKey, inJob, bne, beq_eq_decide]

theorem CtxInForm.withdraw (k : Fin 64) : CtxInForm (withdrawCtx k c) := by
  simp only [withdrawCtx]
  split
  next hf =>
    refine CtxInForm.faulted h (by simp) ?_
    simp only [withdrawalFaults, Bool.and_eq_true, Bool.or_eq_true, beq_iff_eq] at hf
    tauto
  next =>
    split
    next hm =>
      simp only [withdrawalMarks, Bool.and_eq_true, beq_iff_eq] at hm
      obtain ⟨⟨h1, h2, h3, h4, h5, h6, h7, h8, h9⟩, hk, ⟨hv1, hv2, hv3, hv4⟩, hw⟩ := h
      simp_all [CtxInForm, FieldsAsPresent, VerdictAsState, mayHoldKey, inJob, bne, beq_eq_decide]
    next => exact h

end

/-- The context that an OPEN leaves is in form (R12). -/
theorem ctxInForm_opened (s : State) (r : SlotRef) (c : SlotCtx) : CtxInForm (openedCtx s r c) := by
  simp [CtxInForm, FieldsAsPresent, VerdictAsState, openedCtx, SlotCtx.fresh, inJob]

end Sys2Proof.Machine
end

