-- ==== Sys2Proof/Proofs/SlotsInStep.lean ====
section
/-! SUPPORT. The agreement of slots and engine, said of lookups, and how it goes through the changes of one slot, of all
slots, and of the map. -/

namespace Sys2Proof.Machine

open Sys2Proof.Safety

/-- What `SlotsAndEngine` asks of a BUSY or ABORTING slot (R41, R44, R16). -/
def WorkedOn (e : Engine) (r : SlotRef) (c : SlotCtx) : Prop :=
  ∃ kind, c.jobKind = some kind ∧ liveJob e = some (r, kind) ∧
    ∀ g epoch tagKey discard, e.job = some { work := .verify r g epoch tagKey, discard := discard } →
      c.derivedKey = some tagKey ∧ c.generation = g

/-- The states of a slot whose job is in work. -/
def InWork (c : SlotCtx) : Prop := c.state = .busy ∨ c.state = .aborting

theorem WorkedOn.congr {e e' : Engine} {r : SlotRef} {c c' : SlotCtx} (h : WorkedOn e r c) (hj : e'.job = e.job)
    (hk : c'.jobKind = c.jobKind) (hd : c'.derivedKey = c.derivedKey) (hg : c'.generation = c.generation) :
    WorkedOn e' r c' := by
  obtain ⟨kind, h1, h2, h3⟩ := h
  exact ⟨kind, hk.trans h1, by simpa only [liveJob, hj] using h2, fun g ep key d he => by
    rw [hd, hg]; exact h3 g ep key d (hj ▸ he)⟩

/-- In a list of contexts with one to a slot, the members are what the lookup finds. -/
theorem mem_iff_contextIn {l : List (SlotRef × SlotCtx)} (h : (l.map (·.1)).Nodup) (p : SlotRef × SlotCtx) :
    p ∈ l ↔ contextIn l p.1 = some p.2 := by
  induction l with
  | nil => simp [contextIn]
  | cons q l ih =>
    rw [List.map_cons] at h
    obtain ⟨hq, hl⟩ := List.nodup_cons.mp h
    rw [List.mem_cons, contextIn, List.find?_cons]
    by_cases e : q.1 = p.1
    · have hp : p ∉ l := fun hp => hq (e.symm ▸ List.mem_map_of_mem (f := (·.1)) hp)
      simp only [e, beq_self_eq_true, Option.map_some, Option.some_inj, hp, or_false]
      exact ⟨fun he => he ▸ rfl, fun he => Prod.ext e.symm he.symm⟩
    · have hpq : p ≠ q := fun he => e (he ▸ rfl)
      have hb : (q.1 == p.1) = false := by simpa using e
      simp only [hpq, false_or, hb]
      exact ih hl

theorem State.mem_contexts_iff {s : State} (h : OneContextEach s) (p : SlotRef × SlotCtx) :
    p ∈ s.slots.contexts ↔ s.ctx? p.1 = some p.2 := mem_iff_contextIn h p

/-- The agreement, of lookups. -/
theorem slotsAndEngine_iff (s : State) :
    SlotsAndEngine s ↔ OneContextEach s ∧ (∀ r c, s.ctx? r = some c → CtxInForm c) ∧ s.engine.fifo.Nodup ∧
      (∀ r, r ∈ s.engine.fifo ↔ ∃ c, s.ctx? r = some c ∧ c.state = .queued) ∧
      ∀ r c, s.ctx? r = some c → InWork c → WorkedOn s.engine r c := by
  refine and_congr_right fun hone => ?_
  have hmem : ∀ r c, (r, c) ∈ s.slots.contexts ↔ s.ctx? r = some c := fun r c => State.mem_contexts_iff hone (r, c)
  simp only [FifoExact, BusyInWork, Prod.forall, Prod.exists, hmem]
  constructor
  · rintro ⟨hf, ⟨hn, hq, hq'⟩, hb⟩
    refine ⟨hf, hn, fun r => ⟨fun hr => ?_, fun ⟨c, hc, hs⟩ => hq' r c hc hs⟩, hb⟩
    obtain ⟨r', c, hc, rfl, hs⟩ := hq r hr
    exact ⟨c, hc, hs⟩
  · rintro ⟨hf, hn, hq, hb⟩
    refine ⟨hf, ⟨hn, fun r hr => ?_, fun r c hc hs => (hq r).mpr ⟨c, hc, hs⟩⟩, hb⟩
    obtain ⟨c, hc, hs⟩ := (hq r).mp hr
    exact ⟨r, c, hc, rfl, hs⟩

section
variable {s t : State}

/-- The job of the engine is none that a slot waits for, or the one of slot `r`: another slot in work does not see it
change. -/
def JobConcerns (r : SlotRef) (e e' : Engine) : Prop :=
  e'.job = e.job ∨ liveJob e = none ∨ ∃ k, liveJob e = some (r, k)

/-- The change of one slot, with what it asks of the FIFO and of the job in work. -/
theorem SlotsAndEngine.setCtx (hs : SlotsAndEngine s) {r : SlotRef} {c c' : SlotCtx} (hc : s.ctx? r = some c)
    (ht : t.slots.contexts = (s.setCtx r c').slots.contexts) (hform : CtxInForm c') (hnodup : t.engine.fifo.Nodup)
    (hmine : r ∈ t.engine.fifo ↔ c'.state = .queued)
    (hothers : ∀ r', r' ≠ r → (r' ∈ t.engine.fifo ↔ r' ∈ s.engine.fifo))
    (hwork : InWork c' → WorkedOn t.engine r c') (hjob : JobConcerns r s.engine t.engine) : SlotsAndEngine t := by
  obtain ⟨hone, hform0, -, hfifo, hbusy⟩ := (slotsAndEngine_iff s).mp hs
  have hself : t.ctx? r = some c' := (State.ctx?_congr ht r).trans (s.ctx?_setCtx_self r c' c hc)
  have hne : ∀ r', r' ≠ r → t.ctx? r' = s.ctx? r' := fun r' h =>
    (State.ctx?_congr ht r').trans (s.ctx?_setCtx_of_ne r r' c' h)
  have hrefs : t.refs = s.refs := (State.refs_congr ht).trans (s.refs_setCtx r c')
  refine (slotsAndEngine_iff t).mpr ⟨(hrefs ▸ hone : t.refs.Nodup), fun r' c1 h1 => ?_, hnodup, fun r' => ?_,
    fun r' c1 h1 hw => ?_⟩ <;> by_cases hr : r' = r
  · subst hr; rw [hself] at h1; cases h1; exact hform
  · exact hform0 r' c1 (hne r' hr ▸ h1)
  · subst hr; simp [hmine, hself]
  · rw [hothers r' hr, hfifo, hne r' hr]
  · subst hr; rw [hself] at h1; cases h1; exact hwork hw
  · have hold := hbusy r' c1 (hne r' hr ▸ h1) hw
    rcases hjob with hj | hj | ⟨k, hj⟩
    · exact hold.congr hj rfl rfl rfl
    · obtain ⟨kind, -, hl, -⟩ := hold
      simp [hj] at hl
    · obtain ⟨kind, -, hl, -⟩ := hold
      simp only [hj, Option.some_inj, Prod.mk.injEq] at hl
      exact absurd hl.1.symm hr

/-- A slot changes and neither enters nor leaves the FIFO; where it is in work then, it was before. -/
theorem SlotsAndEngine.keepFifo (hs : SlotsAndEngine s) {r : SlotRef} {c c' : SlotCtx} (hc : s.ctx? r = some c)
    (ht : t.slots.contexts = (s.setCtx r c').slots.contexts) (he : t.engine = s.engine) (hform : CtxInForm c')
    (hq : c'.state = .queued ↔ c.state = .queued)
    (hwork : InWork c' → InWork c ∧ c'.jobKind = c.jobKind ∧ c'.derivedKey = c.derivedKey ∧
      c'.generation = c.generation) : SlotsAndEngine t := by
  obtain ⟨-, -, hnodup, hfifo, hbusy⟩ := (slotsAndEngine_iff s).mp hs
  refine SlotsAndEngine.setCtx hs hc ht hform (he ▸ hnodup) ?_
    (fun r' _ => by rw [he]) (fun hw => ?_) (.inl (by rw [he]))
  · simp [he, hfifo, hc, hq]
  · obtain ⟨hw0, hk, hd, hg⟩ := hwork hw
    exact (hbusy r c hc hw0).congr (by rw [he]) hk hd hg

/-- A slot joins the FIFO. -/
theorem SlotsAndEngine.join (hs : SlotsAndEngine s) {r : SlotRef} {c c' : SlotCtx} (hc : s.ctx? r = some c)
    (ht : t.slots.contexts = (s.setCtx r c').slots.contexts)
    (he : t.engine = { s.engine with fifo := s.engine.fifo ++ [r] }) (hform : CtxInForm c') (hn : c.state ≠ .queued)
    (hq : c'.state = .queued) : SlotsAndEngine t := by
  obtain ⟨-, -, hnodup, hfifo, -⟩ := (slotsAndEngine_iff s).mp hs
  have hout : r ∉ s.engine.fifo := by simp [hfifo, hc, hn]
  refine SlotsAndEngine.setCtx hs hc ht hform ?_
    (by simp [he, hq]) (fun r' hr => by simp [he, hr]) ?_ (.inl (by rw [he]))
  · simpa [he, List.nodup_append] using ⟨hnodup, fun a ha e => hout (e ▸ ha)⟩
  · simp [InWork, hq]

/-- A slot leaves the FIFO, from wherever it stands, for a state that is not in work. -/
theorem SlotsAndEngine.leave (hs : SlotsAndEngine s) {r : SlotRef} {c c' : SlotCtx} (hc : s.ctx? r = some c)
    (ht : t.slots.contexts = (s.setCtx r c').slots.contexts)
    (he : t.engine = { s.engine with fifo := s.engine.fifo.filter fun x => x != r }) (hform : CtxInForm c')
    (hq : c'.state ≠ .queued) (hw : ¬InWork c') : SlotsAndEngine t := by
  obtain ⟨-, -, hnodup, -, -⟩ := (slotsAndEngine_iff s).mp hs
  refine SlotsAndEngine.setCtx hs hc ht hform ?_
    (by simp [he, hq]) (fun r' hr => by simp [he, hr]) (absurd · hw) (.inl (by rw [he]))
  rw [he]
  exact hnodup.filter _

/-- The slot at the head of the FIFO is taken by the idle engine. -/
theorem SlotsAndEngine.pop (hs : SlotsAndEngine s) {r : SlotRef} {rest : List SlotRef} {c c' : SlotCtx}
    (hc : s.ctx? r = some c) (hi : s.engine.job = none) (hf : s.engine.fifo = r :: rest)
    (ht : t.slots.contexts = (s.setCtx r c').slots.contexts) (he : t.engine.fifo = rest) (hform : CtxInForm c')
    (hq : c'.state ≠ .queued) (hw : InWork c' → WorkedOn t.engine r c') : SlotsAndEngine t := by
  obtain ⟨-, -, hnodup, -, -⟩ := (slotsAndEngine_iff s).mp hs
  rw [hf] at hnodup
  obtain ⟨hr, hrest⟩ := List.nodup_cons.mp hnodup
  exact SlotsAndEngine.setCtx hs hc ht hform (he ▸ hrest)
    (by simp [he, hr, hq]) (fun r' hne => by simp [he, hf, hne]) hw
    (.inr (.inl (by simp [liveJob, hi])))

/-- The slot at the head of the FIFO is QUEUED. -/
theorem SlotsAndEngine.head_queued (hs : SlotsAndEngine s) {r : SlotRef} {rest : List SlotRef} {c : SlotCtx}
    (hc : s.ctx? r = some c) (hf : s.engine.fifo = r :: rest) : c.state = .queued := by
  obtain ⟨-, -, -, hfifo, -⟩ := (slotsAndEngine_iff s).mp hs
  obtain ⟨c1, h1, h2⟩ := (hfifo r).mp (by simp [hf])
  rw [hc] at h1
  cases h1
  exact h2

/-- The job of a slot in work ends. -/
theorem SlotsAndEngine.done (hs : SlotsAndEngine s) {r : SlotRef} {kind : JobKind} {c c' : SlotCtx}
    (hc : s.ctx? r = some c) (hl : liveJob s.engine = some (r, kind)) (hn : c.state ≠ .queued)
    (ht : t.slots.contexts = (s.setCtx r c').slots.contexts) (he : t.engine.fifo = s.engine.fifo) (hform : CtxInForm c')
    (hq : c'.state ≠ .queued) (hw : ¬InWork c') : SlotsAndEngine t := by
  obtain ⟨-, -, hnodup, hfifo, -⟩ := (slotsAndEngine_iff s).mp hs
  exact SlotsAndEngine.setCtx hs hc ht hform (he ▸ hnodup) (by simp [he, hfifo, hc, hn, hq]) (fun r' _ => by rw [he])
    (absurd · hw) (.inr (.inr ⟨kind, hl⟩))

/-- The slots and the FIFO stay, and the job too unless no slot is in work. -/
theorem SlotsAndEngine.sameSlots (hs : SlotsAndEngine s) (ht : t.slots.contexts = s.slots.contexts)
    (he : t.engine.fifo = s.engine.fifo)
    (hj : t.engine.job = s.engine.job ∨ ∀ r c, s.ctx? r = some c → ¬InWork c) : SlotsAndEngine t := by
  obtain ⟨hone, hform, hnodup, hfifo, hbusy⟩ := (slotsAndEngine_iff s).mp hs
  have hctx := State.ctx?_congr ht
  refine (slotsAndEngine_iff t).mpr ⟨by simpa only [OneContextEach, ht] using hone, fun r c h => hform r c (hctx r ▸ h),
    he ▸ hnodup, fun r => by rw [he, hfifo, hctx], fun r c h hw => ?_⟩
  rw [hctx] at h
  rcases hj with hj | hj
  · exact (hbusy r c h hw).congr hj rfl rfl rfl
  · exact absurd hw (hj r c h)

/-- No slot is in work for a job that no slot waits for. -/
theorem SlotsAndEngine.none_inWork (hs : SlotsAndEngine s) (hl : liveJob s.engine = none) :
    ∀ r c, s.ctx? r = some c → ¬InWork c := by
  obtain ⟨-, -, -, -, hbusy⟩ := (slotsAndEngine_iff s).mp hs
  intro r c hc hw
  obtain ⟨kind, -, h, -⟩ := hbusy r c hc hw
  simp [hl] at h

/-- Every slot is cleared, and the FIFO. -/
theorem SlotsAndEngine.cleared (hs : SlotsAndEngine s)
    (ht : t.slots.contexts = s.slots.contexts.map fun p => (p.1, clearCtx p.2)) (he : t.engine.fifo = []) :
    SlotsAndEngine t := by
  have hone : OneContextEach t := by simpa [OneContextEach, ht, Function.comp_def] using hs.1
  have hctx : ∀ r c, t.ctx? r = some c → ∃ c0, c = clearCtx c0 := fun r c h => by
    rw [State.ctx?_eq, ht, contextIn_map] at h
    obtain ⟨c0, -, e⟩ := Option.map_eq_some_iff.mp h
    exact ⟨c0, e.symm⟩
  refine (slotsAndEngine_iff t).mpr ⟨hone, fun r c h => ?_, by simp [he], fun r => ?_, fun r c h hw => ?_⟩
  · obtain ⟨c0, rfl⟩ := hctx r c h
    exact ctxInForm_clear c0
  · rw [he]
    simp only [List.not_mem_nil, false_iff, not_exists, not_and]
    intro c h
    obtain ⟨c0, rfl⟩ := hctx r c h
    simp
  · obtain ⟨c0, rfl⟩ := hctx r c h
    simp [InWork] at hw

theorem slotsAndEngine_empty (hc : s.slots.contexts = []) (hf : s.engine.fifo = []) : SlotsAndEngine s := by
  simp [SlotsAndEngine, OneContextEach, FifoExact, BusyInWork, hc, hf]

end

/-! ### Withdrawal and installation -/

/-- A withdrawal takes a QUEUED slot out of the queue exactly where it faults it, and leaves the job of a slot in work
(R27). -/
theorem withdrawCtx_cases (k : Fin 64) (c : SlotCtx) :
    (withdrawalFaults k c = true ∧ (withdrawCtx k c).state = .faulted) ∨
    (withdrawalFaults k c = false ∧ (withdrawCtx k c).state = c.state ∧ (withdrawCtx k c).jobKind = c.jobKind ∧
      (withdrawCtx k c).derivedKey = c.derivedKey ∧ (withdrawCtx k c).generation = c.generation) := by
  simp only [withdrawCtx]
  split
  next h => exact .inl ⟨h, rfl⟩
  next h => refine .inr ⟨by simpa using h, ?_⟩; split <;> exact ⟨rfl, rfl, rfl, rfl⟩

/-- The slots that a withdrawal faults, of lookups. -/
theorem State.mem_withdrawnSlots {s : State} (h : OneContextEach s) (k : Fin 64) (r : SlotRef) :
    r ∈ s.withdrawnSlots k ↔ ∃ c, s.ctx? r = some c ∧ withdrawalFaults k c = true := by
  simp only [State.withdrawnSlots, List.mem_map, List.mem_filter, State.mem_contexts_iff h]
  constructor
  · rintro ⟨p, ⟨hp, hf⟩, rfl⟩
    exact ⟨p.2, hp, hf⟩
  · rintro ⟨c, hc, hf⟩
    exact ⟨(r, c), ⟨hc, hf⟩, rfl⟩

theorem State.ctx?_withdraw (k : Fin 64) (s : State) (r : SlotRef) :
    (s.withdraw k).ctx? r = (s.ctx? r).map (withdrawCtx k) := contextIn_map s.slots.contexts (withdrawCtx k) r

/-- A withdrawal (R27). -/
theorem SlotsAndEngine.withdraw {s t : State} (hs : SlotsAndEngine s) (k : Fin 64)
    (ht : t.slots.contexts = (s.withdraw k).slots.contexts) (he : t.engine = (s.withdraw k).engine) :
    SlotsAndEngine t := by
  obtain ⟨hone, hform, hnodup, hfifo, hbusy⟩ := (slotsAndEngine_iff s).mp hs
  have hctx : ∀ r, t.ctx? r = (s.ctx? r).map (withdrawCtx k) := fun r =>
    (State.ctx?_congr ht r).trans (s.ctx?_withdraw k r)
  have hfif : t.engine.fifo = s.engine.fifo.filter fun x => !(s.withdrawnSlots k).contains x := by rw [he]; rfl
  have hjob : t.engine.job = s.engine.job := by rw [he]; rfl
  refine (slotsAndEngine_iff t).mpr ⟨?_, fun r c h => ?_, hfif ▸ hnodup.filter _, fun r => ?_, fun r c h hw => ?_⟩
  · simpa [OneContextEach, ht, State.withdraw_contexts, Function.comp_def] using hone
  · obtain ⟨c0, h0, rfl⟩ := Option.map_eq_some_iff.mp (hctx r ▸ h)
    exact CtxInForm.withdraw (hform r c0 h0) k
  · simp only [hfif, List.mem_filter, hfifo, hctx, List.contains_eq_mem, Bool.not_eq_true', decide_eq_false_iff_not,
      State.mem_withdrawnSlots hone]
    constructor
    · rintro ⟨⟨c, hc, hq⟩, hn⟩
      rcases withdrawCtx_cases k c with ⟨hf, -⟩ | ⟨-, hst, -⟩
      · exact absurd ⟨c, hc, hf⟩ hn
      · exact ⟨withdrawCtx k c, by simp [hc], hst.trans hq⟩
    · rintro ⟨c', hc', hq⟩
      obtain ⟨c, hc, rfl⟩ := Option.map_eq_some_iff.mp hc'
      rcases withdrawCtx_cases k c with ⟨-, hst⟩ | ⟨hf, hst, -⟩
      · simp [hst] at hq
      · refine ⟨⟨c, hc, hst ▸ hq⟩, ?_⟩
        rintro ⟨c1, h1, hf1⟩
        rw [hc] at h1
        cases h1
        simp [hf] at hf1
  · obtain ⟨c0, h0, rfl⟩ := Option.map_eq_some_iff.mp (hctx r ▸ h)
    rcases withdrawCtx_cases k c0 with ⟨-, hst⟩ | ⟨-, hst, hk, hd, hg⟩
    · simp [InWork, hst] at hw
    · exact (hbusy r c0 h0 (by simpa [InWork, hst] using hw)).congr hjob hk hd hg

/-- An installation makes one context to a slot (R28, R159). -/
theorem nodup_installContexts {s : State} (h : OneContextEach s) (new : Vector Descriptor 16) :
    ((installContexts s new).map (·.1)).Nodup := by
  rw [installContexts_eq, List.map_flatMap, List.nodup_flatMap]
  refine ⟨fun g _ => ?_, ?_⟩
  · simp only [groupContexts]
    repeat' split
    · exact h.sublist (List.filter_sublist.map _)
    · rw [List.map_map]
      refine List.Nodup.map_on (fun i _ j _ e => ?_) ((List.nodup_finRange 32).filter _)
      simpa using e
    · simp
  · refine (List.nodup_finRange 16).imp fun {g g'} hne r hr hr' => hne ?_
    obtain ⟨p, hp, rfl⟩ := List.mem_map.mp hr
    obtain ⟨q, hq, he⟩ := List.mem_map.mp hr'
    rw [← group_of_mem_groupContexts hp, ← group_of_mem_groupContexts hq, he]

/-- A slot of a kept group keeps its job, since the engine discards those of dropped groups alone (R51). -/
theorem WorkedOn.install {e : Engine} {r : SlotRef} {c : SlotCtx} {kept : Fin 16 → Bool} (h : WorkedOn e r c)
    (hk : kept r.group = true) : WorkedOn (installEngine e kept) r c := by
  have hj : (installEngine e kept).job = e.job := by
    obtain ⟨kind, -, hl, -⟩ := h
    simp only [installEngine]
    cases hj : e.job with
    | none => rfl
    | some j =>
      have : discardDropped kept j = j := by
        simp only [liveJob, hj] at hl
        split at hl <;> simp_all [discardDropped, jobSlot]
      simp [this]
  exact h.congr hj rfl rfl rfl

/-- An installation (R28, R51, R159). -/
theorem SlotsAndEngine.install {s : State} (hs : SlotsAndEngine s) (new : Vector Descriptor 16) :
    SlotsAndEngine (s.installMap new) := by
  obtain ⟨hone, hform, hnodup, hfifo, hbusy⟩ := (slotsAndEngine_iff s).mp hs
  have hctx : ∀ r, (s.installMap new).ctx? r =
      if groupKept s.map.table new r.group then s.ctx? r
      else if new[r.group].isSlots && decide (r.index.val < new[r.group].slotCount) then some SlotCtx.fresh
      else none := contextIn_installContexts s new
  have hfresh : ∀ r c, groupKept s.map.table new r.group = false → (s.installMap new).ctx? r = some c →
      c = SlotCtx.fresh := fun r c hk h => by
    rw [hctx, hk] at h
    simp only [Bool.false_eq_true, if_false] at h
    split at h <;> simp_all
  have hfif : (s.installMap new).engine.fifo =
    s.engine.fifo.filter fun r => groupKept s.map.table new r.group := rfl
  refine (slotsAndEngine_iff _).mpr ⟨nodup_installContexts hone new, fun r c h => ?_, hfif ▸ hnodup.filter _,
    fun r => ?_, fun r c h hw => ?_⟩ <;> cases hk : groupKept s.map.table new r.group
  · exact hfresh r c hk h ▸ ctxInForm_fresh
  · rw [hctx, if_pos hk] at h
    exact hform r c h
  · simp only [hfif, List.mem_filter, hk, Bool.false_eq_true, and_false, false_iff, not_exists, not_and]
    intro c h
    simp [hfresh r c hk h, SlotCtx.fresh]
  · simp [hfif, hk, hfifo, hctx]
  · simp [hfresh r c hk h, InWork, SlotCtx.fresh] at hw
  · rw [hctx, if_pos hk] at h
    exact (hbusy r c h hw).install hk

end Sys2Proof.Machine
end

