-- ==== Sys2Proof/Proofs/EngineInStep.lean ====
section
/-! SUPPORT. Every event keeps slots and engine in step, and O53. -/

namespace Sys2Proof.Machine

open Sys2Proof.Safety

@[simp] theorem State.continueCheck_fifo (n : Nat) (s : State) : (s.continueCheck n).engine.fifo = s.engine.fifo := by
  simp only [State.continueCheck]; split <;> simp

/-- Before RUNNING there is neither a slot nor a queue, and the end of NV_READ makes none (R166). -/
theorem slotsAndEngine_leaveNvRead {s : State} (hc : s.slots.contexts = []) (hf : s.engine.fifo = []) :
    SlotsAndEngine s.leaveNvRead := by
  have hrefs : s.leaveNvRead.refs = [] := by rw [s.refs_leaveNvRead, State.refs, hc]; rfl
  refine slotsAndEngine_empty (List.map_eq_nil_iff.mp hrefs) ?_
  rcases s.leaveNvRead_cases with ⟨e, -⟩ | e <;> rw [e]
  · rw [(State.startZeroization_fields _).engine]
  · simpa using hf

/-- The job in work is one alone: an import, so none that a slot waits for. -/
theorem liveJob_of_liveImport {e : Engine} {h : Block} (hl : liveImport e = some h) : liveJob e = none := by
  unfold liveImport at hl
  split at hl
  next hj => simp [liveJob, hj]
  next => cases hl

section
variable {s t : State} (hs : SlotsAndEngine s)
include hs

theorem SlotsAndEngine.form {r : SlotRef} {c : SlotCtx} (hc : s.ctx? r = some c) : CtxInForm c :=
  ((slotsAndEngine_iff s).mp hs).2.1 r c hc

/-- A slot in work has the job kind of the job in work. -/
theorem SlotsAndEngine.kind {r : SlotRef} {kind : JobKind} {c : SlotCtx} (hl : liveJob s.engine = some (r, kind))
    (hc : s.ctx? r = some c) (hw : InWork c) : c.jobKind = some kind := by
  obtain ⟨-, -, -, -, hbusy⟩ := (slotsAndEngine_iff s).mp hs
  obtain ⟨kind', hk, hl', -⟩ := hbusy r c hc hw
  rw [hl, Option.some_inj, Prod.mk.injEq] at hl'
  rw [hk, hl'.2]

theorem SlotsAndEngine.same (h : SamePart s t) : SlotsAndEngine t :=
  SlotsAndEngine.sameSlots hs (by rw [h.slots]) (by rw [h.engine]) (.inl (by rw [h.engine]))

/-! ### Slot commands and shadows -/

theorem SlotsAndEngine.armed {r : SlotRef} {c : SlotCtx} (hc : s.ctx? r = some c) (ho : c.state = .open') :
    SlotsAndEngine (s.carryArm r c) := by
  have hform := SlotsAndEngine.form hs hc
  simp only [State.carryArm]
  split
  · exact SlotsAndEngine.join hs hc rfl rfl (CtxInForm.armed hform ho) (by simp [ho]) rfl
  · exact SlotsAndEngine.keepFifo hs hc rfl rfl (CtxInForm.badInbound hform ho) (by simp [ho, faultCtx])
      (by simp [InWork, faultCtx])

theorem SlotsAndEngine.released {r : SlotRef} {c : SlotCtx} (hc : s.ctx? r = some c) (he : isEndState c.state = true) :
    SlotsAndEngine (s.carryRelease r c) :=
  SlotsAndEngine.keepFifo hs hc rfl rfl (ctxInForm_clear _) (by cases h : c.state <;> simp_all [isEndState])
    (by simp [InWork])

theorem SlotsAndEngine.aborted {r : SlotRef} {c : SlotCtx} (hc : s.ctx? r = some c)
    (ha : acceptedFrom .abort c.state = true) : SlotsAndEngine (s.carryAbort r c) := by
  simp only [State.carryAbort]
  split
  next hb =>
    exact SlotsAndEngine.keepFifo hs hc rfl rfl (CtxInForm.aborting (SlotsAndEngine.form hs hc) hb) (by simp [hb])
      fun _ => ⟨.inl hb, rfl, rfl, rfl⟩
  next hb =>
    split
    · exact SlotsAndEngine.leave hs hc rfl rfl (ctxInForm_clear _) (by simp) (by simp [InWork])
    next hq =>
      refine SlotsAndEngine.released hs hc ?_
      cases h : c.state <;> simp_all [acceptedFrom, isEndState]

/-- An event of a beat keeps slots and engine in step. -/
theorem SlotsAndEngine.beat (h : BeatEvent s t) : SlotsAndEngine t := by
  cases h with
  | same h => exact SlotsAndEngine.same hs h
  | refused r c res hc =>
    exact SlotsAndEngine.keepFifo hs hc rfl rfl (CtxInForm.lastResult (SlotsAndEngine.form hs hc) res) Iff.rfl
      fun hw => ⟨hw, rfl, rfl, rfl⟩
  | waits r c hc =>
    exact SlotsAndEngine.keepFifo hs hc rfl rfl (CtxInForm.lastResult (SlotsAndEngine.form hs hc) _) Iff.rfl
      fun hw => ⟨hw, rfl, rfl, rfl⟩
  | opened r c hc _ hf _ =>
    exact SlotsAndEngine.keepFifo hs hc rfl rfl (ctxInForm_opened s r c) (by simp [openedCtx, hf])
      (by simp [InWork, openedCtx])
  | armed r c hc _ ho => exact SlotsAndEngine.armed hs hc ho
  | sealing r c hc _ hv =>
    exact SlotsAndEngine.join hs hc rfl rfl (CtxInForm.sealing (SlotsAndEngine.form hs hc) hv) (by simp [hv]) rfl
  | released r c hc _ he => exact SlotsAndEngine.released hs hc he
  | aborted r c hc _ ha => exact SlotsAndEngine.aborted hs hc ha
  | inbound r c v hc ho =>
    exact SlotsAndEngine.keepFifo hs hc rfl rfl (CtxInForm.inbound (SlotsAndEngine.form hs hc) v ho) Iff.rfl
      fun hw => ⟨hw, rfl, rfl, rfl⟩
  | payload r c v hc ho =>
    refine SlotsAndEngine.keepFifo hs hc rfl rfl (CtxInForm.payload (SlotsAndEngine.form hs hc) v ?_) Iff.rfl
      fun hw => ⟨hw, rfl, rfl, rfl⟩
    rintro hf
    simp [payloadOpen, hf] at ho
  | withdrawn cmd i e op _ _ _ _ _ => exact SlotsAndEngine.withdraw hs i rfl rfl
  | zeroized command code index check _ _ =>
    have f := State.startZeroization_fields (s.endAtOnce command code index check)
    exact SlotsAndEngine.cleared hs f.contexts (by rw [f.engine])
  | holdSet _ _ => exact SlotsAndEngine.cleared hs s.setHold_contexts (by simp [State.setHold, holdEngine])
  | _ => exact SlotsAndEngine.sameSlots hs rfl rfl (.inl rfl)

/-! ### The other rows -/

theorem SlotsAndEngine.tookVerify {r : SlotRef} {rest : List SlotRef} {c : SlotCtx} (k : Fin 64) (key : Block)
    (hi : s.engine.job = none) (hf : s.engine.fifo = r :: rest) (hc : s.ctx? r = some c)
    (hk : c.jobKind = some .verify) :
    SlotsAndEngine (((s.popFifo rest).setCtx r (derivedCtx k key c)).startJob
      (.verify r c.generation s.time.epoch key)) := by
  have hq := SlotsAndEngine.head_queued hs hc hf
  refine SlotsAndEngine.pop hs hc hi hf rfl rfl (CtxInForm.derived (SlotsAndEngine.form hs hc) k key hq hk) (by simp)
    fun _ => ⟨.verify, hk, rfl, fun g ep key' d he => ?_⟩
  simp only [State.startJob, Option.some_inj, Job.mk.injEq, Work.verify.injEq] at he
  obtain ⟨⟨-, rfl, -, rfl⟩, -⟩ := he
  exact ⟨rfl, rfl⟩

theorem SlotsAndEngine.tookSeal {r : SlotRef} {rest : List SlotRef} {c : SlotCtx} (k : Fin 64) (key : Block)
    (hi : s.engine.job = none) (hf : s.engine.fifo = r :: rest) (hc : s.ctx? r = some c)
    (hk : c.jobKind = some .sealing) :
    SlotsAndEngine (((s.popFifo rest).setCtx r { c with state := .busy, recordEntry := some k }).startJob
      (.sealing r c.generation s.time.epoch key)) := by
  have hq := SlotsAndEngine.head_queued hs hc hf
  refine SlotsAndEngine.pop hs hc hi hf rfl rfl (CtxInForm.sealBusy (SlotsAndEngine.form hs hc) k hq hk) (by simp)
    fun _ => ⟨.sealing, hk, rfl, fun g ep key' d he => ?_⟩
  simp [State.startJob] at he

omit hs in
/-- A job that fails or is delivered leaves its slot in an end state. -/
theorem JobFails.ended {c c' : SlotCtx} (h : JobFails c c') : c'.state ≠ .queued ∧ ¬InWork c' := by
  cases h <;> simp [InWork, faultCtx, rejectCtx]

omit hs in
theorem JobEnds.ended {c c' : SlotCtx} {kind : JobKind} (h : JobEnds c kind c') : c'.state ≠ .queued ∧ ¬InWork c' := by
  cases h with
  | fails h => exact h.ended
  | _ => simp [InWork, rejectCtx]

/-- An event of a row keeps slots and engine in step. -/
theorem SlotsAndEngine.row (hst : StartUpOrder s) (h : RowEvent s t) : SlotsAndEngine t := by
  cases h with
  | powerOn straps => exact slotsAndEngine_empty rfl rfl
  | tamper _ _ =>
    exact SlotsAndEngine.cleared hs (s.startZeroization_fields).contexts (by rw [s.startZeroization_fields.engine])
  | expired r c hc _ he =>
    exact SlotsAndEngine.leave hs hc rfl rfl (CtxInForm.expired (SlotsAndEngine.form hs hc) he)
      (by simp) (by simp [InWork])
  | late r c hc _ hl =>
    refine SlotsAndEngine.keepFifo hs hc rfl rfl (CtxInForm.late (SlotsAndEngine.form hs hc) ?_) Iff.rfl
      fun hw => ⟨hw, rfl, rfl, rfl⟩
    rintro hf
    simp [deadlineLate, hf] at hl
  | tookVerify r rest c k key hi hf hc hk => exact SlotsAndEngine.tookVerify hs k key hi hf hc hk
  | tookSeal r rest c k key hi hf hc hk => exact SlotsAndEngine.tookSeal hs k key hi hf hc hk
  | tookFailing r rest c c' hi hf hc hj =>
    exact SlotsAndEngine.pop hs hc hi hf rfl rfl
      (CtxInForm.jobFails (SlotsAndEngine.form hs hc) (.inl (SlotsAndEngine.head_queued hs hc hf)) hj)
      hj.ended.1 (absurd · hj.ended.2)
  | tookImport kind hi _ =>
    exact SlotsAndEngine.sameSlots hs rfl rfl (.inr (SlotsAndEngine.none_inWork hs (by simp [liveJob, hi])))
  | jobLost j _ _ _ hlost =>
    refine SlotsAndEngine.sameSlots hs rfl rfl (.inr fun r c hc hw => ?_)
    obtain ⟨-, -, -, -, hbusy⟩ := (slotsAndEngine_iff s).mp hs
    obtain ⟨kind, -, hl, -⟩ := hbusy r c hc hw
    exact hw.elim (hlost r kind c hl hc).1 (hlost r kind c hl hc).2
  | jobAborted r kind c hl hc ha =>
    exact SlotsAndEngine.done hs hc hl (by simp [ha]) rfl rfl (ctxInForm_clear c) (by simp) (by simp [InWork])
  | jobEnded r kind c c' f hl hc hb hj =>
    have hk := SlotsAndEngine.kind hs hl hc (.inl hb)
    exact SlotsAndEngine.done hs hc hl (by simp [hb]) rfl rfl (CtxInForm.jobEnds (SlotsAndEngine.form hs hc) hb hk hj)
      hj.ended.1 hj.ended.2
  | handedOver kind h res hl =>
    have hnone := SlotsAndEngine.none_inWork hs (liveJob_of_liveImport hl)
    simp only [State.handOver]
    repeat' split
    all_goals exact SlotsAndEngine.sameSlots hs (by simp) (by simp [State.idleEngine]) (.inr hnone)
  | checked i key hj =>
    obtain ⟨d, hj⟩ := hj
    exact SlotsAndEngine.sameSlots hs (by simp [State.idleEngine]) (by simp [State.idleEngine])
      (.inr (SlotsAndEngine.none_inWork hs (by simp [liveJob, hj])))
  | adminEnded op passed _ => exact SlotsAndEngine.sameSlots hs (by simp) (by simp) (.inl (by simp))
  | reservationEnded v passed _ => cases passed <;> exact SlotsAndEngine.sameSlots hs rfl rfl (.inl rfl)
  | reserveEnded v passed _ => cases passed <;> exact SlotsAndEngine.sameSlots hs rfl rfl (.inl rfl)
  | epochEnded v passed _ => cases passed <;> exact SlotsAndEngine.sameSlots hs rfl rfl (.inl rfl)
  | blankWritten hr =>
    have hp : s.life.phase = .nvRead := (hst.2.2.2.1 _ hr).1
    have hq := hst.1 (by simp [hp])
    exact slotsAndEngine_leaveNvRead hq.1 hq.2.1
  | readEnded l d hp _ _ _ =>
    have hq := hst.1 (by simp [hp])
    exact slotsAndEngine_leaveNvRead hq.1 hq.2.1
  | installed beats _ _ _ => exact SlotsAndEngine.install hs _
  | _ => exact SlotsAndEngine.sameSlots hs rfl rfl (.inl rfl)

end

end Sys2Proof.Machine

namespace Sys2Proof.Proofs

open Sys2Proof.Machine Sys2Proof.Safety

/-- Settles O53, event by event: a slot changes together with the FIFO and the job that concern it. -/
theorem stepKeepsSlotsAndEngineInStep : Obligations.StepKeepsSlotsAndEngineInStep := fun _ _ hst hs h =>
  step_keeps (Q := StartUpOrder) (fun _ _ => StartUpOrder.same) (fun _ _ => StartUpOrder.beat)
    (fun _ _ h hs => SlotsAndEngine.same hs h) (fun _ _ _ h hs => SlotsAndEngine.beat hs h)
    (fun _ _ hst h hs => SlotsAndEngine.row hs hst h) hst hs h

end Sys2Proof.Proofs
end

