-- ==== Sys2Proof/Proofs/HeldRequests.lean ====
section
/-! SUPPORT. The requests of one kind that the NV writer holds, through its operations: what the reservations and the
admin requests have in common (R34, R90). -/

namespace Sys2Proof.Machine

open Sys2Proof.Safety

/-- The running operation is none of RESERVE that was not. -/
def NoNewReserve (w w' : NvWriter) : Prop := ∀ v, w'.running = some (.reserve v) → w.running = some (.reserve v)

theorem NvWriter.take_noNewReserve (r : NvRequest) (w : NvWriter) : NoNewReserve w (w.take r) := by
  intro v hv
  cases hr : w.running <;> simp_all [NvWriter.take]

theorem NvWriter.goOn_noNewReserve (w : NvWriter) : NoNewReserve w w.goOn := by
  intro v hv
  simp only [NvWriter.goOn] at hv
  repeat' split at hv
  all_goals simp at hv

theorem startZeroizeOperation_noNewReserve (w : NvWriter) : NoNewReserve w (startZeroizeOperation w) := by
  intro v hv
  cases hr : w.running <;> simp_all [startZeroizeOperation]

/-- A writer that goes on holds the requests that waited. -/
theorem heldRequests_goOn_eq (w : NvWriter) : heldRequests w.goOn = w.waiting := by
  cases hz : w.zeroizeWaiting
  · exact heldRequests_goOn hz
  · exact heldRequests_goOn_zeroize hz

theorem waiting_sublist_heldRequests (w : NvWriter) : w.waiting.Sublist (heldRequests w) :=
  List.sublist_append_right _ _

theorem heldRequests_startZeroize_sublist (w : NvWriter) :
    (heldRequests (startZeroizeOperation w)).Sublist (heldRequests w) := by
  cases hr : w.running with
  | none => simp [startZeroizeOperation, heldRequests, hr]
  | some op => cases op <;> simp [startZeroizeOperation, heldRequests, hr]

section
variable {α : Type} {f : NvRequest → Option α} (hf : ∀ v, f (.epochRecord v) = none)
include hf

/-- Requests of a kind other than epoch records, after one more waits. -/
theorem filterMap_enqueueRequest (r : NvRequest) (l : List NvRequest) :
    (enqueueRequest r l).filterMap f = l.filterMap f ++ (f r).toList := by
  cases r with
  | epochRecord v =>
    simp only [enqueueRequest, hf, Option.toList_none, List.append_nil]
    split
    · rw [List.filterMap_map]
      refine List.filterMap_congr fun x _ => ?_
      cases x <;> simp [requestKind, hf]
    · simp [hf]
  | admin op => cases h : f (.admin op) <;> simp [enqueueRequest, h]
  | reservation v => cases h : f (.reservation v) <;> simp [enqueueRequest, h]

/-- Requests of a kind other than epoch records, after one more is taken. -/
theorem filterMap_heldRequests_take (r : NvRequest) (w : NvWriter) :
    ((heldRequests (w.take r)).filterMap f).Perm ((heldRequests w).filterMap f ++ (f r).toList) := by
  cases hr : w.running with
  | none =>
    rw [heldRequests_take_idle r hr, heldRequests_idle hr]
    cases h : f r with
    | none => simp [h]
    | some a => simpa [List.filterMap_cons, h] using (List.perm_append_singleton a _).symm
  | some op =>
    rw [heldRequests_take_busy r (by simp [hr])]
    simp only [heldRequests, List.filterMap_append, filterMap_enqueueRequest hf, List.append_assoc]
    exact .refl _

end

/-! ### Reservations -/

/-- The ceiling that a request asks for. -/
def ceilingOf : NvRequest → Option Nat
  | .reservation v => some v
  | _ => none

theorem askedCeilings_eq (w : NvWriter) : askedCeilings w = (heldRequests w).filterMap ceilingOf :=
  List.filterMap_congr fun r _ => by cases r <;> rfl

theorem askedCeilings_goOn (w : NvWriter) : (askedCeilings w.goOn).Sublist (askedCeilings w) := by
  rw [askedCeilings_eq, askedCeilings_eq, heldRequests_goOn_eq]
  exact (waiting_sublist_heldRequests w).filterMap _

theorem askedCeilings_startZeroize (w : NvWriter) :
    (askedCeilings (startZeroizeOperation w)).Sublist (askedCeilings w) := by
  rw [askedCeilings_eq, askedCeilings_eq]
  exact (heldRequests_startZeroize_sublist w).filterMap _

theorem askedCeilings_take (r : NvRequest) (w : NvWriter) :
    (askedCeilings (w.take r)).Perm (askedCeilings w ++ (ceilingOf r).toList) := by
  rw [askedCeilings_eq, askedCeilings_eq]
  exact filterMap_heldRequests_take (fun _ => rfl) r w

/-! ### Admin requests -/

/-- The admin operation that a request asks for. -/
def adminOpOf : NvRequest → Option AdminOp
  | .admin op => some op
  | _ => none

theorem adminOps_eq (w : NvWriter) : adminOps w = (heldRequests w).filterMap adminOpOf :=
  List.filterMap_congr fun r _ => by cases r <;> rfl

theorem adminOps_goOn (w : NvWriter) : (adminOps w.goOn).Sublist (adminOps w) := by
  rw [adminOps_eq, adminOps_eq, heldRequests_goOn_eq]
  exact (waiting_sublist_heldRequests w).filterMap _

theorem adminOps_startZeroize (w : NvWriter) : (adminOps (startZeroizeOperation w)).Sublist (adminOps w) := by
  rw [adminOps_eq, adminOps_eq]
  exact (heldRequests_startZeroize_sublist w).filterMap _

theorem adminOps_take (r : NvRequest) (w : NvWriter) :
    (adminOps (w.take r)).Perm (adminOps w ++ (adminOpOf r).toList) := by
  rw [adminOps_eq, adminOps_eq]
  exact filterMap_heldRequests_take (fun _ => rfl) r w

end Sys2Proof.Machine
end

