-- ==== Sys2Proof/Proofs/ChallengeParts.lean ====
section
/-! SUPPORT. The challenge counter, its reservations and the live challenges, each part of `ChallengesReserved` by
itself, and O52. -/

namespace Sys2Proof.Machine

open Sys2Proof.Safety

/-! ### The counter -/

/-- Counter, ceiling and high-water (R32, R35, R170). -/
def Counting (s : State) : Prop :=
  s.slots.counter ≤ s.slots.ceiling ∧ s.slots.ceiling ≤ s.nv.highWater ∧ s.nv.highWater ≤ Config.counterEnd ∧
  s.nv.highWater % 4096 = 0 ∧ s.slots.ceiling % 4096 = 0 ∧
  (s.life.phase = .reserve ∨ s.life.phase = .mapLoad ∨ s.life.phase = .running →
    s.slots.ceiling = s.nv.highWater) ∧
  (s.life.phase = .reserve → s.slots.counter = s.nv.highWater)

/-- The reservations and the program of RESERVE (R34, R170). -/
def Asking (s : State) : Prop :=
  (∀ v, s.writer.running = some (.reserve v) → v % 4096 = 0 ∧ s.nv.highWater ≤ v ∧ v ≤ Config.counterEnd) ∧
  (askedCeilings s.writer).length ≤ 1 ∧
  (∀ v ∈ askedCeilings s.writer, v % 4096 = 0 ∧ s.nv.highWater ≤ v ∧ v ≤ Config.counterEnd) ∧
  (askedCeilings s.writer ≠ [] → s.slots.reservationPending = true ∨ s.zeroing = true)

/-- The live challenges (R36). -/
def ChallengesLive (s : State) : Prop :=
  (∀ p ∈ s.slots.contexts, ∀ ch, p.2.challenge = some ch → challengeValue ch < s.slots.counter) ∧
  (∀ p ∈ s.slots.contexts, ∀ q ∈ s.slots.contexts, ∀ ch,
    p.2.challenge = some ch → q.2.challenge = some ch → p.1 = q.1)

theorem challengesReserved_iff (s : State) : ChallengesReserved s ↔ Counting s ∧ Asking s ∧ ChallengesLive s := by
  simp only [ChallengesReserved, Counting, Asking, ChallengesLive]
  tauto

theorem Counting.congr {s t : State} (h : Counting s) (hp : t.life.phase = s.life.phase)
    (hc : t.slots.counter = s.slots.counter) (hl : t.slots.ceiling = s.slots.ceiling)
    (hw : t.nv.highWater = s.nv.highWater) : Counting t := by
  simpa only [Counting, hp, hc, hl, hw] using h

/-- Fewer requests, no new program of RESERVE, and no pending flag lost. -/
theorem Asking.of_subperm {s t : State} (h : Asking s) (hw : t.nv.highWater = s.nv.highWater)
    (hr : NoNewReserve s.writer t.writer) (ha : (askedCeilings t.writer).Subperm (askedCeilings s.writer))
    (hp : s.slots.reservationPending = true ∨ s.zeroing = true → t.slots.reservationPending = true ∨ t.zeroing = true) :
    Asking t := by
  obtain ⟨h1, h2, h3, h4⟩ := h
  refine ⟨fun v hv => hw ▸ h1 v (hr v hv), ha.length_le.trans h2, fun v hv => hw ▸ h3 v (ha.subset hv), fun hn => ?_⟩
  refine hp (h4 fun he => hn ?_)
  simpa [he] using ha

theorem Asking.congr {s t : State} (h : Asking s) (hw : t.nv.highWater = s.nv.highWater) (hr : t.writer = s.writer)
    (hp : t.slots.reservationPending = s.slots.reservationPending) (hz : t.life.cycle = s.life.cycle) : Asking t :=
  h.of_subperm hw (by rw [hr]; exact fun _ h => h) (by rw [hr]) (by simp [hp, State.zeroing, hz])

/-- A request of another kind is taken. -/
theorem Asking.take {s t : State} (h : Asking s) (hw : t.nv.highWater = s.nv.highWater) (r : NvRequest)
    (hr : t.writer = s.writer ∨ t.writer = s.writer.take r) (hk : ceilingOf r = none)
    (hp : t.slots.reservationPending = s.slots.reservationPending) (hz : t.life.cycle = s.life.cycle) : Asking t := by
  rcases hr with hr | hr
  · exact h.congr hw hr hp hz
  · refine h.of_subperm hw (hr ▸ s.writer.take_noNewReserve r) ?_ (by simp [hp, State.zeroing, hz])
    rw [hr]
    simpa [hk] using (askedCeilings_take r s.writer).subperm

/-- A reservation is asked for, or none (R34, R35). -/
theorem Asking.reserveWhen {s : State} (h : Asking s) (hc : Counting s) (hrun : s.life.phase = .running) {go : Bool}
    (hgo : go = true → s.mayReserve = true) : Asking (s.reserveWhen go) := by
  cases go with
  | false => exact h.congr rfl rfl (by simp [State.reserveWhen]) rfl
  | true =>
    obtain ⟨h1, h2, h3, h4⟩ := h
    obtain ⟨-, -, hend, hw, -, hceil, -⟩ := hc
    have hm := hgo rfl
    simp only [State.mayReserve, Bool.and_eq_true, Bool.not_eq_true', decide_eq_true_eq] at hm
    obtain ⟨⟨hpend, hlt⟩, hz⟩ := hm
    have hnone : askedCeilings s.writer = [] := by
      by_contra hne
      simpa [hpend, hz] using h4 hne
    have hperm := askedCeilings_take (.reservation (s.slots.ceiling + Config.reserveStep)) s.writer
    rw [hnone] at hperm
    have heq : askedCeilings (s.reserveWhen true).writer = [s.slots.ceiling + Config.reserveStep] :=
      List.perm_singleton.mp hperm
    have hce := hceil (.inr (.inr hrun))
    refine ⟨fun v hv => h1 v (s.writer.take_noNewReserve _ v hv), by simp [heq], fun v hv => ?_, fun _ => .inl ?_⟩
    · rw [heq, List.mem_singleton] at hv
      subst hv
      simp only [State.reserveWhen, Config.reserveStep, Config.counterEnd] at hlt hend ⊢
      omega
    · simp [State.reserveWhen]

/-! ### The challenges -/

/-- Each live challenge of `t` was live in the same slot of `s`. -/
structure NoNewChallenge (s t : State) : Prop where
  members : ∀ p ∈ t.slots.contexts, ∀ ch, p.2.challenge = some ch →
    ∃ q ∈ s.slots.contexts, q.1 = p.1 ∧ q.2.challenge = some ch
  lookups : ∀ r c ch, t.ctx? r = some c → c.challenge = some ch → (s.ctx? r).bind (·.challenge) = some ch

theorem NoNewChallenge.congr {s t : State} (h : t.slots.contexts = s.slots.contexts) : NoNewChallenge s t where
  members p hp ch hc := ⟨p, h ▸ hp, rfl, hc⟩
  lookups r c ch hr hc := by rw [State.ctx?_congr h] at hr; simp [hr, hc]

theorem NoNewChallenge.empty {s t : State} (h : t.slots.contexts = []) : NoNewChallenge s t where
  members p hp := by simp [h] at hp
  lookups r c ch hr := by simp [State.ctx?, h] at hr

/-- One context changes, its challenge staying or going. -/
theorem NoNewChallenge.setCtx {s t : State} {r : SlotRef} {c c' : SlotCtx} (hc : s.ctx? r = some c)
    (ht : t.slots.contexts = (s.setCtx r c').slots.contexts) (h : c'.challenge = c.challenge ∨ c'.challenge = none) :
    NoNewChallenge s t where
  members p hp ch hch := by
    have hmem : (r, c) ∈ s.slots.contexts := by
      simp only [State.ctx?, Option.map_eq_some_iff] at hc
      obtain ⟨q, hq, rfl⟩ := hc
      have := List.find?_some hq
      simp only [beq_iff_eq] at this
      exact this ▸ List.mem_of_find?_eq_some hq
    rw [ht] at hp
    obtain ⟨q, hq, rfl⟩ := List.mem_map.mp hp
    split at hch
    next he =>
      refine ⟨(r, c), hmem, by simp [he], ?_⟩
      rcases h with h | h <;> simp_all
    next he => exact ⟨q, hq, by simp [he], hch⟩
  lookups q c1 ch h1 hch := by
    rw [State.ctx?_congr ht] at h1
    by_cases hq : q = r
    · subst hq
      rw [s.ctx?_setCtx_self q c' c hc] at h1
      cases h1
      rcases h with h | h <;> simp_all
    · rw [s.ctx?_setCtx_of_ne r q c' hq] at h1
      simp [h1, hch]

/-- Every context changes by one function, its challenge staying or going. -/
theorem NoNewChallenge.map {s t : State} (f : SlotCtx → SlotCtx)
    (ht : t.slots.contexts = s.slots.contexts.map fun p => (p.1, f p.2))
    (h : ∀ c, (f c).challenge = c.challenge ∨ (f c).challenge = none) : NoNewChallenge s t where
  members p hp ch hch := by
    rw [ht] at hp
    obtain ⟨q, hq, rfl⟩ := List.mem_map.mp hp
    refine ⟨q, hq, rfl, ?_⟩
    rcases h q.2 with h | h <;> simp_all
  lookups r c ch hr hch := by
    rw [State.ctx?_eq, ht, contextIn_map, ← State.ctx?_eq] at hr
    obtain ⟨c0, h0, rfl⟩ := Option.map_eq_some_iff.mp hr
    rcases h c0 with h | h <;> simp_all

/-- An installation keeps contexts or makes fresh ones (R28). -/
theorem NoNewChallenge.install (s : State) (new : Vector Descriptor 16) : NoNewChallenge s (s.installMap new) where
  members p hp ch hch := by
    have hp : p ∈ installContexts s new := hp
    rw [installContexts_eq, List.mem_flatMap] at hp
    obtain ⟨g, -, hp⟩ := hp
    simp only [groupContexts] at hp
    repeat' split at hp
    · exact ⟨p, (List.mem_filter.mp hp).1, rfl, hch⟩
    · obtain ⟨i, -, rfl⟩ := List.mem_map.mp hp
      simp [SlotCtx.fresh] at hch
    · simp at hp
  lookups r c ch hr hch := by
    have hr : contextIn (installContexts s new) r = some c := hr
    rw [contextIn_installContexts] at hr
    repeat' split at hr
    · simp [hr, hch]
    · cases hr; simp [SlotCtx.fresh] at hch
    · cases hr

theorem NoNewChallenge.trans {s t u : State} (a : NoNewChallenge s t)
    (b : NoNewChallenge t u) : NoNewChallenge s u where
  members p hp ch hch := by
    obtain ⟨q, hq, he, hqch⟩ := b.members p hp ch hch
    obtain ⟨q', hq', he', hch'⟩ := a.members q hq ch hqch
    exact ⟨q', hq', he'.trans he, hch'⟩
  lookups r c ch hr hch := by
    have := b.lookups r c ch hr hch
    obtain ⟨c', hc', hch'⟩ := Option.bind_eq_some_iff.mp this
    exact a.lookups r c' ch hc' hch'

/-- The live challenges stay so while the counter does not fall. -/
theorem ChallengesLive.of_noNew {s t : State} (h : ChallengesLive s) (hn : NoNewChallenge s t)
    (hc : s.slots.counter ≤ t.slots.counter) : ChallengesLive t := by
  refine ⟨fun p hp ch hch => ?_, fun p hp q hq ch hpch hqch => ?_⟩
  · obtain ⟨p', hp', -, hch'⟩ := hn.members p hp ch hch
    exact (h.1 p' hp' ch hch').trans_le hc
  · obtain ⟨p', hp', hpe, hpch'⟩ := hn.members p hp ch hpch
    obtain ⟨q', hq', hqe, hqch'⟩ := hn.members q hq ch hqch
    rw [← hpe, ← hqe]
    exact h.2 p' hp' q' hq' ch hpch' hqch'

end Sys2Proof.Machine
end

