-- ==== Sys2Proof/Proofs/ChallengeEvents.lean ====
section
/-! SUPPORT. Every event keeps the challenges reserved and issues each value once, and O52. -/

namespace Sys2Proof.Machine

open Sys2Proof.Safety

/-! ### Events that issue nothing -/

/-- An event that leaves the counter and adds no challenge. -/
structure IssuesNothing (s t : State) : Prop where
  phase : t.life.phase = s.life.phase
  counter : t.slots.counter = s.slots.counter
  ceiling : t.slots.ceiling = s.slots.ceiling
  highWater : t.nv.highWater = s.nv.highWater
  challenges : NoNewChallenge s t
  asking : Counting s → Asking s → Asking t

theorem IssuesNothing.reserved {s t : State} (h : IssuesNothing s t) (hs : ChallengesReserved s) :
    ChallengesReserved t := by
  rw [challengesReserved_iff] at hs ⊢
  obtain ⟨hc, ha, hl⟩ := hs
  exact ⟨hc.congr h.phase h.counter h.ceiling h.highWater, h.asking hc ha, hl.of_noNew h.challenges h.counter.ge⟩

theorem IssuesNothing.least {s t : State} (h : IssuesNothing s t) : leastToIssue t = leastToIssue s := by
  simp only [leastToIssue, h.phase, h.counter, h.highWater]

/-- Nothing of the counter, the NV writer and NV changes. -/
theorem IssuesNothing.of_frame {s t : State} (hl : t.life = s.life)
    (hs : t.slots = { s.slots with contexts := t.slots.contexts }) (hn : t.nv = s.nv) (hw : t.writer = s.writer)
    (h : NoNewChallenge s t) : IssuesNothing s t where
  phase := by rw [hl]
  counter := by rw [hs]
  ceiling := by rw [hs]
  highWater := by rw [hn]
  challenges := h
  asking _ ha := ha.congr (by rw [hn]) hw (by rw [hs]) (by rw [hl])

/-- The same, but for a request to the NV writer that is no reservation. -/
theorem IssuesNothing.of_request {s t : State} (r : NvRequest) (hl : t.life = s.life)
    (hs : t.slots = { s.slots with contexts := t.slots.contexts }) (hn : t.nv = s.nv)
    (hw : t.writer = (s.nvRequest r).writer) (hk : ceilingOf r = none) (h : NoNewChallenge s t) :
    IssuesNothing s t where
  phase := by rw [hl]
  counter := by rw [hs]
  ceiling := by rw [hs]
  highWater := by rw [hn]
  challenges := h
  asking _ ha := by
    refine ha.take (by rw [hn]) r ?_ hk (by rw [hs]) (by rw [hl])
    rw [hw, State.nvRequest]
    split
    · exact .inl rfl
    · exact .inr rfl

theorem IssuesNothing.same {s t : State} (h : SamePart s t) : IssuesNothing s t where
  phase := h.phase
  counter := by rw [h.slots]
  ceiling := by rw [h.slots]
  highWater := by rw [h.nv]
  challenges := .congr (by rw [h.slots])
  asking _ ha := ha.congr (by rw [h.nv]) h.writer (by rw [h.slots]) h.cycle

theorem IssuesNothing.trans {s t u : State} (a : IssuesNothing s t) (b : IssuesNothing t u) : IssuesNothing s u where
  phase := b.phase.trans a.phase
  counter := b.counter.trans a.counter
  ceiling := b.ceiling.trans a.ceiling
  highWater := b.highWater.trans a.highWater
  challenges := a.challenges.trans b.challenges
  asking hc ha := b.asking (hc.congr a.phase a.counter a.ceiling a.highWater) (a.asking hc ha)

/-- A zeroization issues nothing where KEY_CHECK has ended (R175). -/
theorem IssuesNothing.zeroization {s t : State} (h : ZeroizationFields s t) (hp : s.life.phase ≠ .keyCheck) :
    IssuesNothing s t := by
  have hn : NoNewChallenge s t := .map clearCtx h.contexts fun _ => .inr rfl
  obtain ⟨hk, -⟩ | ⟨-, hph, hc, hl⟩ := h.counter
  · exact absurd hk hp
  · refine ⟨hph, hc, hl, by rw [h.nv], hn, fun _ ha => ?_⟩
    refine ha.of_subperm (by rw [h.nv]) (h.writer ▸ startZeroizeOperation_noNewReserve _) ?_
      fun _ => .inr (by simp [State.zeroing, h.cycle])
    rw [h.writer]
    exact (askedCeilings_startZeroize s.writer).subperm

@[simp] theorem withdrawCtx_challenge (k : Fin 64) (c : SlotCtx) : (withdrawCtx k c).challenge = c.challenge := by
  simp only [withdrawCtx, faultCtx]; (repeat' split) <;> rfl

/-- An event of a beat issues nothing, or is an OPEN. -/
theorem BeatEvent.issues {s t : State} (hst : StartUpOrder s) (h : BeatEvent s t) :
    IssuesNothing s t ∨ ∃ r c, s.ctx? r = some c ∧ s.openRefusal = none ∧ t = s.carryOpen r c := by
  cases h with
  | opened r c hc _ _ ho => exact .inr ⟨r, c, hc, ho, rfl⟩
  | same h => exact .inl (.same h)
  | refused r c res hc => exact .inl (.of_frame rfl rfl rfl rfl (.setCtx hc rfl (.inl rfl)))
  | waits r c hc =>
    have hp := StartUpOrder.running_of_ctx hst hc
    exact .inl ⟨rfl, rfl, rfl, rfl, .setCtx hc rfl (.inl rfl), fun hcount ha =>
      Asking.reserveWhen (s := s.setCtx r { c with lastResult := .challengeWait }) (ha.congr rfl rfl rfl rfl)
        (hcount.congr rfl rfl rfl rfl) hp id⟩
  | armed r c hc _ _ =>
    simp only [State.carryArm]
    split <;> exact .inl (.of_frame rfl rfl rfl rfl (.setCtx hc rfl (.inl rfl)))
  | sealing r c hc _ _ => exact .inl (.of_frame rfl rfl rfl rfl (.setCtx hc rfl (.inl rfl)))
  | released r c hc _ _ => exact .inl (.of_frame rfl rfl rfl rfl (.setCtx hc rfl (.inr rfl)))
  | aborted r c hc _ _ =>
    simp only [State.carryAbort]
    repeat' split
    · exact .inl (.of_frame rfl rfl rfl rfl (.setCtx hc rfl (.inl rfl)))
    all_goals exact .inl (.of_frame rfl rfl rfl rfl (.setCtx hc rfl (.inr rfl)))
  | inbound r c v hc _ => exact .inl (.of_frame rfl rfl rfl rfl (.setCtx hc rfl (.inl rfl)))
  | payload r c v hc _ => exact .inl (.of_frame rfl rfl rfl rfl (.setCtx hc rfl (.inl rfl)))
  | withdrawn cmd i e op _ _ _ _ _ =>
    exact .inl (.of_request (.admin op) rfl rfl rfl rfl rfl (.map (withdrawCtx i) rfl fun _ => .inl (by simp)))
  | placedAdmin cmd op _ _ _ _ _ => exact .inl (.of_request (.admin op) rfl rfl rfl rfl rfl (.congr rfl))
  | switched e _ => exact .inl (.of_request (.epochRecord e) rfl rfl rfl rfl rfl (.congr rfl))
  | zeroized command code index check hp _ =>
    have f := State.startZeroization_fields (s.endAtOnce command code index check)
    have hend : IssuesNothing s (s.endAtOnce command code index check) := .of_frame rfl rfl rfl rfl (.congr rfl)
    exact .inl (hend.trans (.zeroization f (by simp [hp])))
  | holdSet _ _ =>
    refine .inl (.of_frame ?_ ?_ ?_ ?_ (.map clearCtx s.setHold_contexts fun _ => .inr rfl))
    all_goals simp [State.setHold, State.freeAllSlots]
  | _ => exact .inl (.of_frame rfl rfl rfl rfl (.congr rfl))

/-! ### OPEN -/

theorem challengeValue_challengeOf (reader : BitVec 16) {n : Nat} (h : n < 2 ^ 48) :
    challengeValue (challengeOf reader n) = n := by
  have : (challengeOf reader n).extractLsb' 0 48 = BitVec.ofNat 48 n := by
    apply BitVec.eq_of_getLsbD_eq
    intro i hi
    rw [BitVec.getLsbD_extractLsb', challengeOf, BitVec.getLsbD_append]
    simp [hi]
  rw [challengeValue, this, BitVec.toNat_ofNat, Nat.mod_eq_of_lt h]

/-- The contexts after an OPEN. -/
theorem State.carryOpen_contexts (s : State) (r : SlotRef) (c : SlotCtx) :
    (s.carryOpen r c).slots.contexts = (s.setCtx r (openedCtx s r c)).slots.contexts := rfl

/-- OPEN is let pass below the ceiling alone (R11). -/
theorem State.openRefusal_counter {s : State} (h : s.openRefusal = none) : s.slots.counter ≠ s.slots.ceiling := by
  simp only [State.openRefusal] at h
  repeat' split at h
  all_goals simp_all

/-- OPEN, below the ceiling, keeps the challenges reserved (R12, R32 to R36). -/
theorem ChallengesReserved.opened {s : State} (hs : ChallengesReserved s) (hp : s.life.phase = .running)
    {r : SlotRef} (c : SlotCtx) (ho : s.openRefusal = none) : ChallengesReserved (s.carryOpen r c) := by
  rw [challengesReserved_iff] at hs ⊢
  obtain ⟨hcount, ha, hlive, huniq⟩ := hs
  have hlt := State.openRefusal_counter ho
  have hcount' : Counting (s.setCtx r (openedCtx s r c)).issueChallenge := by
    obtain ⟨h1, h2, h3, h4, h5, h6, -⟩ := hcount
    exact ⟨by simp only [State.issueChallenge, State.setCtx]; omega, h2, h3, h4, h5, h6, fun h => by
      have h : s.life.phase = .reserve := h
      simp [hp] at h⟩
  have hval : challengeValue (challengeOf s.life.reader s.slots.counter) = s.slots.counter := by
    obtain ⟨h1, h2, h3, -⟩ := hcount
    exact challengeValue_challengeOf _ (by simp only [Config.counterEnd] at h3; omega)
  have hmem : ∀ p ∈ (s.carryOpen r c).slots.contexts, ∀ ch, p.2.challenge = some ch →
      (p.1 = r ∧ challengeValue ch = s.slots.counter) ∨ p ∈ s.slots.contexts := by
    intro p hp ch hch
    rw [State.carryOpen_contexts] at hp
    obtain ⟨q, hq, rfl⟩ := List.mem_map.mp hp
    split at hch
    next he =>
      simp only [openedCtx, Option.some_inj] at hch
      exact .inl ⟨by simp [he], hch ▸ hval⟩
    next he => exact .inr (by simpa [he] using hq)
  refine ⟨hcount'.congr rfl rfl rfl rfl, ?_, fun p hp ch hch => ?_, fun p hp q hq ch hpch hqch => ?_⟩
  · have hask := Asking.reserveWhen (s := (s.setCtx r (openedCtx s r c)).issueChallenge)
      (go := decide ((s.slots.ceiling - (s.slots.counter + 1)) ≤ Config.reserveBelow) && s.mayReserve)
      (ha.congr rfl rfl rfl rfl) hcount' hp fun hgo => (Bool.and_eq_true _ _ ▸ hgo).2
    exact hask.congr rfl rfl rfl rfl
  · show challengeValue ch < s.slots.counter + 1
    rcases hmem p hp ch hch with ⟨-, hv⟩ | hp
    · omega
    · have := hlive p hp ch hch
      omega
  · rcases hmem p hp ch hpch with ⟨hpr, hv⟩ | hp <;> rcases hmem q hq ch hqch with ⟨hqr, hv'⟩ | hq
    · rw [hpr, hqr]
    · have := hlive q hq ch hqch
      omega
    · have := hlive p hp ch hpch
      omega
    · exact huniq p hp q hq ch hpch hqch

/-! ### Rows -/

/-- A row adds no challenge, and the least value that can be issued does not fall. -/
structure Advances (s t : State) : Prop where
  challenges : NoNewChallenge s t
  reserved : ChallengesReserved t
  least : leastToIssue s ≤ leastToIssue t

theorem IssuesNothing.advances {s t : State} (h : IssuesNothing s t) (hs : ChallengesReserved s) : Advances s t :=
  ⟨h.challenges, h.reserved hs, h.least.ge⟩

/-- The least value that can be issued is at most the high-water (R32). -/
theorem leastToIssue_le {s : State} (hs : Counting s) : leastToIssue s ≤ s.nv.highWater := by
  simp only [leastToIssue]
  split
  · exact le_refl _
  · exact hs.1.trans hs.2.1

/-- A row that leaves no slot, or moves the counter up. -/
theorem advances_of_counting {s t : State} (hs : ChallengesReserved s) (hn : NoNewChallenge s t)
    (hc : Counting s → Counting t) (ha : Counting s → Asking s → Asking t)
    (hle : Counting s → s.slots.counter ≤ t.slots.counter ∨ t.slots.contexts = [])
    (hl : Counting s → leastToIssue s ≤ leastToIssue t) : Advances s t := by
  obtain ⟨hsc, hsa, hsl⟩ := (challengesReserved_iff s).mp hs
  refine ⟨hn, (challengesReserved_iff t).mpr ⟨hc hsc, ha hsc hsa, ?_⟩, hl hsc⟩
  rcases hle hsc with h | h
  · exact hsl.of_noNew hn h
  · simp [ChallengesLive, h]

/-- Without a request there is nothing asked for. -/
theorem askedCeilings_eq_nil {w : NvWriter} (hw : w.waiting = []) (hr : ∀ r, w.running ≠ some (.request r)) :
    askedCeilings w = [] := by
  cases h : w.running with
  | none => simp [askedCeilings, heldRequests, h, hw]
  | some op =>
    cases op with
    | request r => exact absurd h (hr r)
    | _ => simp [askedCeilings, heldRequests, h, hw]

theorem asking_of_none {s : State} (ha : askedCeilings s.writer = [])
    (hr : ∀ v, s.writer.running = some (.reserve v) → v % 4096 = 0 ∧ s.nv.highWater ≤ v ∧ v ≤ Config.counterEnd) :
    Asking s := ⟨hr, by simp [ha], by simp [ha], by simp [ha]⟩

/-- POWER_ON_RESET (R166): the least value to issue is the stored high-water. -/
theorem Advances.powerOn {s : State} (hs : ChallengesReserved s) (straps : BitVec 2) :
    Advances s (State.powerOn s.nv straps) :=
  advances_of_counting hs (.empty rfl)
    (fun ⟨_, _, h3, h4, _⟩ => ⟨le_refl _, Nat.zero_le _, h3, h4, rfl, by simp [State.powerOn], by simp [State.powerOn]⟩)
    (fun _ _ => asking_of_none rfl (by simp [State.powerOn])) (fun _ => .inr rfl)
    fun hc => by simpa [leastToIssue, State.powerOn] using leastToIssue_le hc

/-- RESERVE begins: counter and ceiling go up to the stored high-water (R170). -/
theorem Advances.beginReserve {s : State} (hs : ChallengesReserved s) (hw : s.writer.waiting = [])
    (hr : ∀ r, s.writer.running ≠ some (.request r)) : Advances s s.beginReserve := by
  have hph := s.beginReserve_phase
  have hnone := askedCeilings_eq_nil hw hr
  refine advances_of_counting hs (.congr (by simp)) (fun ⟨_, _, h3, h4, _⟩ => ?_) (fun hc ha => ?_)
    (fun ⟨h1, h2, _⟩ => .inl (by simpa using h1.trans h2)) fun hc => ?_
  · exact ⟨by simp, by simp, by simpa using h3, by simpa using h4, by simpa using h4, by simp, by simp⟩
  · rcases hph with ⟨-, hwr⟩ | ⟨-, hz, hlt, hwr⟩
    · exact asking_of_none (by rw [hwr, hnone]) fun v hv => by simpa using ha.1 v (hwr ▸ hv)
    · refine asking_of_none (by rw [hwr]; exact askedCeilings_eq_nil hw (by simp)) fun v hv => ?_
      rw [hwr] at hv
      cases hv
      obtain ⟨-, -, -, h4, -⟩ := hc
      simp only [State.beginReserve_frame, Config.reserveStep, Config.counterEnd] at hlt ⊢
      omega
  · rcases hph with ⟨hph, -⟩ | ⟨hph, -⟩ <;> simpa [leastToIssue, hph] using leastToIssue_le hc

/-- KEY_CHECK goes on, or RESERVE begins (R54, R169). -/
theorem Advances.continueCheck {s : State} (hs : ChallengesReserved s) (n : Nat) (hw : s.writer.waiting = [])
    (hr : ∀ r, s.writer.running ≠ some (.request r)) : Advances s (s.continueCheck n) := by
  rcases s.continueCheck_cases n with ⟨i, e⟩ | e <;> rw [e]
  · exact IssuesNothing.advances (.of_frame rfl rfl rfl rfl (.congr rfl)) hs
  · exact .beginReserve hs hw hr

/-- A zeroization starts, in KEY_CHECK with the end of start-up's RESERVE (R172, R175). -/
theorem Advances.zeroization {s t : State} (hs : ChallengesReserved s) (h : ZeroizationFields s t) : Advances s t := by
  by_cases hp : s.life.phase = .keyCheck
  · obtain ⟨-, hph, hcn, hcl⟩ | ⟨hne, -⟩ := h.counter
    · refine advances_of_counting hs (.map clearCtx h.contexts fun _ => .inr rfl) (fun ⟨_, _, h3, h4, _⟩ => ?_)
        (fun _ ha => ?_) (fun ⟨h1, h2, _⟩ => .inl (hcn ▸ h1.trans h2)) fun hc => ?_
      · simp [Counting, hcn, hcl, h.nv, h3, h4]
      · refine ha.of_subperm (by rw [h.nv]) (h.writer ▸ startZeroizeOperation_noNewReserve _) ?_
          fun _ => .inr (by simp [State.zeroing, h.cycle])
        rw [h.writer]
        exact (askedCeilings_startZeroize s.writer).subperm
      · simpa [leastToIssue, hph, hcn] using leastToIssue_le hc
    · exact absurd hp hne
  · exact (IssuesNothing.zeroization h hp).advances hs

theorem Advances.trans {s t u : State} (a : Advances s t) (b : Advances t u) : Advances s u :=
  ⟨a.challenges.trans b.challenges, b.reserved, a.least.trans b.least⟩

/-- NV_READ is left (R167). -/
theorem Advances.leaveNvRead {s : State} (hs : ChallengesReserved s) (hp : s.life.phase = .nvRead)
    (hw : s.writer.waiting = []) (hr : s.writer.running = none) : Advances s s.leaveNvRead := by
  have hcheck : Advances s { s with life := { s.life with phase := .keyCheck, deferred := false } } := by
    refine advances_of_counting hs (.congr rfl) (fun ⟨h1, h2, h3, h4, h5, _⟩ => ?_) (fun _ ha => ha)
      (fun _ => .inl le_rfl)
      fun _ => by simp [leastToIssue, hp]
    exact ⟨h1, h2, h3, h4, h5, by simp, by simp⟩
  rcases s.leaveNvRead_cases with ⟨e, -⟩ | e <;> rw [e]
  · exact hcheck.trans (.zeroization hcheck.reserved (State.startZeroization_fields _))
  · exact hcheck.trans (.continueCheck hcheck.reserved 0 hw (by simp [hr]))

/-- The running operation of the NV writer ends without a change of the counter or of NV's high-water. -/
theorem IssuesNothing.goOn {s t : State} (hp : t.life.phase = s.life.phase) (hs : t.slots = s.slots)
    (hn : t.nv.highWater = s.nv.highWater) (hw : t.writer = s.writer.goOn)
    (hz : s.zeroing = true → t.zeroing = true) : IssuesNothing s t where
  phase := hp
  counter := by rw [hs]
  ceiling := by rw [hs]
  highWater := hn
  challenges := .congr (by rw [hs])
  asking _ ha := by
    refine ha.of_subperm hn (hw ▸ s.writer.goOn_noNewReserve) ?_ (by rw [hs]; exact Or.imp_right hz)
    rw [hw]
    exact (askedCeilings_goOn s.writer).subperm

end Sys2Proof.Machine
end

