-- ==== Sys2Proof/Proofs/ChallengeRows.lean ====
section
/-! SUPPORT. The ends of the NV writer's operations and the remaining rows advance the challenge counter alone, and
O52. -/

namespace Sys2Proof.Machine

open Sys2Proof.Safety

/-! ### The ends of admin operations -/

/-- How an admin operation ends: its outcome disregarded once a zeroization has started, followed by the life-cycle
word of its own request, or delivered (R94, R104). -/
theorem State.endAdmin_cases (op : AdminOp) (passed : Bool) (s : State) :
    (s.zeroing = true ∧ s.endAdmin op passed = (s.adminInNv op passed).nvNext) ∨
    (s.zeroing = false ∧ ∃ i e, op = .program i e true ∧ passed = true ∧
      s.endAdmin op passed =
        { ((s.adminInNv op passed).setEntry i e) with
          writer := { s.writer with running := some (.request (.admin (.personalize i e.check))) } }) ∨
    (s.zeroing = false ∧ followUp op passed = none ∧
      s.endAdmin op passed = ((s.adminInNv op passed).deliverAdmin op passed).nvNext) := by
  simp only [State.endAdmin]
  split
  next hz => exact .inl ⟨hz, rfl⟩
  next hz =>
    have hz : s.zeroing = false := by simpa using hz
    split
    next next hf =>
      unfold followUp at hf
      split at hf
      next i e =>
        cases hf
        exact .inr (.inl ⟨hz, i, e, rfl, rfl, by simp [State.deliverAdmin]⟩)
      next => cases hf
    next hf => exact .inr (.inr ⟨hz, hf, rfl⟩)

theorem IssuesNothing.endAdmin {s : State} {op : AdminOp} (passed : Bool)
    (hr : s.writer.running = some (.request (.admin op))) : IssuesNothing s (s.endAdmin op passed) := by
  rcases s.endAdmin_cases op passed with ⟨-, e⟩ | ⟨hz, i, e', rfl, rfl, e⟩ | ⟨hz, -, e⟩ <;> rw [e]
  · exact .goOn (by simp) (by simp) (by simp) (by simp [State.nvNext]) (by simp [State.zeroing])
  · refine ⟨rfl, rfl, rfl, rfl, .congr rfl, fun _ ha => ha.of_subperm rfl (fun v hv => by simp at hv) ?_ ?_⟩
    · exact (List.Perm.of_eq (by simp [askedCeilings, heldRequests, hr])).subperm
    · simp [State.zeroing, State.adminInNv]
  · exact .goOn (by simp) (by simp) (by simp) (by simp [State.nvNext]) (by simp [hz])

/-! ### The NV writer's other operations -/

/-- A reservation ends: the ceiling goes up to what was asked for, or nothing changes (R35). -/
theorem Advances.endReservation {s : State} (hs : ChallengesReserved s) {v : Nat}
    (hr : s.writer.running = some (.request (.reservation v))) (hp : s.life.phase = .running) (passed : Bool) :
    Advances s (s.endReservation v passed) := by
  obtain ⟨-, ha, -⟩ := (challengesReserved_iff s).mp hs
  have hasked : askedCeilings s.writer = v :: s.writer.waiting.filterMap ceilingOf := by
    simp [askedCeilings_eq, heldRequests, hr, ceilingOf]
  have hlen := ha.2.1
  have hv := ha.2.2.1 v (by simp [hasked])
  have hrest : s.writer.waiting.filterMap ceilingOf = [] := by
    rw [hasked] at hlen
    exact List.length_eq_zero_iff.mp (by simpa using hlen)
  have hnone : askedCeilings (s.endReservation v passed).writer = [] := by
    have hw : (s.endReservation v passed).writer = s.writer.goOn := by cases passed <;> rfl
    rw [hw, askedCeilings_eq, heldRequests_goOn_eq, hrest]
  have hrun : ∀ u, (s.endReservation v passed).writer.running ≠ some (.reserve u) := fun u hu => by
    have hw : (s.endReservation v passed).writer = s.writer.goOn := by cases passed <;> rfl
    rw [hw] at hu
    simpa [hr] using s.writer.goOn_noNewReserve u hu
  have hask : Asking (s.endReservation v passed) := asking_of_none hnone fun u hu => absurd hu (hrun u)
  refine advances_of_counting hs
    (.congr (by cases passed <;> rfl)) (fun hc => ?_) (fun _ _ => hask) (fun _ => ?_) fun _ => ?_
  · cases passed with
    | false => exact hc.congr rfl rfl rfl rfl
    | true =>
      obtain ⟨h1, h2, -, -, -, -, -⟩ := hc
      exact ⟨(h1.trans h2).trans hv.2.1, le_rfl, hv.2.2, hv.1, hv.1, fun _ => rfl, fun h => by
        have h : s.life.phase = .reserve := h
        simp [hp] at h⟩
  · left; cases passed <;> exact le_rfl
  · have hph : (s.endReservation v passed).life.phase = .running := by cases passed <;> exact hp
    simp only [leastToIssue, hph, hp]
    cases passed <;> exact le_rfl

/-- The program of RESERVE ends, and the phase (R170). -/
theorem Advances.endReserveProgram {s : State} (hs : ChallengesReserved s) {v : Nat}
    (hr : s.writer.running = some (.reserve v)) (hp : s.life.phase = .reserve) (hw : s.writer.waiting = [])
      (passed : Bool) :
    Advances s (s.endReserveProgram v passed) := by
  obtain ⟨-, ha, -⟩ := (challengesReserved_iff s).mp hs
  have hv := ha.1 v hr
  have hwr : (s.endReserveProgram v passed).writer = s.writer.goOn := by cases passed <;> rfl
  have hask : Asking (s.endReserveProgram v passed) := by
    refine asking_of_none (by rw [hwr, askedCeilings_eq, heldRequests_goOn_eq, hw]; rfl) fun u hu => ?_
    rw [hwr, NvWriter.goOn, hw] at hu
    repeat' split at hu
    all_goals simp at hu
  have hph : (s.endReserveProgram v passed).life.phase = .mapLoad := by cases passed <;> rfl
  refine advances_of_counting hs
    (.congr (by cases passed <;> rfl)) (fun hc => ?_) (fun _ _ => hask) (fun _ => ?_) fun _ => ?_
  · obtain ⟨h1, h2, h3, h4, h5, h6, -⟩ := hc
    cases passed with
    | false => exact ⟨h1, h2, h3, h4, h5, fun _ => h6 (.inl hp), by simp [hph]⟩
    | true => exact ⟨(h1.trans h2).trans hv.2.1, le_rfl, hv.2.2, hv.1, hv.1, fun _ => rfl, by simp [hph]⟩
  · left; cases passed <;> exact le_rfl
  · simp only [leastToIssue, hph, hp]
    cases passed <;> exact le_rfl

@[simp] theorem zeroizeStage_highWater (n : Nat) (nv : NvArray) : (zeroizeStage n nv).highWater = nv.highWater := by
  simp only [zeroizeStage]; split <;> rfl

/-- The NV zeroize goes on: its writer holds the requests that it held. -/
theorem IssuesNothing.zeroizing {s t : State} (hl : t.life = s.life) (hs : t.slots = s.slots)
    (hn : t.nv.highWater = s.nv.highWater) (hw : t.writer.waiting = s.writer.waiting)
    (hr : ∀ v, t.writer.running ≠ some (.reserve v)) (hreq : ∀ r, t.writer.running ≠ some (.request r)) :
    IssuesNothing s t where
  phase := by rw [hl]
  counter := by rw [hs]
  ceiling := by rw [hs]
  highWater := hn
  challenges := .congr (by rw [hs])
  asking _ ha := by
    refine ha.of_subperm hn (fun v hv => absurd hv (hr v)) ?_ (by simp [hs, State.zeroing, hl])
    have : heldRequests t.writer = s.writer.waiting := by
      cases h : t.writer.running with
      | none => simp [heldRequests, h, hw]
      | some op =>
        cases op with
        | request r => exact absurd h (hreq r)
        | _ => simp [heldRequests, h, hw]
    rw [askedCeilings_eq, askedCeilings_eq, this]
    exact ((waiting_sublist_heldRequests s.writer).filterMap _).subperm

/-- A load of the map ends (R161). -/
theorem Advances.endLoad {s t : State} (hs : ChallengesReserved s) (hn : NoNewChallenge s t)
    (hp : t.life = s.endLoad.life) (hsl : t.slots = { s.slots with contexts := t.slots.contexts }) (hnv : t.nv = s.nv)
    (hw : t.writer = s.writer) : Advances s t := by
  have hc : t.slots.counter = s.slots.counter := by rw [hsl]
  have hl : t.slots.ceiling = s.slots.ceiling := by rw [hsl]
  have hph : t.life.phase = s.life.phase ∨ (s.life.phase = .mapLoad ∧ t.life.phase = .running) := by
    rw [hp]
    simp only [State.endLoad]
    split
    next h => exact .inr ⟨h, rfl⟩
    next => exact .inl rfl
  refine advances_of_counting hs hn (fun hs => ?_)
    (fun _ ha => ha.congr (by rw [hnv]) hw (by rw [hsl]) (by rw [hp]; rfl))
    (fun _ => .inl hc.ge) fun _ => ?_
  · rcases hph with hph | ⟨h, h'⟩
    · exact hs.congr hph hc hl (by rw [hnv])
    · obtain ⟨h1, h2, h3, h4, h5, h6, -⟩ := hs
      simp only [Counting, hc, hl, hnv, h']
      exact ⟨h1, h2, h3, h4, h5, fun _ => h6 (.inr (.inl h)), by simp⟩
  · rcases hph with hph | ⟨h, h'⟩
    · simp [leastToIssue, hph, hc, hnv]
    · simp [leastToIssue, h, h', hc]

theorem JobFails.challenge {c c' : SlotCtx} (h : JobFails c c') : c'.challenge = c.challenge := by
  cases h <;> rfl

theorem JobEnds.challenge {c c' : SlotCtx} {kind : JobKind} (h : JobEnds c kind c') : c'.challenge = c.challenge := by
  cases h with
  | fails h => exact h.challenge
  | _ => rfl

/-- NV_READ ends, with what it took from NV (R167, R168). -/
theorem Advances.nvReadEnd {s u : State} (hs : ChallengesReserved s) (hp : s.life.phase = .nvRead)
    (hu : u.life.phase = s.life.phase) (hsl : u.slots = s.slots) (hn : u.nv.highWater = s.nv.highWater)
    (hw : u.writer.waiting = []) (hr : u.writer.running = none) : Advances s u.leaveNvRead := by
  have hread : Advances s u :=
    advances_of_counting hs (.congr (by rw [hsl])) (fun hc => hc.congr hu (by rw [hsl]) (by rw [hsl]) hn)
      (fun _ _ => asking_of_none (askedCeilings_eq_nil hw (by simp [hr])) (by simp [hr]))
      (fun _ => .inl (by rw [hsl])) fun _ => by simp [leastToIssue, hu, hp, hn]
  exact hread.trans (.leaveNvRead hread.reserved (hu.trans hp) hw hr)

/-- Every row that is no beat advances. -/
theorem RowEvent.advances {s t : State} (hst : StartUpOrder s) (hs : ChallengesReserved s) (h : RowEvent s t) :
    Advances s t := by
  have quiet : ∀ {u}, u.life = s.life → u.slots = { s.slots with contexts := u.slots.contexts } → u.nv = s.nv →
      u.writer = s.writer → NoNewChallenge s u → Advances s u := fun hl hsl hn hw h =>
    (IssuesNothing.of_frame hl hsl hn hw h).advances hs
  cases h with
  | powerOn straps => exact .powerOn hs straps
  | tamper _ _ => exact .zeroization hs s.startZeroization_fields
  | switched e _ => exact IssuesNothing.advances (.of_request (.epochRecord e) rfl rfl rfl rfl rfl (.congr rfl)) hs
  | expired r c hc _ _ => exact quiet rfl rfl rfl rfl (.setCtx hc rfl (.inl rfl))
  | late r c hc _ _ => exact quiet rfl rfl rfl rfl (.setCtx hc rfl (.inl rfl))
  | tookVerify r rest c k key _ _ hc _ => exact quiet rfl rfl rfl rfl (.setCtx hc rfl (.inl rfl))
  | tookSeal r rest c k key _ _ hc _ => exact quiet rfl rfl rfl rfl (.setCtx hc rfl (.inl rfl))
  | tookFailing r rest c c' _ _ hc hj => exact quiet rfl rfl rfl rfl (.setCtx hc rfl (.inl hj.challenge))
  | jobAborted r kind c _ hc _ => exact quiet rfl rfl rfl rfl (.setCtx hc rfl (.inr rfl))
  | jobEnded r kind c c' f _ hc _ hj => exact quiet rfl rfl rfl rfl (.setCtx hc rfl (.inl hj.challenge))
  | handedOver kind h res _ =>
    simp only [State.handOver]
    repeat' split
    · exact quiet rfl rfl rfl rfl (.congr rfl)
    · exact quiet rfl rfl rfl rfl (.congr rfl)
    · exact IssuesNothing.advances (.of_request (.admin _) rfl rfl rfl rfl rfl (.congr rfl)) hs
  | checked i key hj =>
    obtain ⟨d, hj⟩ := hj
    have hp : s.life.phase = .keyCheck := by simpa [isServiceJob] using hst.2.2.1 _ hj
    have hidle : Advances s (s.idleEngine.setEntry i (checkedEntry (s.entry i) key)) :=
      quiet rfl rfl rfl rfl (.congr rfl)
    refine hidle.trans (.continueCheck hidle.reserved _ ?_ fun r hr => ?_)
    · obtain ⟨-, -, -, -, -, -, -, hw⟩ := hst.1 (by simp [hp])
      exact hw
    · have := hst.2.2.2.1 _ hr
      simp [hp] at this
  | adminEnded op passed hr => exact IssuesNothing.advances (.endAdmin passed hr) hs
  | epochEnded v passed _ =>
    cases passed <;> exact IssuesNothing.advances (.goOn rfl rfl rfl rfl id) hs
  | reservationEnded v passed hr => exact .endReservation hs hr (hst.2.2.2.1 _ hr) passed
  | reserveEnded v passed hr =>
    have hp : s.life.phase = .reserve := hst.2.2.2.1 _ hr
    obtain ⟨-, -, -, -, -, -, -, hw⟩ := hst.1 (by simp [hp])
    exact .endReserveProgram hs hr hp hw passed
  | blankWritten hr =>
    have hp : s.life.phase = .nvRead := (hst.2.2.2.1 _ hr).1
    obtain ⟨-, -, -, -, -, -, -, hw⟩ := hst.1 (by simp [hp])
    exact .nvReadEnd hs hp rfl rfl rfl hw rfl
  | stagePassed n _ _ => exact IssuesNothing.advances (.zeroizing rfl rfl (by simp) rfl (by simp) (by simp)) hs
  | attemptFailed n _ _ => exact IssuesNothing.advances (.zeroizing rfl rfl (by simp) rfl (by simp) (by simp)) hs
  | zeroizeThenBlank n _ _ => exact IssuesNothing.advances (.zeroizing rfl rfl (by simp) rfl (by simp) (by simp)) hs
  | zeroizeDone n _ _ =>
    exact IssuesNothing.advances (.goOn rfl rfl (by simp [State.completeZeroize, State.nvNext]) rfl
      (by simp [State.completeZeroize, State.zeroing])) hs
  | readZeroized _ _ => exact IssuesNothing.advances (.zeroizing rfl rfl (by simp) rfl (by simp) (by simp)) hs
  | readEnded l d hp hr _ _ =>
    obtain ⟨-, -, -, -, -, -, -, hw⟩ := hst.1 (by simp [hp])
    exact .nvReadEnd hs hp rfl rfl rfl hw hr
  | installed beats _ _ _ => exact .endLoad hs (.install s _) rfl rfl rfl rfl
  | mapFaulted f n _ => exact .endLoad hs (.congr rfl) rfl rfl rfl rfl
  | _ => exact quiet rfl rfl rfl rfl (.congr rfl)

/-! ### Beats one after another -/

/-- What beats together do: each new challenge lies from the least value to issue before them up to the one after,
which is below the recorded high-water. -/
structure Issues (s t : State) : Prop where
  highWater : t.nv.highWater = s.nv.highWater
  least : leastToIssue s ≤ leastToIssue t
  issued : ∀ r c ch, t.ctx? r = some c → c.challenge = some ch → (s.ctx? r).bind (·.challenge) ≠ some ch →
    leastToIssue s ≤ challengeValue ch ∧ challengeValue ch < s.nv.highWater ∧ challengeValue ch < leastToIssue t

theorem Issues.refl (s : State) : Issues s s :=
  ⟨rfl, le_rfl, fun r c ch hr hch hne => absurd (by simp [hr, hch]) hne⟩

theorem Issues.of_noNew {s t : State} (hw : t.nv.highWater = s.nv.highWater) (hl : leastToIssue s ≤ leastToIssue t)
    (h : NoNewChallenge s t) : Issues s t :=
  ⟨hw, hl, fun r c ch hr hch hne => absurd (h.lookups r c ch hr hch) hne⟩

theorem Issues.trans {s t u : State} (a : Issues s t) (b : Issues t u) : Issues s u := by
  refine ⟨b.highWater.trans a.highWater, a.least.trans b.least, fun r c ch hr hch hne => ?_⟩
  by_cases h : (t.ctx? r).bind (·.challenge) = some ch
  · obtain ⟨c1, h1, hch1⟩ := Option.bind_eq_some_iff.mp h
    obtain ⟨h2, h3, h4⟩ := a.issued r c1 ch h1 hch1 hne
    exact ⟨h2, h3, h4.trans_le b.least⟩
  · obtain ⟨h2, h3, h4⟩ := b.issued r c ch hr hch h
    exact ⟨a.least.trans h2, a.highWater ▸ h3, h4⟩

/-- OPEN issues the counter's value (R12, R33). -/
theorem Issues.opened {s : State} (hs : ChallengesReserved s) (hp : s.life.phase = .running) {r : SlotRef} {c : SlotCtx}
    (hc : s.ctx? r = some c) (ho : s.openRefusal = none) : Issues s (s.carryOpen r c) := by
  obtain ⟨⟨h1, h2, h3, -⟩, -, -⟩ := (challengesReserved_iff s).mp hs
  have hlt := State.openRefusal_counter ho
  have hleast : leastToIssue s = s.slots.counter := by simp [leastToIssue, hp]
  have hleast' : leastToIssue (s.carryOpen r c) = s.slots.counter + 1 := by
    have : (s.carryOpen r c).slots.counter = s.slots.counter + 1 := rfl
    simp [leastToIssue, hp, this]
  refine ⟨by simp, by omega, fun q c1 ch hq hch hne => ?_⟩
  rw [State.ctx?_congr (s.carryOpen_contexts r c)] at hq
  by_cases he : q = r
  · subst he
    rw [s.ctx?_setCtx_self q _ c hc] at hq
    cases hq
    simp only [openedCtx, Option.some_inj] at hch
    have hv : challengeValue ch = s.slots.counter :=
      hch ▸ challengeValue_challengeOf _ (by simp only [Config.counterEnd] at h3; omega)
    omega
  · rw [s.ctx?_setCtx_of_ne r q _ he] at hq
    exact absurd (by simp [hq, hch]) hne

/-- The beats of one write issue each value once. -/
theorem BeatRun.issues {s t : State} (h : BeatRun s t) (hst : StartUpOrder s) (hs : ChallengesReserved s) :
    StartUpOrder t ∧ ChallengesReserved t ∧ Issues s t := by
  induction h with
  | refl => exact ⟨hst, hs, .refl s⟩
  | tail _ he ih =>
    obtain ⟨hsu, hu, hi⟩ := ih
    refine ⟨StartUpOrder.beat he hsu, ?_⟩
    rcases he.issues hsu with hn | ⟨r, c, hc, ho, rfl⟩
    · exact ⟨hn.reserved hu, hi.trans (.of_noNew hn.highWater hn.least.ge hn.challenges)⟩
    · have hp := StartUpOrder.running_of_ctx hsu hc
      exact ⟨ChallengesReserved.opened hu hp c ho, hi.trans (.opened hu hp hc ho)⟩

end Sys2Proof.Machine

namespace Sys2Proof.Proofs

open Sys2Proof.Machine Sys2Proof.Safety

/-- Settles O52: the beats of a write issue values below the ceiling, each one further, and every other row only moves
the counter, the ceiling and the high-water up. -/
theorem stepIssuesEachChallengeOnce : Obligations.StepIssuesEachChallengeOnce := by
  intro s t hst hs h
  rcases step_does h with hrun | ⟨u, v, hsu, he, hvt⟩
  · obtain ⟨-, ht, hi⟩ := hrun.issues hst hs
    exact ⟨ht, hi.least, hi.issued⟩
  · have hu := (IssuesNothing.same hsu).advances hs
    have hv := hu.trans (he.advances (StartUpOrder.same hsu hst) hu.reserved)
    have ht := hv.trans ((IssuesNothing.same hvt).advances hv.reserved)
    exact ⟨ht.reserved, ht.least, fun r c ch hr hch hne => absurd (ht.challenges.lookups r c ch hr hch) hne⟩

end Sys2Proof.Proofs
end

