-- ==== Sys2Proof/Proofs/StoppedPart.lean ====
section
/-! SUPPORT. A part that is stopped, by a zeroization or by the hold: every slot FREE, nothing queued, the filter
empty; and what no event does to it. O54. -/

namespace Sys2Proof.Machine

open Sys2Proof.Safety

/-! ### Slots that are all FREE -/

/-- Every slot FREE and cleared, nothing queued at the engine, the filter empty. -/
structure StoppedPart (s : State) : Prop where
  free : ∀ p ∈ s.slots.contexts, p.2 = clearCtx p.2
  fifo : s.engine.fifo = []
  importPlace : s.engine.importPlace = none
  filter : ∀ i, s.filter.at i = none

theorem StoppedPart.congr {s t : State} (h : StoppedPart s) (hc : t.slots.contexts = s.slots.contexts)
    (hf : t.engine.fifo = s.engine.fifo) (hi : t.engine.importPlace = s.engine.importPlace)
    (hp : t.filter.positions = s.filter.positions) : StoppedPart t :=
  ⟨hc ▸ h.free, hf.trans h.fifo, hi.trans h.importPlace, fun i => by simpa only [Filter.at, hp] using h.filter i⟩

/-- A slot that exists in a stopped part is cleared. -/
theorem StoppedPart.cleared {s : State} (h : StoppedPart s) {r : SlotRef} {c : SlotCtx} (hc : s.ctx? r = some c) :
    c = clearCtx c := by
  simp only [State.ctx?, Option.map_eq_some_iff] at hc
  obtain ⟨p, hp, rfl⟩ := hc
  exact h.free p (List.mem_of_find?_eq_some hp)

theorem StoppedPart.state {s : State} (h : StoppedPart s) {r : SlotRef} {c : SlotCtx} (hc : s.ctx? r = some c) :
    c.state = .free := by rw [h.cleared hc]; rfl

theorem StoppedPart.deadline {s : State} (h : StoppedPart s) {r : SlotRef} {c : SlotCtx} (hc : s.ctx? r = some c) :
    c.deadline = none := by rw [h.cleared hc]; rfl

/-- A refused command leaves a slot FREE. -/
theorem StoppedPart.refused {s t : State} (h : StoppedPart s) {r : SlotRef} {c : SlotCtx} (hc : s.ctx? r = some c)
    (res : SlotResult) (ht : t.slots.contexts = (s.setCtx r { c with lastResult := res }).slots.contexts)
    (he : t.engine = s.engine) (hp : t.filter.positions = s.filter.positions) : StoppedPart t := by
  refine ⟨fun p hmem => ?_, he ▸ h.fifo, he ▸ h.importPlace, fun i => by simpa only [Filter.at, hp] using h.filter i⟩
  rw [ht] at hmem
  obtain ⟨q, hq, rfl⟩ := List.mem_map.mp hmem
  split
  · rw [h.cleared hc]; rfl
  · exact h.free q hq

/-- An installation keeps cleared contexts or makes fresh ones (R28). -/
theorem StoppedPart.install {s : State} (h : StoppedPart s) (new : Vector Descriptor 16) :
    StoppedPart (s.installMap new) := by
  refine ⟨fun p hp => ?_, ?_, h.importPlace, h.filter⟩
  · have hp : p ∈ installContexts s new := hp
    rw [installContexts_eq, List.mem_flatMap] at hp
    obtain ⟨g, -, hp⟩ := hp
    simp only [groupContexts] at hp
    repeat' split at hp
    · exact h.free p (List.mem_filter.mp hp).1
    · obtain ⟨i, -, rfl⟩ := List.mem_map.mp hp
      rfl
    · simp at hp
  · show s.engine.fifo.filter _ = []
    simp [h.fifo]

@[simp] theorem State.continueCheck_importPlace (n : Nat) (s : State) :
    (s.continueCheck n).engine.importPlace = s.engine.importPlace := by
  simp only [State.continueCheck]; split <;> simp

@[simp] theorem Filter.at_cleared (f : Filter) (i : Fin 256) : f.cleared.at i = none := by
  simp [Filter.at, Filter.cleared]

/-- What is left after a zeroization has started: nothing (R30, R50, R84, R114, R175). -/
theorem ZeroizationFields.nothingHeld {s t : State} (h : ZeroizationFields s t) : NothingHeld t := by
  refine ⟨fun p hp => ?_, by rw [h.engine], by rw [h.engine], by rw [h.engine], fun i => by simp [h.filter],
    fun i => by simp [State.entry, h.dir], h.buffer, h.importState, ?_⟩
  · rw [h.contexts] at hp
    obtain ⟨q, -, rfl⟩ := List.mem_map.mp hp
    rfl
  · rw [h.writer]
    cases hr : s.writer.running <;> simp [startZeroizeOperation, hr]

/-- The hold stops the part (R192). -/
theorem StoppedPart.setHold (s : State) : StoppedPart s.setHold := by
  refine ⟨fun p hp => ?_, rfl, rfl, fun i => Filter.at_cleared _ i⟩
  rw [s.setHold_contexts] at hp
  obtain ⟨q, -, rfl⟩ := List.mem_map.mp hp
  rfl

theorem State.zeroing_congr {s t : State} (h : t.life.cycle = s.life.cycle) : t.zeroing = s.zeroing := by
  simp only [State.zeroing, h]

@[simp] theorem State.raiseLow_hold (was : Bool) (s : State) : (s.raiseLow was).status.hold = s.status.hold := by
  simp only [State.raiseLow]; split <;> rfl

/-- OPEN is let pass in service alone (R11). -/
theorem State.inService_of_openRefusal {s : State} (h : s.openRefusal = none) : s.inService = true := by
  cases hn : s.inService with
  | true => rfl
  | false => simp [State.openRefusal, hn] at h

/-- No admin operation starts a zeroization (R104, R110). -/
theorem State.zeroing_of_deliverAdmin {s : State} {op : AdminOp} {passed : Bool}
    (h : (s.deliverAdmin op passed).zeroing = true) : s.zeroing = true := by
  simp only [State.deliverAdmin] at h
  split at h
  all_goals first | exact h | simp [State.zeroing] at h

/-- Only a zeroization that starts changes the life cycle in a beat (R111). -/
theorem BeatEvent.cycle_or_nothingHeld {s t : State} (h : BeatEvent s t) :
    t.life.cycle = s.life.cycle ∨ NothingHeld t := by
  cases h with
  | same h => exact .inl h.cycle
  | zeroized command code index check _ _ => exact .inr (State.startZeroization_fields _).nothingHeld
  | armed r c _ _ _ => left; simp only [State.carryArm]; split <;> simp
  | aborted r c _ _ _ =>
    left
    simp only [State.carryAbort, State.carryRelease]
    repeat' split
    all_goals simp
  | holdSet _ _ => left; simp [State.setHold, State.freeAllSlots]
  | _ => left; simp [State.carrySeal, State.carryRelease, State.placeImportJob, State.placeAdmin]

end Sys2Proof.Machine

namespace Sys2Proof.Safety

open Sys2Proof.Machine

/-! ### The zeroized part -/

theorem NothingHeld.stopped {s : State} (h : NothingHeld s) : StoppedPart s := by
  obtain ⟨h1, h2, h3, -, h5, -⟩ := h
  exact ⟨h1, h2, h3, h5⟩

theorem NothingHeld.congr {s t : State} (h : NothingHeld s) (hstop : StoppedPart t) (hj : t.engine.job = s.engine.job)
    (hd : t.keys.dir = s.keys.dir) (hb : t.keys.buffer = Vector.replicate 5 0#64)
    (hi : t.keys.importState = s.keys.importState) (hw : t.writer.waiting = s.writer.waiting) : NothingHeld t := by
  obtain ⟨-, -, -, h4, -, h6, -, h8, h9⟩ := h
  exact ⟨hstop.free, hstop.fifo, hstop.importPlace, hj.trans h4, hstop.filter,
    fun i => by simpa only [State.entry, hd] using h6 i, hb, hi.trans h8, hw.trans h9⟩

/-- An event of a beat that leaves slots, queues and keys. -/
theorem NothingHeld.kept {s t : State} (h : NothingHeld s) (hc : t.slots.contexts = s.slots.contexts)
    (he : t.engine = s.engine) (hf : t.filter.positions = s.filter.positions) (hk : t.keys = s.keys)
    (hw : t.writer.waiting = s.writer.waiting) : NothingHeld t := by
  have hbuf : s.keys.buffer = Vector.replicate 5 0#64 := by obtain ⟨-, -, -, -, -, -, hb, -⟩ := h; exact hb
  exact h.congr (h.stopped.congr hc (by rw [he]) (by rw [he]) hf) (by rw [he]) (by rw [hk]) (by rw [hk, hbuf])
    (by rw [hk]) hw

theorem NothingHeld.same {s t : State} (hs : SamePart s t) (h : NothingHeld s) : NothingHeld t := by
  have hbuf : s.keys.buffer = Vector.replicate 5 0#64 := by obtain ⟨-, -, -, -, -, -, hb, -⟩ := h; exact hb
  exact h.congr (h.stopped.congr (by rw [hs.slots]) (by rw [hs.engine]) (by rw [hs.engine]) hs.positions)
    (by rw [hs.engine]) hs.dir (by rw [hs.buffer, hbuf]) hs.importState (by rw [hs.writer])

/-- In a zeroized part no beat brings anything back. -/
theorem NothingHeld.beat {s t : State} (h : NothingHeld s) (hz : s.zeroing = true) (he : BeatEvent s t) :
    NothingHeld t := by
  have hst := h.stopped
  cases he with
  | same hsame => exact h.same hsame
  | refused r c res hc =>
    obtain ⟨-, -, -, -, -, -, hb, -⟩ := id h
    exact h.congr (hst.refused hc res rfl rfl rfl) rfl rfl hb rfl rfl
  | waits r c hc =>
    obtain ⟨-, -, -, -, -, -, hb, -⟩ := id h
    have hm : (s.setCtx r { c with lastResult := .challengeWait }).mayReserve = false := by
      have : (s.setCtx r { c with lastResult := .challengeWait }).zeroing = true := hz
      simp [State.mayReserve, this]
    refine h.congr (hst.refused hc _ rfl rfl rfl) rfl rfl hb rfl ?_
    simp only [State.askReservation, State.reserveWhen, hm]
    rfl
  | opened r c _ _ _ ho =>
    have hserve := State.inService_of_openRefusal ho
    simp only [State.inService, State.zeroing] at hserve hz
    cases hl : s.life.cycle <;> simp [hl] at hserve hz
  | armed r c hc _ ho => simp [hst.state hc] at ho
  | sealing r c hc _ ho => simp [hst.state hc] at ho
  | released r c hc _ ho => simp [hst.state hc, isEndState] at ho
  | aborted r c hc _ ho => simp [hst.state hc, acceptedFrom, isEndState] at ho
  | inbound r c v hc ho => simp [hst.state hc] at ho
  | payload r c v hc ho => simp [hst.state hc, payloadOpen] at ho
  | captured v hc => simp [State.capturing, hz] at hc
  | ended q command code index check _ _ =>
    obtain ⟨-, -, -, -, -, -, hb, -⟩ := id h
    refine h.congr (hst.congr rfl rfl rfl rfl) rfl rfl ?_ rfl rfl
    simp only [State.endAtOnce, State.raise_keys]
    split
    · exact hb
    · rfl
  | placedJob _ _ _ hz' => simp [hz] at hz'
  | withdrawn _ _ _ _ _ hz' => simp [hz] at hz'
  | placedAdmin _ _ _ hz' => simp [hz] at hz'
  | zeroized _ _ _ _ _ hz' => simp [hz] at hz'
  | switched e _ =>
    refine h.kept rfl rfl rfl rfl ?_
    have : (s.switchEpoch e).writer = if s.zeroing then s.writer else s.writer.take (.epochRecord e) := rfl
    rw [this, hz, if_pos rfl]
  | holdSet _ _ =>
    obtain ⟨-, -, -, hj, -, -, -, hi, -⟩ := id h
    refine h.congr (.setHold s) ?_ ?_ ?_ ?_ ?_
    all_goals simp [State.setHold, State.endImportByHold, State.freeAllSlots, holdEngine, State.clearBuffer, hi, hj]
  | holdCleared _ => exact h.kept rfl rfl rfl rfl rfl

theorem ZeroizedClean.same {s t : State} (h : SamePart s t) (hs : ZeroizedClean s) : ZeroizedClean t := fun hz =>
  (hs (by rwa [State.zeroing_congr h.cycle] at hz)).same h

theorem ZeroizedClean.beat {s t : State} (he : BeatEvent s t) (hs : ZeroizedClean s) : ZeroizedClean t := by
  intro hz
  rcases he.cycle_or_nothingHeld with hc | h
  · have hzs : s.zeroing = true := State.zeroing_congr hc ▸ hz
    exact (hs hzs).beat hzs he
  · exact h

/-- NV_READ ends in a life cycle that is no zeroization's, or with one that starts (R167, R174). -/
theorem ZeroizedClean.leaveNvRead {s : State} (h : s.zeroing = false) : ZeroizedClean s.leaveNvRead := by
  rcases s.leaveNvRead_cases with ⟨e, -⟩ | e <;> rw [e]
  · exact fun _ => (State.startZeroization_fields _).nothingHeld
  · intro hz
    rw [State.zeroing_congr (s := s) (by simp)] at hz
    simp [h] at hz

/-- In a zeroized part no row brings anything back. -/
theorem NothingHeld.row {s t : State} (h : NothingHeld s) (hz : s.zeroing = true)
    (he : RowEvent s t) (hzt : t.zeroing = true) : NothingHeld t := by
  have hstop := h.stopped
  obtain ⟨-, hfifo, hplace, hjob, -, -, hbuf, hidle, hwait⟩ := id h
  have hgo : s.writer.goOn.waiting = s.writer.waiting := by
    rw [NvWriter.goOn, hwait]
    split <;> simp
  cases he with
  | powerOn straps => simp [State.powerOn, State.zeroing] at hzt
  | tamper _ _ => exact s.startZeroization_fields.nothingHeld
  | switched e _ =>
    refine h.kept rfl rfl rfl rfl ?_
    have : (s.switchEpoch e).writer = if s.zeroing then s.writer else s.writer.take (.epochRecord e) := rfl
    rw [this, hz, if_pos rfl]
  | expired r c hc hd _ => exact absurd (hstop.deadline hc) hd
  | late r c hc hd _ => exact absurd (hstop.deadline hc) hd
  | tookVerify r rest c k key _ hf _ _ => simp [hfifo] at hf
  | tookSeal r rest c k key _ hf _ _ => simp [hfifo] at hf
  | tookFailing r rest c c' _ hf _ _ => simp [hfifo] at hf
  | tookImport kind _ hi => simp [hplace] at hi
  | jobLost j hj _ _ _ => simp [hjob] at hj
  | jobAborted r kind c hl _ _ => simp [liveJob, hjob] at hl
  | jobEnded r kind c c' f hl _ _ _ => simp [liveJob, hjob] at hl
  | handedOver kind h' res hl => simp [liveImport, hjob] at hl
  | checked i key hj => simp [hjob] at hj
  | adminEnded op passed _ =>
    have e : s.endAdmin op passed = (s.adminInNv op passed).nvNext := by simp [State.endAdmin, hz]
    rw [e]
    exact h.kept (by simp) (by simp) (by simp) (by simp) (by simpa [State.nvNext] using hgo)
  | epochEnded v passed _ => cases passed <;> exact h.kept rfl rfl rfl rfl hgo
  | reservationEnded v passed _ => cases passed <;> exact h.kept rfl rfl rfl rfl hgo
  | reserveEnded v passed _ => cases passed <;> exact h.kept rfl rfl rfl rfl hgo
  | blankWritten _ => exact ZeroizedClean.leaveNvRead rfl hzt
  | readEnded l d _ _ h1 h2 => exact ZeroizedClean.leaveNvRead (by simp [State.zeroing, State.takeFromNv, h1, h2]) hzt
  | zeroizeDone n _ _ => exact h.kept rfl rfl rfl rfl hgo
  | installed beats _ _ _ =>
    refine h.congr (hstop.install _) ?_ rfl hbuf rfl rfl
    show s.engine.job.map _ = s.engine.job
    simp [hjob]
  | _ => exact h.kept rfl rfl rfl rfl rfl

/-- Rows start a zeroization at a tamper event and as NV_READ ends; the completion of the NV zeroize follows one. -/
theorem ZeroizedClean.row {s t : State} (hst : StartUpOrder s) (he : RowEvent s t) (hs : ZeroizedClean s) :
    ZeroizedClean t := by
  intro hzt
  cases hz : s.zeroing with
  | true => exact (hs hz).row hz he hzt
  | false =>
    have same : ∀ {u : State}, u.zeroing = true → u.life.cycle = s.life.cycle → NothingHeld u := fun hu hc => by
      rw [State.zeroing_congr hc, hz] at hu
      cases hu
    cases he with
    | powerOn straps => simp [State.powerOn, State.zeroing] at hzt
    | tamper _ _ => exact s.startZeroization_fields.nothingHeld
    | handedOver kind h' res _ =>
      refine same hzt ?_
      simp only [State.handOver]
      repeat' split
      all_goals rfl
    | checked i key _ => exact same hzt (by simp [State.idleEngine])
    | adminEnded op passed _ =>
      rcases s.endAdmin_cases op passed with ⟨hz', -⟩ | ⟨-, i, e', rfl, rfl, e⟩ | ⟨-, -, e⟩
      · simp [hz] at hz'
      · exact same hzt (by rw [e]; simp)
      · rw [e] at hzt
        have hin : (s.adminInNv op passed).zeroing = true := State.zeroing_of_deliverAdmin hzt
        rw [State.zeroing_congr (s := s) (by simp), hz] at hin
        cases hin
    | epochEnded v passed _ => cases passed <;> exact same hzt rfl
    | reservationEnded v passed _ => cases passed <;> exact same hzt rfl
    | reserveEnded v passed _ => cases passed <;> exact same hzt rfl
    | blankWritten _ => exact ZeroizedClean.leaveNvRead rfl hzt
    | readEnded l d _ _ h1 h2 => exact ZeroizedClean.leaveNvRead (by simp [State.zeroing, State.takeFromNv, h1, h2]) hzt
    | zeroizeDone n hr hp =>
      have := (hst.2.2.2.1 _ hr).1.resolve_right hp
      simp [State.zeroing, this] at hz
    | _ => exact same hzt rfl

/-! ### The hold -/

/-- The stopped part under the hold, and a job in work of no use (R193). -/
theorem holdIsStill_iff (s : State) :
    HoldIsStill s ↔ (s.status.hold = true → StoppedPart s ∧
      ∀ j, s.engine.job = some j → isServiceJob j = true → j.discard = true) := by
  refine forall_congr' fun _ => ⟨fun ⟨h1, h2, h3, h4, h5⟩ => ⟨⟨h1, h2, h3, h4⟩, h5⟩, fun ⟨h, h5⟩ => ?_⟩
  exact ⟨h.free, h.fifo, h.importPlace, h.filter, h5⟩

/-- A stopped part without a slot job or an import job. -/
theorem NothingHeld.holdIsStill {s : State} (h : NothingHeld s) : HoldIsStill s := by
  obtain ⟨-, -, -, hj, -⟩ := id h
  exact (holdIsStill_iff s).mpr fun _ => ⟨h.stopped, by simp [hj]⟩

/-- An event that leaves slots, queues and the filter, and starts no job. -/
theorem HoldIsStill.kept {s t : State} (hs : HoldIsStill s) (hh : t.status.hold = s.status.hold)
    (hstop : StoppedPart s → StoppedPart t)
    (hj : t.engine.job = s.engine.job ∨ ∀ j, t.engine.job = some j → isServiceJob j = false) :
    HoldIsStill t := by
  rw [holdIsStill_iff] at hs ⊢
  intro hold
  obtain ⟨hst, hjob⟩ := hs (hh ▸ hold)
  refine ⟨hstop hst, fun j hjt hserve => ?_⟩
  rcases hj with hj | hj
  · exact hjob j (hj ▸ hjt) hserve
  · simp [hj j hjt] at hserve

/-- An event that the hold keeps from happening. -/
theorem holdIsStill_of_clear {s t : State} (h : s.status.hold = false) (ht : t.status.hold = s.status.hold) :
    HoldIsStill t := fun hold => by simp [ht, h] at hold

theorem HoldIsStill.same {s t : State} (h : SamePart s t) (hs : HoldIsStill s) : HoldIsStill t :=
  hs.kept h.hold (fun hst => hst.congr (by rw [h.slots]) (by rw [h.engine]) (by rw [h.engine]) h.positions)
    (.inl (by rw [h.engine]))

/-- Under the hold every slot is FREE. -/
theorem HoldIsStill.state {s : State} (hs : HoldIsStill s) (h : s.status.hold = true) {r : SlotRef} {c : SlotCtx}
    (hc : s.ctx? r = some c) : c.state = .free ∧ c.deadline = none :=
  have hst := ((holdIsStill_iff s).mp hs h).1
  ⟨hst.state hc, hst.deadline hc⟩

theorem HoldIsStill.beat {s t : State} (he : BeatEvent s t) (hs : HoldIsStill s) : HoldIsStill t := by
  cases he with
  | same h => exact HoldIsStill.same h hs
  | refused r c res hc => exact hs.kept rfl (fun hst => hst.refused hc res rfl rfl rfl) (.inl rfl)
  | waits r c hc => exact hs.kept rfl (fun hst => hst.refused hc _ rfl rfl rfl) (.inl rfl)
  | opened r c _ hh _ _ => exact holdIsStill_of_clear hh (by simp [State.carryOpen])
  | armed r c _ hh _ => exact holdIsStill_of_clear hh (by simp only [State.carryArm]; split <;> rfl)
  | sealing r c _ hh _ => exact holdIsStill_of_clear hh rfl
  | released r c _ hh _ => exact holdIsStill_of_clear hh rfl
  | aborted r c _ hh _ =>
    refine holdIsStill_of_clear hh ?_
    simp only [State.carryAbort]
    repeat' split
    all_goals rfl
  | inbound r c v hc ho => exact hs.kept rfl (fun hst => by simp [hst.state hc] at ho) (.inl rfl)
  | payload r c v hc ho => exact hs.kept rfl (fun hst => by simp [hst.state hc, payloadOpen] at ho) (.inl rfl)
  | ended q command code index check _ _ => exact hs.kept rfl (fun hst => hst.congr rfl rfl rfl rfl) (.inl rfl)
  | placedJob _ _ _ _ hh => exact holdIsStill_of_clear hh rfl
  | withdrawn _ _ _ _ _ _ hh => exact holdIsStill_of_clear hh rfl
  | placedAdmin _ _ _ _ hh => exact holdIsStill_of_clear hh rfl
  | zeroized _ _ _ _ _ _ => exact (State.startZeroization_fields _).nothingHeld.holdIsStill
  | holdSet _ _ =>
    refine (holdIsStill_iff _).mpr fun _ => ⟨.setHold s, fun j hj _ => ?_⟩
    have hjob : s.setHold.engine.job = s.engine.job.map fun j => { j with discard := true } := by
      simp [State.setHold, State.freeAllSlots, holdEngine]
    rw [hjob] at hj
    obtain ⟨j0, -, rfl⟩ := Option.map_eq_some_iff.mp hj
    rfl
  | holdCleared _ => exact fun h => by cases h
  | _ => exact hs.kept rfl (fun hst => hst.congr rfl rfl rfl rfl) (.inl rfl)

/-- A job that the hold has not discarded is none of a slot or an import. -/
theorem HoldIsStill.discarded {s : State} (hs : HoldIsStill s) (h : s.status.hold = true) {j : Job}
    (hj : s.engine.job = some j) (hserve : isServiceJob j = true) : j.discard = true :=
  ((holdIsStill_iff s).mp hs h).2 j hj hserve

/-- Under the hold no slot job is live. -/
theorem HoldIsStill.no_liveJob {s : State} (hs : HoldIsStill s) (h : s.status.hold = true) :
    liveJob s.engine = none := by
  unfold liveJob
  split
  next hj => simpa using hs.discarded h hj rfl
  next hj => simpa using hs.discarded h hj rfl
  next => rfl

theorem HoldIsStill.no_liveImport {s : State} (hs : HoldIsStill s) (h : s.status.hold = true) :
    liveImport s.engine = none := by
  unfold liveImport
  split
  next hj => simpa using hs.discarded h hj rfl
  next => rfl

theorem HoldIsStill.continueCheck {s : State} (hs : HoldIsStill s) (n : Nat) : HoldIsStill (s.continueCheck n) := by
  refine hs.kept (by simp) (fun hst => hst.congr (by simp) (by simp) (by simp) (by simp)) ?_
  rcases s.continueCheck_cases n with ⟨i, e⟩ | e <;> rw [e]
  · exact .inr fun j hj => by cases hj; rfl
  · exact .inl (by simp)

theorem HoldIsStill.leaveNvRead {s : State} (hs : HoldIsStill s) : HoldIsStill s.leaveNvRead := by
  rcases s.leaveNvRead_cases with ⟨e, -⟩ | e <;> rw [e]
  · exact (State.startZeroization_fields _).nothingHeld.holdIsStill
  · refine HoldIsStill.continueCheck ?_ 0
    exact hs.kept rfl (fun hst => hst.congr rfl rfl rfl rfl) (.inl rfl)

theorem HoldIsStill.row {s t : State} (he : RowEvent s t) (hs : HoldIsStill s) : HoldIsStill t := by
  -- the hold has emptied the FIFO, the waiting place and every slot
  have impossible : ∀ {u : State}, u.status.hold = s.status.hold → ¬StoppedPart s → HoldIsStill u := fun hh hn hold =>
    absurd ((holdIsStill_iff s).mp hs (hh ▸ hold)).1 hn
  have noLive : ∀ {u : State}, u.status.hold = s.status.hold →
      (liveJob s.engine ≠ none ∨ liveImport s.engine ≠ none) → HoldIsStill u := fun hh hn hold =>
    (hn.elim (· (hs.no_liveJob (hh ▸ hold))) (· (hs.no_liveImport (hh ▸ hold)))).elim
  cases he with
  | powerOn straps => exact fun h => by cases h
  | tamper _ _ => exact s.startZeroization_fields.nothingHeld.holdIsStill
  | expired r c hc hd _ => exact impossible rfl fun hst => hd (hst.deadline hc)
  | late r c hc hd _ => exact impossible rfl fun hst => hd (hst.deadline hc)
  | tookVerify r rest c k key _ hf _ _ => exact impossible rfl fun hst => by simp [hst.fifo] at hf
  | tookSeal r rest c k key _ hf _ _ => exact impossible rfl fun hst => by simp [hst.fifo] at hf
  | tookFailing r rest c c' _ hf _ _ => exact impossible rfl fun hst => by simp [hst.fifo] at hf
  | tookImport kind _ hi => exact impossible rfl fun hst => by simp [hst.importPlace] at hi
  | jobLost j _ _ _ _ => exact hs.kept rfl (fun hst => hst.congr rfl rfl rfl rfl) (.inr fun j hj => by cases hj)
  | jobAborted r kind c hl _ _ => exact noLive rfl (.inl (by simp [hl]))
  | jobEnded r kind c c' f hl _ _ _ => exact noLive rfl (.inl (by simp [hl]))
  | handedOver kind h res hl =>
    refine noLive ?_ (.inr (by simp [hl]))
    simp only [State.handOver]
    repeat' split
    all_goals rfl
  | checked i key _ =>
    refine HoldIsStill.continueCheck (s := s.idleEngine.setEntry i (checkedEntry (s.entry i) key)) ?_ _
    exact hs.kept rfl (fun hst => hst.congr rfl rfl rfl rfl) (.inr fun j hj => by cases hj)
  | adminEnded op passed _ =>
    exact hs.kept (by simp) (fun hst => hst.congr (by simp) (by simp) (by simp) (by simp)) (.inl (by simp))
  | epochEnded v passed _ =>
    cases passed <;> exact hs.kept rfl (fun hst => hst.congr rfl rfl rfl rfl) (.inl rfl)
  | reservationEnded v passed _ =>
    cases passed <;> exact hs.kept (by simp [State.endReservation]) (fun hst => hst.congr rfl rfl rfl rfl) (.inl rfl)
  | reserveEnded v passed _ =>
    cases passed <;>
      exact hs.kept (by simp [State.endReserveProgram, State.endReserve]) (fun hst => hst.congr rfl rfl rfl rfl)
        (.inl rfl)
  | blankWritten _ =>
    exact HoldIsStill.leaveNvRead (hs.kept rfl (fun hst => hst.congr rfl rfl rfl rfl) (.inl rfl))
  | readEnded l d _ _ _ _ =>
    exact HoldIsStill.leaveNvRead (hs.kept rfl (fun hst => hst.congr rfl rfl rfl rfl) (.inl rfl))
  | installed beats _ _ _ =>
    rw [holdIsStill_iff] at hs ⊢
    intro hold
    obtain ⟨hst, hjob⟩ := hs hold
    refine ⟨hst.install _, fun j hj hserve => ?_⟩
    obtain ⟨j0, h0, rfl⟩ := Option.map_eq_some_iff.mp (show s.engine.job.map _ = some j from hj)
    simp only [discardDropped] at hserve ⊢
    repeat' split at hserve
    all_goals simp_all
  | _ => exact hs.kept rfl (fun hst => hst.congr rfl rfl rfl rfl) (.inl rfl)

end Sys2Proof.Safety

namespace Sys2Proof.Proofs

open Sys2Proof.Machine Sys2Proof.Safety

/-- Settles O54: a stopped part has no slot that is not FREE, no queued job and no live one, so no event has anything to
act on; a zeroization and the hold stop it. -/
theorem stepKeepsStoppedPartClean : Obligations.StepKeepsStoppedPartClean :=
  ⟨fun _ _ hst hs h =>
    step_keeps (Q := StartUpOrder) (fun _ _ => StartUpOrder.same) (fun _ _ => StartUpOrder.beat)
      (fun _ _ => ZeroizedClean.same) (fun _ _ _ => ZeroizedClean.beat) (fun _ _ hst => ZeroizedClean.row hst) hst hs h,
  fun _ _ hs h =>
    step_keeps (Q := fun _ => True) (fun _ _ _ _ => trivial) (fun _ _ _ _ => trivial)
      (fun _ _ => HoldIsStill.same) (fun _ _ _ => HoldIsStill.beat) (fun _ _ _ => HoldIsStill.row) trivial hs h⟩

end Sys2Proof.Proofs
end

