-- ==== Sys2Proof/Proofs/Requests.lean ====
section
/-! SUPPORT. The requests that the NV writer holds, kind by kind, and the import state that goes with them, under each
change that an event makes. -/

namespace Sys2Proof.Safety

open Sys2Proof.Machine

/-! ### The kinds of the waiting requests -/

/-- Another request waits, of a kind that did not wait, or an epoch record in the place of one (R90, R91). -/
theorem nodup_enqueueRequest {r : NvRequest} {l : List NvRequest} (h : (l.map requestKindOf).Nodup)
    (hr : (∃ v, r = .epochRecord v) ∨ ∀ x ∈ l, requestKindOf x ≠ requestKindOf r) :
    ((enqueueRequest r l).map requestKindOf).Nodup := by
  have happend : (∀ x ∈ l, requestKindOf x ≠ requestKindOf r) → ((l ++ [r]).map requestKindOf).Nodup := fun hne => by
    rw [List.map_append, List.nodup_append]
    refine ⟨h, by simp, fun a ha b hb e => ?_⟩
    obtain ⟨x, hx, rfl⟩ := List.mem_map.mp ha
    simp only [List.map_cons, List.map_nil, List.mem_singleton] at hb
    exact hne x hx (e.trans hb)
  have hkind : ∀ x : NvRequest, requestKind x = 1 ↔ requestKindOf x = 1 := fun x => by
    cases x <;> simp [requestKind, requestKindOf]
  cases r with
  | epochRecord v =>
    simp only [enqueueRequest]
    split
    · rw [List.map_map]
      have : (requestKindOf ∘ fun x => if requestKind x = 1 then NvRequest.epochRecord v else x) = requestKindOf := by
        funext x
        by_cases hx : requestKind x = 1
        · rw [Function.comp_apply, if_pos hx, (hkind x).mp hx]; rfl
        · simp [hx]
      rwa [this]
    next hany =>
      refine happend fun x hx he => hany ?_
      rw [List.any_eq_true]
      exact ⟨x, hx, by simpa using (hkind x).mpr he⟩
  | admin op => exact happend (hr.resolve_left (by simp))
  | reservation v => exact happend (hr.resolve_left (by simp))

/-- At most one request of each kind, in one list or the other (R34, R90). -/
def Requests (s : State) : Prop :=
  (s.writer.waiting.map requestKindOf).Nodup ∧ (adminOps s.writer).length ≤ 1 ∧
  (askedCeilings s.writer).length ≤ 1 ∧
  (askedCeilings s.writer ≠ [] → s.slots.reservationPending = true ∨ s.zeroing = true)

/-- Fewer requests. -/
theorem Requests.of_subperm {s t : State} (h : Requests s)
    (hk : (t.writer.waiting.map requestKindOf).Nodup) (ha : (adminOps t.writer).Subperm (adminOps s.writer))
    (hc : (askedCeilings t.writer).Subperm (askedCeilings s.writer))
    (hp : askedCeilings t.writer ≠ [] → s.slots.reservationPending = true ∨ s.zeroing = true →
      t.slots.reservationPending = true ∨ t.zeroing = true) : Requests t := by
  obtain ⟨-, h2, h3, h4⟩ := h
  refine ⟨hk, ha.length_le.trans h2, hc.length_le.trans h3, fun hn => hp hn (h4 fun he => hn ?_)⟩
  simpa [he] using hc

theorem Requests.congr {s t : State} (h : Requests s) (hw : t.writer = s.writer)
    (hp : t.slots.reservationPending = s.slots.reservationPending) (hz : t.life.cycle = s.life.cycle) : Requests t := by
  simpa only [Requests, hw, hp, State.zeroing_congr hz] using h

theorem waiting_take (r : NvRequest) (w : NvWriter) :
    (w.take r).waiting = w.waiting ∨ (w.take r).waiting = enqueueRequest r w.waiting := by
  cases hr : w.running <;> simp [NvWriter.take, hr]

theorem waiting_goOn (w : NvWriter) : w.goOn.waiting.Sublist w.waiting := by
  simp only [NvWriter.goOn]
  split
  · exact .refl _
  · split
    next h => simp [h]
    next r rest h => simp [h]

theorem waiting_startZeroize (w : NvWriter) : (startZeroizeOperation w).waiting = [] := by
  cases hr : w.running <;> simp [startZeroizeOperation, hr]

/-- The running operation ends and the writer goes on. -/
theorem Requests.goOn {s t : State} (h : Requests s) (hw : t.writer = s.writer.goOn)
    (hp : askedCeilings t.writer ≠ [] → s.slots.reservationPending = true ∨ s.zeroing = true →
      t.slots.reservationPending = true ∨ t.zeroing = true) : Requests t := by
  refine h.of_subperm ?_ ?_ ?_ hp <;> rw [hw]
  · exact h.1.sublist ((waiting_goOn s.writer).map _)
  · exact (adminOps_goOn s.writer).subperm
  · exact (askedCeilings_goOn s.writer).subperm

/-- A zeroization discards the waiting list (R94). -/
theorem Requests.startZeroize {s t : State} (h : Requests s) (hw : t.writer = startZeroizeOperation s.writer)
    (hz : t.zeroing = true) : Requests t := by
  refine h.of_subperm ?_ ?_ ?_ fun _ _ => .inr hz <;> rw [hw]
  · simp [waiting_startZeroize]
  · exact (adminOps_startZeroize s.writer).subperm
  · exact (askedCeilings_startZeroize s.writer).subperm

/-- No request of a kind waits where none is held. -/
theorem kind_of_adminOps {w : NvWriter} (h : adminOps w = []) : ∀ x ∈ w.waiting, requestKindOf x ≠ 0 := by
  rw [adminOps_eq, List.filterMap_eq_nil_iff] at h
  intro x hx hk
  have := h x ((waiting_sublist_heldRequests w).subset hx)
  cases x <;> simp [requestKindOf, adminOpOf] at hk this

theorem kind_of_askedCeilings {w : NvWriter} (h : askedCeilings w = []) : ∀ x ∈ w.waiting, requestKindOf x ≠ 2 := by
  rw [askedCeilings_eq, List.filterMap_eq_nil_iff] at h
  intro x hx hk
  have := h x ((waiting_sublist_heldRequests w).subset hx)
  cases x <;> simp [requestKindOf, ceilingOf] at hk this

theorem Requests.nodup_take {s : State} (h : Requests s) {r : NvRequest}
    (hr : (∃ v, r = .epochRecord v) ∨ ∀ x ∈ s.writer.waiting, requestKindOf x ≠ requestKindOf r) :
    ((s.writer.take r).waiting.map requestKindOf).Nodup := by
  rcases waiting_take r s.writer with e | e <;> rw [e]
  · exact h.1
  · exact nodup_enqueueRequest h.1 hr

/-- An admin request is taken where none is held. -/
theorem Requests.takeAdmin {s t : State} (h : Requests s) (op : AdminOp) (hn : adminOps s.writer = [])
    (hw : t.writer = s.writer.take (.admin op)) (hp : t.slots.reservationPending = s.slots.reservationPending)
    (hz : t.life.cycle = s.life.cycle) : Requests t ∧ adminOps t.writer = [op] := by
  have hops : adminOps t.writer = [op] := by
    have := adminOps_take (.admin op) s.writer
    rw [hn] at this
    rw [hw]
    exact List.perm_singleton.mp this
  have hceil := askedCeilings_take (.admin op) s.writer
  obtain ⟨-, -, h3, h4⟩ := id h
  refine ⟨⟨?_, by simp [hops], ?_, fun hne => ?_⟩, hops⟩
  · rw [hw]
    exact h.nodup_take (.inr (kind_of_adminOps hn))
  · rw [hw]
    exact hceil.length_eq.trans_le (by simpa [ceilingOf] using h3)
  · rw [hp, State.zeroing_congr hz]
    refine h4 fun he => hne ?_
    rw [hw]
    simpa [he, ceilingOf] using hceil

/-- An epoch record is taken (R91, R127). -/
theorem Requests.takeEpoch {s t : State} (h : Requests s) (v : BitVec 16)
    (hw : t.writer = s.writer.take (.epochRecord v)) (hp : t.slots.reservationPending = s.slots.reservationPending)
    (hz : t.life.cycle = s.life.cycle) : Requests t ∧ (adminOps t.writer).Perm (adminOps s.writer) := by
  have hops : (adminOps t.writer).Perm (adminOps s.writer) := by
    rw [hw]; simpa [adminOpOf] using adminOps_take (.epochRecord v) s.writer
  refine ⟨h.of_subperm ?_ hops.subperm ?_ (by simp [hp, State.zeroing_congr hz]), hops⟩ <;> rw [hw]
  · exact h.nodup_take (.inl ⟨v, rfl⟩)
  · simpa [ceilingOf] using (askedCeilings_take (.epochRecord v) s.writer).subperm

/-- A reservation is asked for, or none (R34, R35). -/
theorem Requests.reserveWhen {s : State} (h : Requests s) {go : Bool} (hgo : go = true → s.mayReserve = true) :
    Requests (s.reserveWhen go) ∧ (adminOps (s.reserveWhen go).writer).Perm (adminOps s.writer) := by
  cases go with
  | false => exact ⟨h.congr rfl (by simp [State.reserveWhen]) rfl, .refl _⟩
  | true =>
    have hm := hgo rfl
    simp only [State.mayReserve, Bool.and_eq_true, Bool.not_eq_true', decide_eq_true_eq] at hm
    obtain ⟨⟨hpend, -⟩, hz⟩ := hm
    obtain ⟨-, h2, -, h4⟩ := id h
    have hnone : askedCeilings s.writer = [] := by
      by_contra hne
      simpa [hpend, hz] using h4 hne
    have hops : (adminOps (s.reserveWhen true).writer).Perm (adminOps s.writer) := by
      show (adminOps (s.writer.take _)).Perm _
      simpa [adminOpOf] using adminOps_take (.reservation (s.slots.ceiling + Config.reserveStep)) s.writer
    have hceil := askedCeilings_take (.reservation (s.slots.ceiling + Config.reserveStep)) s.writer
    rw [hnone] at hceil
    exact ⟨⟨h.nodup_take (.inr (kind_of_askedCeilings hnone)), hops.length_eq.trans_le h2, hceil.length_eq.le,
      fun _ => .inl (by simp [State.reserveWhen])⟩, hops⟩

/-- A writer that holds no request. -/
theorem requests_of_none {s : State} (h : heldRequests s.writer = []) : Requests s ∧ adminOps s.writer = [] := by
  have hw : s.writer.waiting = [] := List.sublist_nil.mp (h ▸ waiting_sublist_heldRequests s.writer)
  simp [Requests, adminOps, askedCeilings, h, hw]

end Sys2Proof.Safety
end

