-- ==== Sys2Proof/Proofs/ImportState.lean ====
section
/-! SUPPORT. The import state under each event, and O55. -/

namespace Sys2Proof.Safety

open Sys2Proof.Machine

/-- The import state shows the one import under way (R101, R104). -/
def ImportShown (s : State) : Prop :=
  (s.keys.importState = .queued ↔ s.engine.importPlace.isSome = true) ∧
  (s.keys.importState = .working ↔ (liveImport s.engine).isSome = true) ∧
  (s.keys.importState = .nvWriting ↔ adminOps s.writer ≠ [] ∧ s.zeroing = false) ∧
  (s.keys.importState = .queued ∨ s.keys.importState = .working →
    s.status.hold = false ∧ s.zeroing = false ∧ ∃ i, (s.entry i).state = .empty)

theorem importAndWriter_iff (s : State) : ImportAndWriter s ↔ Requests s ∧ ImportShown s := by
  simp only [ImportAndWriter, Requests, ImportShown]
  tauto

/-- Nothing of the import under way changes, and whether an admin request is held. -/
theorem ImportShown.congr {s t : State} (h : ImportShown s) (hi : t.keys.importState = s.keys.importState)
    (hp : t.engine.importPlace = s.engine.importPlace) (hl : liveImport t.engine = liveImport s.engine)
    (ha : adminOps t.writer = [] ↔ adminOps s.writer = []) (hz : t.zeroing = s.zeroing)
    (hh : t.status.hold = true → s.status.hold = true) (hd : t.keys.dir = s.keys.dir) : ImportShown t := by
  obtain ⟨h1, h2, h3, h4⟩ := h
  refine ⟨by rw [hi, hp, h1], by rw [hi, hl, h2], by rw [hi, h3, hz, ne_eq, ne_eq, ha], fun hq => ?_⟩
  obtain ⟨hold, hzero, he⟩ := h4 (hi ▸ hq)
  refine ⟨?_, hz.trans hzero, by simpa only [State.entry, hd] using he⟩
  cases hht : t.status.hold
  · rfl
  · simp [hh hht] at hold

/-- No import job is under way, and the admin request that is held, if any, is shown. -/
theorem ImportShown.of_noJob {s : State} (hp : s.engine.importPlace = none) (hl : liveImport s.engine = none)
    (ha : (s.keys.importState = .nvWriting ∧ adminOps s.writer ≠ [] ∧ s.zeroing = false) ∨
      (s.keys.importState = .idle ∧ (adminOps s.writer = [] ∨ s.zeroing = true))) : ImportShown s := by
  rcases ha with ⟨hi, ha, hz⟩ | ⟨hi, ha⟩
  · simp [ImportShown, hp, hl, hi, ha, hz]
  · simp only [ImportShown, hp, hl, hi]
    simpa [imp_iff_not_or] using ha

/-- Where no import is under way, no import job is there. -/
theorem ImportShown.noJob {s : State} (h : ImportShown s)
    (hi : s.keys.importState ≠ .queued ∧ s.keys.importState ≠ .working) :
    s.engine.importPlace = none ∧ liveImport s.engine = none := by
  obtain ⟨h1, h2, -, -⟩ := h
  exact ⟨by simpa using mt h1.mpr hi.1, by simpa using mt h2.mpr hi.2⟩

/-- Before any zeroization, no admin request is held but while the import state is NV_WRITING. -/
theorem ImportShown.noAdmin {s : State} (h : ImportShown s) (hz : s.zeroing = false)
    (hi : s.keys.importState ≠ .nvWriting) : adminOps s.writer = [] := by
  by_contra hn
  exact hi (h.2.2.1.mpr ⟨hn, hz⟩)

theorem ImportAndWriter.same {s t : State} (h : SamePart s t) (hs : ImportAndWriter s) : ImportAndWriter t := by
  rw [importAndWriter_iff] at hs ⊢
  exact ⟨hs.1.congr h.writer (by rw [h.slots]) h.cycle,
    hs.2.congr h.importState (by rw [h.engine]) (by rw [h.engine]) (by rw [h.writer]) (State.zeroing_congr h.cycle)
      (by rw [h.hold]; exact id) h.dir⟩

/-- An event that leaves the NV writer, the import state, the waiting place and the live import. -/
theorem ImportAndWriter.kept {s t : State} (hs : ImportAndWriter s) (hw : t.writer = s.writer)
    (hr : t.slots.reservationPending = s.slots.reservationPending) (hc : t.life.cycle = s.life.cycle)
    (hi : t.keys.importState = s.keys.importState) (hp : t.engine.importPlace = s.engine.importPlace)
    (hl : liveImport t.engine = liveImport s.engine) (hh : t.status.hold = true → s.status.hold = true)
    (hd : t.keys.dir = s.keys.dir) : ImportAndWriter t := by
  rw [importAndWriter_iff] at hs ⊢
  exact ⟨hs.1.congr hw hr hc, hs.2.congr hi hp hl (by rw [hw]) (State.zeroing_congr hc) hh hd⟩

/-- An import command places an admin request (R101). -/
theorem ImportAndWriter.placeAdmin {s t : State} (hs : ImportAndWriter s) (hz : s.zeroing = false)
    (hi : s.keys.importState ≠ .nvWriting) (op : AdminOp) (hw : t.writer = s.writer.take (.admin op))
    (hr : t.slots.reservationPending = s.slots.reservationPending) (hc : t.life.cycle = s.life.cycle)
    (hit : t.keys.importState = .nvWriting) (hp : t.engine.importPlace = none)
    (hl : liveImport t.engine = none) : ImportAndWriter t := by
  rw [importAndWriter_iff] at hs ⊢
  obtain ⟨hreq, hops⟩ := hs.1.takeAdmin op (hs.2.noAdmin hz hi) hw hr hc
  exact ⟨hreq, .of_noJob hp hl (.inl ⟨hit, by simp [hops], (State.zeroing_congr hc).trans hz⟩)⟩

/-- The active epoch switches (R127). -/
theorem ImportAndWriter.switchEpoch {s : State} (hs : ImportAndWriter s) (e : BitVec 16) :
    ImportAndWriter (s.switchEpoch e) := by
  cases hz : s.zeroing with
  | true =>
    refine hs.kept ?_ rfl rfl rfl rfl rfl id rfl
    have : (s.switchEpoch e).writer = if s.zeroing then s.writer else s.writer.take (.epochRecord e) := rfl
    rw [this, hz, if_pos rfl]
  | false =>
    have hw : (s.switchEpoch e).writer = s.writer.take (.epochRecord e) := by
      have : (s.switchEpoch e).writer = if s.zeroing then s.writer else s.writer.take (.epochRecord e) := rfl
      rw [this, hz]
      rfl
    rw [importAndWriter_iff] at hs ⊢
    obtain ⟨hreq, hperm⟩ := hs.1.takeEpoch (t := s.switchEpoch e) e hw rfl rfl
    exact ⟨hreq, hs.2.congr rfl rfl rfl
      ⟨fun h => by simpa [h] using hperm, fun h => by simpa [h] using hperm⟩ rfl id rfl⟩

/-- A zeroization starts (R94, R114). -/
theorem ImportAndWriter.zeroization {s t : State} (hs : ImportAndWriter s) (h : ZeroizationFields s t) :
    ImportAndWriter t := by
  rw [importAndWriter_iff] at hs ⊢
  have hz : t.zeroing = true := by simp [State.zeroing, h.cycle]
  exact ⟨hs.1.startZeroize h.writer hz,
    .of_noJob (by rw [h.engine]) (by rw [h.engine]; rfl) (.inr ⟨h.importState, .inr hz⟩)⟩

/-- No import and no request. -/
theorem importAndWriter_quiet {s : State} (hi : s.keys.importState = .idle) (hp : s.engine.importPlace = none)
    (hl : liveImport s.engine = none) (hh : heldRequests s.writer = []) : ImportAndWriter s := by
  rw [importAndWriter_iff]
  obtain ⟨hreq, hops⟩ := requests_of_none hh
  exact ⟨hreq, .of_noJob hp hl (.inr ⟨hi, .inl hops⟩)⟩

/-- A reservation is asked for with a slot command, or none (R34, R35). -/
theorem ImportAndWriter.reserveWhen {s t u : State} {go : Bool} (hs : ImportAndWriter s) (hu : u.writer = s.writer)
    (hup : u.slots.reservationPending = s.slots.reservationPending) (huc : u.life.cycle = s.life.cycle)
    (hgo : go = true → u.mayReserve = true) (hw : t.writer = (u.reserveWhen go).writer)
    (hr : t.slots.reservationPending = (u.reserveWhen go).slots.reservationPending) (hl : t.life.cycle = s.life.cycle)
    (hk : t.keys = s.keys) (he : t.engine = s.engine) (hh : t.status.hold = s.status.hold) : ImportAndWriter t := by
  rw [importAndWriter_iff] at hs ⊢
  obtain ⟨hreq, hperm⟩ := (hs.1.congr (t := u) hu hup huc).reserveWhen hgo
  refine ⟨hreq.congr hw hr (hl.trans huc.symm), hs.2.congr (by rw [hk]) (by rw [he]) (by rw [he]) ?_
    (State.zeroing_congr hl) (by rw [hh]; exact id) (by rw [hk])⟩
  rw [hw, ← hu]
  exact ⟨fun h => by simpa [h] using hperm, fun h => by simpa [h] using hperm⟩

theorem ImportAndWriter.setHold {s : State} (hs : ImportAndWriter s) : ImportAndWriter s.setHold := by
  have hw : s.setHold.writer = s.writer := by simp [State.setHold, State.freeAllSlots]
  have hr : s.setHold.slots.reservationPending = s.slots.reservationPending := by
    simp [State.setHold, State.freeAllSlots]
  have hc : s.setHold.life.cycle = s.life.cycle := by simp [State.setHold, State.freeAllSlots]
  have hl : liveImport s.setHold.engine = none := by
    simp only [State.setHold, State.settleHolds_engine, holdEngine, liveImport]
    cases s.freeAllSlots.endImportByHold.engine.job <;> simp
  have hi : s.setHold.keys.importState =
      if s.keys.importState = .queued ∨ s.keys.importState = .working then .idle else s.keys.importState := by
    by_cases h : s.keys.importState = .queued ∨ s.keys.importState = .working <;>
      simp [State.setHold, State.endImportByHold, h, State.clearBuffer]
  rw [importAndWriter_iff] at hs ⊢
  refine ⟨hs.1.congr hw hr hc, .of_noJob rfl hl ?_⟩
  rw [hi, hw, State.zeroing_congr hc]
  have h3 := hs.2.2.2.1
  cases hst : s.keys.importState <;> simp [hst] at h3 ⊢
  all_goals first | exact h3 | (cases hz : s.zeroing <;> simp_all)

/-- A LOAD or LOAD_PLAIN places its import job, with an entry EMPTY for its key (R102, R103). -/
theorem ImportAndWriter.placeJob {s : State} (hs : ImportAndWriter s) (cmd : ImportCmd) (kind : ImportKind)
    (hz : s.zeroing = false) (hh : s.status.hold = false) (hi : s.keys.importState = .idle)
    (he : s.lowestEmpty ≠ none) : ImportAndWriter (s.placeImportJob cmd kind) := by
  rw [importAndWriter_iff] at hs ⊢
  obtain ⟨-, hl⟩ := hs.2.noJob (by simp [hi])
  have hops := hs.2.noAdmin hz (by simp [hi])
  obtain ⟨i, hfound⟩ := Option.ne_none_iff_exists'.mp he
  have hempty : (s.entry i).state = .empty := by simpa using List.find?_some hfound
  have hit : (s.placeImportJob cmd kind).keys.importState = .queued := rfl
  have hlt : liveImport (s.placeImportJob cmd kind).engine = none := hl
  have hopst : adminOps (s.placeImportJob cmd kind).writer = [] := hops
  exact ⟨hs.1.congr rfl rfl rfl, iff_of_true hit rfl, iff_of_false (by simp [hit]) (by simp [hlt]),
    iff_of_false (by simp [hit]) (by simp [hopst]), fun _ => ⟨hh, hz, i, hempty⟩⟩

theorem ImportAndWriter.beat {s t : State} (he : BeatEvent s t) (hs : ImportAndWriter s) : ImportAndWriter t := by
  cases he with
  | same h => exact ImportAndWriter.same h hs
  | waits r c _ =>
    exact hs.reserveWhen (u := s.setCtx r { c with lastResult := .challengeWait }) rfl rfl rfl id rfl rfl rfl rfl rfl
      rfl
  | opened r c _ _ _ _ =>
    exact hs.reserveWhen (u := (s.setCtx r (openedCtx s r c)).issueChallenge)
      (go := decide ((s.slots.ceiling - (s.slots.counter + 1)) ≤ Config.reserveBelow) && s.mayReserve)
      rfl rfl rfl (fun h => (Bool.and_eq_true _ _ ▸ h).2) rfl rfl rfl rfl rfl (by simp [State.carryOpen])
  | armed r c _ _ _ => simp only [State.carryArm]; split <;> exact hs.kept rfl rfl rfl rfl rfl rfl id rfl
  | aborted r c _ _ _ =>
    simp only [State.carryAbort]
    repeat' split
    all_goals exact hs.kept rfl rfl rfl rfl rfl rfl id rfl
  | placedJob cmd kind _ hz hh hi hl => exact hs.placeJob cmd kind hz hh hi hl
  | withdrawn cmd i e op _ hz _ hi _ =>
    obtain ⟨hp, hl⟩ := ((importAndWriter_iff s).mp hs).2.noJob (by simp [hi])
    exact hs.placeAdmin hz (by simp [hi]) op (if_neg (Bool.not_eq_true _ ▸ hz : ¬s.zeroing = true)) rfl rfl rfl hp hl
  | placedAdmin cmd op _ hz _ hi _ =>
    obtain ⟨hp, hl⟩ := ((importAndWriter_iff s).mp hs).2.noJob (by simp [hi])
    exact hs.placeAdmin hz (by simp [hi]) op (if_neg (Bool.not_eq_true _ ▸ hz : ¬s.zeroing = true)) rfl rfl rfl hp hl
  | zeroized command code index check _ _ =>
    exact ImportAndWriter.zeroization (s := s.endAtOnce command code index check)
      (hs.kept rfl rfl rfl rfl rfl rfl id rfl) (State.startZeroization_fields _)
  | switched e _ => exact hs.switchEpoch e
  | holdSet _ _ => exact hs.setHold
  | holdCleared _ => exact hs.kept rfl rfl rfl rfl rfl rfl (fun h => by cases h) rfl
  | _ => exact hs.kept rfl rfl rfl rfl rfl rfl id rfl

/-! ### Rows -/

/-- Outside RUNNING no import is under way and no request waits (R166). -/
theorem StartUpOrder.quiet {s : State} (hst : StartUpOrder s) (hp : s.life.phase ≠ .running) :
    s.keys.importState = .idle ∧ s.engine.importPlace = none ∧ liveImport s.engine = none ∧
      s.writer.waiting = [] ∧ ∀ r, s.writer.running ≠ some (.request r) := by
  obtain ⟨h1, -, hj, hop, -⟩ := hst
  obtain ⟨-, -, h3, h4, -, -, -, h8⟩ := h1 hp
  refine ⟨h4, h3, ?_, h8, fun r hr => hp (hop _ hr)⟩
  unfold liveImport
  split
  next hjob =>
    have := hj _ hjob
    exact absurd (by simpa [isServiceJob] using this) hp
  next => rfl

theorem heldRequests_eq_nil {w : NvWriter} (hw : w.waiting = []) (hr : ∀ r, w.running ≠ some (.request r)) :
    heldRequests w = [] := by
  cases h : w.running with
  | none => simp [heldRequests, h, hw]
  | some op =>
    cases op with
    | request r => exact absurd h (hr r)
    | _ => simp [heldRequests, h, hw]

/-- KEY_CHECK goes on, or RESERVE begins. -/
theorem importAndWriter_continueCheck {s : State} (n : Nat) (hi : s.keys.importState = .idle)
    (hp : s.engine.importPlace = none) (hl : liveImport s.engine = none) (hw : s.writer.waiting = [])
    (hr : ∀ r, s.writer.running ≠ some (.request r)) : ImportAndWriter (s.continueCheck n) := by
  rcases s.continueCheck_cases n with ⟨i, e⟩ | e <;> rw [e]
  · exact importAndWriter_quiet hi hp rfl (heldRequests_eq_nil hw hr)
  · refine importAndWriter_quiet (by simpa using hi) (by simpa using hp) (by simpa using hl) ?_
    rcases s.beginReserve_phase with ⟨-, e⟩ | ⟨-, -, -, e⟩ <;> rw [e]
    · exact heldRequests_eq_nil hw hr
    · exact heldRequests_eq_nil hw (by simp)

theorem importAndWriter_leaveNvRead {s : State} (hi : s.keys.importState = .idle)
    (hp : s.engine.importPlace = none) (hl : liveImport s.engine = none) (hw : s.writer.waiting = [])
    (hr : ∀ r, s.writer.running ≠ some (.request r)) : ImportAndWriter s.leaveNvRead := by
  rcases s.leaveNvRead_cases with ⟨e, -⟩ | e <;> rw [e]
  · refine ImportAndWriter.zeroization ?_ (State.startZeroization_fields _)
    exact importAndWriter_quiet hi hp hl (heldRequests_eq_nil hw hr)
  · exact importAndWriter_continueCheck 0 hi hp hl hw hr

/-- An operation that is no admin request ends. -/
theorem adminOps_goOn_of_running {w : NvWriter} (h : ∀ op, w.running ≠ some (.request (.admin op))) :
    adminOps w.goOn = adminOps w := by
  rw [adminOps_eq, adminOps_eq, heldRequests_goOn_eq]
  cases hr : w.running with
  | none => simp [heldRequests, hr]
  | some op =>
    cases op with
    | request r =>
      cases r with
      | admin op => exact absurd hr (h op)
      | epochRecord v => simp only [heldRequests, hr]; rfl
      | reservation v => simp only [heldRequests, hr]; rfl
    | _ => simp [heldRequests, hr]

/-- An operation that is no admin request ends, and nothing of the import under way changes. -/
theorem ImportAndWriter.goOn {s t : State} (hs : ImportAndWriter s)
    (hr : ∀ op, s.writer.running ≠ some (.request (.admin op))) (hw : t.writer = s.writer.goOn)
    (hp : askedCeilings t.writer ≠ [] → s.slots.reservationPending = true ∨ s.zeroing = true →
      t.slots.reservationPending = true ∨ t.zeroing = true) (hz : t.zeroing = s.zeroing)
    (hk : t.keys = s.keys) (he : t.engine = s.engine) (hh : t.status.hold = s.status.hold) : ImportAndWriter t := by
  rw [importAndWriter_iff] at hs ⊢
  refine ⟨hs.1.goOn hw hp, hs.2.congr (by rw [hk]) (by rw [he]) (by rw [he]) ?_ hz (by rw [hh]; exact id) (by rw [hk])⟩
  rw [hw, adminOps_goOn_of_running hr]

/-- The life-cycle word of a LOAD_PLAIN follows its entry program within the one admin request (R104). -/
theorem ImportAndWriter.followUp {s t : State} (hs : ImportAndWriter s) {op next : AdminOp}
    (hr : s.writer.running = some (.request (.admin op))) (hz : s.zeroing = false)
    (hw : t.writer = { s.writer with running := some (.request (.admin next)) })
    (hp : t.slots.reservationPending = s.slots.reservationPending) (hc : t.life.cycle = s.life.cycle)
    (hi : t.keys.importState = s.keys.importState) (he : t.engine = s.engine) : ImportAndWriter t := by
  rw [importAndWriter_iff] at hs ⊢
  obtain ⟨⟨h1, h2, h3, h4⟩, himp⟩ := hs
  have hops : adminOps s.writer = op :: s.writer.waiting.filterMap adminOpOf := by
    simp [adminOps_eq, heldRequests, hr, adminOpOf]
  have hopst : adminOps t.writer = next :: s.writer.waiting.filterMap adminOpOf := by
    simp [adminOps_eq, heldRequests, hw, adminOpOf]
  have hceil : askedCeilings t.writer = askedCeilings s.writer := by simp [askedCeilings, heldRequests, hw, hr]
  have hnv : s.keys.importState = .nvWriting := himp.2.2.1.mpr ⟨by simp [hops], hz⟩
  obtain ⟨hplace, hl⟩ := himp.noJob (by simp [hnv])
  refine ⟨⟨by rw [hw]; exact h1, ?_, by rwa [hceil], by rwa [hceil, hp, State.zeroing_congr hc]⟩,
    .of_noJob (by rw [he, hplace]) (by rw [he, hl])
      (.inl ⟨hi.trans hnv, by simp [hopst], (State.zeroing_congr hc).trans hz⟩)⟩
  rw [hops] at h2
  simpa [hopst] using h2

/-- A delivered outcome ends the command in flight (R98). -/
theorem State.deliverAdmin_importState {s : State} {op : AdminOp} {passed : Bool} (h : followUp op passed = none) :
    (s.deliverAdmin op passed).keys.importState = .idle := by
  unfold State.deliverAdmin
  split
  all_goals first | rfl | simp [followUp] at h

/-- An admin operation ends (R92 to R94, R104). -/
theorem ImportAndWriter.endAdmin {s : State} (hs : ImportAndWriter s) {op : AdminOp} (passed : Bool)
    (hr : s.writer.running = some (.request (.admin op))) : ImportAndWriter (s.endAdmin op passed) := by
  have hops : adminOps s.writer = op :: s.writer.waiting.filterMap adminOpOf := by
    simp [adminOps_eq, heldRequests, hr, adminOpOf]
  rw [importAndWriter_iff] at hs ⊢
  obtain ⟨hreq, himp⟩ := hs
  have hrest : s.writer.waiting.filterMap adminOpOf = [] := by
    have := hreq.2.1
    rw [hops] at this
    exact List.length_eq_zero_iff.mp (by simpa using this)
  have hgo : adminOps s.writer.goOn = [] := by rw [adminOps_eq, heldRequests_goOn_eq, hrest]
  rcases s.endAdmin_cases op passed with ⟨hz, e⟩ | ⟨hz, i, e', rfl, rfl, e⟩ | ⟨hz, hf, e⟩ <;> rw [e]
  · have hidle : s.keys.importState = .idle := by
      obtain ⟨-, -, h3, h4⟩ := himp
      cases hi : s.keys.importState <;> simp [hi, hz] at h3 h4 ⊢
    obtain ⟨hp, hl⟩ := himp.noJob (by simp [hidle])
    have hz' : (s.adminInNv op passed).nvNext.zeroing = s.zeroing := State.zeroing_congr (by simp)
    exact ⟨hreq.goOn (by simp [State.nvNext]) (by simp [hz', hz]),
      .of_noJob (by simpa using hp) (by simpa using hl) (.inr ⟨by simpa using hidle, .inr (hz'.trans hz)⟩)⟩
  · rw [← importAndWriter_iff]
    exact ImportAndWriter.followUp ((importAndWriter_iff s).mpr ⟨hreq, himp⟩) hr hz rfl rfl rfl rfl rfl
  · have hnv : s.keys.importState = .nvWriting := himp.2.2.1.mpr ⟨by simp [hops], hz⟩
    obtain ⟨hp, hl⟩ := himp.noJob (by simp [hnv])
    refine ⟨hreq.goOn (by simp [State.nvNext]) fun _ => ?_, .of_noJob (by simpa using hp) (by simpa using hl)
      (.inr ⟨State.deliverAdmin_importState hf, .inl (by simpa [State.nvNext] using hgo)⟩)⟩
    simp only [hz, Bool.false_eq_true, or_false]
    intro h
    left
    simpa [State.nvNext] using h

theorem liveImport_discardDropped (e : Engine) (kept : Fin 16 → Bool) :
    liveImport (installEngine e kept) = liveImport e := by
  cases hj : e.job with
  | none => simp [liveImport, installEngine, hj]
  | some j =>
    obtain ⟨work, discard⟩ := j
    cases work with
    | verify r _ _ _ => cases h : kept r.group <;> simp [liveImport, installEngine, hj, discardDropped, jobSlot, h]
    | sealing r _ _ _ => cases h : kept r.group <;> simp [liveImport, installEngine, hj, discardDropped, jobSlot, h]
    | _ => simp [liveImport, installEngine, hj, discardDropped, jobSlot]

theorem liveImport_of_liveJob {e : Engine} {x : SlotRef × JobKind} (hl : liveJob e = some x) : liveImport e = none := by
  unfold liveJob at hl
  split at hl
  next hj => simp [liveImport, hj]
  next hj => simp [liveImport, hj]
  next => cases hl

/-- The result of an import job is handed over (R53, R104). -/
theorem ImportAndWriter.handOver {s : State} (hs : ImportAndWriter s) {h : Block} (hl : liveImport s.engine = some h)
    (kind : ImportKind) (res : Sum ImportCode (Block × BitVec 24)) :
    ImportAndWriter (s.idleEngine.handOver kind h res) := by
  have hshown := ((importAndWriter_iff s).mp hs).2
  have hw : s.keys.importState = .working := hshown.2.1.mpr (by simp [hl])
  obtain ⟨-, hz, i, he⟩ := hshown.2.2.2 (.inr hw)
  have hp : s.engine.importPlace = none := by
    have := hshown.1
    simpa [hw] using this
  have hops := hshown.noAdmin hz (by simp [hw])
  cases res with
  | inl code =>
    rw [importAndWriter_iff] at hs ⊢
    exact ⟨hs.1.congr rfl rfl rfl, .of_noJob hp rfl (.inr ⟨rfl, .inl hops⟩)⟩
  | inr key =>
    have hex : ∃ k, s.idleEngine.lowestEmpty = some k := by
      refine Option.isSome_iff_exists.mp ?_
      rw [State.lowestEmpty, List.find?_isSome]
      exact ⟨i, by simp, by simpa [State.idleEngine, State.entry] using he⟩
    obtain ⟨k, hk⟩ := hex
    simp only [State.handOver, hk]
    exact hs.placeAdmin hz (by simp [hw]) _ (if_neg (Bool.not_eq_true _ ▸ hz : ¬s.zeroing = true)) rfl rfl rfl hp rfl

/-- The engine takes the import job that waits (R42). -/
theorem ImportAndWriter.takeImport {s : State} (hs : ImportAndWriter s) {kind : ImportKind}
    (hp : s.engine.importPlace = some kind) : ImportAndWriter (s.takeImportJob kind) := by
  rw [importAndWriter_iff] at hs ⊢
  obtain ⟨hreq, h1, -, h3, h4⟩ := hs
  have hq : s.keys.importState = .queued := h1.mpr (by simp [hp])
  have hw : (s.takeImportJob kind).keys.importState = .working := rfl
  have hl : (liveImport (s.takeImportJob kind).engine).isSome = true := rfl
  have hno : ¬(adminOps s.writer ≠ [] ∧ s.zeroing = false) := fun h => by simpa [hq] using h3.mpr h
  exact ⟨hreq.congr rfl rfl rfl, iff_of_false (by simp [hw]) (by simp [State.takeImportJob, State.startJob]),
    iff_of_true hw hl, iff_of_false (by simp [hw]) hno, fun _ => h4 (.inl hq)⟩

/-- After the reservation that runs, no other is held (R34). -/
theorem Requests.askedCeilings_goOn_reservation {s : State} (h : Requests s) {v : Nat}
    (hr : s.writer.running = some (.request (.reservation v))) : askedCeilings s.writer.goOn = [] := by
  have hlen := h.2.2.1
  rw [askedCeilings_eq] at hlen ⊢
  rw [heldRequests_goOn_eq]
  simp only [heldRequests, hr, List.singleton_append, List.filterMap_cons, ceilingOf, List.length_cons] at hlen
  exact List.length_eq_zero_iff.mp (by omega)

/-- The NV zeroize goes on: the writer holds the requests that it held. -/
theorem ImportAndWriter.zeroizing {s t : State} (hs : ImportAndWriter s)
    (hh : heldRequests t.writer = heldRequests s.writer) (hw : t.writer.waiting = s.writer.waiting)
    (hsl : t.slots = s.slots) (hl : t.life = s.life) (hk : t.keys = s.keys) (he : t.engine = s.engine)
    (hst : t.status = s.status) : ImportAndWriter t := by
  have ha : adminOps t.writer = adminOps s.writer := by simp only [adminOps, hh]
  have hc : askedCeilings t.writer = askedCeilings s.writer := by simp only [askedCeilings, hh]
  have hz : t.zeroing = s.zeroing := State.zeroing_congr (by rw [hl])
  rw [importAndWriter_iff] at hs ⊢
  exact ⟨by simpa only [Requests, ha, hc, hw, hsl, hz] using hs.1,
    hs.2.congr (by rw [hk]) (by rw [he]) (by rw [he]) (by rw [ha]) hz (by rw [hst]; exact id) (by rw [hk])⟩

/-- An event of a row keeps the import state and the NV writer. -/
theorem ImportAndWriter.row {s t : State} (hst : StartUpOrder s) (he : RowEvent s t) (hs : ImportAndWriter s) :
    ImportAndWriter t := by
  cases he with
  | powerOn straps => exact importAndWriter_quiet rfl rfl rfl rfl
  | tamper _ _ => exact hs.zeroization s.startZeroization_fields
  | switched e _ => exact hs.switchEpoch e
  | tookVerify r rest c k key hj _ _ _ =>
    exact hs.kept rfl rfl rfl rfl rfl (by simp [liveImport, hj, State.startJob]) id rfl
  | tookSeal r rest c k key hj _ _ _ =>
    exact hs.kept rfl rfl rfl rfl rfl (by simp [liveImport, hj, State.startJob]) id rfl
  | tookImport kind _ hp => exact hs.takeImport hp
  | jobLost j _ _ hl _ => exact hs.kept rfl rfl rfl rfl rfl (by rw [hl]; rfl) id rfl
  | jobAborted r kind c hl _ _ => exact hs.kept rfl rfl rfl rfl rfl (by rw [liveImport_of_liveJob hl]; rfl) id rfl
  | jobEnded r kind c c' f hl _ _ _ => exact hs.kept rfl rfl rfl rfl rfl (by rw [liveImport_of_liveJob hl]; rfl) id rfl
  | handedOver kind h res hl => exact hs.handOver hl kind res
  | checked i key hj =>
    obtain ⟨d, hj⟩ := hj
    have hp : s.life.phase = .keyCheck := by simpa [isServiceJob] using hst.2.2.1 _ hj
    obtain ⟨h1, h2, -, h4, h5⟩ := StartUpOrder.quiet hst (by simp [hp])
    exact importAndWriter_continueCheck _ h1 h2 rfl h4 h5
  | adminEnded op passed hr => exact hs.endAdmin passed hr
  | epochEnded v passed hr =>
    cases passed <;> exact hs.goOn (by simp [hr]) rfl (fun _ => id) rfl rfl rfl rfl
  | reservationEnded v passed hr =>
    have hnone := ((importAndWriter_iff s).mp hs).1.askedCeilings_goOn_reservation hr
    cases passed <;> exact hs.goOn (by simp [hr]) rfl (absurd hnone) rfl rfl rfl (by simp [State.endReservation])
  | reserveEnded v passed hr =>
    have hp : s.life.phase = .reserve := hst.2.2.2.1 _ hr
    obtain ⟨h1, h2, h3, h4, -⟩ := StartUpOrder.quiet hst (by simp [hp])
    have hg := heldRequests_goOn_eq s.writer
    rw [h4] at hg
    cases passed <;> exact importAndWriter_quiet h1 h2 h3 hg
  | blankWritten hr =>
    have hp : s.life.phase = .nvRead := (hst.2.2.2.1 _ hr).1
    obtain ⟨h1, h2, h3, h4, -⟩ := StartUpOrder.quiet hst (by simp [hp])
    exact importAndWriter_leaveNvRead h1 h2 h3 h4 nofun
  | stagePassed n hr _ => exact hs.zeroizing (by simp [heldRequests, hr]) rfl rfl rfl rfl rfl rfl
  | attemptFailed n hr _ => exact hs.zeroizing (by simp [heldRequests, hr]) rfl rfl rfl rfl rfl rfl
  | zeroizeThenBlank n hr _ => exact hs.zeroizing (by simp [heldRequests, hr]) rfl rfl rfl rfl rfl rfl
  | zeroizeDone n hr hp =>
    have hz : s.zeroing = true := by simp [State.zeroing, (hst.2.2.2.1 _ hr).1.resolve_right hp]
    exact hs.goOn (by simp [hr]) rfl (fun _ _ => .inr rfl) hz.symm rfl rfl rfl
  | readZeroized hp hr => exact hs.zeroizing (by simp [heldRequests, hr]) rfl rfl rfl rfl rfl rfl
  | readEnded l d hp hr _ _ =>
    obtain ⟨h1, h2, h3, h4, h5⟩ := StartUpOrder.quiet hst (by simp [hp])
    exact importAndWriter_leaveNvRead h1 h2 h3 h4 h5
  | installed beats _ _ _ => exact hs.kept rfl rfl rfl rfl rfl (liveImport_discardDropped _ _) id rfl
  | _ => exact hs.kept rfl rfl rfl rfl rfl rfl id rfl

end Sys2Proof.Safety
end

