-- ==== Sys2Proof/Proofs/ZeroizeStages.lean ====
section
/-! SUPPORT. What the passed stages of the NV zeroize have written stands, and O55. -/

namespace Sys2Proof.Machine

open Sys2Proof.Safety

/-- No beat writes NV. -/
theorem BeatEvent.nv {s t : State} (h : BeatEvent s t) : t.nv = s.nv := by
  cases h with
  | same h => exact h.nv
  | armed r c _ _ _ => simp only [State.carryArm]; split <;> rfl
  | aborted r c _ _ _ =>
    simp only [State.carryAbort]
    repeat' split
    all_goals rfl
  | zeroized command code index check _ _ => exact (State.startZeroization_fields _).nv
  | holdSet _ _ => simp [State.setHold, State.freeAllSlots]
  | _ => rfl

/-- An NV zeroize that runs in `t` has just begun its first attempt, or ran in `s` as it does now. -/
def ZeroizeAsBefore (s t : State) : Prop :=
  ∀ n, t.writer.running = some (.nvZeroize n) →
    (n = 0 ∧ t.writer.attemptsFailed = 0#8) ∨
    (s.writer.running = some (.nvZeroize n) ∧ t.writer.attemptsFailed = s.writer.attemptsFailed ∧ t.nv = s.nv)

theorem ZeroizeAsBefore.refl (s : State) : ZeroizeAsBefore s s := fun _ h => .inr ⟨h, rfl, rfl⟩

theorem zeroizeAsBefore_of_same {s t : State} (hw : t.writer = s.writer) (hn : t.nv = s.nv) : ZeroizeAsBefore s t :=
  fun n h => .inr ⟨hw ▸ h, by rw [hw], hn⟩

theorem zeroizeAsBefore_take {s t : State} (r : NvRequest) (hw : t.writer = s.writer.take r) (hn : t.nv = s.nv) :
    ZeroizeAsBefore s t := by
  intro n h
  rw [hw] at h ⊢
  cases hr : s.writer.running <;> simp_all [NvWriter.take]

theorem zeroizeAsBefore_request {s t : State} (r : NvRequest)
    (hw : t.writer = if s.zeroing then s.writer else s.writer.take r) (hn : t.nv = s.nv) : ZeroizeAsBefore s t := by
  split at hw
  · exact zeroizeAsBefore_of_same hw hn
  · exact zeroizeAsBefore_take r hw hn

theorem zeroizeAsBefore_goOn {s t : State} (hw : t.writer = s.writer.goOn) : ZeroizeAsBefore s t := by
  intro n h
  rw [hw, NvWriter.goOn] at h ⊢
  repeat' split at h
  all_goals simp_all

theorem zeroizeAsBefore_startZeroize {s t : State} (hw : t.writer = startZeroizeOperation s.writer) (hn : t.nv = s.nv) :
    ZeroizeAsBefore s t := by
  intro n h
  rw [hw] at h ⊢
  cases hr : s.writer.running <;> simp_all [startZeroizeOperation]

/-- No NV zeroize runs. -/
theorem zeroizeAsBefore_of_not {s t : State} (h : ∀ n, t.writer.running ≠ some (.nvZeroize n)) : ZeroizeAsBefore s t :=
  fun n hn => absurd hn (h n)

theorem ZeroizeAsBefore.stand {s t : State} (h : ZeroizeAsBefore s t) (hs : ZeroizeStagesStand s) :
    ZeroizeStagesStand t := by
  intro n hn
  rcases h n hn with ⟨rfl, ha⟩ | ⟨hr, ha, hnv⟩
  · simp [ha]
  · rw [ha, hnv]
    exact hs n hr

theorem ZeroizeAsBefore.of_beat {s t : State} (h : BeatEvent s t) : ZeroizeAsBefore s t := by
  rcases h.writer with e | ⟨r, e⟩ | ⟨-, -, e⟩
  · exact zeroizeAsBefore_of_same e h.nv
  · exact zeroizeAsBefore_take r e h.nv
  · exact zeroizeAsBefore_startZeroize e h.nv

theorem zeroizeAsBefore_beginReserve (s : State) : ZeroizeAsBefore s s.beginReserve := by
  rcases s.beginReserve_phase with ⟨-, e⟩ | ⟨-, -, -, e⟩
  · exact zeroizeAsBefore_of_same e (by simp)
  · exact zeroizeAsBefore_of_not (by simp [e])

theorem zeroizeAsBefore_continueCheck (n : Nat) (s : State) : ZeroizeAsBefore s (s.continueCheck n) := by
  rcases s.continueCheck_cases n with ⟨i, e⟩ | e <;> rw [e]
  · exact zeroizeAsBefore_of_same rfl rfl
  · exact zeroizeAsBefore_beginReserve s

theorem zeroizeAsBefore_leaveNvRead {s : State} (hr : s.writer.running = none) (u : State) :
    ZeroizeAsBefore u s.leaveNvRead := by
  intro n h
  rcases s.leaveNvRead_cases with ⟨e, -⟩ | e <;> rw [e] at h ⊢
  · have f := State.startZeroization_fields { s with life := { s.life with phase := .keyCheck, deferred := false } }
    rw [f.writer, startZeroizeOperation, hr] at h ⊢
    simp_all
  · have := zeroizeAsBefore_continueCheck 0 { s with life := { s.life with phase := .keyCheck, deferred := false } } n h
    exact .inl (by simpa [hr] using this)

/-! ### The stages -/

/-- A stage of the NV zeroize passes: what it writes joins what stands (R176). -/
theorem ZeroizeStagesStand.stagePassed {s : State} (hs : ZeroizeStagesStand s) {n : Fin 4}
    (hr : s.writer.running = some (.nvZeroize n)) (hn : n ≠ 3) :
    ZeroizeStagesStand { s with
      nv := zeroizeStage n.val s.nv, writer := { s.writer with running := some (.nvZeroize (n + 1)) } } := by
  obtain ⟨h1, h2, h3⟩ := hs n hr
  intro m hm
  simp only [Option.some_inj, NvOp.nvZeroize.injEq] at hm
  subst hm
  fin_cases n
  · simp [zeroizeStage, lifeCode]
  · simpa [zeroizeStage] using h1
  · exact ⟨fun _ => h1 (.inl (by simp)), fun _ => h2 (by simp), fun _ => rfl⟩
  · simp at hn

/-- An attempt fails, and the next begins with the life-cycle word ZEROIZED already (R178). -/
theorem ZeroizeStagesStand.attemptFailed {s : State} (hs : ZeroizeStagesStand s) {n : Fin 4}
    (hr : s.writer.running = some (.nvZeroize n)) :
    ZeroizeStagesStand { s with nv := failedStage n.val s.freeCount s.nv, writer := restartZeroize s.writer } := by
  obtain ⟨h1, -, -⟩ := hs n hr
  intro m hm
  simp only [restartZeroize_running, Option.some_inj, NvOp.nvZeroize.injEq] at hm
  subst hm
  refine ⟨fun _ => ?_, by simp, by simp⟩
  fin_cases n
  · rfl
  all_goals simpa [failedStage] using h1 (.inl (by simp))

theorem ZeroizeStagesStand.row {s t : State} (he : RowEvent s t) (hs : ZeroizeStagesStand s) :
    ZeroizeStagesStand t := by
  cases he with
  | stagePassed n hr hn => exact ZeroizeStagesStand.stagePassed hs hr hn
  | attemptFailed n hr _ => exact ZeroizeStagesStand.attemptFailed hs hr
  | powerOn straps => exact (zeroizeAsBefore_of_not (s := s) (by simp [State.powerOn])).stand hs
  | tamper _ _ =>
    exact (zeroizeAsBefore_startZeroize s.startZeroization_fields.writer s.startZeroization_fields.nv).stand hs
  | switched e _ => exact ZeroizeAsBefore.stand (zeroizeAsBefore_request (.epochRecord e) rfl rfl) hs
  | handedOver kind h res _ =>
    simp only [State.handOver]
    repeat' split
    · exact (zeroizeAsBefore_of_same (s := s) rfl rfl).stand hs
    · exact (zeroizeAsBefore_of_same (s := s) rfl rfl).stand hs
    · exact ZeroizeAsBefore.stand (zeroizeAsBefore_request (.admin _) rfl rfl) hs
  | checked i key _ =>
    exact (zeroizeAsBefore_continueCheck _ _).stand (ZeroizeAsBefore.stand (zeroizeAsBefore_of_same rfl rfl) hs)
  | adminEnded op passed _ =>
    rcases s.endAdmin_cases op passed with ⟨-, e⟩ | ⟨-, i, e', rfl, rfl, e⟩ | ⟨-, -, e⟩ <;> rw [e]
    · exact (zeroizeAsBefore_goOn (s := s) (by simp [State.nvNext])).stand hs
    · exact (zeroizeAsBefore_of_not (s := s) (by simp)).stand hs
    · exact (zeroizeAsBefore_goOn (s := s) (by simp [State.nvNext])).stand hs
  | epochEnded v passed _ => cases passed <;> exact (zeroizeAsBefore_goOn (s := s) rfl).stand hs
  | reservationEnded v passed _ => cases passed <;> exact (zeroizeAsBefore_goOn (s := s) rfl).stand hs
  | reserveEnded v passed _ => cases passed <;> exact (zeroizeAsBefore_goOn (s := s) rfl).stand hs
  | blankWritten _ => exact (zeroizeAsBefore_leaveNvRead rfl s).stand hs
  | zeroizeThenBlank n _ _ => exact (zeroizeAsBefore_of_not (s := s) (by simp)).stand hs
  | zeroizeDone n _ _ => exact (zeroizeAsBefore_goOn (s := s) rfl).stand hs
  | readZeroized _ _ => exact ZeroizeAsBefore.stand (s := s) (fun n h => .inl ⟨by simpa using h.symm, rfl⟩) hs
  | readEnded l d _ hr _ _ =>
    refine (zeroizeAsBefore_leaveNvRead ?_ s).stand hs
    exact hr
  | _ => exact (zeroizeAsBefore_of_same (s := s) rfl rfl).stand hs

end Sys2Proof.Machine

namespace Sys2Proof.Proofs

open Sys2Proof.Machine Sys2Proof.Safety

/-- At most one request of a kind waits, and there are three kinds. -/
theorem waiting_length_le {s : State} (hs : ImportAndWriter s) : s.writer.waiting.length ≤ 3 := by
  have := hs.1.length_le_card
  simpa using this

/-- The import state is IDLE exactly where nothing is under way. -/
theorem importState_idle_iff {s : State} (hs : ImportAndWriter s) :
    s.keys.importState = .idle ↔ s.engine.importPlace = none ∧ liveImport s.engine = none ∧
      (adminOps s.writer = [] ∨ s.zeroing = true) := by
  obtain ⟨h1, h2, h3, h4⟩ := ((importAndWriter_iff s).mp hs).2
  constructor
  · intro hi
    obtain ⟨hp, hl⟩ := ((importAndWriter_iff s).mp hs).2.noJob (by simp [hi])
    refine ⟨hp, hl, ?_⟩
    by_contra hn
    have : s.keys.importState = .nvWriting := h3.mpr (by simpa using hn)
    simp [hi] at this
  · rintro ⟨hp, hl, ha⟩
    cases hi : s.keys.importState with
    | idle => rfl
    | queued => simp [hp] at h1; exact absurd hi h1
    | working => simp [hl] at h2; exact absurd hi h2
    | nvWriting =>
      obtain ⟨hne, hz⟩ := h3.mp hi
      exact absurd ha (by simp [hne, hz])

/-- Settles O55, event by event: each request is taken where none of its kind is held, and the import state moves with
the job or the request that it shows. -/
theorem stepKeepsImportAndWriter : Obligations.StepKeepsImportAndWriter :=
  ⟨fun _ _ hst hs h =>
    step_keeps (Q := StartUpOrder) (fun _ _ => StartUpOrder.same) (fun _ _ => StartUpOrder.beat)
      (fun _ _ => ImportAndWriter.same) (fun _ _ _ => ImportAndWriter.beat)
        (fun _ _ hst => ImportAndWriter.row hst) hst hs h,
  fun _ hs => ⟨waiting_length_le hs, importState_idle_iff hs⟩,
  fun _ _ hs h =>
    step_keeps (Q := fun _ => True) (fun _ _ _ _ => trivial) (fun _ _ _ _ => trivial)
      (fun _ _ h => (zeroizeAsBefore_of_same h.writer h.nv).stand) (fun _ _ _ h => (ZeroizeAsBefore.of_beat h).stand)
      (fun _ _ _ => ZeroizeStagesStand.row) trivial hs h⟩

end Sys2Proof.Proofs
end

