-- ==== Sys2Proof/Proofs/HeldReads.lean ====
section
/-! SUPPORT. What becomes of held reads in a step that changes slots (R25, R28, R143): `settleHolds` in the words of
`HeldReadsSettled`, proved once for every row that ends with it. -/

namespace Sys2Proof.Machine

open Sys2Proof.Safety

/-! ### Responses by initiator -/

/-- What is given out of a queue is of requests that were in it. -/
theorem req_of_mem_drain {q : List QueueEntry} {o : SysOut} (h : o ∈ (drain q).1) : ∃ e ∈ q, o.req = e.req := by
  induction q with
  | nil => simp [drain] at h
  | cons a l ih =>
    unfold drain at h
    split at h
    · rcases List.mem_cons.mp h with rfl | h
      · exact ⟨a, by simp, rfl⟩
      · obtain ⟨e, he, heq⟩ := ih h
        exact ⟨e, List.mem_cons_of_mem _ he, heq⟩
    · simp at h

/-- Of lists made one for each initiator, only that of initiator `i` is left where the others are empty. -/
theorem flatMap_initiators_single {α : Type} {f : Initiator → List α} {i : Initiator} (h : ∀ j, j ≠ i → f j = []) :
    (List.finRange 4).flatMap f = f i := by
  have hpart : f = fun j => if j = i then f i else [] := funext fun j => by
    split
    next e => rw [e]
    next e => exact h j e
  rw [hpart]
  fin_cases i <;> simp [List.finRange_succ]

/-- The responses of one initiator after responses have been given from queues of the initiators' own requests (R137).
-/
theorem given_append_drain {s t : State} (q : Initiator → List QueueEntry) (hq : ∀ j, ∀ e ∈ q j, e.req.initiator = j)
    (h : t.sysOut = s.sysOut ++ (List.finRange 4).flatMap fun j => (drain (q j)).1) (i : Initiator) :
    given t i = given s i ++ (drain (q i)).1 := by
  have own : ∀ j, ∀ o ∈ (drain (q j)).1, o.req.initiator = j := fun j o ho => by
    obtain ⟨e, he, heq⟩ := req_of_mem_drain ho
    rw [heq, hq j e he]
  rw [given, h, List.filter_append, List.filter_flatMap, given,
    flatMap_initiators_single (i := i) fun j hj => List.filter_eq_nil_iff.mpr fun o ho => by simp [own j o ho, hj]]
  exact congrArg _ (List.filter_eq_self.mpr fun o ho => by simp [own i o ho])

/-! ### What goes to memory -/

/-- The read burst of initiator `i` that went to memory, if this is one. -/
def readOf (i : Initiator) (o : MemOut) : Option Request :=
  match o with
  | .read r => if r.initiator = i then some r else none
  | _ => none

theorem readsForwarded_eq (s : State) (i : Initiator) : readsForwarded s i = s.memOut.filterMap (readOf i) := rfl

/-- What goes to memory that is no read burst of an initiator. -/
def isOther (o : MemOut) : Bool :=
  match o with
  | .read _ => false
  | _ => true

theorem otherwiseSent_eq (s : State) : otherwiseSent s = s.memOut.filter isOther := rfl

theorem readOf_of_isOther {o : MemOut} (h : isOther o = true) (i : Initiator) : readOf i o = none := by
  cases o <;> simp_all [isOther, readOf]

/-! ### One queue -/

/-- A held read without some of the slots that held it. -/
def dropWaits (kept : SlotRef × JobKind → Bool) (e : QueueEntry) : QueueEntry :=
  match e.stage with
  | .held endsAt places waits => { e with stage := .held endsAt places (waits.filter kept) }
  | _ => e

theorem dropWaits_all (e : QueueEntry) : dropWaits (fun _ => true) e = e := by
  obtain ⟨r, stage⟩ := e
  cases stage <;> simp [dropWaits]

@[simp] theorem dropWaits_req (kept : SlotRef × JobKind → Bool) (e : QueueEntry) : (dropWaits kept e).req = e.req := by
  simp only [dropWaits]; split <;> rfl

@[simp] theorem State.settleEntry_req (s : State) (e : QueueEntry) : (s.settleEntry e).1.req = e.req := by
  simp only [State.settleEntry]; repeat' split
  all_goals rfl

/-- One entry that is no held read stays. -/
theorem State.settleEntry_of_not_held (s : State) (kept : SlotRef × JobKind → Bool) {e : QueueEntry}
    (h : isHeld e = false) : s.settleEntry (dropWaits kept e) = (e, []) := by
  obtain ⟨r, stage⟩ := e
  cases stage <;> simp_all [isHeld, dropWaits, State.settleEntry]

/-- A slot still holds a read where it is still in the job. -/
theorem State.stillHolds_iff (s : State) (w : SlotRef × JobKind) : s.stillHolds w = true ↔ InJob s w := by
  simp only [State.stillHolds, InJob]
  cases s.ctx? w.1 with
  | none => simp
  | some c => simp [inJob, or_assoc]

/-- The answered words of slot records are those of the contexts. -/
theorem answer_congr {s t : State} (h : t.slots.contexts = s.slots.contexts) {p : Place}
    (hp : ∃ ref word, p = .slot ref word) : answer t p = answer s p := by
  obtain ⟨ref, word, rfl⟩ := hp
  simp only [answer, State.ctx?_congr h]

theorem injob_congr {s t : State} (h : t.slots.contexts = s.slots.contexts) (w : SlotRef × JobKind) :
    InJob t w ↔ InJob s w := by simp only [InJob, State.ctx?_congr h]

/-- The reads that one entry sends as it is settled are its own. -/
theorem State.settleEntry_sends (s : State) (e : QueueEntry) {o : MemOut} (h : o ∈ (s.settleEntry e).2) :
    o = .read e.req := by
  simp only [State.settleEntry, State.finishRead] at h
  repeat' split at h
  all_goals simp_all

/-- In order, a queue with a held read has no other. -/
theorem not_held_of_split {pre post : List QueueEntry} {e : QueueEntry}
    (hlen : ((pre ++ e :: post).filter isHeld).length ≤ 1)
    (he : isHeld e = true) : ∀ x, x ∈ pre ∨ x ∈ post → isHeld x = false := by
  rw [List.filter_append, List.filter_cons_of_pos he, List.length_append, List.length_cons] at hlen
  have h1 : (pre.filter isHeld).length = 0 := by omega
  have h2 : (post.filter isHeld).length = 0 := by omega
  rw [List.length_eq_zero_iff, List.filter_eq_nil_iff] at h1 h2
  rintro x (hx | hx)
  · simpa using h1 x hx
  · simpa using h2 x hx

/-- Answered words as they are put on the beats of a whole read. -/
theorem okayBeats_answers (s : State) (places : List Place) :
    okayBeats (s.answers places) = places.map fun p => ReadBeat.mk ((answer s p).getD 0#64) .okay := by
  simp [okayBeats, State.answers]

/-- A read that is no longer held, with each word the part's own, is ready (R143). -/
theorem State.finishRead_answered {s : State} {r : Request} {places : List Place}
    (h : ∀ p ∈ places, answer s p ≠ none) :
    s.finishRead r places =
      (.ready (.read (places.map fun p => ReadBeat.mk ((answer s p).getD 0#64) .okay)), []) := by
  have hall : (s.answers places).all Option.isSome = true := by
    simp only [State.answers, List.all_map, List.all_eq_true]
    exact fun p hp => Option.isSome_iff_ne_none.mpr (h p hp)
  rw [State.finishRead, if_pos hall, okayBeats_answers]

/-- A read that is no longer held and needs memory is forwarded with its answered words (R143). -/
theorem State.finishRead_forwarded {s : State} {r : Request} {places : List Place}
    (h : ∃ p ∈ places, answer s p = none) :
    s.finishRead r places = (.forwarded (places.map (answer s)) false, [.read r]) := by
  have hall : ¬(s.answers places).all Option.isSome = true := by
    obtain ⟨p, hp, hn⟩ := h
    simp only [State.answers, List.all_map, List.all_eq_true]
    exact fun hall => by simpa [hn] using hall p hp
  rw [State.finishRead, if_neg hall]; rfl

/-- What settling makes of a queue: each entry in its place. -/
def settledQueue (kept : SlotRef × JobKind → Bool) (u : State) (q : List QueueEntry) : List QueueEntry :=
  q.map fun e => (u.settleEntry (dropWaits kept e)).1

/-- The reads that settling a queue sends. -/
def settledSends (kept : SlotRef × JobKind → Bool) (u : State) (q : List QueueEntry) : List MemOut :=
  q.flatMap fun e => (u.settleEntry (dropWaits kept e)).2

theorem settledQueue_of_not_held {kept : SlotRef × JobKind → Bool} {u : State} {q : List QueueEntry}
    (h : ∀ e ∈ q, isHeld e = false) : settledQueue kept u q = q :=
  (List.map_congr_left fun e he => by rw [u.settleEntry_of_not_held kept (h e he)]; rfl).trans (List.map_id q)

theorem settledSends_of_not_held {kept : SlotRef × JobKind → Bool} {u : State} {q : List QueueEntry}
    (h : ∀ e ∈ q, isHeld e = false) : settledSends kept u q = [] :=
  List.flatMap_eq_nil_iff.mpr fun e he => by rw [u.settleEntry_of_not_held kept (h e he)]

/-- Only the held read of a queue changes as it is settled. -/
theorem settledQueue_of_split {kept : SlotRef × JobKind → Bool} {u : State} {pre post : List QueueEntry}
    {e : QueueEntry}
    (h : ∀ x, x ∈ pre ∨ x ∈ post → isHeld x = false) :
    settledQueue kept u (pre ++ e :: post) = pre ++ (u.settleEntry (dropWaits kept e)).1 :: post := by
  have hpre := settledQueue_of_not_held (kept := kept) (u := u) fun x hx => h x (.inl hx)
  have hpost := settledQueue_of_not_held (kept := kept) (u := u) fun x hx => h x (.inr hx)
  simp only [settledQueue] at hpre hpost ⊢
  rw [List.map_append, List.map_cons, hpre, hpost]

theorem settledSends_of_split {kept : SlotRef × JobKind → Bool} {u : State} {pre post : List QueueEntry}
    {e : QueueEntry}
    (h : ∀ x, x ∈ pre ∨ x ∈ post → isHeld x = false) :
    settledSends kept u (pre ++ e :: post) = (u.settleEntry (dropWaits kept e)).2 := by
  have hpre := settledSends_of_not_held (kept := kept) (u := u) fun x hx => h x (.inl hx)
  have hpost := settledSends_of_not_held (kept := kept) (u := u) fun x hx => h x (.inr hx)
  simp only [settledSends] at hpre hpost ⊢
  rw [List.flatMap_append, List.flatMap_cons, hpre, hpost]; simp

/-! ### Settling as the statements say it -/

/-- `t` is `u` after its held reads have been settled, with `sent` to memory besides; `u` is `s` with its slots changed,
and with each held read rid of the slots outside `kept`. -/
structure Settles (kept : SlotRef × JobKind → Bool) (sent : List MemOut) (s u t : State) : Prop where
  queues : ∀ i, u.queue i = (s.queue i).map (dropWaits kept)
  keeps : ∀ w, InJob u w → kept w = true
  memOut : u.memOut = s.memOut
  sysOut : u.sysOut = s.sysOut
  other : ∀ o ∈ sent, isOther o = true
  contexts : t.slots.contexts = u.slots.contexts
  path : t.path.queues = u.settleHolds.path.queues
  given : t.sysOut = u.settleHolds.sysOut
  sent : t.memOut = u.settleHolds.memOut ++ sent

section
variable {kept : SlotRef × JobKind → Bool} {sent : List MemOut} {s u t : State}

theorem Settles.queue_eq (h : Settles kept sent s u t) (i : Initiator) :
    t.queue i = (drain (settledQueue kept u (s.queue i))).2 := by
  have : t.queue i = u.settleHolds.queue i := by simp only [State.queue, h.path]
  rw [this, State.queue_settleHolds, h.queues, List.map_map]; rfl

theorem Settles.memOut_eq (h : Settles kept sent s u t) :
    t.memOut = s.memOut ++ (List.finRange 4).flatMap (fun i => settledSends kept u (s.queue i)) ++ sent := by
  rw [h.sent, State.settleHolds, State.giveResponses_memOut, h.memOut]
  simp only [h.queues, List.flatMap_map]; rfl

theorem settledSends_isRead {q : List QueueEntry} {o : MemOut} (h : o ∈ settledSends kept u q) :
    ∃ e ∈ q, o = .read e.req := by
  obtain ⟨e, he, ho⟩ := List.mem_flatMap.mp h
  exact ⟨e, he, by rw [u.settleEntry_sends _ ho, dropWaits_req]⟩

theorem Settles.otherwiseSent_eq (h : Settles kept sent s u t) : otherwiseSent t = otherwiseSent s ++ sent := by
  rw [Machine.otherwiseSent_eq, Machine.otherwiseSent_eq, h.memOut_eq, List.filter_append, List.filter_append,
    List.filter_eq_self.mpr h.other, List.filter_flatMap]
  have : ∀ i, (settledSends kept u (s.queue i)).filter isOther = [] := fun i =>
    List.filter_eq_nil_iff.mpr fun o ho => by
      obtain ⟨e, _, rfl⟩ := settledSends_isRead ho
      simp [isOther]
  simp [this]

theorem Settles.given_eq (h : Settles kept sent s u t) (hq : ∀ i, ∀ e ∈ s.queue i, e.req.initiator = i)
    (i : Initiator) :
    Safety.given t i = Safety.given s i ++ (drain (settledQueue kept u (s.queue i))).1 := by
  refine given_append_drain (fun j => settledQueue kept u (s.queue j)) (fun j e he => ?_) ?_ i
  · obtain ⟨e0, he0, rfl⟩ := List.mem_map.mp he
    simpa using hq j e0 he0
  · rw [h.given, State.settleHolds, State.giveResponses, h.sysOut]
    simp only [State.queue, Fin.getElem_fin, Vector.getElem_ofFn]
    refine congrArg _ (List.flatMap_congr fun j _ => ?_)
    have := h.queues j
    simp only [State.queue, Fin.getElem_fin] at this
    rw [this, List.map_map]; rfl

theorem Settles.readsForwarded_eq (h : Settles kept sent s u t) (hq : ∀ i, ∀ e ∈ s.queue i, e.req.initiator = i)
    (i : Initiator) :
    readsForwarded t i = readsForwarded s i ++ (settledSends kept u (s.queue i)).filterMap (readOf i) := by
  have hsent : sent.filterMap (readOf i) = [] :=
    List.filterMap_eq_nil_iff.mpr fun o ho => readOf_of_isOther (h.other o ho) i
  rw [Machine.readsForwarded_eq, Machine.readsForwarded_eq, h.memOut_eq, List.filterMap_append, List.filterMap_append,
    hsent, List.append_nil, List.filterMap_flatMap]
  refine congrArg _ (flatMap_initiators_single fun j hj => List.filterMap_eq_nil_iff.mpr fun o ho => ?_)
  obtain ⟨e, he, rfl⟩ := settledSends_isRead ho
  simp [readOf, hq j e he, hj]

/-- The slots that hold a read after it has been settled. -/
theorem Settles.left_iff (h : Settles kept sent s u t) (waits : List (SlotRef × JobKind)) (w : SlotRef × JobKind) :
    w ∈ (waits.filter kept).filter u.stillHolds ↔ w ∈ waits ∧ InJob t w := by
  rw [List.mem_filter, List.mem_filter, State.stillHolds_iff, injob_congr h.contexts]
  exact ⟨fun ⟨⟨a, _⟩, b⟩ => ⟨a, b⟩, fun ⟨a, b⟩ => ⟨⟨a, h.keeps w b⟩, b⟩⟩

/-- What a step does to held reads where it changes slots and settles (R25, R28, R29, R30, R143). -/
theorem Settles.heldReadsSettled (h : Settles kept sent s u t) : HeldReadsSettled sent s t := by
  refine ⟨h.otherwiseSent_eq, fun hord i => ?_⟩
  have hown : ∀ i, ∀ e ∈ s.queue i, e.req.initiator = i := fun i => (hord i).1
  obtain ⟨-, -, hone, -, hhead⟩ := hord i
  rw [h.queue_eq i, h.given_eq hown i, h.readsForwarded_eq hown i]
  refine ⟨fun hnone => ?_, fun pre r endsAt places waits post hsplit hslots => ?_⟩
  · rw [settledQueue_of_not_held hnone, settledSends_of_not_held hnone, drain_of_head _ hhead]
    simp
  rw [hsplit] at hone hhead ⊢
  have hrest := not_held_of_split hone rfl
  have hi : r.initiator = i := hown i { req := r, stage := .held endsAt places waits } (by simp [hsplit])
  have hanswer : ∀ p ∈ places, answer t p = answer u p := fun p hp => answer_congr h.contexts (hslots p hp)
  rw [settledQueue_of_split hrest, settledSends_of_split hrest]
  have hleft := h.left_iff waits
  refine ⟨fun ⟨w, hw, hj⟩ => ?_, fun hnone => ?_⟩
  · have hne : ¬((waits.filter kept).filter u.stillHolds).isEmpty := fun hempty => by
      have := (hleft w).mpr ⟨hw, hj⟩
      rw [List.isEmpty_iff.mp hempty] at this
      cases this
    have hentry : u.settleEntry (dropWaits kept { req := r, stage := .held endsAt places waits }) =
        ({ req := r, stage := .held endsAt places ((waits.filter kept).filter u.stillHolds) }, []) := by
      simp only [dropWaits, State.settleEntry, if_neg hne]
    rw [hentry, drain_of_head]
    · exact ⟨⟨_, rfl, hleft⟩, by simp, by simp⟩
    · cases pre with
      | nil => rintro e he reply hr; cases he; cases hr
      | cons a l => exact fun e he => hhead e he
  · have hempty : ((waits.filter kept).filter u.stillHolds).isEmpty = true := by
      rw [List.isEmpty_iff, List.eq_nil_iff_forall_not_mem]
      exact fun w hw => hnone w ((hleft w).mp hw).1 ((hleft w).mp hw).2
    have hentry : u.settleEntry (dropWaits kept { req := r, stage := .held endsAt places waits }) =
        ({ req := r, stage := (u.finishRead r places).1 }, (u.finishRead r places).2) := by
      simp only [dropWaits, State.settleEntry, if_pos hempty]
    rw [hentry]
    refine ⟨fun hall => ?_, fun ⟨p, hp, hn⟩ => ?_⟩
    · have hreply : (places.map fun p => ReadBeat.mk ((answer t p).getD 0#64) .okay) =
          places.map fun p => ReadBeat.mk ((answer u p).getD 0#64) .okay :=
        List.map_congr_left fun p hp => by rw [hanswer p hp]
      rw [State.finishRead_answered fun p hp => by rw [← hanswer p hp]; exact hall p hp, hreply]
      refine ⟨by simp, ?_, fun hne => ?_⟩
      · rintro rfl; exact ⟨rfl, rfl⟩
      · cases pre with
        | nil => exact absurd rfl hne
        | cons a l => rw [drain_of_head]; exacts [⟨rfl, by simp⟩, fun e he => hhead e he]
    · have hstage : places.map (answer t) = places.map (answer u) := List.map_congr_left hanswer
      rw [State.finishRead_forwarded ⟨p, hp, by rw [← hanswer p hp]; exact hn⟩, hstage, drain_of_head]
      · exact ⟨rfl, by simp, by simp [readOf, hi]⟩
      · cases pre with
        | nil => rintro e he reply hr; cases he; cases hr
        | cons a l => exact fun e he => hhead e he

/-- Settling after slots have changed, with nothing else sent before it. -/
theorem heldReadsSettled_of_settleHolds {sent : List MemOut} {s u t : State} (hq : u.path.queues = s.path.queues)
    (hm : u.memOut = s.memOut) (hs : u.sysOut = s.sysOut) (ho : ∀ o ∈ sent, isOther o = true)
    (hc : t.slots.contexts = u.slots.contexts) (tq : t.path.queues = u.settleHolds.path.queues)
    (ts : t.sysOut = u.settleHolds.sysOut) (tm : t.memOut = u.settleHolds.memOut ++ sent) : HeldReadsSettled sent s t :=
  have queues : ∀ i, u.queue i = (s.queue i).map (dropWaits fun _ => true) := fun i => by
    have : dropWaits (fun _ => true) = id := funext dropWaits_all
    rw [this, List.map_id, State.queue, State.queue, hq]
  Settles.heldReadsSettled (u := u) (kept := fun _ => true)
    { queues := queues, keeps := fun _ _ => rfl, memOut := hm, sysOut := hs, other := ho, contexts := hc, path := tq,
      given := ts, sent := tm }

end

end Sys2Proof.Machine
end

