-- ==== Sys2Proof/Proofs/SlotChecks.lean ====
section
/-! SUPPORT. Slot commands as the statements list them: the order of the checks, the command beat, the entry into an end
state, and a request to the NV writer (R7, R9, R11, R90). -/

namespace Sys2Proof.Machine

open Sys2Proof.Safety

/-! ### One slot's context -/

/-- A state whose contexts are those of `s` with slot `r` set. -/
theorem otherSlotsKept_of_setCtx {s t : State} {r : SlotRef} {c : SlotCtx}
    (h : t.slots.contexts = (s.setCtx r c).slots.contexts) : OtherSlotsKept r s t := fun r' hr => by
  rw [State.ctx?_congr h, State.ctx?_setCtx_of_ne s r r' c hr]

theorem ctx?_of_setCtx {s t : State} {r : SlotRef} {c c0 : SlotCtx} (hc : s.ctx? r = some c0)
    (h : t.slots.contexts = (s.setCtx r c).slots.contexts) : t.ctx? r = some c := by
  rw [State.ctx?_congr h, State.ctx?_setCtx_self s r c c0 hc]

/-- No beat changes the inbound words of a slot that is not OPEN (R18). -/
theorem inboundFrozen_of_ctx? {t : State} {r : SlotRef} {c : SlotCtx} (hc : t.ctx? r = some c)
    (hr : t.reloading = false) (hs : c.state ≠ .open') : InboundFrozen r t := fun w b => by
  have hact : t.shadowInbound r w b = t := by simp [State.shadowInbound, hc, hs]
  show Host.Outcome.next (t.slotBeat r _ b fun u => u.shadowInbound r w b) = _
  rw [State.slotBeat_taken r _ b _ t c hc hr, hact]; rfl

/-- No beat changes the payload words of a slot that does not take them (R19). -/
theorem payloadFrozen_of_ctx? {t : State} {r : SlotRef} {c : SlotCtx} (hc : t.ctx? r = some c)
    (hr : t.reloading = false) (hs : payloadOpen c = false) : PayloadFrozen r t := fun w b => by
  have hact : t.shadowPayload r w b = t := by simp [State.shadowPayload, hc, hs]
  show Host.Outcome.next (t.slotBeat r _ b fun u => u.shadowPayload r w b) = _
  rw [State.slotBeat_taken r _ b _ t c hc hr, hact]; rfl

/-! ### The end of a slot's transaction -/

/-- The counters after a slot enters an end state. -/
theorem State.counter_enterEnd (s : State) (r : SlotRef) (c : SlotCtx) (k : Counter) :
    (s.enterEnd r c).counter k =
      if (k = .expired ∧ c.state = .expired) ∨ (k = .faulted ∧ c.state = .faulted) then counted (s.counter k)
      else s.counter k := by
  have hcount : ∀ (n : Counter), (((s.setCtx r c).raise (.slotDone r.group)).bump n 1).counter k =
      if k = n then counted (s.counter k) else s.counter k := fun n => by
    split
    next e => subst e; rw [State.counter_bump_self, saturate_one]; rfl
    next e => rw [State.counter_bump_of_ne _ _ _ _ e]; rfl
  cases hst : c.state with
  | expired => simpa [State.enterEnd, State.countEnd, hst, State.counter] using hcount .expired
  | faulted => simpa [State.enterEnd, State.countEnd, hst, State.counter] using hcount .faulted
  | _ => simp [State.enterEnd, State.countEnd, hst, State.counter]; rfl

/-- The causes after a slot enters an end state: SLOT_DONE of its group is raised (R7). -/
theorem State.causes_enterEnd (s : State) (r : SlotRef) (c : SlotCtx) :
    (s.enterEnd r c).status.causes = (s.raise (.slotDone r.group)).status.causes ∧
    (s.enterEnd r c).status.enables = s.status.enables ∧ (s.enterEnd r c).status.hold = s.status.hold := by
  cases hst : c.state <;> simp only [State.enterEnd, State.countEnd, hst] <;> exact ⟨rfl, rfl, rfl⟩

/-- Slot `r` entered an end state, whatever counters besides its own the event counted. -/
theorem slotEnded_of_enterEnd {s t : State} {r : SlotRef} {c c0 : SlotCtx} (hc : s.ctx? r = some c0)
    (hs : t.slots.contexts = (s.setCtx r c).slots.contexts)
    (hcauses : t.status.causes = (s.enterEnd r c).status.causes)
    (henables : t.status.enables = s.status.enables) (hhold : t.status.hold = s.status.hold)
    (hcount : ∀ k, k = .expired ∨ k = .faulted → t.counter k = (s.enterEnd r c).counter k) : SlotEnded r c s t := by
  have hset : ∀ d, t.causeSet d = (s.raise (.slotDone r.group)).causeSet d := fun d => by
    rw [State.causeSet, State.causeSet, hcauses, (s.causes_enterEnd r c).1]
  refine ⟨ctx?_of_setCtx hc hs, otherSlotsKept_of_setCtx hs, ?_, ⟨fun d hd => ?_, fun d hd => ?_, henables, hhold⟩,
    fun h => ?_, fun h => ?_⟩
  · simp [hset, State.causeSet_raise]
  · have : Cause.slotDone r.group ≠ d := fun e => hd (by simp [e])
    simp [hset, State.causeSet_raise, this]
  · simp [hset, State.causeSet_raise, hd]
  · rw [hcount _ (.inl rfl), State.counter_enterEnd]; simp [h]
  · rw [hcount _ (.inr rfl), State.counter_enterEnd]; simp [h]

/-- Slot `r` entered an end state and nothing else was counted or raised. -/
theorem slotEnded_of_status {s t : State} {r : SlotRef} {c c0 : SlotCtx} (hc : s.ctx? r = some c0)
    (hs : t.slots.contexts = (s.setCtx r c).slots.contexts) (hst : t.status = (s.enterEnd r c).status) :
    SlotEnded r c s t :=
  slotEnded_of_enterEnd hc hs (by rw [hst]) (by rw [hst]; exact (s.causes_enterEnd r c).2.1)
    (by rw [hst]; exact (s.causes_enterEnd r c).2.2) fun k _ => by rw [State.counter, hst]; rfl

/-- Of the counters, the entry into an end state changes that of the state alone. -/
theorem countersKept_of_enterEnd {s t : State} {r : SlotRef} {c : SlotCtx} {l : List Counter}
    (hst : t.status = (s.enterEnd r c).status) (he : c.state = .expired → .expired ∈ l)
    (hf : c.state = .faulted → .faulted ∈ l) : CountersKept l s t := fun k hk => by
  have : t.counter k = (s.enterEnd r c).counter k := by rw [State.counter, hst]; rfl
  rw [this, State.counter_enterEnd, if_neg]
  rintro (⟨rfl, h⟩ | ⟨rfl, h⟩)
  · exact hk (he h)
  · exact hk (hf h)

/-! ### Requests to the NV writer -/

theorem requestKind_eq_one {r : NvRequest} : requestKind r = 1 ↔ ∃ v, r = .epochRecord v := by
  cases r <;> simp [requestKind]

/-- An epoch record takes the place of the one that waits (R91). -/
theorem enqueueRequest_epoch {v : BitVec 16} {l : List NvRequest} (h : ∃ u, .epochRecord u ∈ l) :
    enqueueRequest (.epochRecord v) l = l.map fun x =>
      match x with
      | .epochRecord _ => .epochRecord v
      | x => x := by
  obtain ⟨u, hu⟩ := h
  have : l.any (fun x => requestKind x == 1) = true :=
    List.any_eq_true.mpr ⟨_, hu, by simp [requestKind]⟩
  simp only [enqueueRequest, this, if_true]
  exact List.map_congr_left fun x _ => by cases x <;> simp [requestKind]

/-- Any other request joins the tail (R90). -/
theorem enqueueRequest_tail {r : NvRequest} {l : List NvRequest}
    (h : (∀ v, r ≠ .epochRecord v) ∨ ∀ u, .epochRecord u ∉ l) :
    enqueueRequest r l = l ++ [r] := by
  cases r with
  | epochRecord v =>
    have hl : ∀ u, NvRequest.epochRecord u ∉ l := h.resolve_left fun h => h v rfl
    have : l.any (fun x => requestKind x == 1) = false := List.any_eq_false.mpr fun x hx => by
      cases x with
      | epochRecord u => exact absurd hx (hl u)
      | _ => simp [requestKind]
    simp [enqueueRequest, this]
  | _ => rfl

/-- A request handed to the NV writer outside a zeroization (R90, R91, R94). -/
theorem requestReached_of_take {s t : State} {r : NvRequest} (hz : s.zeroing = true → t.writer = s.writer)
    (hw : s.zeroing = false → t.writer = s.writer.take r) : RequestReached r s t := by
  have hzero : s.zeroing = true ↔ s.life.cycle = .zeroizing ∨ s.life.cycle = .zeroized := by simp [State.zeroing]
  refine ⟨fun h => hz (hzero.mpr h), fun h1 h2 => ?_⟩
  have hw := hw (Bool.eq_false_iff.mpr fun h => (hzero.mp h).elim h1 h2)
  refine ⟨fun hrun => by rw [hw, NvWriter.take, hrun], fun hrun => ?_⟩
  obtain ⟨op, hop⟩ := Option.ne_none_iff_exists'.mp hrun
  simp only [NvWriter.take, hop] at hw
  refine ⟨fun v hr hu => ?_, fun h => ?_⟩
  · have hlist := enqueueRequest_epoch (v := v) hu
    simp only [hw, hr, hlist, hop] <;> rfl
  · simp only [hw, enqueueRequest_tail h, hop]

theorem requestReached_of_nvRequest {s t u : State} {r : NvRequest} (hw : t.writer = (u.nvRequest r).writer)
    (hu : u.writer = s.writer) (hz : u.zeroing = s.zeroing) : RequestReached r s t :=
  requestReached_of_take (fun h => by simp [hw, State.nvRequest, hz, h, hu])
    fun h => by simp [hw, State.nvRequest, hz, h, hu]

/-! ### The checks of a slot command -/

/-- A row that is a slot command word is one taken beat. -/
theorem exec_slotRow {row : Instr} {i : Initiator} {r : SlotRef} {cw : CommandWord} {cmd : SlotCmd} {upper : BitVec 56}
    (h : slotRow row = some (i, r, cw, cmd, upper)) (s : State) :
    exec row s = .next (s.slotCommandBeat i r cw cmd upper) := by
  cases row <;> simp only [slotRow, reduceCtorEq, Option.some.injEq, Prod.mk.injEq] at h
  all_goals
    obtain ⟨rfl, rfl, rfl, rfl, rfl⟩ := h
    rfl

theorem acceptedFrom_iff (cmd : SlotCmd) (st : SlotState) : acceptedFrom cmd st = true ↔ st ∈ statesOf cmd := by
  cases cmd <;> simp [acceptedFrom, isEndState, statesOf, or_assoc]

theorem hasSlotRight_eq (d : Descriptor) (cmd : SlotCmd) (i : Initiator) :
    hasSlotRight d cmd i = (commandMask d cmd).getLsbD i.val := by
  cases cmd <;> rfl

/-- The further checks of OPEN, as R11 lists them. -/
theorem State.openRefusal_eq (s : State) :
    s.openRefusal =
      if s.life.cycle ∉ [.personalized, .field] ∨ s.life.reader = 0#16 then some .noService
      else if s.slots.exhausted = true then some .exhausted
      else if s.slots.counter = s.slots.ceiling then some .challengeWait
      else none := by
  have : (!s.inService) = true ↔ s.life.cycle ∉ [.personalized, .field] ∨ s.life.reader = 0#16 := by
    simp only [State.inService, Bool.not_eq_true', Bool.and_eq_false_iff, Bool.or_eq_false_iff, beq_eq_false_iff_ne,
      bne_eq_false_iff_eq, List.mem_cons, List.not_mem_nil, or_false, not_or]
  simp only [State.openRefusal, this]

/-- The model's checks are those of R9 and R11 in their order. -/
theorem State.slotRefusal_eq (s : State) (i : Initiator) (r : SlotRef) (cmd : SlotCmd) (upper : BitVec 56)
    (c : SlotCtx) :
    s.slotRefusal i r (some cmd) upper c = slotCheck s i r cmd upper c := by
  have hmask : (!hasSlotRight (s.groupOf r) cmd i) = true ↔
      (commandMask (s.descriptor r.group) cmd).getLsbD i.val = false := by
    rw [hasSlotRight_eq, Bool.not_eq_true']; rfl
  have hstate : (!acceptedFrom cmd c.state) = true ↔ c.state ∉ statesOf cmd := by
    rw [Bool.not_eq_true', ← Bool.not_eq_true, acceptedFrom_iff]
  have hstale : (cmd != .open' && upper.extractLsb' 0 8 != c.generation) = true ↔
      cmd ≠ .open' ∧ upper.extractLsb' 0 8 ≠ c.generation := by simp
  simp only [State.slotRefusal, slotCheck, hmask, hstate, hstale, bne_iff_ne]
  by_cases ho : cmd = .open'
  · subst ho; simp only [beq_self_eq_true, if_true, ne_eq, not_true_eq_false, if_false, s.openRefusal_eq]
  · simp [ho]

section
variable {s : State} {i : Initiator} {r : SlotRef} {cw : CommandWord} {cmd : SlotCmd} {upper : BitVec 56} {c : SlotCtx}

/-- A command word whose command fails a check: it is refused, and the word goes to memory (R8, R9). -/
theorem slotCommandBeat_refused (hc : s.ctx? r = some c) (hr : s.reloading = false) {res : SlotResult}
    (h : slotCheck s i r cmd upper c = some res) :
    s.slotCommandBeat i r cw cmd upper =
      { s.refuseSlot res r c with memOut := (s.refuseSlot res r c).memOut ++ [commandBeat s r cw cmd upper] } := by
  have hact : s.takeSlotCommand i r (some cmd) upper = s.refuseSlot res r c := by
    simp only [State.takeSlotCommand, hc, s.slotRefusal_eq, h]
  rw [State.slotCommandBeat, State.slotBeat_taken r _ _ _ s c hc hr, hact]; rfl

/-- A command word whose command passes the checks: it is carried out, and the word goes to memory (R8, R9). -/
theorem slotCommandBeat_carried (hc : s.ctx? r = some c) (hr : s.reloading = false)
    (h : slotCheck s i r cmd upper c = none) :
    s.slotCommandBeat i r cw cmd upper =
      { s.carrySlot cmd r c with memOut := (s.carrySlot cmd r c).memOut ++ [commandBeat s r cw cmd upper] } := by
  have hact : s.takeSlotCommand i r (some cmd) upper = s.carrySlot cmd r c := by
    simp only [State.takeSlotCommand, hc, s.slotRefusal_eq, h]
  rw [State.slotCommandBeat, State.slotBeat_taken r _ _ _ s c hc hr, hact]; rfl

/-- A command other than OPEN with the slot's own generation: the mask decides, then the state (R9). -/
theorem slotCheck_of_generation (hh : s.status.hold = false) (ho : cmd ≠ .open') :
    slotCheck s i r cmd (0#48 ++ c.generation) c =
      if (commandMask (s.descriptor r.group) cmd).getLsbD i.val = false then some .notPermitted
      else if c.state ∉ statesOf cmd then some .wrongState
      else none := by
  simp [slotCheck, hh, ho]

/-- A check that fails with another code than CHALLENGE_WAIT refuses the command and does no more (R8, R9). -/
theorem slotRefused_of_check {row : Instr} (hrow : slotRow row = some (i, r, cw, cmd, upper)) (hc : s.ctx? r = some c)
    (hr : s.reloading = false) {res : SlotResult} (h : slotCheck s i r cmd upper c = some res)
      (hres : res ≠ .challengeWait) :
    SlotRefused row r c res (commandBeat s r cw cmd upper) s := by
  have href : s.refuseSlot res r c = s.setCtx r { c with lastResult := res } := by simp [State.refuseSlot, hres]
  have hcontexts : (s.slotCommandBeat i r cw cmd upper).slots.contexts =
      (s.setCtx r { c with lastResult := res }).slots.contexts := by rw [slotCommandBeat_refused hc hr h, href]
  refine ⟨_, exec_slotRow hrow s, ctx?_of_setCtx hc hcontexts, otherSlotsKept_of_setCtx hcontexts, ?_⟩
  rw [slotCommandBeat_refused hc hr h, href]; rfl

/-- Without its mask a command other than OPEN, with the slot's generation, is NOT_PERMITTED (R9). -/
theorem slotRefused_notPermitted {row : Instr} (hrow : slotRow row = some (i, r, cw, cmd, 0#48 ++ c.generation))
    (hc : s.ctx? r = some c) (hr : s.reloading = false) (hh : s.status.hold = false) (ho : cmd ≠ .open')
    (hm : (commandMask (s.descriptor r.group) cmd).getLsbD i.val = false) :
    SlotRefused row r c .notPermitted (commandBeat s r cw cmd (0#48 ++ c.generation)) s :=
  slotRefused_of_check hrow hc hr (by rw [slotCheck_of_generation hh ho, if_pos hm]) (by simp)

/-- With its mask and in another state than those it is accepted from, it is WRONG_STATE (R9). -/
theorem slotRefused_wrongState {row : Instr} (hrow : slotRow row = some (i, r, cw, cmd, 0#48 ++ c.generation))
    (hc : s.ctx? r = some c) (hr : s.reloading = false) (hh : s.status.hold = false) (ho : cmd ≠ .open')
    (hm : (commandMask (s.descriptor r.group) cmd).getLsbD i.val = true) (hs : c.state ∉ statesOf cmd) :
    SlotRefused row r c .wrongState (commandBeat s r cw cmd (0#48 ++ c.generation)) s :=
  slotRefused_of_check hrow hc hr (by rw [slotCheck_of_generation hh ho, if_neg (by simp [hm]), if_pos hs]) (by simp)

/-- With its mask and in a state it is accepted from, it is carried out (R9). -/
theorem exec_slotRow_carried {row : Instr} (hrow : slotRow row = some (i, r, cw, cmd, 0#48 ++ c.generation))
    (hc : s.ctx? r = some c) (hr : s.reloading = false) (hh : s.status.hold = false) (ho : cmd ≠ .open')
    (hm : (commandMask (s.descriptor r.group) cmd).getLsbD i.val = true) (hs : c.state ∈ statesOf cmd) :
    exec row s = .next { s.carrySlot cmd r c with
      memOut := (s.carrySlot cmd r c).memOut ++ [commandBeat s r cw cmd (0#48 ++ c.generation)] } := by
  rw [exec_slotRow hrow, slotCommandBeat_carried hc hr]
  rw [slotCheck_of_generation hh ho, if_neg (by simp [hm]), if_neg (by simpa using hs)]

end

end Sys2Proof.Machine
end

