-- ==== Sys2Proof/Proofs/SlotCommands.lean ====
section
/-! SUPPORT. The slot commands OPEN, ARM, SEAL, RELEASE and ABORT and their checks: O16, O11, O12, O13, O14 and O15. -/

namespace Sys2Proof.Machine

open Sys2Proof.Safety

/-- What is left of the engine FIFO when a slot leaves it, as the statements write it. -/
theorem filter_ne_eq (l : List SlotRef) (r : SlotRef) : (l.filter fun x => x ≠ r) = l.filter fun x => x != r :=
  List.filter_congr fun x _ => by simp [bne, ← Bool.beq_eq_decide_eq]

/-! ### Asking for a reservation -/

theorem State.mayReserve_iff (s : State) :
    s.mayReserve = true ↔ s.slots.reservationPending = false ∧ s.slots.ceiling < 2 ^ 48 ∧ s.zeroing = false := by
  simp only [State.mayReserve, Bool.and_eq_true, Bool.not_eq_true', decide_eq_true_eq, and_assoc]; rfl

/-- A reservation asked for where none is pending, below the end of the counter (R34, R35). -/
theorem reserveWhen_mayReserve {s u : State} (go : Bool) (hw : u.writer = s.writer)
    (hp : u.slots.reservationPending = s.slots.reservationPending) (hc : u.slots.ceiling = s.slots.ceiling)
    (hgo : go = true → s.slots.reservationPending = false ∧ s.slots.ceiling < 2 ^ 48 ∧ s.zeroing = false) :
    (go = true → (u.reserveWhen go).slots.reservationPending = true ∧
      RequestReached (.reservation (s.slots.ceiling + 4096)) s (u.reserveWhen go)) ∧
    (go = false → (u.reserveWhen go).slots.reservationPending = s.slots.reservationPending ∧
      (u.reserveWhen go).writer = s.writer) := by
  refine ⟨fun h => ⟨by simp [State.reserveWhen, h], ?_⟩, fun h => ⟨by simp [State.reserveWhen, h, hp], ?_⟩⟩
  · obtain ⟨-, -, hz⟩ := hgo h
    refine requestReached_of_take (fun hz' => by simp [hz] at hz') fun _ => ?_
    simp only [State.reserveWhen, h, if_true, hw, hc]; rfl
  · simp [State.reserveWhen, h, hw]

/-- The state is in PERSONALIZED or FIELD where OPEN comes as far as the counter (R11). -/
theorem zeroing_of_challengeWait {s : State} {i : Initiator} {r : SlotRef} {cmd : SlotCmd} {upper : BitVec 56}
    {c : SlotCtx}
    (h : slotCheck s i r cmd upper c = some .challengeWait) : s.zeroing = false := by
  have hcycle : s.life.cycle ∈ [LifeCycle.personalized, .field] := by
    by_contra hn
    simp only [slotCheck, hn, not_false_eq_true, true_or, if_true] at h
    repeat' split at h
    all_goals simp at h
  rcases List.mem_cons.mp hcycle with e | e
  · simp [State.zeroing, e]
  · rw [List.mem_singleton] at e; simp [State.zeroing, e]

/-- What a refused slot command changes (R9, R35). -/
theorem refuseSlot_frame (s : State) (res : SlotResult) (r : SlotRef) (c : SlotCtx) :
    (s.refuseSlot res r c).slots.contexts = (s.setCtx r { c with lastResult := res }).slots.contexts ∧
    (s.refuseSlot res r c).slots = { s.slots with
      contexts := (s.refuseSlot res r c).slots.contexts
      reservationPending := (s.refuseSlot res r c).slots.reservationPending } ∧
    s.refuseSlot res r c =
      { s with slots := (s.refuseSlot res r c).slots, writer := (s.refuseSlot res r c).writer } := by
  simp only [State.refuseSlot]
  split <;> exact ⟨rfl, rfl, rfl⟩

/-- Raising CHALLENGE_LOW where its condition came true, and nothing else in the Status Unit (R185). -/
theorem raisedLow_of_status {s t u : State} {was : Bool} (hu : u.status = s.status)
    (ht : t.status = (u.raiseLow was).status) :
    OnlyRaised [.challengeLow] s t ∧ CountersKept [] s t ∧
      (t.causeSet .challengeLow = true ↔ s.causeSet .challengeLow = true ∨ (was = false ∧ u.challengeLow = true)) := by
  have hset : ∀ c, t.causeSet c = (s.causeSet c || (!was && u.challengeLow && decide (Cause.challengeLow = c))) :=
    fun c => by
      have : t.causeSet c = (u.raiseLow was).causeSet c := by simp only [State.causeSet, ht]
      rw [this, State.causeSet_raiseLow]; simp only [State.causeSet, hu]
  have hrest : (u.raiseLow was).status.counters = s.status.counters ∧
      (u.raiseLow was).status.enables = s.status.enables ∧ (u.raiseLow was).status.hold = s.status.hold := by
    simp only [State.raiseLow]; split <;> simp [State.raise, hu]
  obtain ⟨hcounters, henables, hhold⟩ := hrest
  refine ⟨⟨fun c hc => ?_, fun c hc => ?_, by rw [ht, henables], by rw [ht, hhold]⟩,
    countersKept_of_same s t [] (by rw [ht, hcounters]), ?_⟩
  · have : Cause.challengeLow ≠ c := fun e => hc (by simp [e])
    simp [hset, this]
  · simp [hset, hc]
  · simp [hset]

end Sys2Proof.Machine

namespace Sys2Proof.Proofs

open Sys2Proof.Machine Sys2Proof.Safety

/-- Settles O16: the model's checks are those of the statement in their order (`slotRefusal_eq`), and of the refusals
CHALLENGE_WAIT alone does more, asking for a reservation. -/
theorem slotCommandChecksInOrder : Obligations.SlotCommandChecksInOrder := by
  intro row i r cw cmd upper s c res hrow hc hr hcheck
  obtain ⟨hcontexts, hslots, hframe⟩ := refuseSlot_frame s res r c
  rw [exec_slotRow hrow, slotCommandBeat_refused hc hr hcheck]
  refine ⟨_, rfl, ctx?_of_setCtx hc hcontexts, otherSlotsKept_of_setCtx hcontexts, fun hres => ?_, fun hres => ?_, ?_⟩
  · simp only [State.refuseSlot, hres, if_false]; exact ⟨rfl, rfl⟩
  · subst hres
    have hask := reserveWhen_mayReserve (s := s) (u := s.setCtx r { c with lastResult := .challengeWait })
      s.mayReserve rfl rfl rfl s.mayReserve_iff.mp
    refine ⟨hslots, fun hp hlt => hask.1 (s.mayReserve_iff.mpr ⟨hp, hlt, zeroing_of_challengeWait hcheck⟩),
      fun h => hask.2 (Bool.eq_false_iff.mpr fun hm => ?_)⟩
    obtain ⟨hp, hlt, -⟩ := s.mayReserve_iff.mp hm
    rcases h with h | h
    · simp [hp] at h
    · omega
  · rw [hframe]

/-- Settles O11: an OPEN that passes the checks issues a challenge (`carryOpen`), and then compares what is left. -/
theorem openIssuesChallenge : Obligations.OpenIssuesChallenge := by
  intro i r cw g s c hc hr hh hm hst hcycle hreader hex hlt
  have hcheck : slotCheck s i r .open' (0#48 ++ g) c = none := by
    have hne : s.slots.counter ≠ s.slots.ceiling := by omega
    simp [slotCheck, hh, commandMask, hm, hst, statesOf, hcycle, hreader, hex, hne]
  have hz : s.zeroing = false := by rcases hcycle with h | h <;> simp [State.zeroing, h]
  rw [exec_slotRow (row := .openSlot i r cw (0#48 ++ g)) rfl, slotCommandBeat_carried hc hr hcheck]
  have hcontexts := s.carryOpen_contexts r c
  have hask := reserveWhen_mayReserve (s := s) (u := (s.setCtx r (openedCtx s r c)).issueChallenge)
    (decide (s.slots.ceiling - (s.slots.counter + 1) ≤ 1024) && s.mayReserve) rfl rfl rfl fun h =>
      s.mayReserve_iff.mp (by simp only [Bool.and_eq_true] at h; exact h.2)
  have hlow := raisedLow_of_status (s := s) (t := s.carryOpen r c)
    (u := (s.setCtx r (openedCtx s r c)).issueChallenge.reserveIfLow) (was := s.challengeLow) rfl rfl
  refine ⟨_, rfl, ctx?_of_setCtx hc hcontexts, otherSlotsKept_of_setCtx hcontexts, rfl, rfl, ?_, ?_, hlow.1, hlow.2.1,
    hlow.2.2, ?_⟩
  · show (s.slots.exhausted || decide (s.slots.counter = 2 ^ 48 - 1)) = true ↔ _
    simp [hex]
  · split
    next h =>
      refine hask.1 ?_
      rw [Bool.and_eq_true, decide_eq_true_iff, s.mayReserve_iff]
      exact ⟨h.1, h.2.1, h.2.2, hz⟩
    next h =>
      refine hask.2 (Bool.eq_false_iff.mpr fun hgo => h ?_)
      rw [Bool.and_eq_true, decide_eq_true_iff, s.mayReserve_iff] at hgo
      exact ⟨hgo.1, hgo.2.1, hgo.2.2.1⟩
  · rfl

/-- Settles O12. -/
theorem armQueuesOrFaults : Obligations.ArmQueuesOrFaults := by
  intro i r cw s c hc hr hh row out fill good
  have hrow : slotRow row = some (i, r, cw, .arm, 0#48 ++ c.generation) := rfl
  have hgood : inboundValid c = true ↔ good := by
    simp only [inboundValid, Bool.and_eq_true, beq_iff_eq, decide_eq_true_eq, and_assoc]; rfl
  refine ⟨fun hm => slotRefused_notPermitted hrow hc hr hh (by simp) hm,
    fun hm hst => slotRefused_wrongState hrow hc hr hh (by simp) hm (by simpa [statesOf] using hst),
    fun hm hst hg => ?_, fun hm hst hg => ?_⟩
  · rw [exec_slotRow_carried hrow hc hr hh (by simp) hm (by simp [statesOf, hst])]
    have hcarry : s.carrySlot .arm r c =
        (s.setCtx r { c with lastResult := .ok, state := .queued, jobKind := some .verify }).joinFifo r := by
      simp [State.carrySlot, State.carryArm, hgood.mpr hg]
    rw [hcarry]
    have hctx := ctx?_of_setCtx (t :=
      (s.setCtx r { c with lastResult := .ok, state := .queued, jobKind := some .verify }).joinFifo r) hc rfl
    exact ⟨_, rfl, hctx, otherSlotsKept_of_setCtx rfl, inboundFrozen_of_ctx? hctx hr (by simp), rfl⟩
  · rw [exec_slotRow_carried hrow hc hr hh (by simp) hm (by simp [statesOf, hst])]
    have hcarry : s.carrySlot .arm r c = s.enterEnd r (faultCtx .badInbound { c with lastResult := .ok }) := by
      simp [State.carrySlot, State.carryArm, mt hgood.mp hg]
    rw [hcarry]
    have hend : SlotEnded r _ s (s.enterEnd r (faultCtx .badInbound { c with lastResult := .ok })) :=
      slotEnded_of_status hc rfl rfl
    have hcount : CountersKept [.faulted] s (s.enterEnd r (faultCtx .badInbound { c with lastResult := .ok })) :=
      countersKept_of_enterEnd rfl (by simp [faultCtx]) (by simp)
    exact ⟨_, rfl, hend, hcount, inboundFrozen_of_ctx? hend.1 hr (by simp [faultCtx]), rfl⟩

/-- Settles O13. -/
theorem sealQueuesVerifiedSlot : Obligations.SealQueuesVerifiedSlot := by
  intro i r cw s c hc hr hh row out manage
  have hrow : slotRow row = some (i, r, cw, .sealing, 0#48 ++ c.generation) := rfl
  refine ⟨fun hm => slotRefused_notPermitted hrow hc hr hh (by simp) hm,
    fun hm hst => slotRefused_wrongState hrow hc hr hh (by simp) hm (by simpa [statesOf] using hst), fun hm hst => ?_⟩
  rw [exec_slotRow_carried hrow hc hr hh (by simp) hm (by simp [statesOf, hst])]
  have hctx : (s.carrySlot .sealing r c).ctx? r = _ := ctx?_of_setCtx hc rfl
  exact ⟨_, _, rfl, hctx, rfl, rfl, otherSlotsKept_of_setCtx rfl,
    payloadFrozen_of_ctx? hctx hr (by simp [payloadOpen]), rfl⟩

/-- What RELEASE, or ABORT from where it acts as RELEASE, does (R15, R16). -/
theorem releasedSlot {row : Instr} {out : MemOut} {s : State} {r : SlotRef} {c : SlotCtx} (hc : s.ctx? r = some c)
    (hrow : exec row s = .next { s.carryRelease r c with memOut := s.memOut ++ [out] }) :
    ∃ t, exec row s = .next t ∧ t.ctx? r = some (releasedCtx c) ∧ OtherSlotsKept r s t ∧
      t = { s with slots := { s.slots with contexts := t.slots.contexts }, memOut := s.memOut ++ [out] } :=
  ⟨_, hrow, ctx?_of_setCtx hc rfl, otherSlotsKept_of_setCtx rfl, rfl⟩

/-- Settles O14. -/
theorem releaseFreesEndedSlot : Obligations.ReleaseFreesEndedSlot := by
  intro i r cw s c hc hr hh row out manage ended
  have hrow : slotRow row = some (i, r, cw, .release, 0#48 ++ c.generation) := rfl
  have hended : c.state ∈ statesOf .release ↔ ended := by simp [statesOf, ended]
  refine ⟨fun hm => slotRefused_notPermitted hrow hc hr hh (by simp) hm,
    fun hm hst => slotRefused_wrongState hrow hc hr hh (by simp) hm (mt hended.mp hst), fun hm hst => ?_⟩
  exact releasedSlot hc (exec_slotRow_carried hrow hc hr hh (by simp) hm (hended.mpr hst))

/-- Settles O15, by the state that the ABORT finds. -/
theorem abortStopsTransaction : Obligations.AbortStopsTransaction := by
  intro i r cw s c hc hr hh row out manage
  have hrow : slotRow row = some (i, r, cw, .abort, 0#48 ++ c.generation) := rfl
  have carried := fun hm => exec_slotRow_carried hrow hc hr hh (by simp) hm
  refine ⟨fun hm => slotRefused_notPermitted hrow hc hr hh (by simp) hm,
    fun hm hst => slotRefused_wrongState hrow hc hr hh (by simp) hm (by rcases hst with h | h <;> simp [statesOf, h]),
    fun hm hst => ?_, fun hm hst => ?_, fun hm hst => ?_⟩
  · have hcarry : s.carrySlot .abort r c = ((s.carryRelease r c).leaveFifo r).settleHolds := by
      have : c.state ≠ .busy := by rcases hst with h | h <;> simp [h]
      simp only [State.carrySlot, State.carryAbort, this, if_false, hst, if_true]
    rw [carried hm (by rcases hst with h | h <;> simp [statesOf, h]), hcarry]
    have hctx : ((s.carryRelease r c).leaveFifo r).ctx? r = some (releasedCtx c) := ctx?_of_setCtx hc rfl
    have hnone := State.noReadHeldFor_settleHolds ((s.carryRelease r c).leaveFifo r) r _ hctx (by rfl)
    have hheld : HeldReadsSettled [out] s { ((s.carryRelease r c).leaveFifo r).settleHolds with
        memOut := ((s.carryRelease r c).leaveFifo r).settleHolds.memOut ++ [out] } :=
      heldReadsSettled_of_settleHolds (u := (s.carryRelease r c).leaveFifo r) rfl rfl rfl
        (by rintro o ho; rw [List.mem_singleton] at ho; subst ho; rfl) rfl rfl rfl rfl
    exact ⟨_, rfl, hctx, otherSlotsKept_of_setCtx rfl, hnone, hheld, rfl, by simp [out], by rw [filter_ne_eq]; rfl⟩
  · have hcarry : s.carrySlot .abort r c = s.setCtx r { c with lastResult := .ok, state := .aborting } := by
      simp only [State.carrySlot, State.carryAbort, hst, if_true]
    rw [carried hm (by simp [statesOf, hst]), hcarry]
    exact ⟨_, rfl, ctx?_of_setCtx hc rfl, otherSlotsKept_of_setCtx rfl, rfl⟩
  · have hne : c.state ≠ .busy ∧ ¬(c.state = .open' ∨ c.state = .queued) := by
      refine ⟨fun e => ?_, fun e => ?_⟩
      · simp [e] at hst
      · rcases e with e | e <;> simp [e] at hst
    have hcarry : s.carrySlot .abort r c = s.carryRelease r c := by
      simp only [State.carrySlot, State.carryAbort, hne.1, hne.2, if_false]
    refine releasedSlot hc ?_
    rw [carried hm (by simp only [statesOf, List.mem_cons] at hst ⊢; tauto), hcarry]; rfl

end Sys2Proof.Proofs
end

