-- ==== Sys2Proof/Proofs/ShadowsAndDeadline.lean ====
section
/-! SUPPORT. The shadows and the deadline of a slot: O17 and O18. -/

namespace Sys2Proof.Machine

open Sys2Proof.Safety

/-! ### Shadows (R18, R19) -/

/-- Four shadow words after a beat to word `w` that is taken or not. -/
def shadowed (taken : Bool) (v : Vector Word 4) (w : Fin 4) (b : WriteBeat) : Vector Word 4 :=
  if taken then v.set w.val (mergeBytes v[w] b.data b.strobes) w.isLt else v

theorem shadowed_of_ne (taken : Bool) (v : Vector Word 4) {w w' : Fin 4} (b : WriteBeat) (h : w' ≠ w) :
    (shadowed taken v w b)[w'] = v[w'] := by
  have : w.val ≠ w'.val := fun e => h (Fin.ext e.symm)
  cases taken <;> simp [shadowed, this]

theorem byteOf_shadowed (taken : Bool) (v : Vector Word 4) (w : Fin 4) (b : WriteBeat) (k : Fin 8) :
    byteOf (shadowed taken v w b)[w] k.val =
      if taken = true ∧ b.strobes.getLsbD k.val = true then byteOf b.data k.val else byteOf v[w] k.val := by
  cases taken <;> simp [shadowed, byteOf_mergeBytes]

/-- A state in which slot `r` has its context with the shadows after a beat: the slot's own where the beat is not
taken. -/
theorem ctx?_of_shadow {s t : State} {r : SlotRef} {c c' : SlotCtx} {taken : Bool} (hc : s.ctx? r = some c)
    (ht : t = if taken then s.setCtx r c' else s) (hkeep : taken = false → c' = c) :
    t.ctx? r = some c' ∧ OtherSlotsKept r s t := by
  cases taken with
  | true => rw [ht, if_pos rfl]; exact ⟨ctx?_of_setCtx hc rfl, otherSlotsKept_of_setCtx rfl⟩
  | false => rw [ht, hkeep rfl]; exact ⟨hc, fun _ _ => rfl⟩

theorem State.shadowInbound_eq {s : State} {r : SlotRef} {c : SlotCtx} (hc : s.ctx? r = some c) (w : Fin 4)
    (b : WriteBeat) :
    s.shadowInbound r w b = if (c.state == .open') = true then
      s.setCtx r { c with inbound := shadowed (c.state == .open') c.inbound w b } else s := by
  simp only [State.shadowInbound, hc, shadowed]
  split
  next h => simp [h]
  next h => simp [h]

theorem State.shadowPayload_eq {s : State} {r : SlotRef} {c : SlotCtx} (hc : s.ctx? r = some c) (w : Fin 4)
    (b : WriteBeat) :
    s.shadowPayload r w b = if payloadOpen c = true then
      s.setCtx r { c with payload := shadowed (payloadOpen c) c.payload w b } else s := by
  simp only [State.shadowPayload, hc, shadowed]
  split
  next h => simp
  next h => simp

theorem payloadOpen_iff (c : SlotCtx) :
    payloadOpen c = true ↔ c.state = .open' ∨ c.state = .verified ∨
      ((c.state = .queued ∨ c.state = .busy) ∧ c.jobKind = some .verify) := by
  simp only [payloadOpen, Bool.or_eq_true, Bool.and_eq_true, beq_iff_eq, or_assoc]

/-! ### The deadline (R21) -/

theorem deadlineExpires_iff (c : SlotCtx) :
    deadlineExpires c = true ↔ c.state = .open' ∨ (c.state = .queued ∧ c.jobKind = some .verify) := by
  simp [deadlineExpires]

theorem deadlineLate_iff (c : SlotCtx) :
    deadlineLate c = true ↔ c.state = .busy ∨ c.state = .verified ∨
      (c.state = .queued ∧ c.jobKind = some .sealing) := by
  simp [deadlineLate, or_assoc]

/-- A slot whose deadline LT is the current one meets its deadline at this row (R21). -/
theorem exec_deadlineReached {s : State} {r : SlotRef} {c : SlotCtx} (hc : s.ctx? r = some c)
    (hd : c.deadline = some s.time.lt) : exec (.deadlineReached r) s = .next (s.deadline r c) := by
  show execDeadlineReached r s = _
  simp [execDeadlineReached, hc, hd]

end Sys2Proof.Machine

namespace Sys2Proof.Proofs

open Sys2Proof.Machine Sys2Proof.Safety

/-- Settles O17. -/
theorem shadowsTakeStrobedBytes : Obligations.ShadowsTakeStrobedBytes := by
  intro r w b s c hc hr
  have hin := ctx?_of_shadow (t := s.shadowInbound r w b) hc (s.shadowInbound_eq hc w b) fun h => by simp [shadowed, h]
  have hpay := ctx?_of_shadow (t := s.shadowPayload r w b) hc (s.shadowPayload_eq hc w b) fun h => by simp [shadowed, h]
  have ein : exec (.inboundShadowWrite r w b) s =
      .next ((s.shadowInbound r w b).forwardBeat (s.slotAddr r (0x20 + 8 * w.val)) b) :=
    congrArg Host.Outcome.next (State.slotBeat_taken r _ b _ s c hc hr)
  have epay : exec (.payloadShadowWrite r w b) s =
      .next ((s.shadowPayload r w b).forwardBeat (s.slotAddr r (0x48 + 8 * w.val)) b) :=
    congrArg Host.Outcome.next (State.slotBeat_taken r _ b _ s c hc hr)
  refine ⟨⟨_, ein, hin.2, ⟨_, hin.1, fun w' => shadowed_of_ne _ _ _, fun k => ?_⟩, ?_⟩,
    ⟨_, epay, hpay.2, ⟨_, hpay.1, fun w' => shadowed_of_ne _ _ _, fun k => ?_⟩, ?_⟩⟩
  · simp only [byteOf_shadowed, beq_iff_eq]
  · simp only [s.shadowInbound_eq hc]; split <;> rfl
  · simp only [byteOf_shadowed, payloadOpen_iff]
  · simp only [s.shadowPayload_eq hc]; split <;> rfl

/-- Settles O18, by what the deadline finds the slot doing. -/
theorem deadlineExpiresOrMarksLate : Obligations.DeadlineExpiresOrMarksLate := by
  intro r s c hc hd
  rw [exec_deadlineReached hc hd]
  refine ⟨fun hst => ?_, fun hst hlate => ?_, fun hst => ?_⟩
  · rw [State.deadline, if_pos ((deadlineExpires_iff c).mpr hst)]
    have hctx : ((s.enterEnd r { c with state := .expired, jobKind := none }).leaveFifo r).ctx? r =
        some { c with state := .expired, jobKind := none } := ctx?_of_setCtx hc rfl
    have hend : SlotEnded r { c with state := .expired, jobKind := none } s
        ((s.enterEnd r { c with state := .expired, jobKind := none }).leaveFifo r).settleHolds :=
      slotEnded_of_status hc rfl rfl
    have hcount : CountersKept [.expired] s
        ((s.enterEnd r { c with state := .expired, jobKind := none }).leaveFifo r).settleHolds :=
      countersKept_of_enterEnd (c := { c with state := .expired, jobKind := none }) rfl (by simp) (by simp)
    have hheld : HeldReadsSettled [] s
        ((s.enterEnd r { c with state := .expired, jobKind := none }).leaveFifo r).settleHolds :=
      heldReadsSettled_of_settleHolds (u := (s.enterEnd r { c with state := .expired, jobKind := none }).leaveFifo r)
        rfl rfl rfl (by simp) rfl rfl rfl (List.append_nil _).symm
    exact ⟨_, rfl, hend, hcount, State.noReadHeldFor_settleHolds _ r _ hctx rfl, hheld, rfl,
      by rw [filter_ne_eq]; rfl⟩
  · have hexp : ¬deadlineExpires c = true := by
      rw [deadlineExpires_iff]
      rcases hst with h | h | ⟨h, hk⟩ <;> simp [*]
    have hlate : (deadlineLate c && !c.late) = true := by simp [(deadlineLate_iff c).mpr hst, hlate]
    rw [State.deadline, if_neg hexp, if_pos hlate]
    have hcontexts := congrArg SlotUnit.contexts (State.bump_slots .late 1 (s.setCtx r { c with late := true }))
    refine ⟨_, rfl, ctx?_of_setCtx hc hcontexts, otherSlotsKept_of_setCtx hcontexts, ?_, fun k hk => ?_,
      onlyRaised_of_same _ _ _ rfl rfl rfl, rfl⟩
    · rw [State.counter_bump_self, saturate_one]; rfl
    · exact State.counter_bump_of_ne _ _ _ _ (by simpa using hk)
  · have hexp : ¬deadlineExpires c = true := by
      rw [deadlineExpires_iff]; rintro (h | ⟨h, -⟩) <;> simp [h] at hst
    have hlate : ¬(deadlineLate c && !c.late) = true := by
      rw [Bool.and_eq_true, deadlineLate_iff]; rintro ⟨h | h | ⟨h, -⟩, -⟩ <;> simp [h] at hst
    rw [State.deadline, if_neg hexp, if_neg hlate]

end Sys2Proof.Proofs
end

