-- ==== Sys2Proof/Proofs/HoldAndZeroization.lean ====
section
/-! SUPPORT. The hold and the start of a zeroization in the words of the statements: O8 and O10 (R169, R173 to R175,
R192). -/

namespace Sys2Proof.Machine

open Sys2Proof.Safety

/-! ### No slot in a job -/

/-- Where no slot is in a job, settling leaves no read held (R25). -/
theorem State.not_held_of_settleHolds {u : State} (h : ∀ r c, u.ctx? r = some c → inJob c = false) (i : Initiator) :
    ∀ e ∈ u.settleHolds.queue i, isHeld e = false := fun e he => by
  obtain ⟨req, stage⟩ := e
  cases stage with
  | held endsAt places waits =>
    obtain ⟨hne, hall⟩ := u.held_of_settleHolds i _ he endsAt places waits rfl
    obtain ⟨w, hw⟩ := List.exists_mem_of_ne_nil waits hne
    have := hall w hw
    simp only [State.stillHolds] at this
    split at this
    next c hc => simp [h _ c hc] at this
    next => cases this
  | _ => rfl

theorem noReadHeldFor_of_not_held {t : State} (h : ∀ i, ∀ e ∈ t.queue i, isHeld e = false) (r : SlotRef) :
    NoReadHeldFor r t := fun i e he endsAt places waits hs => by
  have := h i e he
  simp [isHeld, hs] at this

/-- After every context is cleared, no slot is in a job (R29, R30). -/
theorem inJob_of_freed {s u : State} (h : u.slots.contexts = s.freeAllSlots.slots.contexts) (r : SlotRef) (c : SlotCtx)
    (hc : u.ctx? r = some c) : inJob c = false := by
  rw [State.ctx?_congr h, State.ctx?_freeAllSlots] at hc
  obtain ⟨c0, -, rfl⟩ := Option.map_eq_some_iff.mp hc
  rfl

/-! ### The start of a zeroization (R175) -/

/-- The part as a zeroization stops it, before held reads are settled (R175). -/
def State.stoppedForZeroize (s : State) : State :=
  { s with
    life := { s.life with cycle := .zeroizing }
    slots := { s.freeAllSlots.slots with reservationPending := false }
    engine := { fifo := [], importPlace := none, waitCount := 0, job := none }
    filter := s.filter.cleared
    keys := { s.endImportByZeroize.keys with dir := Vector.replicate 64 DirEntry.emptied, inquiry := Inquiry.zero }
    status := s.endImportByZeroize.status
    writer := startZeroizeOperation s.writer }

/-- A zeroization stops the part, settles the held reads, and ends a KEY_CHECK under way (R169, R175). -/
theorem State.startZeroization_eq (s : State) :
    s.startZeroization =
      if s.life.phase = .keyCheck then s.stoppedForZeroize.settleHolds.beginReserve
      else s.stoppedForZeroize.settleHolds := by
  by_cases h : s.keys.importState = .idle
  · have hk : s.freeAllSlots.keys.importState = .idle := h
    simp only [State.startZeroization, State.stoppedForZeroize, State.endImportByZeroize, h, hk, if_true]; rfl
  · have hk : ¬s.freeAllSlots.keys.importState = .idle := h
    simp only [State.startZeroization, State.stoppedForZeroize, State.endImportByZeroize, h, hk, if_false]; rfl

/-- What a zeroization does to an import command in flight: nothing, or it ends it WRONG_LIFECYCLE (R114). -/
theorem State.endImportByZeroize_status (s : State) :
    OnlyRaised [.importDone] s s.endImportByZeroize ∧ s.endImportByZeroize.status.counters = s.status.counters ∧
    (s.keys.importState = .idle →
      s.endImportByZeroize.keys.result = s.keys.result ∧ s.endImportByZeroize.status = s.status) ∧
    (s.keys.importState ≠ .idle → CommandEnded .wrongLifecycle 0 0#24 s s.endImportByZeroize) := by
  by_cases h : s.keys.importState = .idle
  · simp only [State.endImportByZeroize, h, if_true]
    exact ⟨onlyRaised_of_same _ _ _ rfl rfl rfl, rfl, fun _ => ⟨rfl, rfl⟩, fun h => absurd rfl h⟩
  · simp only [State.endImportByZeroize, h, if_false]
    have hdone : (s.endImport .wrongLifecycle 0 0#24).causeSet .importDone = true := by
      show (s.raise .importDone).causeSet _ = true
      simp [State.causeSet_raise]
    exact ⟨onlyRaised_of_raise _ _ .importDone _ (by simp) rfl, rfl, fun h => absurd h (by simp),
      fun _ => ⟨rfl, rfl, rfl, hdone⟩⟩

/-- The part holds nothing once it is stopped (R30, R50, R84, R114, R175). -/
theorem State.stoppedForZeroize_nothingHeld (s : State) : NothingHeld s.stoppedForZeroize := by
  refine ⟨fun p hp => ?_, rfl, rfl, rfl, fun i => Filter.at_cleared _ i,
    fun i => by simp [State.entry, State.stoppedForZeroize], by simp [State.stoppedForZeroize],
    by simp [State.stoppedForZeroize], ?_⟩
  · obtain ⟨q, -, rfl⟩ := List.mem_map.mp (show p ∈ s.slots.contexts.map fun p => (p.1, clearCtx p.2) from hp)
    rfl
  · show (startZeroizeOperation s.writer).waiting = []
    cases hr : s.writer.running <;> simp [startZeroizeOperation, hr]

/-- The start of a zeroization, in the words of the statements; `sent` is what else goes to memory at the event (R175).
-/
theorem State.zeroizationBegan (s : State) {sent : List MemOut} (ho : ∀ o ∈ sent, isOther o = true) :
    ZeroizationBegan sent s { s.stoppedForZeroize.settleHolds with
      memOut := s.stoppedForZeroize.settleHolds.memOut ++ sent } := by
  obtain ⟨-, hcounters, -, hended⟩ := s.endImportByZeroize_status
  have hnone := State.not_held_of_settleHolds (u := s.stoppedForZeroize) (inJob_of_freed (s := s) rfl)
  have hheld : HeldReadsSettled sent s { s.stoppedForZeroize.settleHolds with
      memOut := s.stoppedForZeroize.settleHolds.memOut ++ sent } :=
    heldReadsSettled_of_settleHolds (u := s.stoppedForZeroize) rfl rfl rfl ho rfl rfl rfl rfl
  refine ⟨rfl, s.stoppedForZeroize_nothingHeld, s.ctx?_freeAllSlots, rfl, rfl, rfl, rfl, hended, fun hr => ?_,
    fun op hr => ?_, noReadHeldFor_of_not_held hnone, hheld, fun c => ?_, rfl, rfl, rfl, rfl, rfl, rfl, rfl⟩
  · show startZeroizeOperation s.writer = _
    simp [startZeroizeOperation, hr]
  · show startZeroizeOperation s.writer = _
    simp [startZeroizeOperation, hr]
  · show s.endImportByZeroize.counter c = s.counter c
    simp only [State.counter, hcounters]

/-- A zeroization that a tamper event starts (R175). -/
theorem State.zeroizedByTamper (s : State) : ZeroizedByTamper s s.stoppedForZeroize.settleHolds := by
  obtain ⟨hraised, -, hidle, -⟩ := s.endImportByZeroize_status
  have hbegan := s.zeroizationBegan (sent := []) (by simp)
  rw [List.append_nil] at hbegan
  exact ⟨hbegan, rfl, hraised, hidle⟩

/-! ### Tamper events (R173, R174) -/

/-- The part after the sampler has recorded a tamper event (R173, R174). -/
def State.tamperRecorded (s : State) : State :=
  { s with life := { s.life with tamperCount := 0#4, armed := false, tamperSeen := true } }.raise .tamper

theorem State.tamperRecorded_recorded (s : State) : TamperRecorded s s.tamperRecorded := by
  refine ⟨?_, onlyRaised_of_raise s _ .tamper _ (by simp) rfl, countersKept_of_same _ _ _ rfl, rfl⟩
  show (s.raise .tamper).causeSet .tamper = true
  simp [State.causeSet_raise]

/-- What becomes of a tamper event: deferred, the start of a zeroization, or only recorded (R174). -/
theorem State.tamperEvent_eq (s : State) :
    (s.setSampler 0#4 false).tamperEvent =
      if s.life.phase = .nvRead then
        { s.tamperRecorded with life := { s.tamperRecorded.life with deferred := true } }
      else if s.life.cycle = .field then s.tamperRecorded.startZeroization
      else s.tamperRecorded := rfl

/-- Nothing is held after RESERVE has been begun in a part that holds nothing. -/
theorem NothingHeld.beginReserve {s : State} (h : NothingHeld s) (hz : s.zeroing = true) : NothingHeld s.beginReserve :=
  have hw := (State.beginReserve_zeroing hz).2
  have ⟨_, he, hf, hk, _⟩ := s.beginReserve_frame
  have ⟨h1, h2, h3, h4, h5, h6, h7, h8, h9⟩ := h
  ⟨by simpa using h1, by rw [he]; exact h2, by rw [he]; exact h3, by rw [he]; exact h4, by rw [hf]; exact h5,
    fun i => by rw [State.entry, hk]; exact h6 i, by rw [hk]; exact h7, by rw [hk]; exact h8, by rw [hw]; exact h9⟩

/-! ### Import commands -/

/-- An import command word that no step of R100 refuses is carried out, and zeros go to memory (R96, R100). -/
theorem State.importBeat_carried {s : State} {cmd : ImportCmd} {upper : BitVec 56} (hr : s.reloading = false)
    (hp : s.life.phase = .running) (h : s.importRefusal (some cmd) upper = none) :
    s.importBeat cmd upper =
      { s.carryImport cmd upper with memOut := (s.carryImport cmd upper).memOut ++ [importOut s] } := by
  have hcmd : importCommandOf (importCode cmd) = some cmd := by cases cmd <;> rfl
  have hact : s.takeImportCommand (importCode cmd) upper = s.carryImport cmd upper := by
    simp only [State.takeImportCommand, hp, ne_eq, not_true_eq_false, if_false, hcmd, h]
  simp only [State.importBeat, State.controlBeat, hr, hact]; rfl

/-- The life cycles of a command, as the statements list them. -/
theorem acceptedIn_iff (cmd : ImportCmd) (l : LifeCycle) : acceptedIn cmd l = true ↔ l ∈ cyclesOf cmd := by
  cases cmd with
  | inquire => cases l <;> simp [acceptedIn, cyclesOf]
  | _ => simp [acceptedIn, cyclesOf, or_assoc]

/-- A command in form and in one of its life cycles passes steps 1 to 5 of R100. -/
theorem State.importRefusal_none_of {s : State} {cmd : ImportCmd} {upper : BitVec 56} (hz : s.zeroing = false)
    (hh : s.status.hold = false) (hi : s.keys.importState = .idle) (hform : importFormGood cmd upper = true)
    (hc : s.life.cycle ∈ cyclesOf cmd) : s.importRefusal (some cmd) upper = none := by
  simp [State.importRefusal, hz, hh, hi, hform, (acceptedIn_iff cmd _).mpr hc]

/-! ### The hold (R192) -/

/-- The part as the hold stops it, before held reads are settled (R192). -/
def State.stoppedForHold (s : State) : State :=
  { s with
    slots := s.freeAllSlots.slots
    engine := holdEngine s.engine
    filter := s.filter.cleared
    keys := s.endImportByHold.keys
    status := { s.endImportByHold.status with hold := true, counters := Vector.replicate 11 0#32 } }

theorem State.setHold_eq (s : State) : s.setHold = s.stoppedForHold.settleHolds := by
  by_cases h : s.keys.importState = .queued ∨ s.keys.importState = .working
  · have hk : s.freeAllSlots.keys.importState = .queued ∨ s.freeAllSlots.keys.importState = .working := h
    simp only [State.setHold, State.stoppedForHold, State.endImportByHold, h, hk, if_true]; rfl
  · have hk : ¬(s.freeAllSlots.keys.importState = .queued ∨ s.freeAllSlots.keys.importState = .working) := h
    simp only [State.setHold, State.stoppedForHold, State.endImportByHold, h, hk, if_false]; rfl

/-- Bit 0 of a hold word (R202). -/
theorem hold_bit (upper : BitVec 63) (b : BitVec 1) : (upper ++ b).getLsbD 0 = b.getLsbD 0 := by
  rw [BitVec.getLsbD_append]; simp

/-- A hold word written in RUNNING acts, and goes to memory (R181, R191). -/
theorem State.holdBeat_taken {s : State} {w : Word} (hp : s.life.phase = .running) (hr : s.reloading = false) :
    s.settingBeat .hold 0x078 w = { s.writeHold w with memOut := (s.writeHold w).memOut ++
      [settingOut s 0x078 w] } := by
  have hact : s.writeStatus .hold w = s.writeHold w := by
    simp [State.writeStatus, State.settingTaken, takenUnderHold, hp, State.applySetting]
  rw [State.settingBeat_taken _ _ _ _ hr, hact]; rfl

/-- What the hold does to an import that waits or works: it ends HELD; any other import state and result stays (R113).
-/
theorem State.endImportByHold_result (s : State) :
    s.endImportByHold.status.enables = s.status.enables ∧ s.endImportByHold.keys.dir = s.keys.dir ∧
    s.endImportByHold.keys.inquiry = s.keys.inquiry ∧ s.endImportByHold.keys.buffer = Vector.replicate 5 0#64 ∧
    (s.keys.importState = .queued ∨ s.keys.importState = .working →
      s.endImportByHold.keys.importState = .idle ∧
      s.endImportByHold.keys.result = { command := s.keys.inFlight, code := .held, index := 0, check := 0#24 } ∧
      s.endImportByHold.causeSet .importDone = true ∧
      ∀ c, c ≠ .importDone → s.endImportByHold.causeSet c = s.causeSet c) ∧
    (¬(s.keys.importState = .queued ∨ s.keys.importState = .working) →
      s.endImportByHold.keys.importState = s.keys.importState ∧ s.endImportByHold.keys.result = s.keys.result ∧
      s.endImportByHold.status.causes = s.status.causes) := by
  by_cases h : s.keys.importState = .queued ∨ s.keys.importState = .working
  · simp only [State.endImportByHold, h, if_true]
    have hset : ∀ c, (s.endImport .held 0 0#24).causeSet c = (s.raise .importDone).causeSet c := fun _ => rfl
    refine ⟨rfl, rfl, rfl, rfl, fun _ => ⟨rfl, rfl, ?_, fun c hc => ?_⟩, fun hn => absurd trivial hn⟩
    · simp [hset, State.causeSet_raise]
    · simp [hset, State.causeSet_raise, hc.symm]
  · simp only [State.endImportByHold, h, if_false]
    exact ⟨rfl, rfl, rfl, rfl, fun h => h.elim, fun _ => ⟨rfl, rfl, rfl⟩⟩

end Sys2Proof.Machine

namespace Sys2Proof.Proofs

open Sys2Proof.Machine Sys2Proof.Safety

/-- Settles O8: `setHold` is `stoppedForHold` with its held reads settled, and each clause is read off there. -/
theorem holdSetStopsKeyWorkAndClearActsOnNoBlock : Obligations.HoldSetStopsKeyWorkAndClearActsOnNoBlock := by
  refine ⟨fun s upper hp hr => ⟨fun hh => ?_, fun hh => ?_⟩, fun s upper hp hr => ?_⟩
  · show Host.Outcome.next (s.settingBeat .hold 0x078 (upper ++ 1#1)) = _
    have hset : s.writeHold (upper ++ 1#1) = s := by rw [State.writeHold, hold_bit, if_pos (by simp)]; simp [hh]
    rw [State.holdBeat_taken hp hr, hset]
  · have hset : s.writeHold (upper ++ 1#1) = s.stoppedForHold.settleHolds := by
      rw [← State.setHold_eq]; simp [State.writeHold, hold_bit upper 1#1, hh]
    refine ⟨_, congrArg Host.Outcome.next (State.holdBeat_taken (w := upper ++ 1#1) hp hr), ?_⟩
    rw [hset]
    obtain ⟨henables, hdir, hinquiry, hbuffer, hended, hidle⟩ := s.endImportByHold_result
    have hnone := State.not_held_of_settleHolds (u := s.stoppedForHold) (inJob_of_freed (s := s) rfl)
    have hheld : HeldReadsSettled [settingOut s 0x078 (upper ++ 1#1)] s { s.stoppedForHold.settleHolds with
        memOut := s.stoppedForHold.settleHolds.memOut ++ [settingOut s 0x078 (upper ++ 1#1)] } :=
      heldReadsSettled_of_settleHolds (u := s.stoppedForHold) rfl rfl rfl
        (by simp [isOther, settingOut]) rfl rfl rfl rfl
    refine ⟨rfl, s.ctx?_freeAllSlots, rfl, rfl, fun i => Filter.at_cleared _ i, rfl, rfl,
      fun c => ?_, henables, hbuffer,
      hdir, hinquiry, ?_, fun i => List.any_eq_false.mpr fun e he => by simp [hnone i e he], hheld, rfl, rfl⟩
    · show (Vector.replicate 11 0#32)[counterIndex c] = 0#32
      simp [Fin.getElem_fin]
    · split
      next h => exact hended h
      next h => exact hidle h
  · show Host.Outcome.next (s.settingBeat .hold 0x078 (upper ++ 0#1)) = _
    have hclear : s.writeHold (upper ++ 0#1) = { s with status := { s.status with hold := false } } := by
      rw [State.writeHold, hold_bit, if_neg (by simp)]
    rw [State.holdBeat_taken hp hr, hclear]

/-- Settles O10: the sampler by its cases, a tamper event by `tamperEvent_eq`, and either start of a zeroization by
`zeroizationBegan`. -/
theorem tamperOrZeroizeStartsZeroization : Obligations.TamperOrZeroizeStartsZeroization := by
  refine ⟨fun s hrel => ⟨?_, fun harm => ?_, fun harm hlt => ?_, fun harm h7 => ?_⟩, fun s hp hr hh hi hc => ?_⟩
  · show execTamperSample false s = _
    simp [execTamperSample, hrel, State.setSampler]
  · show execTamperSample true s = _
    simp [execTamperSample, hrel, harm]
  · show execTamperSample true s = _
    have : ¬7#4 ≤ s.life.tamperCount := by bv_omega
    simp only [execTamperSample, hrel, harm, this, if_false, State.setSampler]; rfl
  · have hexec : exec (.tamperSample true) s = .next (s.setSampler 0#4 false).tamperEvent := by
      show execTamperSample true s = _
      simp [execTamperSample, hrel, harm, h7]
    obtain ⟨hset, hraised, hcounters, hframe⟩ := s.tamperRecorded_recorded
    rw [hexec, State.tamperEvent_eq]
    by_cases hnv : s.life.phase = .nvRead
    · rw [if_pos hnv]
      exact ⟨_, rfl, hset, rfl, rfl, rfl, fun _ => ⟨hraised, hcounters, rfl⟩, fun h => absurd hnv h,
        fun h => absurd hnv h, fun h => by simp [hnv] at h⟩
    rw [if_neg hnv]
    by_cases hf : s.life.cycle = .field
    · rw [if_pos hf, State.startZeroization_eq]
      have hz := s.tamperRecorded.zeroizedByTamper
      have hkept : s.tamperRecorded.stoppedForZeroize.settleHolds.causeSet .tamper = true := hz.2.2.1.2.1 _ hset
      by_cases hk : s.life.phase = .keyCheck
      · have hk' : s.tamperRecorded.life.phase = .keyCheck := hk
        rw [if_pos hk']
        have hres := s.tamperRecorded.stoppedForZeroize.settleHolds.beginReserve_atOnce (.inr rfl)
        have hnothing : NothingHeld s.tamperRecorded.stoppedForZeroize.settleHolds.beginReserve :=
          NothingHeld.beginReserve (s := s.tamperRecorded.stoppedForZeroize.settleHolds) hz.1.2.1 rfl
        have hlife := congrArg State.life hres.2.2.2.2.2
        refine ⟨_, rfl, hres.2.2.1.2.1 _ hkept, by rw [hlife]; rfl, by rw [hlife]; rfl, by rw [hlife]; rfl,
          fun h => absurd h hnv, fun _ h => absurd hf h, fun _ h => absurd hk h,
          fun _ _ => ⟨_, _, s.tamperRecorded_recorded, hz, hres, hnothing⟩⟩
      · have hk' : ¬s.tamperRecorded.life.phase = .keyCheck := hk
        rw [if_neg hk']
        exact ⟨_, rfl, hkept, rfl, rfl, rfl, fun h => absurd h hnv, fun _ h => absurd hf h,
          fun _ _ _ => ⟨_, s.tamperRecorded_recorded, hz⟩, fun h => absurd h hk⟩
    · rw [if_neg hf]
      exact ⟨_, rfl, hset, rfl, rfl, rfl, fun h => absurd h hnv, fun _ _ => ⟨hraised, hcounters, hframe⟩,
        fun _ _ h => absurd h hf, fun _ h => absurd h hf⟩
  · have hrefuse : s.importRefusal (some .zeroize) (0xA5F0C3963C5A#48 ++ 0#8) = none :=
      State.importRefusal_none_of (by rcases hc with h | h | h <;> simp [State.zeroing, h]) hh hi (by decide)
        (by simpa [cyclesOf] using hc)
    have hz : s.carryImport .zeroize (0xA5F0C3963C5A#48 ++ 0#8) =
        (s.endAtOnce 0x08#8 .ok 0 0#24).stoppedForZeroize.settleHolds := by
      have : (s.endAtOnce 0x08#8 .ok 0 0#24).life.phase ≠ .keyCheck := by simp [hp]
      simp only [State.carryImport, State.carryZeroize, State.startZeroization_eq, this, if_false]
    have hexec : exec (.zeroize (0xA5F0C3963C5A#48 ++ 0#8)) s = .next (s.importBeat .zeroize _) := rfl
    rw [hexec, State.importBeat_carried hr hp hrefuse, hz]
    have hbegan := (s.endAtOnce 0x08#8 .ok 0 0#24).zeroizationBegan (sent := [importOut s])
      (by simp [isOther, importOut])
    obtain ⟨-, -, hidle, -⟩ := (s.endAtOnce 0x08#8 .ok 0 0#24).endImportByZeroize_status
    obtain ⟨hresult, hstatus⟩ := hidle hi
    have hraised : OnlyRaised [.importDone] s (s.endAtOnce 0x08#8 .ok 0 0#24).stoppedForZeroize.settleHolds :=
      onlyRaised_of_raise s _ .importDone _ (by simp) hstatus
    have hdone : (s.endAtOnce 0x08#8 .ok 0 0#24).stoppedForZeroize.settleHolds.causeSet .importDone = true := by
      have : (s.endAtOnce 0x08#8 .ok 0 0#24).stoppedForZeroize.settleHolds.causeSet .importDone =
          (s.raise .importDone).causeSet .importDone :=
        congrArg (fun st : StatusUnit => st.causes.getLsbD (causeBit .importDone)) hstatus
      rw [this, State.causeSet_raise]; simp
    exact ⟨_, rfl, hbegan, hresult, hdone, hraised, rfl, by simp⟩

end Sys2Proof.Proofs
end

