-- ==== Sys2Proof/Proofs/Withdrawal.lean ====
section
/-! SUPPORT. The withdrawal of a key entry and the admin request that goes with it, in the words of the statements: O32
(R27, R105 to R107, R112). -/

namespace Sys2Proof.Machine

open Sys2Proof.Safety

/-! ### Causes and counters of several slots -/

/-- Raising a list of causes sets each of them and leaves every other (R185). -/
theorem State.causeSet_raiseAll (s : State) (cs : List Cause) (d : Cause) :
    (s.raiseAll cs).causeSet d = (s.causeSet d || decide (d ∈ cs)) := by
  induction cs generalizing s with
  | nil => simp [State.raiseAll, State.causeSet]
  | cons c cs ih =>
    have : (s.raiseAll (c :: cs)).causeSet d = ((s.raise c).raiseAll cs).causeSet d := rfl
    rw [this, ih, State.causeSet_raise, Bool.or_assoc]
    congr 1
    rw [Bool.eq_iff_iff]
    simp only [Bool.or_eq_true, decide_eq_true_eq, List.mem_cons]
    exact or_congr_left eq_comm

theorem toNat_saturate (v : BitVec 32) (n : Nat) : (saturate v n).toNat = min (v.toNat + n) (2 ^ 32 - 1) := by
  simp only [saturate, BitVec.toNat_ofNat]; omega

/-! ### Withdrawal (R27, R112) -/

theorem withdrawalFaults_iff (k : Fin 64) (c : SlotCtx) :
    withdrawalFaults k c = true ↔
      c.tagEntry = some k ∧ (c.state = .verified ∨ (c.state = .queued ∧ c.jobKind = some .sealing)) := by
  simp [withdrawalFaults]

theorem withdrawalMarks_iff (k : Fin 64) (c : SlotCtx) :
    withdrawalMarks k c = true ↔ c.state = .busy ∧ (c.tagEntry = some k ∨ c.recordEntry = some k) := by
  simp [withdrawalMarks]

/-- A slot that the withdrawal faults is not one that it marks. -/
theorem withdrawCtx_marked {k : Fin 64} {c : SlotCtx} (h : withdrawalMarks k c = true) :
    withdrawCtx k c = { c with withdrawn := true } := by
  have hf : ¬withdrawalFaults k c = true := by
    rw [withdrawalMarks_iff] at h
    rw [withdrawalFaults_iff]
    simp [h.1]
  rw [withdrawCtx, if_neg hf, if_pos h]

/-- The part as a withdrawal changes it, before held reads are settled (R27). -/
def State.withdrawing (k : Fin 64) (s : State) : State :=
  (({ s with
      slots := { s.slots with contexts := s.slots.contexts.map fun p => (p.1, withdrawCtx k p.2) }
      engine := { s.engine with fifo := s.engine.fifo.filter fun x => !(s.withdrawnSlots k).contains x } :
        State }.raiseAll
        ((s.withdrawnSlots k).map fun r => .slotDone r.group)).bump .faulted (s.withdrawnSlots k).length)

theorem State.withdraw_eq (k : Fin 64) (s : State) : s.withdraw k = (s.withdrawing k).settleHolds := rfl

/-- A withdrawal, in the words of the statements (R27, R112). -/
theorem State.entryWithdrawn {s : State} (hone : OneContextEach s) (k : Fin 64) :
    EntryWithdrawn k s (s.withdraw k) := by
  have hctx : ∀ r c, s.ctx? r = some c → (s.withdraw k).ctx? r = some (withdrawCtx k c) := fun r c hc => by
    rw [State.ctx?_withdraw, hc]; rfl
  have hhit := s.mem_withdrawnSlots hone k
  have hset : ∀ d, (s.withdraw k).causeSet d =
      (s.causeSet d || decide (d ∈ (s.withdrawnSlots k).map fun r => Cause.slotDone r.group)) := fun d =>
    State.causeSet_raiseAll s _ d
  have hcounters : ∀ n, (s.withdraw k).counter n = (s.bump .faulted (s.withdrawnSlots k).length).counter n :=
    fun _ => rfl
  have hfilter : (s.slots.contexts.filter fun p => decide (p.2.tagEntry = some k ∧
        (p.2.state = .verified ∨ (p.2.state = .queued ∧ p.2.jobKind = some .sealing)))) =
      s.slots.contexts.filter fun p => withdrawalFaults k p.2 :=
    List.filter_congr fun p _ => by rw [Bool.eq_iff_iff, decide_eq_true_iff, withdrawalFaults_iff]
  refine ⟨fun r c hc hf => ?_, fun r c hc hb hk => ?_, fun r c hc hf hm => ?_, rfl, List.filter_sublist,
    fun r hr c hc hf => ?_, ?_, fun n hn => ?_, ?_⟩
  · have hf := (withdrawalFaults_iff k c).mpr hf
    have hfaulted : withdrawCtx k c = faultCtx .keyWithdrawn c := by rw [withdrawCtx, if_pos hf]
    have hr : r ∈ s.withdrawnSlots k := (hhit r).mpr ⟨c, hc, hf⟩
    refine ⟨by rw [hctx r c hc, hfaulted]; rfl, ?_, fun hm => ?_, ?_⟩
    · rw [hset, decide_eq_true (List.mem_map_of_mem hr), Bool.or_true]
    · have := (List.mem_filter.mp hm).2
      simp [hr] at this
    · exact State.noReadHeldFor_settleHolds (s.withdrawing k) r _ (hctx r c hc) (by rw [hfaulted]; rfl)
  · rw [hctx r c hc, withdrawCtx_marked ((withdrawalMarks_iff k c).mpr ⟨hb, hk⟩)]
  · rw [hctx r c hc, withdrawCtx, if_neg (mt (withdrawalFaults_iff k c).mp hf),
      if_neg (mt (withdrawalMarks_iff k c).mp hm)]
  · have hf := mt (withdrawalFaults_iff k c).mp hf
    refine List.mem_filter.mpr ⟨hr, ?_⟩
    have : r ∉ s.withdrawnSlots k := fun h => by
      obtain ⟨c', hc', hf'⟩ := (hhit r).mp h
      rw [hc] at hc'; cases hc'
      exact hf hf'
    simp [this]
  · rw [hcounters, State.counter_bump_self, toNat_saturate]
    simp only [hfilter, State.withdrawnSlots, List.length_map]
  · rw [hcounters]; exact State.counter_bump_of_ne _ _ _ _ (by simpa using hn)
  · simp only [hfilter]
    have hlist : ((s.withdrawnSlots k).map fun r => Cause.slotDone r.group) =
        (s.slots.contexts.filter fun p => withdrawalFaults k p.2).map fun p => .slotDone p.1.group := by
      simp only [State.withdrawnSlots, List.map_map]; rfl
    refine ⟨fun d hd => ?_, fun d hd => by rw [hset, hd]; rfl, rfl, rfl⟩
    rw [hset, hlist, decide_eq_false hd, Bool.or_false]

/-! ### REVOKE and ERASE -/

theorem State.entry_setEntry_self (s : State) (i : Fin 64) (e : DirEntry) : (s.setEntry i e).entry i = e := by
  simp [State.entry, State.setEntry, Fin.getElem_fin]

theorem State.entry_setEntry_of_ne (s : State) {i j : Fin 64} (e : DirEntry) (h : j ≠ i) :
    (s.setEntry i e).entry j = s.entry j := by
  have : i.val ≠ j.val := fun e => h (Fin.ext e.symm)
  simp [State.entry, State.setEntry, Fin.getElem_fin, this]

/-- An admin request placed for a command (R90, R98, R101). -/
theorem State.adminPlaced {s u : State} (cmd : ImportCmd) (op : AdminOp) (hw : u.writer = s.writer)
    (hl : u.life = s.life) (hb : u.keys.buffer = s.keys.buffer) (hi : u.keys.inquiry = s.keys.inquiry) :
    AdminPlaced (importCode cmd) op s (u.placeAdmin cmd op) :=
  ⟨rfl, rfl, rfl, hb, hi, requestReached_of_nvRequest (u := u.startImport cmd .nvWriting) rfl hw
    (by simp only [State.zeroing, State.startImport_life, hl])⟩

/-- An entry is protected only where it is LOADED TRANSPORT and no other is (R107). -/
theorem State.isProtected_eq_false {s : State} {i : Fin 64}
    (h : (s.entry i).usage = .transport → (s.entry i).state = .loaded →
      ∃ j, j ≠ i ∧ (s.entry j).usage = .transport ∧ (s.entry j).state = .loaded) : s.isProtected i = false := by
  by_cases hi : (s.entry i).usage = .transport ∧ (s.entry i).state = .loaded
  · obtain ⟨j, hj, hu, hs⟩ := h hi.1 hi.2
    have : ((List.finRange 64).any fun j => j != i && isLoadedTransport (s.entry j)) = true :=
      List.any_eq_true.mpr ⟨j, List.mem_finRange j, by simp [hj, isLoadedTransport, hu, hs]⟩
    simp [State.isProtected, this]
  · have : isLoadedTransport (s.entry i) = false := by
      rw [Bool.eq_false_iff]; simpa [isLoadedTransport] using hi
    simp [State.isProtected, this]

end Sys2Proof.Machine

namespace Sys2Proof.Proofs

open Sys2Proof.Machine Sys2Proof.Safety

/-- What the withdrawal of an entry with its admin request does, whatever the entry becomes (R105, R106, R112). -/
theorem withdrawnWithRequest {s v : State} {i : Fin 64} {e : DirEntry} {cmd : ImportCmd} {op : AdminOp} {out : MemOut}
    (hone : OneContextEach s) (ho : isOther out = true)
    (hv : v = ((s.setEntry i e).withdraw i).placeAdmin cmd op) :
    let t : State := { v with memOut := v.memOut ++ [out] }
    t.entry i = e ∧ (∀ j, j ≠ i → t.entry j = s.entry j) ∧ EntryWithdrawn i s t ∧
      AdminPlaced (importCode cmd) op s t ∧ HeldReadsSettled [out] s t ∧ t.memOut.getLast? = some out ∧
      t.path.refusal = s.path.refusal ∧
      t = { s with
        slots := { s.slots with contexts := t.slots.contexts }, engine := t.engine, status := t.status
        keys := t.keys, writer := t.writer, path := t.path, memOut := t.memOut, sysOut := t.sysOut } := by
  subst hv
  have hplaced := State.adminPlaced (s := s) (u := (s.setEntry i e).withdraw i) cmd op rfl rfl rfl rfl
  have hwithdrawn := State.entryWithdrawn (s := s.setEntry i e) hone i
  refine ⟨s.entry_setEntry_self i e, fun j hj => s.entry_setEntry_of_ne e hj, ?_, ?_, ?_, by simp, rfl, ?_⟩
  · exact hwithdrawn
  · exact hplaced
  · exact heldReadsSettled_of_settleHolds (u := (s.setEntry i e).withdrawing i) rfl rfl rfl
      (by simpa using ho) rfl rfl rfl
      rfl
  · rfl

/-- Settles O32. -/
theorem revokeAndEraseWithdrawKey : Obligations.RevokeAndEraseWithdrawKey := by
  intro s i hone hp hr hh hi hcycle h husage hkeySet hversion htransport hfind hlast
  have hz : s.zeroing = false := by rcases hcycle with e | e <;> simp [State.zeroing, e]
  have hgood : headerTripleGood h = true := by
    have hkinds : ∀ u : Byte, u ∈ [0x01#8, 0x02#8, 0x03#8] →
        usageOf u ≠ .none ∧ (usageOf u = .transport → u = 0x01#8) := by decide
    obtain ⟨hu, ht⟩ := hkinds _ husage
    have hset : usageOf (headerUsage h) ≠ .transport ∨ headerKeySet h = 0#8 :=
      (em (usageOf (headerUsage h) = .transport)).elim (fun e => .inr (htransport (ht e))) .inl
    simp [headerTripleGood, show headerKeySet h ≤ 31#8 from hkeySet, show headerVersion h ≤ 15#8 from hversion, hu,
      hset]
  have hnamed : s.namedEntry = some i := hfind
  have hprot := State.isProtected_eq_false hlast
  refine ⟨fun hloaded => ?_, ?_⟩
  · have hrefuse : s.importRefusal (some .revoke) 0#56 = none :=
      State.importRefusal_none_of hz hh hi rfl (by simpa [cyclesOf] using hcycle)
    have hcarry : s.carryImport .revoke 0#56 =
        ((s.setEntry i { s.entry i with state := .revoked }).withdraw i).placeAdmin .revoke (.markRevoked i) := by
      simp [State.carryImport, State.carryRevoke, show headerTripleGood (importHeader s.keys) = true from hgood,
        hnamed, hloaded, hprot]
    refine ⟨_, congrArg Host.Outcome.next (State.importBeat_carried hr hp hrefuse), ?_⟩
    exact withdrawnWithRequest hone rfl hcarry
  · have hrefuse : s.importRefusal (some .erase) 0#56 = none :=
      State.importRefusal_none_of hz hh hi rfl (by simpa [cyclesOf] using hcycle)
    have hcarry : s.carryImport .erase 0#56 =
        ((s.setEntry i DirEntry.emptied).withdraw i).placeAdmin .erase (.eraseEntry i
          (keptWithRequest (s.entry i))) := by
      simp [State.carryImport, State.carryErase, show headerTripleGood (importHeader s.keys) = true from hgood, hnamed,
        hprot]
    obtain ⟨h1, h2, h3, h4, hrest⟩ := withdrawnWithRequest (out := importOut s) hone rfl hcarry
    exact ⟨_, congrArg Host.Outcome.next (State.importBeat_carried hr hp hrefuse), h1, h2, h3,
      ⟨keptWithRequest (s.entry i), rfl, rfl, rfl, rfl, rfl, rfl, rfl, h4⟩, hrest⟩

end Sys2Proof.Proofs
end

