-- ==== Sys2Proof/Proofs/OperationEnds.lean ====
section
/-! SUPPORT. The ends of epoch records, of reservations and of the program of RESERVE: O38 (R35, R92, R93, R130, R170).
-/

namespace Sys2Proof.Machine

open Sys2Proof.Safety

/-- The writer goes on to its next operation, in the words of the statements (R90, R94). -/
theorem writerWentOn_of_goOn {s t : State} (h : t.writer = s.writer.goOn) : WriterWentOn s t := by
  refine ⟨fun hz => by rw [h, NvWriter.goOn, if_pos hz], fun hz => ⟨fun hw => ?_, fun r rest hw => ?_⟩⟩
  · simp only [h, NvWriter.goOn, hz, hw, Bool.false_eq_true, if_false]
  · rw [h, NvWriter.goOn, if_neg (by simp [hz]), hw]

/-- The causes after the verify of an operation (R93). -/
theorem State.causeSet_noteVerify (s : State) (passed : Bool) (c : Cause) :
    (s.noteVerify passed).causeSet c = (s.causeSet c || (!passed && decide (Cause.nvFault = c))) := by
  cases passed with
  | true => simp [State.noteVerify, State.causeSet]
  | false => exact (s.causeSet_raise .nvFault c).trans (by simp)

theorem State.noteVerify_status (s : State) (passed : Bool) :
    (s.noteVerify passed).status.counters = s.status.counters ∧
    (s.noteVerify passed).status.enables = s.status.enables ∧ (s.noteVerify passed).status.hold = s.status.hold := by
  cases passed <;> exact ⟨rfl, rfl, rfl⟩

/-- NV_FAULT is raised where the verify failed, CHALLENGE_LOW where its condition came true, and nothing else (R93,
R185). -/
theorem faultAndLow_of_status {s t u : State} {passed was : Bool} (hu : u.status = (s.noteVerify passed).status)
    (ht : t.status = (u.raiseLow was).status) :
    OnlyRaised [.nvFault, .challengeLow] s t ∧ CountersKept [] s t ∧
      (t.causeSet .nvFault = true ↔ s.causeSet .nvFault = true ∨ passed = false) ∧
      (t.causeSet .challengeLow = true ↔ s.causeSet .challengeLow = true ∨ (was = false ∧ u.challengeLow = true)) := by
  obtain ⟨hlow, hkept, -⟩ := raisedLow_of_status (s := u) (t := t) rfl ht
  obtain ⟨hcounters, henables, hhold⟩ := s.noteVerify_status passed
  have hset : ∀ c, t.causeSet c = (s.causeSet c || (!passed && decide (Cause.nvFault = c)) ||
      (!was && u.challengeLow && decide (Cause.challengeLow = c))) := fun c => by
    have h1 : t.causeSet c = (u.raiseLow was).causeSet c := by simp only [State.causeSet, ht]
    have h2 : u.causeSet c = (s.noteVerify passed).causeSet c := by simp only [State.causeSet, hu]
    rw [h1, State.causeSet_raiseLow, h2, State.causeSet_noteVerify]
  refine ⟨⟨fun c hc => ?_, fun c hc => by simp [hset, hc], ?_, ?_⟩, fun c hc => ?_, ?_, ?_⟩
  · simp only [List.mem_cons, List.not_mem_nil, or_false, not_or] at hc
    simp [hset, Ne.symm hc.1, Ne.symm hc.2]
  · rw [hlow.2.2.1, hu, henables]
  · rw [hlow.2.2.2, hu, hhold]
  · rw [hkept c hc]; simp only [State.counter, hu, hcounters]
  · simp [hset]
  · simp [hset]

end Sys2Proof.Machine

namespace Sys2Proof.Proofs

open Sys2Proof.Machine Sys2Proof.Safety

/-- Settles O38, by the operation that runs. -/
theorem counterAndEpochOperationsEnd : Obligations.CounterAndEpochOperationsEnd := by
  intro s passed
  refine ⟨fun v hrun => ?_, fun v hrun => ?_, fun v hrun => ?_⟩
  · have hexec : exec (.nvOperationEnd passed) s = .next ((s.noteVerify passed).endEpochRecord v passed) := by
      show execNvOperationEnd passed s = _
      simp only [execNvOperationEnd, hrun]
    refine ⟨_, hexec, ?_, writerWentOn_of_goOn ?_, ?_, ?_, fun hp => ?_, fun hp => ?_, ?_⟩
    · cases passed <;> rfl
    · cases passed <;> rfl
    · cases passed with
      | true => exact onlyRaised_of_same _ _ _ rfl rfl rfl
      | false => exact onlyRaised_of_raise _ _ .nvFault _ (by simp) rfl
    · exact countersKept_of_same _ _ _ (by cases passed <;> rfl)
    · subst hp; exact (s.causeSet_raise .nvFault .nvFault).trans (by simp)
    · subst hp; rfl
    · cases passed <;> rfl
  · have hexec : exec (.nvOperationEnd passed) s = .next ((s.noteVerify passed).endReservation v passed) := by
      show execNvOperationEnd passed s = _
      simp only [execNvOperationEnd, hrun]
    have hstatus : OnlyRaised [.nvFault, .challengeLow] s ((s.noteVerify passed).endReservation v passed) ∧ _ ∧ _ ∧ _ :=
      faultAndLow_of_status (passed := passed) (was := s.challengeLow)
        (u := { (s.noteVerify passed) with slots :=
          { s.slots with ceiling := if passed then v else s.slots.ceiling, reservationPending := false } }) rfl
        (by cases passed <;> rfl)
    obtain ⟨hraised, hkept, hfault, hlow⟩ := hstatus
    refine ⟨_, hexec, ?_, ?_, writerWentOn_of_goOn ?_, hraised, hkept, hfault, ?_, ?_⟩
    · cases passed <;> rfl
    · cases passed <;> rfl
    · cases passed <;> rfl
    · rw [hlow]; cases passed <;> rfl
    · cases passed <;> rfl
  · have hexec : exec (.nvOperationEnd passed) s = .next ((s.noteVerify passed).endReserveProgram v passed) := by
      show execNvOperationEnd passed s = _
      simp only [execNvOperationEnd, hrun]
    have hstatus : OnlyRaised [.nvFault, .challengeLow] s ((s.noteVerify passed).endReserveProgram v passed) ∧
      _ ∧ _ ∧ _ :=
      faultAndLow_of_status (passed := passed) (was := false)
        (u := { (s.noteVerify passed) with
          life := { s.life with phase := .mapLoad }
          slots := { s.slots with ceiling := if passed then v else s.slots.ceiling } }) rfl
        (by cases passed <;> rfl)
    obtain ⟨hraised, hkept, hfault, hlow⟩ := hstatus
    refine ⟨_, hexec, ?_, ?_, writerWentOn_of_goOn ?_, hraised, hkept, hfault, ?_, ?_, ?_⟩
    · cases passed <;> rfl
    · cases passed <;> rfl
    · cases passed <;> rfl
    · rw [hlow]
      cases passed <;> simp [State.challengeLow, Config.lowMargin, State.endReserveProgram, State.nvNext]
    · cases passed <;> exact State.beginLoad_began _
    · cases passed <;> rfl

end Sys2Proof.Proofs
end

