-- ==== Sys2Proof/Proofs/SlotJobs.lean ====
section
/-! SUPPORT. The slot jobs of the engine, as they are taken and as they end, in the words of the statements: O19, O20,
O22, O23 and O24 (R40 to R48). -/

namespace Sys2Proof.Safety

open Sys2Proof.Machine

/-- Counting another event than the end states' own leaves what the end of a slot says. -/
theorem SlotEnded.bump {s t : State} {r : SlotRef} {c : SlotCtx} (h : SlotEnded r c s t) {k : Counter}
    (hk : k ≠ .expired ∧ k ≠ .faulted) : SlotEnded r c s (t.bump k 1) := by
  obtain ⟨h1, h2, h3, h4, h5, h6⟩ := h
  exact ⟨h1, h2, h3, h4, fun e => by rw [State.counter_bump_of_ne _ _ _ _ hk.1.symm, h5 e],
    fun e => by rw [State.counter_bump_of_ne _ _ _ _ hk.2.symm, h6 e]⟩

end Sys2Proof.Safety

namespace Sys2Proof.Machine

open Sys2Proof.Safety

/-! ### The end of a slot job -/

/-- In another end state than EXPIRED and FAULTED nothing is counted (R7). -/
theorem State.counter_enterEnd_of_other (v : State) (r : SlotRef) {c : SlotCtx}
    (hc : c.state ≠ .expired ∧ c.state ≠ .faulted)
    (k : Counter) : (v.enterEnd r c).counter k = v.counter k := by
  rw [State.counter_enterEnd, if_neg]; simp [hc]

/-- A slot ends in REJECTED, VERIFIED or SEALED with one event counted; `v` is `s` with its engine, filter and this slot
changed (R7, R46). -/
theorem slotEnded_counting {s v : State} {r : SlotRef} {c c0 : SlotCtx} {k : Counter} (hc0 : s.ctx? r = some c0)
    (hs : (v.setCtx r c).slots.contexts = (s.setCtx r c).slots.contexts) (hv : v.status = s.status)
    (hc : c.state ≠ .expired ∧ c.state ≠ .faulted) (hk : k ≠ .expired ∧ k ≠ .faulted) :
    SlotEnded r c s ((v.enterEnd r c).bump k 1) ∧
      ((v.enterEnd r c).bump k 1).counter k = counted (s.counter k) ∧
      CountersKept [k] s ((v.enterEnd r c).bump k 1) := by
  have hstatus : (v.enterEnd r c).status = (s.enterEnd r c).status := by
    simp only [State.enterEnd, State.countEnd, State.bump, State.raise, State.setCtx, State.counter, hv]
  have hend : SlotEnded r c s (v.enterEnd r c) := slotEnded_of_status hc0 hs hstatus
  have hcounter : ∀ n, v.counter n = s.counter n := fun n => by simp only [State.counter, hv]
  refine ⟨hend.bump hk, ?_, fun n hn => ?_⟩
  · rw [State.counter_bump_self, saturate_one, State.counter_enterEnd_of_other v r hc, hcounter]
  · rw [State.counter_bump_of_ne _ _ _ _ (by simpa using hn), State.counter_enterEnd_of_other v r hc, hcounter]

@[simp] theorem State.counter_settleHolds (u : State) (k : Counter) : u.settleHolds.counter k = u.counter k := rfl

/-- After a slot job has ended its slot, held reads are settled: none is held for the slot (R25). -/
theorem settled_of_slotEnded {s u : State} {r : SlotRef} {c : SlotCtx} {l : List Counter} (hend : SlotEnded r c s u)
    (hcount : CountersKept l s u) (hj : inJob c = false) (hp : u.path = s.path) (hm : u.memOut = s.memOut)
    (hs : u.sysOut = s.sysOut) :
    SlotEnded r c s u.settleHolds ∧ CountersKept l s u.settleHolds ∧ NoReadHeldFor r u.settleHolds ∧
      HeldReadsSettled [] s u.settleHolds ∧ u.settleHolds.path.refusal = s.path.refusal :=
  ⟨hend, hcount, State.noReadHeldFor_settleHolds u r c hend.1 hj,
    heldReadsSettled_of_settleHolds (u := u) (by rw [hp]) hm hs (by simp) rfl rfl rfl (List.append_nil _).symm,
    by rw [← hp]; rfl⟩

/-- A slot job ends its slot and no event but the end state's own is counted; `v` is `s` with its engine and this slot
changed. -/
theorem settled_of_enterEnd {s v : State} {r : SlotRef} {c c0 : SlotCtx} (l : List Counter) (hc0 : s.ctx? r = some c0)
    (hs : (v.setCtx r c).slots.contexts = (s.setCtx r c).slots.contexts) (hv : v.status = s.status)
    (he : c.state = .expired → .expired ∈ l) (hf : c.state = .faulted → .faulted ∈ l) (hj : inJob c = false)
    (hp : v.path = s.path) (hm : v.memOut = s.memOut) (ho : v.sysOut = s.sysOut) :
    SlotEnded r c s (v.enterEnd r c).settleHolds ∧ CountersKept l s (v.enterEnd r c).settleHolds ∧
      NoReadHeldFor r (v.enterEnd r c).settleHolds ∧ HeldReadsSettled [] s (v.enterEnd r c).settleHolds ∧
      (v.enterEnd r c).settleHolds.path.refusal = s.path.refusal := by
  have hstatus : (v.enterEnd r c).status = (s.enterEnd r c).status := by
    simp only [State.enterEnd, State.countEnd, State.bump, State.raise, State.setCtx, State.counter, hv]
  exact settled_of_slotEnded (slotEnded_of_status hc0 hs hstatus) (countersKept_of_enterEnd hstatus he hf) hj
    (by simp [hp]) (by simp [hm]) (by simp [ho])

/-- A slot job ends its slot in REJECTED, VERIFIED or SEALED with one event counted, before held reads are settled; `v`
is `s` with its engine, its filter and this slot changed. -/
theorem slotEnded_of_delivery {s v : State} {r : SlotRef} {c c0 : SlotCtx} {k : Counter} (hc0 : s.ctx? r = some c0)
    (hs : v.slots = s.slots) (hv : v.status = s.status) (hc : c.state ≠ .expired ∧ c.state ≠ .faulted)
    (hk : k ≠ .expired ∧ k ≠ .faulted) :
    SlotEnded r c s ((v.enterEnd r c).bump k 1) ∧
      ((v.enterEnd r c).bump k 1).counter k = counted (s.counter k) ∧
      CountersKept [k] s ((v.enterEnd r c).bump k 1) :=
  slotEnded_counting hc0 (by simp only [State.setCtx, hs]) hv hc hk

/-- The slots after one slot has entered an end state. -/
@[simp] theorem State.enterEnd_slots (v : State) (r : SlotRef) (c : SlotCtx) :
    (v.enterEnd r c).slots = { v.slots with contexts := (v.setCtx r c).slots.contexts } := rfl

/-- A state that differs from `s` in its contexts, engine, filter, status, path and what it has sent, and no further. -/
theorem State.eq_of_frame_filter {s t : State} (hlife : t.life = s.life) (htime : t.time = s.time)
    (hmap : t.map = s.map)
    (hslots : t.slots = { s.slots with contexts := t.slots.contexts }) (hkeys : t.keys = s.keys) (hnv : t.nv = s.nv)
    (hwriter : t.writer = s.writer) (hfree : t.freeCount = s.freeCount) (hpending : t.pending = s.pending) :
    t = { s with
      slots := { s.slots with contexts := t.slots.contexts }, engine := t.engine, filter := t.filter
      status := t.status, path := t.path, memOut := t.memOut, sysOut := t.sysOut } := by
  rw [← hslots, ← hlife, ← htime, ← hmap, ← hkeys, ← hnv, ← hwriter, ← hfree, ← hpending]

/-- The same, where the filter stays too. -/
theorem State.eq_of_frame {s t : State} (hlife : t.life = s.life) (htime : t.time = s.time) (hmap : t.map = s.map)
    (hslots : t.slots = { s.slots with contexts := t.slots.contexts }) (hfilter : t.filter = s.filter)
    (hkeys : t.keys = s.keys) (hnv : t.nv = s.nv) (hwriter : t.writer = s.writer) (hfree : t.freeCount = s.freeCount)
    (hpending : t.pending = s.pending) :
    t = { s with
      slots := { s.slots with contexts := t.slots.contexts }, engine := t.engine
      status := t.status, path := t.path, memOut := t.memOut, sysOut := t.sysOut } := by
  rw [← hfilter]
  exact State.eq_of_frame_filter hlife htime hmap hslots hkeys hnv hwriter hfree hpending

/-- A BUSY slot's job completes with its result delivered (R45). -/
theorem State.completeSlotJob_delivered {s : State} {r : SlotRef} {c : SlotCtx} (deliver : SlotCtx → State → State)
    (hc : s.ctx? r = some c) (hb : c.state = .busy) (hw : c.withdrawn = false) :
    s.completeSlotJob r false deliver = (deliver c s.idleEngine).settleHolds := by
  rw [State.completeSlotJob_busy deliver hc hb, if_neg (by simp [hw])]

/-! ### Selecting a key (R43, R47) -/

/-- The choice between the best entry so far and the next candidate (R47). -/
def higherVersion (version : Fin 64 → BitVec 4) (best : Option (Fin 64)) (k : Fin 64) : Option (Fin 64) :=
  match best with
  | none => some k
  | some b => if version b < version k then some k else best

theorem State.selectRecord_eq (s : State) (keySet : Byte) :
    s.selectRecord keySet =
      ((List.finRange 64).filter (s.recordCandidate keySet)).foldl (higherVersion fun k => (s.entry k).version) none :=
  rfl

/-- What the choice over a list gives: an entry of it, or the best before it, at least as high as each. -/
theorem foldl_higherVersion (version : Fin 64 → BitVec 4) (l : List (Fin 64)) (best : Option (Fin 64))
    (h : l ≠ [] ∨ best ≠ none) :
    ∃ k, l.foldl (higherVersion version) best = some k ∧ (k ∈ l ∨ best = some k) ∧
      (∀ j, j ∈ l ∨ best = some j → version j ≤ version k) := by
  induction l generalizing best with
  | nil =>
    obtain ⟨k, hk⟩ := Option.ne_none_iff_exists'.mp (h.resolve_left fun h => h rfl)
    refine ⟨k, hk, .inr hk, fun j hj => ?_⟩
    have : some k = some j := by rw [← hk]; simpa using hj
    rw [Option.some.inj this]; exact BitVec.le_refl _
  | cons a l ih =>
    have hnext : ∃ b, higherVersion version best a = some b ∧ (b = a ∨ best = some b) ∧ version a ≤ version b ∧
        ∀ j, best = some j → version j ≤ version b := by
      cases best with
      | none => exact ⟨a, rfl, .inl rfl, BitVec.le_refl _, by simp⟩
      | some b =>
        by_cases hlt : version b < version a
        · exact ⟨a, by simp [higherVersion, hlt], .inl rfl, BitVec.le_refl _,
            fun j hj => by cases hj; exact BitVec.le_of_lt hlt⟩
        · exact ⟨b, by simp [higherVersion, hlt], .inr rfl, BitVec.not_lt.mp hlt,
            fun j hj => by cases hj; exact BitVec.le_refl _⟩
    obtain ⟨b, hb, hfrom, ha, hbest⟩ := hnext
    obtain ⟨k, hk, hmem, hmax⟩ := ih (some b) (.inr (by simp))
    have hbk := hmax b (.inr rfl)
    refine ⟨k, by rw [List.foldl_cons, hb, hk], ?_, fun j hj => ?_⟩
    · rcases hmem with hmem | hmem
      · exact .inl (List.mem_cons_of_mem _ hmem)
      · cases hmem
        exact hfrom.imp_left fun e => by simp [e]
    · rcases hj with hj | hj
      · rcases List.mem_cons.mp hj with rfl | hj
        · exact BitVec.le_trans ha hbk
        · exact hmax j (.inl hj)
      · exact BitVec.le_trans (hbest j hj) hbk

/-- The SEAL job finds the candidate of the highest version (R47). -/
theorem State.selectRecord_some {s : State} {keySet : Byte} (h : ∃ k, s.recordCandidate keySet k = true) :
    ∃ k, s.selectRecord keySet = some k ∧ s.recordCandidate keySet k = true ∧
      ∀ j, s.recordCandidate keySet j = true → (s.entry j).version ≤ (s.entry k).version := by
  have hmem : ∀ k, k ∈ (List.finRange 64).filter (s.recordCandidate keySet) ↔ s.recordCandidate keySet k = true :=
    fun k => by simp [List.mem_filter]
  obtain ⟨k0, h0⟩ := h
  obtain ⟨k, hk, hfrom, hmax⟩ := foldl_higherVersion (fun k => (s.entry k).version)
    ((List.finRange 64).filter (s.recordCandidate keySet)) none (.inl (List.ne_nil_of_mem ((hmem k0).mpr h0)))
  refine ⟨k, s.selectRecord_eq keySet ▸ hk, (hmem k).mp (hfrom.resolve_right (by simp)), fun j hj => ?_⟩
  exact hmax j (.inl ((hmem j).mpr hj))

theorem State.selectRecord_none {s : State} {keySet : Byte} (h : ∀ k, s.recordCandidate keySet k = false) :
    s.selectRecord keySet = none := by
  rw [State.selectRecord_eq, List.filter_eq_nil_iff.mpr fun k _ => by simp [h k]]; rfl

/-- The idle engine takes the slot at the head of its FIFO, unless an import job has waited for eight (R40). -/
theorem exec_engineTakeJob_slot {s : State} {r : SlotRef} {rest : List SlotRef} (hj : s.engine.job = none)
    (hf : s.engine.fifo = r :: rest) (hw : s.engine.importPlace = none ∨ s.engine.waitCount < 8) :
    exec .engineTakeJob s = .next (s.takeSlotJob r rest) := by
  show execEngineTakeJob s = _
  simp only [execEngineTakeJob, hj, State.arbitrate, hf]
  cases hp : s.engine.importPlace with
  | none => rfl
  | some kind => simp [hw.resolve_left (by simp [hp])]

/-- The engine as it pops the head of its FIFO: the wait count as the statements write it (R39). -/
theorem State.popFifo_engine (s : State) (rest : List SlotRef) :
    (s.popFifo rest).engine = { s.engine with
      fifo := rest
      waitCount := if s.engine.importPlace = none then s.engine.waitCount else s.engine.waitCount + 1 } := by
  cases hp : s.engine.importPlace <;> simp [State.popFifo, hp]

/-- The part as a slot job that completes when it is taken finds it: the FIFO popped, the slot BUSY, the engine idle. -/
def State.takenAtOnce (s : State) (r : SlotRef) (rest : List SlotRef) (c : SlotCtx) : State :=
  ((s.popFifo rest).setCtx r { c with state := .busy }).idleEngine

theorem State.takenAtOnce_contexts (s : State) (r : SlotRef) (rest : List SlotRef) (c c' : SlotCtx) :
    ((s.takenAtOnce r rest c).setCtx r c').slots.contexts = (s.setCtx r c').slots.contexts := by
  have h := congrArg (fun u : State => u.slots.contexts)
    ((s.popFifo rest).setCtx_setCtx r { c with state := .busy } c')
  exact h

/-- `takenAtOnce` changes at most: slots, engine. -/
@[simp] theorem State.takenAtOnce_frame (s : State) (r : SlotRef) (rest : List SlotRef) (c : SlotCtx) :
    (s.takenAtOnce r rest c).life = s.life ∧ (s.takenAtOnce r rest c).time = s.time ∧
    (s.takenAtOnce r rest c).status = s.status ∧ (s.takenAtOnce r rest c).path = s.path ∧
    (s.takenAtOnce r rest c).map = s.map ∧ (s.takenAtOnce r rest c).filter = s.filter ∧
    (s.takenAtOnce r rest c).keys = s.keys ∧ (s.takenAtOnce r rest c).nv = s.nv ∧
    (s.takenAtOnce r rest c).writer = s.writer ∧ (s.takenAtOnce r rest c).memOut = s.memOut ∧
    (s.takenAtOnce r rest c).sysOut = s.sysOut ∧ (s.takenAtOnce r rest c).freeCount = s.freeCount ∧
    (s.takenAtOnce r rest c).pending = s.pending := by
  (repeat' apply And.intro) <;> rfl

/-- `takenAtOnce` changes of the Slot Unit at most the contexts. -/
@[simp] theorem State.takenAtOnce_slots (s : State) (r : SlotRef) (rest : List SlotRef) (c : SlotCtx) :
    (s.takenAtOnce r rest c).slots.counter = s.slots.counter ∧
    (s.takenAtOnce r rest c).slots.ceiling = s.slots.ceiling ∧
    (s.takenAtOnce r rest c).slots.exhausted = s.slots.exhausted ∧
    (s.takenAtOnce r rest c).slots.reservationPending = s.slots.reservationPending := by
  (repeat' apply And.intro) <;> rfl

theorem State.takenAtOnce_engine (s : State) (r : SlotRef) (rest : List SlotRef) (c : SlotCtx) :
    (s.takenAtOnce r rest c).engine = { s.engine with
      fifo := rest
      waitCount := if s.engine.importPlace = none then s.engine.waitCount else s.engine.waitCount + 1
      job := none } := by
  show { (s.popFifo rest).engine with job := none } = _
  rw [s.popFifo_engine]

/-- A slot job that completes as it is taken delivers its result (R43, R47, R55). -/
theorem State.completeSlotJob_atOnce {s : State} {r : SlotRef} {c : SlotCtx} (rest : List SlotRef)
    (deliver : SlotCtx → State → State) (hc : s.ctx? r = some c) (hw : c.withdrawn = false) :
    ((s.popFifo rest).setCtx r { c with state := .busy }).completeSlotJob r false deliver =
      (deliver { c with state := .busy } (s.takenAtOnce r rest c)).settleHolds :=
  State.completeSlotJob_delivered deliver (ctx?_of_setCtx hc rfl) rfl hw

/-! ### The completions (R44, R45, R48) -/

/-- `idleEngine` changes at most: engine. -/
@[simp] theorem State.idleEngine_frame (s : State) :
    s.idleEngine.life = s.life ∧ s.idleEngine.time = s.time ∧ s.idleEngine.status = s.status ∧
    s.idleEngine.path = s.path ∧ s.idleEngine.map = s.map ∧ s.idleEngine.slots = s.slots ∧
    s.idleEngine.filter = s.filter ∧ s.idleEngine.keys = s.keys ∧ s.idleEngine.nv = s.nv ∧
    s.idleEngine.writer = s.writer ∧ s.idleEngine.memOut = s.memOut ∧ s.idleEngine.sysOut = s.sysOut ∧
    s.idleEngine.freeCount = s.freeCount ∧ s.idleEngine.pending = s.pending := by
  (repeat' apply And.intro) <;> rfl

@[simp] theorem State.idleEngine_engine (s : State) : s.idleEngine.engine = { s.engine with job := none } := rfl

/-- The part after a VERIFY result has been delivered and one event counted, `f` being the filter then. -/
def State.verifyDelivered (s : State) (f : Filter) (r : SlotRef) (c : SlotCtx) (k : Counter) : State :=
  ({ s.idleEngine with filter := f }.enterEnd r c).bump k 1

/-- What the delivery of a VERIFY result leaves (R45, R46). -/
theorem State.settled_verifyDelivered {s : State} (f : Filter) {r : SlotRef} {c c0 : SlotCtx} {k : Counter}
    (hc0 : s.ctx? r = some c0) (hc : c.state ≠ .expired ∧ c.state ≠ .faulted) (hj : inJob c = false)
    (hk : k ≠ .expired ∧ k ≠ .faulted) {t : State} (ht : t = (s.verifyDelivered f r c k).settleHolds) :
    t.engine = { s.engine with job := none } ∧ NoReadHeldFor r t ∧ HeldReadsSettled [] s t ∧
      t.path.refusal = s.path.refusal ∧
      t = { s with
        slots := { s.slots with contexts := t.slots.contexts }, engine := t.engine, filter := t.filter
        status := t.status, path := t.path, memOut := t.memOut, sysOut := t.sysOut } ∧
      SlotEnded r c s t ∧ t.filter = f ∧ t.counter k = counted (s.counter k) ∧ CountersKept [k] s t := by
  subst ht
  simp only [State.verifyDelivered]
  obtain ⟨hend, hcounted, hcount⟩ := slotEnded_of_delivery (v := { s.idleEngine with filter := f }) hc0 rfl rfl hc hk
  obtain ⟨hend, hcount, hnone, hheld, hrefusal⟩ := settled_of_slotEnded hend hcount hj (by simp) (by simp) (by simp)
  rw [← State.counter_settleHolds] at hcounted
  exact ⟨by simp, hnone, hheld, hrefusal, State.eq_of_frame_filter (by simp) (by simp) (by simp) (by simp) (by simp)
    (by simp) (by simp) (by simp) (by simp), hend, by simp, hcounted, hcount⟩

/-- The same where an eviction is counted besides (R46, R86). -/
theorem State.settled_evicted {s : State} (f : Filter) {r : SlotRef} {c c0 : SlotCtx} (hc0 : s.ctx? r = some c0)
    (hc : c.state ≠ .expired ∧ c.state ≠ .faulted) (hj : inJob c = false) {t : State}
    (ht : t = ((s.verifyDelivered f r c .accept).bump .evictions 1).settleHolds) :
    t.engine = { s.engine with job := none } ∧ NoReadHeldFor r t ∧ HeldReadsSettled [] s t ∧
      t.path.refusal = s.path.refusal ∧
      t = { s with
        slots := { s.slots with contexts := t.slots.contexts }, engine := t.engine, filter := t.filter
        status := t.status, path := t.path, memOut := t.memOut, sysOut := t.sysOut } ∧
      SlotEnded r c s t ∧ t.filter = f ∧ t.counter .accept = counted (s.counter .accept) ∧
      t.counter .evictions = counted (s.counter .evictions) ∧ CountersKept [.accept, .evictions] s t := by
  subst ht
  simp only [State.verifyDelivered]
  obtain ⟨hend, haccept, hcount⟩ :=
    slotEnded_of_delivery (v := { s.idleEngine with filter := f }) (k := .accept) hc0 rfl
    rfl hc (by simp)
  have hevictions := congrArg counted (hcount .evictions (by simp))
  rw [← saturate_one, ← State.counter_bump_self] at hevictions
  rw [← State.counter_bump_of_ne _ .evictions .accept 1 (by simp)] at haccept
  obtain ⟨hend, hcount, hnone, hheld, hrefusal⟩ :=
    settled_of_slotEnded (l := [.accept, .evictions]) (hend.bump (k := .evictions) (by simp))
      (fun k hk => by
        simp only [List.mem_cons, List.not_mem_nil, or_false, not_or] at hk
        rw [State.counter_bump_of_ne _ _ _ _ hk.2, hcount k (by simp [hk.1])])
      hj (by simp) (by simp) (by simp)
  rw [← State.counter_settleHolds] at haccept hevictions
  exact ⟨by simp, hnone, hheld, hrefusal, State.eq_of_frame_filter (by simp) (by simp) (by simp) (by simp) (by simp)
    (by simp) (by simp) (by simp) (by simp), hend, by simp, haccept, hevictions, hcount⟩

theorem exec_verifyComplete {s : State} {r : SlotRef} {discard : Bool} {g : BitVec 8} {epoch : BitVec 16} {key : Block}
    (hj : s.engine.job = some { work := .verify r g epoch key, discard := discard }) :
    exec .verifyComplete s =
      .next (s.completeSlotJob r discard fun c t => t.deliverVerify r g (verifyResult key c) c) := by
  show execVerifyComplete s = _
  simp only [execVerifyComplete, hj]

theorem exec_sealComplete {s : State} {r : SlotRef} {discard : Bool} {g : BitVec 8} {epoch : BitVec 16} {key : Block}
    (hj : s.engine.job = some { work := .sealing r g epoch key, discard := discard }) :
    exec .sealComplete s = .next (s.completeSlotJob r discard fun c t => t.deliverSeal r (some key) c) := by
  show execSealComplete s = _
  simp only [execSealComplete, hj]

/-- A completion row completes the slot job in work, whatever is delivered (R45). -/
theorem exec_completion {row : Instr} {s : State} {r : SlotRef} {discard : Bool} {g : BitVec 8} {epoch : BitVec 16}
    {key : Block}
    (h : (row = .verifyComplete ∧ s.engine.job = some { work := .verify r g epoch key, discard := discard }) ∨
      (row = .sealComplete ∧ s.engine.job = some { work := .sealing r g epoch key, discard := discard })) :
    ∃ deliver, exec row s = .next (s.completeSlotJob r discard deliver) := by
  rcases h with ⟨rfl, hj⟩ | ⟨rfl, hj⟩
  · exact ⟨_, exec_verifyComplete hj⟩
  · exact ⟨_, exec_sealComplete hj⟩

end Sys2Proof.Machine

namespace Sys2Proof.Proofs

open Sys2Proof.Machine Sys2Proof.Safety

/-- Settles O20. -/
theorem engineTakesSealJob : Obligations.EngineTakesSealJob := by
  intro s r rest c hj hf hw hc hkind hwd
  rw [exec_engineTakeJob_slot hj hf hw]
  refine ⟨fun h => ?_, fun h => ?_⟩
  · obtain ⟨k, hsel, hcand, hmax⟩ := State.selectRecord_some h
    rw [State.takeSlotJob_sealing rest hc hkind hsel]
    simp only [State.recordCandidate, usableAt, Bool.and_eq_true, beq_iff_eq, decide_eq_true_eq] at hcand
    obtain ⟨⟨husage, hset⟩, ⟨hloaded, hfrom⟩, huntil⟩ := hcand
    refine ⟨_, k, rfl, husage, hset, hloaded, hfrom, huntil, hmax, ctx?_of_setCtx hc rfl, otherSlotsKept_of_setCtx rfl,
      ?_, rfl⟩
    simp only [State.startJob]
    rw [show ((s.popFifo rest).setCtx r { c with state := .busy, recordEntry := some k }).engine =
      (s.popFifo rest).engine from rfl, s.popFifo_engine]
  · have htake : s.takeSlotJob r rest =
        ((s.takenAtOnce r rest c).enterEnd r (faultCtx .noRecordKey c)).settleHolds := by
      rw [State.takeSlotJob_sealing_failing rest hc hkind (State.selectRecord_none h),
        State.completeSlotJob_atOnce rest _ hc hwd]; rfl
    rw [htake]
    obtain ⟨hend, hcount, hnone, hheld, hrefusal⟩ := settled_of_enterEnd [.faulted] hc
      (s.takenAtOnce_contexts r rest c (faultCtx .noRecordKey c)) (by simp) (by simp [faultCtx]) (by simp) rfl (by simp)
      (by simp) (by simp)
    exact ⟨_, rfl, hend, hcount, hnone, hheld, hrefusal,
      by simp [s.takenAtOnce_engine], State.eq_of_frame (by simp) (by simp)
      (by simp) (by simp) (by simp) (by simp) (by simp) (by simp) (by simp) (by simp)⟩

/-- Settles O19: the lookup starts the job, or ends it with its reason. -/
theorem engineTakesVerifyJob : Obligations.EngineTakesVerifyJob := by
  intro s r rest c hj hf hw hc hkind hwd
  rw [exec_engineTakeJob_slot hj hf hw]
  refine ⟨fun k hk hloaded hfrom huntil => ?_, fun reason hreason => ?_⟩
  · have hlookup : s.lookupTag c = .inr k := by simp [State.lookupTag, hk, hloaded, usableAt, hfrom, huntil]
    rw [State.takeSlotJob_verify r rest s c k hc hkind hlookup]
    refine ⟨_, rfl, ctx?_of_setCtx hc rfl, otherSlotsKept_of_setCtx rfl, ?_, rfl⟩
    simp only [State.startJob]
    rw [show ((s.popFifo rest).setCtx r (derivedCtx k (deriveTagKey ((s.entry k).key.getD 0#128) c) c)).engine =
      (s.popFifo rest).engine from rfl, s.popFifo_engine]; rfl
  · have hlookup : s.lookupTag c = .inl reason := by
      simp only [State.lookupTag]
      cases hfind : s.findEntry .tag (tagKeySet c) ((tagVersion c).setWidth 8) with
      | none => simp only [hfind] at hreason; rw [hreason]
      | some k =>
        simp only [hfind] at hreason
        rcases hreason with ⟨h, rfl⟩ | ⟨h, rfl⟩ | ⟨h, rfl, he⟩
        · simp only [h]
        · simp only [h]
        · have : usableAt (s.entry k) s.time.epoch = false := Bool.eq_false_iff.mpr fun hu => by
            simp only [usableAt, Bool.and_eq_true, decide_eq_true_eq] at hu
            exact he.elim (BitVec.not_lt.mpr hu.1.2) (BitVec.not_lt.mpr hu.2)
          simp [h, this]
    have htake : s.takeSlotJob r rest =
        (((s.takenAtOnce r rest c).enterEnd r (rejectCtx reason c)).bump .key 1).settleHolds := by
      rw [State.takeSlotJob_verify_failing rest hc hkind hlookup, State.completeSlotJob_atOnce rest _ hc hwd]; rfl
    rw [htake]
    obtain ⟨hend, hkey, hcount⟩ := slotEnded_counting (k := .key) hc
      (s.takenAtOnce_contexts r rest c (rejectCtx reason c)) rfl (by simp [rejectCtx]) (by simp)
    obtain ⟨hend, hcount, hnone, hheld, hrefusal⟩ :=
      settled_of_slotEnded hend hcount rfl (by simp) (by simp) (by simp)
    rw [← State.counter_settleHolds] at hkey
    exact ⟨_, rfl, hend, hkey, hcount, hnone, hheld, hrefusal, by simp [s.takenAtOnce_engine],
      State.eq_of_frame (by simp) (by simp) (by simp) (by simp) (by simp) (by simp) (by simp) (by simp) (by simp)
        (by simp)⟩

/-- Settles O23. -/
theorem sealResultIsDelivered : Obligations.SealResultIsDelivered := by
  intro s r g epoch recordKey c tagKey hj hc hb hwd hkey
  have hexec : exec .sealComplete s = .next (s.idleEngine.enterEnd r { c with
      state := .sealed, jobKind := none, derivedKey := none
      mac := some (tagWriteMac (s.descriptor r.group).macLength tagKey c)
      recordSeal := some (recordSealOf recordKey c) }).settleHolds := by
    rw [exec_sealComplete hj, State.completeSlotJob_delivered _ hc hb hwd]
    simp only [State.deliverSeal, hkey, Option.getD_some]; rfl
  rw [hexec]
  obtain ⟨hend, hcount, hnone, hheld, hrefusal⟩ := settled_of_enterEnd (v := s.idleEngine)
    (c := { c with
      state := .sealed, jobKind := none, derivedKey := none
      mac := some (tagWriteMac (s.descriptor r.group).macLength tagKey c)
      recordSeal := some (recordSealOf recordKey c) })
    [] hc rfl (by simp) (by simp) (by simp) rfl (by simp) (by simp) (by simp)
  exact ⟨_, rfl, by simp, hnone, hheld, hrefusal, hend, hcount,
    State.eq_of_frame (by simp) (by simp) (by simp) (by simp) (by simp) (by simp) (by simp) (by simp) (by simp)
      (by simp)⟩

/-- Settles O24: the three ends of R45 that deliver nothing, in their order. -/
theorem undeliveredJobsEndByChecks : Obligations.UndeliveredJobsEndByChecks := by
  rintro row s r discard ⟨g, epoch, key, hrow⟩
  obtain ⟨deliver, hexec⟩ := exec_completion hrow
  rw [hexec]
  refine ⟨fun hd => ?_, fun c hd hc ha => ?_, fun c hd hc hb hwd => ?_⟩
  · rw [hd, State.completeSlotJob_discarded]; rfl
  · rw [hd, State.completeSlotJob_aborting deliver hc ha]
    have hctx : (s.idleEngine.setCtx r (clearCtx c)).ctx? r = some (clearCtx c) := ctx?_of_setCtx hc rfl
    exact ⟨_, rfl, hctx, otherSlotsKept_of_setCtx rfl, State.noReadHeldFor_settleHolds _ r _ hctx rfl,
      heldReadsSettled_of_settleHolds (u := s.idleEngine.setCtx r (clearCtx c)) rfl rfl rfl (by simp) rfl rfl rfl
        (List.append_nil _).symm, rfl, rfl⟩
  · rw [hd, State.completeSlotJob_busy deliver hc hb, if_pos hwd]
    obtain ⟨hend, hcount, hnone, hheld, hrefusal⟩ := settled_of_enterEnd (v := s.idleEngine)
      (c := faultCtx .keyWithdrawn c) [.faulted] hc rfl (by simp) (by simp [faultCtx]) (by simp) rfl (by simp) (by simp)
      (by simp)
    refine ⟨_, rfl, hend, hcount, hnone, hheld, hrefusal, ?_⟩
    have := State.eq_of_frame (s := s) (t := (s.idleEngine.enterEnd r (faultCtx .keyWithdrawn c)).settleHolds) (by simp)
      (by simp) (by simp) (by simp) (by simp) (by simp) (by simp) (by simp) (by simp) (by simp)
    simpa using this

/-- Settles O22: the comparison of the authenticators, then the class that the filter gives. -/
theorem verifyResultIsDelivered : Obligations.VerifyResultIsDelivered := by
  intro s r g epoch tagKey c hj hc hb hwd
  rw [exec_verifyComplete hj, State.completeSlotJob_delivered _ hc hb hwd]
  by_cases hmac : tagAuth tagKey c = c.inbound[3]
  · have hres : verifyResult tagKey c = .authenticated := if_pos hmac
    have hreading : readingOf r g c s.idleEngine.time.lt =
        { keySet := tagKeySet c, tagId := c.inbound[1], counter := tagCounter c, now := s.time.lt
          ref := { slot := r, generation := g, antenna := tagAntenna c } } := rfl
    simp only [hres, State.deliverVerify, hreading, show s.idleEngine.filter = s.filter from rfl]
    generalize s.filter.classify _ = out
    obtain ⟨f, cls⟩ := out
    cases cls with
    | accept evicted =>
      cases evicted with
      | false =>
        obtain ⟨h1, h2, h3, h4, h5, hend, hfilter, haccept, hcount⟩ := State.settled_verifyDelivered f
          (c := { c with state := .verified, jobKind := none, verdict := some .accept }) (k := .accept) hc (by simp) rfl
          (by simp) rfl
        have hkept := hcount .evictions (by simp)
        exact ⟨_, rfl, h1, h2, h3, h4, h5, fun h => absurd hmac h, fun _ => ⟨hfilter, hend, haccept, hkept,
          fun k hk => hcount k (by simp only [List.mem_cons, not_or] at hk ⊢; exact ⟨hk.1, List.not_mem_nil⟩)⟩⟩
      | true =>
        obtain ⟨h1, h2, h3, h4, h5, hend, hfilter, haccept, hevictions, hcount⟩ := State.settled_evicted f
          (c := { c with state := .verified, jobKind := none, verdict := some .accept }) hc (by simp) rfl rfl
        exact ⟨_, rfl, h1, h2, h3, h4, h5, fun h => absurd hmac h,
          fun _ => ⟨hfilter, hend, haccept, hevictions, hcount⟩⟩
    | duplicate info =>
      obtain ⟨h1, h2, h3, h4, h5, hend, hfilter, hdup, hcount⟩ := State.settled_verifyDelivered f
        (c := { rejectCtx .duplicate c with duplicate := some info }) (k := .duplicate) hc (by simp [rejectCtx]) rfl
        (by simp) rfl
      exact ⟨_, rfl, h1, h2, h3, h4, h5, fun h => absurd hmac h, fun _ => ⟨hfilter, hend, hdup, hcount⟩⟩
    | replay =>
      obtain ⟨h1, h2, h3, h4, h5, hend, hfilter, hreplay, hcount⟩ := State.settled_verifyDelivered f
        (c := rejectCtx .replay c) (k := .replay) hc (by simp [rejectCtx]) rfl (by simp) rfl
      exact ⟨_, rfl, h1, h2, h3, h4, h5, fun h => absurd hmac h, fun _ => ⟨hfilter, hend, hreplay, hcount⟩⟩
  · have hres : verifyResult tagKey c = .badMac := if_neg hmac
    rw [hres]
    obtain ⟨h1, h2, h3, h4, h5, hend, hfilter, hbad, hcount⟩ := State.settled_verifyDelivered s.filter
      (c := rejectCtx .badMac c) (k := .badMac) hc (by simp [rejectCtx]) rfl (by simp) rfl
    exact ⟨_, rfl, h1, h2, h3, h4, h5, fun _ => ⟨hend, hfilter, hbad, hcount⟩, fun h => absurd h hmac⟩

end Sys2Proof.Proofs
end

