-- ==== Sys2Proof/Proofs/Reads.lean ====
section
/-! SUPPORT. A read as it is taken, held, answered or forwarded, and the end of a held read at its limit: O42 and O43
(R24, R25, R119, R137, R143). -/

namespace Sys2Proof.Machine

open Sys2Proof.Safety

/-! ### Pending words (R24) -/

/-- A word is pending where the model finds its slot still in the job that the word belongs to. -/
theorem pendingWord_iff {s : State} {ref : SlotRef} {word : Fin 16} :
    PendingWord s (.slot ref word) ↔ (word.val = 3 ∨ 14 ≤ word.val) ∧
      s.stillHolds (ref, if word.val = 3 then JobKind.verify else .sealing) = true := by
  have h14 : 14 ≤ word.val ↔ word = 14 ∨ word = 15 := by
    refine ⟨fun h => ?_, by rintro (rfl | rfl) <;> decide⟩
    have : word.val = 14 ∨ word.val = 15 := by omega
    exact this.imp Fin.ext Fin.ext
  have hunfold : PendingWord s (.slot ref word) ↔
      (word = 3 ∧ InJob s (ref, .verify)) ∨ ((word = 14 ∨ word = 15) ∧ InJob s (ref, .sealing)) :=
    ⟨fun ⟨_, _, e, h⟩ => by cases e; exact h, fun h => ⟨ref, word, rfl, h⟩⟩
  rw [hunfold, h14, State.stillHolds_iff]
  by_cases hw : word = 3
  · subst hw; simp
  · have hv : ¬word.val = 3 := fun h => hw (Fin.ext h)
    simp [hw, hv]

/-- A place holds a read where its word's slot job is pending. -/
theorem State.holdCause_eq_some {s : State} {p : Place} {w : SlotRef × JobKind} :
    s.holdCause p = some w ↔ ∃ word, p = .slot w.1 word ∧ PendingWord s p ∧
      w.2 = if word = 3 then JobKind.verify else .sealing := by
  obtain ⟨ref', kind⟩ := w
  cases p with
  | slot ref word =>
    have hkind : (if word.val = 3 then JobKind.verify else .sealing) = if word = 3 then JobKind.verify else .sealing :=
      if_congr ⟨fun h => Fin.ext h, fun h => by rw [h]; rfl⟩ rfl rfl
    by_cases hp : PendingWord s (.slot ref word)
    · have hcause : s.holdCause (.slot ref word) = some (ref, if word.val = 3 then JobKind.verify else .sealing) :=
        if_pos (pendingWord_iff.mp hp)
      rw [hcause, hkind, Option.some.injEq, Prod.mk.injEq]
      exact ⟨fun ⟨e1, e2⟩ => ⟨word, by rw [e1], hp, e2.symm⟩,
        fun ⟨word', e, _, e3⟩ => by cases e; exact ⟨rfl, e3.symm⟩⟩
    · have hcause : s.holdCause (.slot ref word) = none := if_neg (mt pendingWord_iff.mpr hp)
      rw [hcause]
      exact ⟨fun e => (by cases e), fun ⟨_, _, h, _⟩ => absurd h hp⟩
  | _ => simp [State.holdCause, PendingWord]

/-- Where no word of a read is pending, nothing holds it (R24). -/
theorem State.filterMap_holdCause_eq_nil {s : State} {places : List Place} (h : ∀ p ∈ places, ¬PendingWord s p) :
    places.filterMap s.holdCause = [] :=
  List.filterMap_eq_nil_iff.mpr fun p hp => Option.eq_none_iff_forall_ne_some.mpr fun _ he => by
    obtain ⟨_, _, hpend, _⟩ := State.holdCause_eq_some.mp he
    exact h p hp hpend

/-! ### The places of a request -/

/-- A request that reaches a word of a slot reaches slots of that group alone; their group's limit is the read's (R24).
-/
theorem State.holdLimitOf_requestPlaces {s : State} {r : Request} {ref : SlotRef} {word : Fin 16}
    (h : .slot ref word ∈ s.requestPlaces r) :
    s.holdLimitOf (s.requestPlaces r) = (s.descriptor ref.group).holdLimit := by
  simp only [State.requestPlaces] at h ⊢
  split at h
  · cases h
  next region _ =>
    cases region with
    | group g =>
      obtain ⟨k, -, hk⟩ := List.mem_map.mp h
      simp only [slotPlace, Place.slot.injEq] at hk
      rw [← hk.1]
      simp only [State.placesOf, beatCount, List.range_succ_eq_map, List.map_cons]
      rfl
    | control =>
      obtain ⟨k, -, hk⟩ := List.mem_map.mp h
      simp only [controlPlace] at hk
      repeat' split at hk
      all_goals cases hk
    | _ =>
      obtain ⟨k, -, hk⟩ := List.mem_map.mp h
      cases hk

/-- Where the limit of every group a read reaches is 0, the read's limit is 0. -/
theorem State.holdLimitOf_eq_zero {s : State} {places : List Place}
    (h : ∀ ref word, .slot ref word ∈ places → (s.descriptor ref.group).holdLimit = 0#16) :
    s.holdLimitOf places = 0#16 := by
  unfold State.holdLimitOf
  split
  next ref word rest => exact h ref word (by simp)
  next => rfl

/-- When a read is not held (R24). -/
theorem State.holdCauses_eq_nil {s : State} {places : List Place}
    (h : s.status.hold = true ∨ (∀ p ∈ places, ¬PendingWord s p) ∨
      ∀ ref word, .slot ref word ∈ places → (s.descriptor ref.group).holdLimit = 0#16) :
    s.holdCauses places = [] := by
  unfold State.holdCauses
  split
  · rfl
  next hn =>
    rw [not_or] at hn
    rcases h with h | h | h
    · exact absurd h hn.2
    · exact State.filterMap_holdCause_eq_nil h
    · exact absurd (State.holdLimitOf_eq_zero h) hn.1

theorem State.latchLt_eq (s : State) (places : List Place) : s.latchLt places = latched s places := by
  simp [State.latchLt, latched]

/-! ### Responses to one initiator -/

/-- In order, the queues of a state have nothing to give (R137). -/
theorem drain_of_inOrder {s : State} (h : QueuesInOrder s) (j : Initiator) : drain (s.queue j) = ([], s.queue j) :=
  drain_of_head _ (h j).2.2.2.2

/-- Responses given after one queue alone has changed: those of that queue (R137). -/
theorem State.giveResponses_of_queue {s u : State} {i : Initiator} {q : List QueueEntry} (hord : QueuesInOrder s)
    (hu : ∀ j, u.queue j = if j = i then q else s.queue j) (hs : u.sysOut = s.sysOut) :
    u.giveResponses.queue i = (drain q).2 ∧ u.giveResponses.sysOut = s.sysOut ++ (drain q).1 ∧
      ∀ j, j ≠ i → u.giveResponses.queue j = s.queue j := by
  refine ⟨by rw [State.queue_giveResponses, hu, if_pos rfl], ?_, fun j hj => ?_⟩
  · show u.sysOut ++ (List.finRange 4).flatMap (fun j => (drain (u.queue j)).1) = _
    rw [hs, flatMap_initiators_single (i := i) fun j hj => by rw [hu, if_neg hj, drain_of_inOrder hord], hu, if_pos rfl]
  · rw [State.queue_giveResponses, hu, if_neg hj, drain_of_inOrder hord]

/-- The head of a queue is that of its part before an entry, or the entry. -/
theorem head_not_ready {pre post : List QueueEntry} {e e' : QueueEntry}
    (h : ∀ x, (pre ++ e :: post).head? = some x → ∀ reply, x.stage ≠ .ready reply)
      (he : ∀ reply, e'.stage ≠ .ready reply) :
    ∀ x, (pre ++ e' :: post).head? = some x → ∀ reply, x.stage ≠ .ready reply := by
  cases pre with
  | nil => intro x hx; cases hx; exact he
  | cons a l => exact h

/-- A reply made ready in the middle of a queue in order is given if it is at the head (R137). -/
theorem replyReady_of_giveResponses {s u t : State} {i : Initiator} {pre post : List QueueEntry} {e : QueueEntry}
    {r : Request}
    {reply : Reply} (hord : QueuesInOrder s) (hq : s.queue i = pre ++ e :: post)
    (hu : ∀ j, u.queue j = if j = i then pre ++ { req := r, stage := .ready reply } :: post else s.queue j)
    (hs : u.sysOut = s.sysOut) (ht : t = u.giveResponses) : ReplyReady s t i pre r reply post := by
  subst ht
  obtain ⟨hqueue, hsys, hothers⟩ := State.giveResponses_of_queue hord hu hs
  refine ⟨fun hpre => ?_, fun hpre => ?_, hothers⟩
  · rw [hqueue, hsys, hpre]; exact ⟨rfl, rfl⟩
  · have hhead := (hord i).2.2.2.2
    rw [hq] at hhead
    have : drain (pre ++ { req := r, stage := .ready reply } :: post) =
        ([], pre ++ { req := r, stage := .ready reply } :: post) := by
      cases pre with
      | nil => exact absurd rfl hpre
      | cons a l => exact drain_of_head _ hhead
    rw [hqueue, hsys, this]; simp

/-- An entry of a queue in order that changes to another stage than ready gives nothing (R137). -/
theorem queue_of_giveResponses {s u : State} {i : Initiator} {pre post : List QueueEntry} {e e' : QueueEntry}
    (hord : QueuesInOrder s) (hq : s.queue i = pre ++ e :: post) (he : ∀ reply, e'.stage ≠ .ready reply)
    (hu : ∀ j, u.queue j = if j = i then pre ++ e' :: post else s.queue j) (hs : u.sysOut = s.sysOut) :
    u.giveResponses.queue i = pre ++ e' :: post ∧ (∀ j, j ≠ i → u.giveResponses.queue j = s.queue j) ∧
      u.giveResponses.sysOut = s.sysOut := by
  obtain ⟨hqueue, hsys, hothers⟩ := State.giveResponses_of_queue hord hu hs
  have hhead := (hord i).2.2.2.2
  rw [hq] at hhead
  have hdrain := drain_of_head _ (head_not_ready hhead he)
  rw [hqueue, hsys, hdrain]
  exact ⟨rfl, hothers, by simp⟩

/-- Two states with the same queues. -/
theorem queues_ext {s t : State} (h : ∀ j, t.queue j = s.queue j) : t.path.queues = s.path.queues := by
  apply Vector.ext
  intro k hk
  exact h ⟨k, hk⟩

/-- A state that differs from `s` in the queues and the responses at most, and not there. -/
theorem State.eq_of_queues {s t : State} (hq : ∀ j, t.queue j = s.queue j) (hs : t.sysOut = s.sysOut)
    (ht : t = { s with path := { s.path with queues := t.path.queues }, sysOut := t.sysOut }) : t = s := by
  rw [ht, queues_ext hq, hs]

/-! ### The read-hold limit (R25) -/

theorem State.limitEntry_of_not_held (s : State) {e : QueueEntry} (h : isHeld e = false) :
    s.limitEntry e = (e, []) := by
  obtain ⟨r, stage⟩ := e
  cases stage <;> simp_all [isHeld, State.limitEntry]

section
variable {s : State} {i : Initiator} {pre post : List QueueEntry} {r : Request} {endsAt : Word} {places : List Place}
  {waits : List (SlotRef × JobKind)}

/-- Looking at the limit changes at most the held entry of the queue. -/
theorem State.endAtLimit_eq (hord : QueuesInOrder s)
    (hq : s.queue i = pre ++ { req := r, stage := .held endsAt places waits } :: post) :
    s.endAtLimit i = { s.setQueue i (pre ++ (s.limitEntry { req := r, stage := .held endsAt places waits }).1 ::
        post) with
      memOut := s.memOut ++ (s.limitEntry { req := r, stage := .held endsAt places waits }).2 }.giveResponses := by
  have hlen := (hord i).2.2.1
  rw [hq] at hlen
  have hrest := not_held_of_split hlen rfl
  have hmap : ∀ l : List QueueEntry, (∀ e ∈ l, isHeld e = false) →
      (l.map fun e => (s.limitEntry e).1) = l ∧ (l.flatMap fun e => (s.limitEntry e).2) = [] := fun l hl =>
    ⟨(List.map_congr_left fun e he => by rw [s.limitEntry_of_not_held (hl e he)]; rfl).trans (List.map_id l),
      List.flatMap_eq_nil_iff.mpr fun e he => by rw [s.limitEntry_of_not_held (hl e he)]⟩
  obtain ⟨hpre, hpre'⟩ := hmap pre fun e he => hrest e (.inl he)
  obtain ⟨hpost, hpost'⟩ := hmap post fun e he => hrest e (.inr he)
  simp only [State.endAtLimit, hq, List.map_append, List.map_cons, List.flatMap_append, List.flatMap_cons, hpre, hpost,
    hpre', hpost', List.nil_append, List.append_nil]

/-- Before its limit a held read stays held. -/
theorem State.endAtLimit_before (hord : QueuesInOrder s)
    (hq : s.queue i = pre ++ { req := r, stage := .held endsAt places waits } :: post) (hlt : s.time.lt < endsAt) :
    s.endAtLimit i = s := by
  have hentry : s.limitEntry { req := r, stage := .held endsAt places waits } =
      ({ req := r, stage := .held endsAt places waits }, []) := by
    simp only [State.limitEntry, if_neg (BitVec.not_le.mpr hlt)]
  rw [State.endAtLimit_eq hord hq, hentry]
  obtain ⟨hqueue, hothers, hsys⟩ := queue_of_giveResponses (s := s)
    (u := { s.setQueue i (pre ++ { req := r, stage := .held endsAt places waits } :: post) with memOut :=
      s.memOut ++ [] })
    (e' := { req := r, stage := .held endsAt places waits }) hord hq
      (by simp) (fun j => State.queue_setQueue _ i j _) rfl
  exact State.eq_of_queues (fun j => by
    by_cases hj : j = i
    · rw [hj, hqueue, hq]
    · exact hothers j hj) hsys (by simp only [List.append_nil]; rfl)

/-- At its limit a held read ends (R25). -/
theorem State.endAtLimit_reached (hord : QueuesInOrder s)
    (hq : s.queue i = pre ++ { req := r, stage := .held endsAt places waits } :: post) (hle : endsAt ≤ s.time.lt) :
    s.endAtLimit i = { s.setQueue i (pre ++ QueueEntry.mk r (s.finishRead r places).1 :: post) with
      memOut := s.memOut ++ (s.finishRead r places).2 }.giveResponses := by
  rw [State.endAtLimit_eq hord hq]
  simp only [State.limitEntry, if_pos hle]

end

end Sys2Proof.Machine

namespace Sys2Proof.Proofs

open Sys2Proof.Machine Sys2Proof.Safety

/-- READ_TAKEN of a read that passes its checks. -/
theorem exec_readTaken {s : State} {i : Initiator} {pre post : List QueueEntry} {r : Request}
    (hn : NextIs s i pre r post)
    (hd : r.dir = .read) (hr : s.refusalReason r [] = none) : exec (.readTaken i) s = .next (s.admitRead i r) := by
  show execReadTaken i s = _
  simp [execReadTaken, State.nextRequest_of_next s i pre r post hn, hd, hr]

/-- Settles O42. -/
theorem readIsAnsweredOrForwarded : Obligations.ReadIsAnsweredOrForwarded := by
  intro s i pre r post hord hnext hd hr places hfree answers
  have hcauses : s.holdCauses places = [] := State.holdCauses_eq_nil hfree
  obtain ⟨-, hq, hpre, -⟩ := id hnext
  have hadmit : s.admitRead i r =
      { ((latched s places).setQueue i (takeHead ((latched s places).finishRead r places).1 (s.queue i))) with
        memOut := s.memOut ++ ((latched s places).finishRead r places).2 }.giveResponses := by
    simp only [State.admitRead, show s.holdCauses (s.requestPlaces r) = [] from hcauses, List.isEmpty_nil, if_true,
      State.latchLt_eq]; rfl
  have hsplit : ∀ st, takeHead st (s.queue i) = pre ++ { req := r, stage := st } :: post := fun st => by
    rw [hq, takeHead_of_next st pre r post hpre]
  rw [exec_readTaken hnext hd hr, hadmit, hsplit]
  refine ⟨fun hall => ?_, fun ⟨a, ha, hnone⟩ => ?_⟩
  · rw [State.finishRead_answered fun p hp => hall _ (List.mem_map_of_mem hp)]
    have hready := replyReady_of_giveResponses (s := s)
      (u := { (latched s places).setQueue i (pre ++ { req := r, stage := .ready (.read (places.map fun p =>
        ReadBeat.mk ((answer (latched s places) p).getD 0#64) .okay)) } :: post) with memOut := s.memOut ++ [] })
      hord hq (fun j => State.queue_setQueue _ i j _) rfl rfl
    have hreply : (answers.map fun a => ReadBeat.mk (a.getD 0#64) .okay) =
        places.map fun p => ReadBeat.mk ((answer (latched s places) p).getD 0#64) .okay := List.map_map ..
    rw [hreply]
    exact ⟨_, rfl, hready, by simp only [List.append_nil]; rfl⟩
  · obtain ⟨p, hp, rfl⟩ := List.mem_map.mp ha
    rw [State.finishRead_forwarded ⟨p, hp, hnone⟩]
    obtain ⟨hqueue, hothers, hsys⟩ := queue_of_giveResponses (s := s)
      (u := { (latched s places).setQueue i (pre ++ { req := r, stage := .forwarded answers false } :: post) with
        memOut := s.memOut ++ [.read r] })
      (e' := { req := r, stage := .forwarded answers false }) hord hq
        (by simp) (fun j => State.queue_setQueue _ i j _) rfl
    exact ⟨_, rfl, hqueue, hothers, congrArg (fun o => { ({ (latched s places).setQueue i
      (pre ++ { req := r, stage := .forwarded answers false } :: post) with
        memOut := s.memOut ++ [.read r] } : State).giveResponses with sysOut := o }) hsys⟩

/-- Settles O43: the read is held at its taking, and at its limit only the held entry of the queue changes. -/
theorem pendingReadIsHeldToItsLimit : Obligations.PendingReadIsHeldToItsLimit := by
  refine ⟨fun s i pre r post ref word hord hnext hd hr hh hmem hpend hlim => ?_,
    fun s i pre r endsAt places waits post hord hq => ⟨fun hlt => ?_, fun hle => ⟨fun hall => ?_, fun hnone => ?_⟩⟩⟩
  · obtain ⟨-, hq, hpre, -⟩ := id hnext
    have hlimit := State.holdLimitOf_requestPlaces hmem
    have hcauses : s.holdCauses (s.requestPlaces r) = (s.requestPlaces r).filterMap s.holdCause := by
      rw [State.holdCauses, hlimit, if_neg (by simp [hlim, hh])]
    have hne : ((s.requestPlaces r).filterMap s.holdCause).isEmpty = false := by
      rw [List.isEmpty_eq_false_iff_exists_mem]
      exact ⟨(ref, _), List.mem_filterMap.mpr ⟨_, hmem, State.holdCause_eq_some.mpr ⟨word, rfl, hpend, rfl⟩⟩⟩
    have hadmit : s.admitRead i r = s.setQueue i (pre ++ QueueEntry.mk r
        (.held (s.time.lt + (s.descriptor ref.group).holdLimit.setWidth 64) (s.requestPlaces r)
          ((s.requestPlaces r).filterMap s.holdCause)) :: post) := by
      simp only [State.admitRead, hcauses, hne, Bool.false_eq_true, if_false, hlimit]
      rw [hq, takeHead_of_next _ pre r post hpre]
    rw [exec_readTaken hnext hd hr, hadmit]
    refine ⟨_, _, rfl, fun w => ?_, by rw [State.queue_setQueue, if_pos rfl], fun j hj => by
      rw [State.queue_setQueue, if_neg hj], rfl⟩
    rw [List.mem_filterMap]
    constructor
    · rintro ⟨p, hp, hw⟩
      obtain ⟨word', rfl, hpend', hkind⟩ := State.holdCause_eq_some.mp hw
      exact ⟨word', hp, hpend', hkind⟩
    · rintro ⟨word', hp, hpend', hkind⟩
      exact ⟨_, hp, State.holdCause_eq_some.mpr ⟨word', rfl, hpend', hkind⟩⟩
  · have hend := State.endAtLimit_before hord hq hlt
    show Host.Outcome.next (s.endAtLimit i) = _
    rw [hend]
  · have hend := State.endAtLimit_reached hord hq hle
    rw [State.finishRead_answered hall] at hend
    have hready := replyReady_of_giveResponses (s := s)
      (u := { s.setQueue i (pre ++ { req := r, stage := .ready (.read (places.map fun p =>
        ReadBeat.mk ((answer s p).getD 0#64) .okay)) } :: post) with memOut := s.memOut ++ [] })
      hord hq (fun j => State.queue_setQueue _ i j _) rfl rfl
    refine ⟨_, congrArg Host.Outcome.next hend, hready, by simp only [List.append_nil]; rfl⟩
  · have hend := State.endAtLimit_reached hord hq hle
    rw [State.finishRead_forwarded hnone] at hend
    obtain ⟨hqueue, hothers, hsys⟩ := queue_of_giveResponses (s := s)
      (u := { s.setQueue i (pre ++ { req := r, stage := .forwarded (places.map (answer s)) false } :: post) with
        memOut := s.memOut ++ [.read r] })
      (e' := { req := r, stage := .forwarded (places.map (answer s)) false }) hord hq (by simp)
      (fun j => State.queue_setQueue _ i j _) rfl
    exact ⟨_, congrArg Host.Outcome.next hend, hqueue, hothers, congrArg (fun o => { ({ s.setQueue i
      (pre ++ { req := r, stage := .forwarded (places.map (answer s)) false } :: post) with
        memOut := s.memOut ++ [.read r] } : State).giveResponses with sysOut := o }) hsys⟩

end Sys2Proof.Proofs
end

