-- ==== Sys2Proof/Proofs/TableRead.lean ====
section
/-! SUPPORT. The end of a table read: the checks of R156 in their order, the fault that a faulty table leaves, and the
map, the slots and the engine that a legal one leaves: O50 (R28, R51, R156 to R159). -/

namespace Sys2Proof.Machine

open Sys2Proof.Safety

/-! ### The checks of a descriptor (R156, R199) -/

/-- One check of a chain fails, or the rest finds the fault. -/
theorem ite_some_eq_some_iff {α : Type} {c : Prop} [Decidable c] {a b : α} {x : Option α} :
    (if c then some a else x) = some b ↔ c ∧ a = b ∨ ¬c ∧ x = some b := by
  split <;> simp [*]

theorem firstToFail_nil (f : MapFault) : ¬FirstToFail [] f := by
  rintro ⟨before, c, after, h, -, -⟩
  cases before <;> simp at h

/-- Of a chain of checks, the first fails or one of the rest is the first to. -/
theorem firstToFail_cons (g f : MapFault) (c : Prop) (rest : List (MapFault × Prop)) :
    FirstToFail ((g, c) :: rest) f ↔ c ∧ g = f ∨ ¬c ∧ FirstToFail rest f := by
  constructor
  · rintro ⟨before, c', after, h, hc, hb⟩
    cases before with
    | nil =>
      obtain ⟨hg, -⟩ := List.cons.inj h
      obtain ⟨rfl, rfl⟩ := Prod.mk.inj hg
      exact .inl ⟨hc, rfl⟩
    | cons x before =>
      obtain ⟨rfl, rfl⟩ := List.cons.inj h
      exact .inr ⟨hb _ List.mem_cons_self, before, c', after, rfl, hc, fun y hy => hb y (List.mem_cons_of_mem _ hy)⟩
  · rintro (⟨hc, rfl⟩ | ⟨hc, before, c', after, rfl, hc', hb⟩)
    · exact ⟨[], c, rest, rfl, hc, by simp⟩
    · exact ⟨(g, c) :: before, c', after, rfl, hc', List.forall_mem_cons.mpr ⟨hc, hb⟩⟩

theorem spareZero_iff (d : Descriptor) : spareZero d = true ↔ SpareBitsZero d := by
  have h12 : ¬(1#2 : BitVec 2) = 2#2 := by decide
  have h21 : ¬(2#2 : BitVec 2) = 1#2 := by decide
  simp only [spareZero, spareBoth, SpareBitsZero, Bool.and_eq_true, beq_iff_eq, and_assoc]
  split
  next h => simp [h]
  next h => split <;> simp_all

theorem slotsFieldsGood_iff (d : Descriptor) : slotsFieldsGood d = true ↔
    1 ≤ d.slotCount ∧ d.slotCount ≤ 32 ∧ d.budget ≠ 0#16 ∧ d.holdLimit ≤ 4095#16 ∧
      (d.macLength = 4 ∨ d.macLength = 8) := by
  simp [slotsFieldsGood, and_assoc]

/-- Two ranges that are not empty meet where they have a byte in common. -/
theorem rangesMeet_iff {x y : Nat × Nat} (hx : x.1 < x.2) (hy : y.1 < y.2) :
    rangesMeet x y = true ↔ ∃ a, (x.1 ≤ a ∧ a < x.2) ∧ y.1 ≤ a ∧ a < y.2 := by
  simp only [rangesMeet, Bool.and_eq_true, decide_eq_true_eq]
  exact ⟨fun ⟨_, _⟩ => ⟨max x.1 y.1, by omega⟩, fun ⟨_, _⟩ => by omega⟩

/-- A window has a byte (R199: the size field is the number of pages less one). -/
theorem windowRange_nonempty (d : Descriptor) : (windowRange d).1 < (windowRange d).2 := by
  have : 1 ≤ d.size := by simp [Descriptor.size]
  simp only [windowRange]
  split <;> simp only <;> omega

theorem inWindow_iff (d : Descriptor) (a : Nat) : InWindow d a ↔ (windowRange d).1 ≤ a ∧ a < (windowRange d).2 := by
  simp only [InWindow, windowRange]
  split <;> rfl

theorem windowRange_meets_control (d : Descriptor) (base : Nat) :
    rangesMeet (windowRange d) (base, base + 4096) = true ↔ ∃ a, InWindow d a ∧ base ≤ a ∧ a < base + 4096 := by
  rw [rangesMeet_iff (windowRange_nonempty d) (by simp)]
  simp only [inWindow_iff]

theorem windowRange_meets_any (d : Descriptor) (lower : List Descriptor) :
    (lower.any fun e => rangesMeet (windowRange d) (windowRange e)) = true ↔
      ∃ e ∈ lower, ∃ a, InWindow d a ∧ InWindow e a := by
  simp only [List.any_eq_true, rangesMeet_iff (windowRange_nonempty d) (windowRange_nonempty _), inWindow_iff]

/-- Among present descriptors the slot groups are those of kind 2. -/
theorem filter_isSlots_of_present {lower : List Descriptor} (h : ∀ e ∈ lower, e.present = true) :
    lower.filter Descriptor.isSlots = lower.filter fun e => e.kind == 2#2 :=
  List.filter_congr fun e he => by simp [Descriptor.isSlots, h e he]

theorem present_of_mem_presentBelow {ds : List Descriptor} {n : Nat} : ∀ e ∈ presentBelow ds n, e.present = true :=
  fun _ he => (List.mem_filter.mp he).2

/-- The model's chain of checks finds the fault of the first check of R156 that fails. -/
theorem descriptorFault_some_iff {base : Nat} {lower : List Descriptor} (hl : ∀ e ∈ lower, e.present = true)
    (d : Descriptor) (f : MapFault) :
    descriptorFault base lower d = some f ↔ FirstToFail (tableChecks base lower d) f := by
  have hlast : ∀ (c : Prop) [Decidable c], (if c then some MapFault.tooManySlots else none) = some f ↔
      c ∧ MapFault.tooManySlots = f := fun c _ => by split <;> simp [*]
  simp only [descriptorFault, tableChecks, ite_some_eq_some_iff, hlast, firstToFail_cons, firstToFail_nil,
    and_false, or_false, Bool.not_eq_true', ← Bool.not_eq_true, spareZero_iff, slotsFieldsGood_iff,
    windowRange_meets_control, windowRange_meets_any, filter_isSlots_of_present hl, Config.slotLimit]

/-- A descriptor without a fault fails no check of R156. -/
theorem descriptorFault_none_iff_checks {base : Nat} {lower : List Descriptor} (hl : ∀ e ∈ lower, e.present = true)
    (d : Descriptor) : descriptorFault base lower d = none ↔ ∀ x ∈ tableChecks base lower d, ¬x.2 := by
  have hlast : ∀ (c : Prop) [Decidable c], (if c then some MapFault.tooManySlots else none) = none ↔ ¬c :=
    fun c _ => by split <;> simp [*]
  simp only [descriptorFault, tableChecks, ite_some_eq_none, hlast, List.forall_mem_cons, List.not_mem_nil,
    false_implies, implies_true, and_true, Bool.not_eq_true', ← Bool.not_eq_true, spareZero_iff, slotsFieldsGood_iff,
    windowRange_meets_control, windowRange_meets_any, filter_isSlots_of_present hl, Config.slotLimit]

/-- A table of good descriptors passes validation (R156). -/
theorem validateFrom_none_of_good {base : Nat} {ds : List Descriptor}
    (h : ∀ n, n < ds.length → DescriptorGood base ds n) : validateFrom base [] 0 ds = none :=
  (validateFrom_none_iff base [] 0 ds).mpr fun m d hd hp =>
    (descriptorFault_none_iff_checks present_of_mem_presentBelow d).mpr
      (h m (List.getElem?_eq_some_iff.mp hd).1 d hd hp)

/-- Validation ends with the fault of the first faulty descriptor, and its index (R156). -/
theorem validateFrom_of_faulty {base : Nat} {ds : List Descriptor} {f : MapFault} {n : Nat}
    (h : TableFaulty base ds f n) : validateFrom base [] 0 ds = some (f, n) := by
  obtain ⟨hgood, d, hd, hp, hf⟩ := h
  simpa using validateFrom_some base [] 0 n ds d f hd hp
    ((descriptorFault_some_iff present_of_mem_presentBelow d f).mpr hf) fun k e hk he hpe =>
      (descriptorFault_none_iff_checks present_of_mem_presentBelow e).mpr (hgood k hk e he hpe)

/-! ### The table as read (R156) -/

/-- Beat `k` is the first that memory returned with an error. -/
theorem findIdx?_beatError {beats : List ReadBeat} {k : Nat} {b : ReadBeat} (hk : beats[k]? = some b)
    (hb : b.resp = .slverr ∨ b.resp = .decerr)
    (hlow : ∀ j b', j < k → beats[j]? = some b' → ¬(b'.resp = .slverr ∨ b'.resp = .decerr)) :
    beats.findIdx? beatError = some k := by
  obtain ⟨hlt, rfl⟩ := List.getElem?_eq_some_iff.mp hk
  refine List.findIdx?_eq_some_iff_getElem.mpr ⟨hlt, by simpa [beatError] using hb, fun j hj => ?_⟩
  simpa [beatError] using hlow j _ hj (List.getElem?_eq_getElem (by omega))

theorem findIdx?_beatError_none {beats : List ReadBeat} (h : ∀ b ∈ beats, ¬(b.resp = .slverr ∨ b.resp = .decerr)) :
    beats.findIdx? beatError = none :=
  List.findIdx?_eq_none_iff.mpr fun b hb => by simpa [beatError] using h b hb

/-- The descriptors of 32 beats, two beats to each. -/
theorem descriptorsOf_eq_map {beats : List ReadBeat} (h : beats.length = 32) (zero : ReadBeat) :
    descriptorsOf beats = (List.range 16).map fun n =>
      { word0 := (beats.getD (2 * n) zero).data, word1 := (beats.getD (2 * n + 1) zero).data } := by
  refine List.ext_getElem? fun n => ?_
  rw [descriptorsOf_getElem?, List.getElem?_map]
  by_cases hn : n < 16
  · simp [List.getElem?_eq_getElem (l := beats) (i := 2 * n) (by omega),
      List.getElem?_eq_getElem (l := beats) (i := 2 * n + 1) (by omega), hn]
  · simp [List.getElem?_eq_none (l := beats) (i := 2 * n) (by omega), hn]

/-! ### The three ends of a table read (R156) -/

/-- An error in the first burst ends the load before the second goes out. -/
theorem exec_mapTableReadEnd_firstError {s : State} {first : List ReadBeat} {k : Nat} (second : List ReadBeat)
    (hl : s.map.load = some .reading) (hf : first.length = 16) (hk : first.findIdx? beatError = some k) :
    exec (.mapTableReadEnd first second) s = .next (s.faultMap .readError (k / 2)) := by
  show execMapTableReadEnd first second s = _
  simp only [execMapTableReadEnd, hl, hf, ne_eq, not_true_eq_false, or_self, if_false, hk]

/-- After a first burst without an error the second goes out; an error in it ends the load. -/
theorem exec_mapTableReadEnd_secondError {s : State} {first second : List ReadBeat} {k : Nat}
    (hl : s.map.load = some .reading) (hf : first.length = 16) (hg : first.findIdx? beatError = none)
    (hs : second.length = 16) (hk : second.findIdx? beatError = some k) :
    exec (.mapTableReadEnd first second) s =
      .next ({ s with memOut := s.memOut ++ [MemOut.tableRead (s.tableAddr 1)] }.faultMap .readError (8 + k / 2)) := by
  show execMapTableReadEnd first second s = _
  simp only [execMapTableReadEnd, hl, hf, hg, hs, ne_eq, not_true_eq_false, or_self, if_false, hk]

/-- Two bursts without an error are judged. -/
theorem exec_mapTableReadEnd_judged {s : State} {first second : List ReadBeat} (hl : s.map.load = some .reading)
    (hf : first.length = 16) (hg : first.findIdx? beatError = none) (hs : second.length = 16)
    (hk : second.findIdx? beatError = none) :
    exec (.mapTableReadEnd first second) s =
      .next ({ s with memOut := s.memOut ++ [MemOut.tableRead (s.tableAddr 1)] }.judgeTable (first ++ second)) := by
  show execMapTableReadEnd first second s = _
  simp only [execMapTableReadEnd, hl, hf, hg, hs, ne_eq, not_true_eq_false, or_self, if_false, hk]

/-! ### What an installation leaves (R28, R51, R158, R159) -/

section
variable (s : State) (new : Vector Descriptor 16)

theorem State.installMap_ctx? (r : SlotRef) : (s.installMap new).ctx? r =
    if groupKept s.map.table new r.group then s.ctx? r
    else if new[r.group].isSlots && decide (r.index.val < new[r.group].slotCount) then some SlotCtx.fresh
    else none := contextIn_installContexts s new r

/-- A job in work goes on for a kept group, and is discarded for a dropped one (R51). -/
theorem discardDropped_eq (kept : Fin 16 → Bool) (j : Job) : discardDropped kept j =
    match jobSlot j with
    | some r => { j with discard := j.discard || !kept r.group }
    | none => j := by
  simp only [discardDropped]
  cases jobSlot j with
  | none => rfl
  | some r => cases hk : kept r.group <;> simp [hk]

/-- The installed state before its held reads are settled. -/
def installed : State :=
  { s with
    map := { s.map with
      table := new, installed := s.map.requested, state := .loaded, fault := .none, faultIndex := 0, load := none }
    slots := { s.slots with contexts := installContexts s new }
    engine := installEngine s.engine (groupKept s.map.table new)
    path := { s.path with
      queues := Vector.ofFn fun i => (s.queue i).map (dropEntry (groupKept s.map.table new)) } }.raise .mapLoaded

theorem State.installMap_eq : s.installMap new = (installed s new).settleHolds.endLoad := rfl

/-- A slot that is in its job after an installation is of a kept group: the others are new or gone. -/
theorem kept_of_inJob_installed {w : SlotRef × JobKind} (h : InJob (installed s new) w) :
    groupKept s.map.table new w.1.group = true := by
  obtain ⟨c, hc, hjob, -⟩ := h
  have hctx : (installed s new).ctx? w.1 = (s.installMap new).ctx? w.1 := rfl
  rw [hctx, State.installMap_ctx?] at hc
  by_contra hk
  rw [if_neg hk] at hc
  split at hc
  · cases hc
    simp [SlotCtx.fresh] at hjob
  · cases hc

/-- Held reads lose the slots of dropped groups, and are settled. -/
theorem State.installMap_settles :
    Settles (fun w => groupKept s.map.table new w.1.group) [] s (installed s new) (s.installMap new) where
  queues i := by
    simp only [installed, State.raise, State.queue, Fin.getElem_fin, Vector.getElem_ofFn]
    rfl
  keeps _ h := kept_of_inJob_installed s new h
  memOut := rfl
  sysOut := rfl
  other := by simp
  contexts := by simp [State.installMap_eq]
  path := by simp [State.installMap_eq]
  given := by simp [State.installMap_eq]
  sent := by simp [State.installMap_eq]

end

/-- Held reads that are settled after something else has gone to memory. -/
theorem heldReadsSettled_of_sentBefore {sent : List MemOut} {s t : State} (ho : ∀ o ∈ sent, isOther o = true)
    (h : HeldReadsSettled [] { s with memOut := s.memOut ++ sent } t) : HeldReadsSettled sent s t := by
  obtain ⟨hother, hread⟩ := h
  have hforwarded : ∀ i, readsForwarded { s with memOut := s.memOut ++ sent } i = readsForwarded s i := fun i => by
    rw [readsForwarded_eq, readsForwarded_eq, List.filterMap_append,
      List.filterMap_eq_nil_iff.mpr fun o hm => readOf_of_isOther (ho o hm) i, List.append_nil]
  refine ⟨?_, fun hord i => ?_⟩
  · rw [hother, List.append_nil, otherwiseSent_eq, otherwiseSent_eq, List.filter_append, List.filter_eq_self.mpr ho]
  · have := hread hord i
    simp only [hforwarded] at this
    exact this

end Sys2Proof.Machine

namespace Sys2Proof.Proofs

open Sys2Proof.Machine Sys2Proof.Safety

/-- A fault of the load, after `sent` has gone to memory (R157, R161). -/
theorem faultMap_ends (s : State) (sent : List MemOut) (f : MapFault) (n : Nat) :
    ∃ t, ({ s with memOut := s.memOut ++ sent } : State).faultMap f n = t ∧
      t.map = { s.map with state := .fault, fault := f, faultIndex := Fin.ofNat 16 n, load := none } ∧
      t.causeSet .mapFault = true ∧ OnlyRaised [.mapFault] s t ∧ CountersKept [] s t ∧
      t.life = { s.life with phase := if s.life.phase = .mapLoad then .running else s.life.phase } ∧
      t = { s with map := t.map, status := t.status, life := t.life, memOut := s.memOut ++ sent } := by
  refine ⟨_, rfl, rfl, ?_, onlyRaised_of_raise _ _ .mapFault _ (by simp) rfl, countersKept_of_same _ _ _ rfl, rfl, rfl⟩
  exact (State.causeSet_raise s .mapFault .mapFault).trans (by simp)

/-- Settles O50: the beats decide which of the three ends comes, validation which fault, and `installMap` the rest. -/
theorem tableReadInstallsOrFaults : Obligations.TableReadInstallsOrFaults := by
  refine fun s first second hl hf =>
    ⟨fun k b hk hb hlow => ?_, fun hgood hs => ⟨fun k b hk hb hlow => ?_, fun hgood2 => ?_⟩⟩
  · obtain ⟨t, ht, hrest⟩ := faultMap_ends s [] .readError (k / 2)
    rw [List.append_nil] at ht
    exact ⟨t, ht ▸ exec_mapTableReadEnd_firstError second hl hf (findIdx?_beatError hk hb hlow), hrest⟩
  · obtain ⟨t, ht, hrest⟩ := faultMap_ends s [.tableRead (s.tableAddr 1)] .readError (8 + k / 2)
    exact ⟨t, ht ▸ exec_mapTableReadEnd_secondError hl hf (findIdx?_beatError_none hgood) hs
      (findIdx?_beatError hk hb hlow), hrest⟩
  have hexec := exec_mapTableReadEnd_judged hl hf (findIdx?_beatError_none hgood) hs (findIdx?_beatError_none hgood2)
  have hlen : (first ++ second).length = 32 := by simp [hf, hs]
  have htable := descriptorsOf_eq_map hlen ⟨0#64, .okay⟩
  refine ⟨fun f n hfaulty => ?_, fun hlegal => ?_⟩
  · rw [← htable] at hfaulty
    have hv := validateFrom_of_faulty hfaulty
    obtain ⟨t, ht, hmap, hrest⟩ := faultMap_ends s [.tableRead (s.tableAddr 1)] f n.val
    refine ⟨t, ?_, ?_, hrest⟩
    · rw [hexec, State.judgeTable]
      have hbase : ({ s with memOut := s.memOut ++ [MemOut.tableRead (s.tableAddr 1)] } : State).base = s.base := rfl
      rw [hbase, hv]
      exact congrArg Host.Outcome.next ht
    · rw [hmap]; simp
  · generalize hs1 : ({ s with memOut := s.memOut ++ [MemOut.tableRead (s.tableAddr 1)] } : State) = s1 at hexec
    generalize hnew : (Vector.ofFn fun i : Fin 16 =>
      (descriptorsOf (first ++ second)).getD i.val { word0 := 0#64, word1 := 0#64 }) = new
    have hjudge : s1.judgeTable (first ++ second) = s1.installMap new := by
      rw [← htable] at hlegal
      have hv := validateFrom_none_of_good fun n hn => hlegal n (by rw [descriptorsOf_length, hlen] at hn; exact hn)
      have hbase : s1.base = s.base := by rw [← hs1]; rfl
      rw [State.judgeTable, hbase, hv]
      exact congrArg s1.installMap hnew
    have hword : ∀ i : Fin 16, ((first ++ second)[2 * i.val]?).map (·.data) = some new[i].word0 ∧
        ((first ++ second)[2 * i.val + 1]?).map (·.data) = some new[i].word1 := fun i => by
      subst hnew
      have h0 : 2 * i.val < (first ++ second).length := by omega
      have h1 : 2 * i.val + 1 < (first ++ second).length := by omega
      simp [-List.length_append, List.getD, descriptorsOf_getElem?, List.getElem?_eq_getElem h0,
        List.getElem?_eq_getElem h1]
    have heng : ∀ k, installEngine s.engine k = { s.engine with
        fifo := s.engine.fifo.filter fun r => k r.group
        job := s.engine.job.map fun j =>
          match jobSlot j with
          | some r => { j with discard := j.discard || !k r.group }
          | none => j } := fun k => by
      rw [installEngine, funext (discardDropped_eq k)]
    have hheld := heldReadsSettled_of_sentBefore (s := s) (sent := [MemOut.tableRead (s.tableAddr 1)])
      (by simp [isOther])
      (hs1.symm ▸ (State.installMap_settles s1 new).heldReadsSettled)
    subst hs1
    refine ⟨_, hexec.trans (congrArg _ hjudge), hword, rfl, ⟨fun r => ?_, ?_⟩, ?_, ?_, ?_, rfl, rfl, rfl, rfl, rfl, rfl,
      rfl, hheld, rfl⟩
    · exact State.installMap_ctx? _ new r
    · exact heng _
    · exact (State.causeSet_raise s .mapLoaded .mapLoaded).trans (by simp)
    · exact onlyRaised_of_raise _ _ .mapLoaded _ (by simp) rfl
    · exact countersKept_of_same _ _ _ rfl

end Sys2Proof.Proofs
end

