-- ==== Sys2Proof/Proofs/Layouts.lean ====
section
/-! The layouts of the answered words (R95, R180, R183, R184, R197, R198, R200, R202): each word's fields by their
place, and from them O9. -/

namespace Sys2Proof.Machine

open Sys2Proof.Safety

/-! ### Fields of a word that is put together of fields -/

/-- One bit as a field holds the bit. -/
theorem getLsbD_bit (b : Bool) : (bit b).getLsbD 0 = b := by cases b <;> rfl

/-- Two neighbours that are zero are zero as one field. -/
theorem extractLsb'_eq_zero_of_parts {n start len₁ len₂ : Nat} {w : BitVec n} (low : w.extractLsb' start len₁ = 0)
    (high : w.extractLsb' (start + len₁) len₂ = 0) : w.extractLsb' start (len₁ + len₂) = 0 := by
  refine BitVec.eq_of_getLsbD_eq fun i hi => ?_
  by_cases h : i < len₁
  · simpa [h, hi] using congrArg (BitVec.getLsbD · i) low
  · simpa [show i - len₁ < len₂ by omega, show start + len₁ + (i - len₁) = start + i by omega, hi] using
      congrArg (BitVec.getLsbD · (i - len₁)) high

/-! ### Slot words (R197, R198) -/

section
variable (c : SlotCtx)

theorem stateWord_fields  :
    byteOf (stateWord c) 0 = slotStateCode c.state ∧
    byteOf (stateWord c) 1 = jobKindCode c.jobKind ∧
    byteOf (stateWord c) 2 = c.generation ∧
    byteOf (stateWord c) 3 = slotResultCode c.lastResult ∧
    (stateWord c).getLsbD 32 = c.late ∧
    (stateWord c).extractLsb' 33 31 = 0#31 := by
  simp (disch := omega) only [byteOf, stateWord, BitVec.extractLsb'_append_eq_of_le,
    BitVec.extractLsb'_append_eq_of_add_le, BitVec.extractLsb'_eq_self, BitVec.getLsbD_append, getLsbD_bit,
    Nat.reduceLT, if_true, if_false, Nat.reduceMul, Nat.reduceSub, and_self]

theorem timesWord_fields  :
    (timesWord c).extractLsb' 0 32 = (c.arrival.getD 0#64).extractLsb' 0 32 ∧
    (timesWord c).extractLsb' 32 32 = (c.deadline.getD 0#64).extractLsb' 0 32 := by
  simp (disch := omega) only [timesWord, BitVec.extractLsb'_append_eq_of_le, BitVec.extractLsb'_append_eq_of_add_le,
    BitVec.extractLsb'_eq_self, Nat.reduceSub, and_self]

theorem verdictWord_fields  :
    byteOf (verdictWord c) 0 = verdictCode c.verdict ∧
    byteOf (verdictWord c) 1 = reasonCode c.reason ∧
    (verdictWord c).extractLsb' 16 40 = duplicateField c.duplicate ∧
    byteOf (verdictWord c) 7 = 0#8 := by
  simp (disch := omega) only [byteOf, verdictWord, BitVec.extractLsb'_append_eq_of_le,
    BitVec.extractLsb'_append_eq_of_add_le, BitVec.extractLsb'_eq_self, Nat.reduceMul, Nat.reduceSub, and_self]

theorem commandAnswer_fields  :
    byteOf (commandAnswer c) 0 = slotResultCode c.lastResult ∧
    byteOf (commandAnswer c) 1 = c.generation ∧
    (commandAnswer c).extractLsb' 16 48 = 0#48 := by
  simp (disch := omega) only [byteOf, commandAnswer, BitVec.extractLsb'_append_eq_of_le,
    BitVec.extractLsb'_append_eq_of_add_le, BitVec.extractLsb'_eq_self, Nat.reduceMul, Nat.reduceSub, and_self]

/-- The bytes of the duplicate reference in the verdict detail word. -/
theorem verdictWord_duplicate {d : DuplicateInfo} (h : c.duplicate = some d) :
    byteOf (verdictWord c) 2 = BitVec.ofNat 8 d.first.slot.group.val ∧
    byteOf (verdictWord c) 3 = BitVec.ofNat 8 d.first.slot.index.val ∧
    byteOf (verdictWord c) 4 = d.first.generation ∧
    byteOf (verdictWord c) 5 = d.first.antenna.setWidth 8 ∧
    byteOf (verdictWord c) 6 = d.ordinal := by
  simp (disch := omega) only [byteOf, verdictWord, h, duplicateField, BitVec.extractLsb'_append_eq_of_le,
    BitVec.extractLsb'_append_eq_of_add_le, BitVec.extractLsb'_eq_self, Nat.reduceMul, Nat.reduceSub, and_self]

end

/-! ### Words of the import area (R200) -/

theorem resultWord_fields (k : KeyStore) :
    byteOf (resultWord k) 0 = importStateCode k.importState ∧
    byteOf (resultWord k) 1 = k.result.command ∧
    byteOf (resultWord k) 2 = importResultCode k.result.code ∧
    byteOf (resultWord k) 3 = BitVec.ofNat 8 k.result.index.val ∧
    (resultWord k).extractLsb' 32 24 = k.result.check ∧
    byteOf (resultWord k) 7 = 0#8 := by
  simp (disch := omega) only [byteOf, resultWord, BitVec.extractLsb'_append_eq_of_le,
    BitVec.extractLsb'_append_eq_of_add_le, BitVec.extractLsb'_eq_self, Nat.reduceMul, Nat.reduceSub, and_self]

theorem inquiryWord1_fields (q : Inquiry) :
    byteOf (inquiryWord1 q) 0 = BitVec.ofNat 8 q.index.val ∧
    byteOf (inquiryWord1 q) 1 = entryStateCode q.state ∧
    byteOf (inquiryWord1 q) 2 = usageCode q.usage ∧
    byteOf (inquiryWord1 q) 3 = q.keySet.setWidth 8 ∧
    byteOf (inquiryWord1 q) 4 = q.version.setWidth 8 ∧
    (inquiryWord1 q).extractLsb' 40 24 = q.check := by
  simp (disch := omega) only [byteOf, inquiryWord1, BitVec.extractLsb'_append_eq_of_le,
    BitVec.extractLsb'_append_eq_of_add_le, BitVec.extractLsb'_eq_self, Nat.reduceMul, Nat.reduceSub, and_self]

theorem inquiryWord2_fields (q : Inquiry) :
    (inquiryWord2 q).extractLsb' 0 16 = q.validFrom ∧
    (inquiryWord2 q).extractLsb' 16 16 = q.validUntil ∧
    (inquiryWord2 q).extractLsb' 32 32 = 0#32 := by
  simp (disch := omega) only [inquiryWord2, BitVec.extractLsb'_append_eq_of_le,
    BitVec.extractLsb'_append_eq_of_add_le, BitVec.extractLsb'_eq_self, Nat.reduceSub, and_self]

/-! ### Words of the status block (R202) -/

theorem identity_fields (s : State) :
    (statusAnswer s .identity).extractLsb' 0 16 = Config.familyCode ∧
    byteOf (statusAnswer s .identity) 2 = Config.revision ∧
    byteOf (statusAnswer s .identity) 3 = lifeCode s.life.cycle ∧
    (statusAnswer s .identity).extractLsb' 32 16 = s.life.reader ∧
    byteOf (statusAnswer s .identity) 6 = phaseCode s.life.phase ∧
    (statusAnswer s .identity).getLsbD 56 = s.life.tamperSeen ∧
    (statusAnswer s .identity).extractLsb' 57 7 = 0#7 := by
  simp (disch := omega) only [byteOf, statusAnswer, BitVec.extractLsb'_append_eq_of_le,
    BitVec.extractLsb'_append_eq_of_add_le, BitVec.extractLsb'_eq_self, BitVec.getLsbD_append, getLsbD_bit,
    Nat.reduceLT, if_true, if_false, Nat.reduceMul, Nat.reduceSub, and_self]

theorem preWord_fields (t : TimeUnit) :
    byteOf (preWord t) 0 = t.pre ∧
    byteOf (preWord t) 1 = t.pendingPre.getD 0#8 ∧
    (preWord t).getLsbD 16 = t.pendingPre.isSome ∧
    (preWord t).extractLsb' 17 47 = 0#47 := by
  simp (disch := omega) only [byteOf, preWord, BitVec.extractLsb'_append_eq_of_le,
    BitVec.extractLsb'_append_eq_of_add_le, BitVec.extractLsb'_eq_self, BitVec.getLsbD_append, getLsbD_bit,
    Nat.reduceLT, if_true, if_false, Nat.reduceMul, Nat.reduceSub, and_self]

theorem pulseCount_fields (s : State) :
    (statusAnswer s .pulseCount).extractLsb' 0 16 = s.time.pulses ∧
    (statusAnswer s .pulseCount).extractLsb' 16 16 = 0#16 ∧
    (statusAnswer s .pulseCount).extractLsb' 32 32 = s.counter .pulseGlitches := by
  simp (disch := omega) only [statusAnswer, BitVec.extractLsb'_append_eq_of_le,
    BitVec.extractLsb'_append_eq_of_add_le, BitVec.extractLsb'_eq_self, Nat.reduceSub, and_self]

/-- The schedule that the epoch word shows: zeros where none is pending. -/
def shownSchedule (t : TimeUnit) : Schedule := t.schedule.getD { epoch := 0#16, countdown := 0#16 }

theorem epochWord_fields (t : TimeUnit) :
    (epochWord t).extractLsb' 0 16 = t.epoch ∧
    (epochWord t).extractLsb' 16 16 = (shownSchedule t).epoch ∧
    (epochWord t).extractLsb' 32 16 = (shownSchedule t).countdown ∧
    byteOf (epochWord t) 6 = scheduleReasonCode t.reason ∧
    byteOf (epochWord t) 7 = 0#8 := by
  simp (disch := omega) only [byteOf, epochWord, shownSchedule, BitVec.extractLsb'_append_eq_of_le,
    BitVec.extractLsb'_append_eq_of_add_le, BitVec.extractLsb'_eq_self, Nat.reduceMul, Nat.reduceSub, and_self]

theorem mapWord_fields (m : WindowMap) :
    (mapWord m).extractLsb' 0 16 = m.requested ∧
    (mapWord m).extractLsb' 16 16 = m.installed ∧
    byteOf (mapWord m) 4 = mapStateCode m.state ∧
    byteOf (mapWord m) 5 = mapFaultCode m.fault ∧
    byteOf (mapWord m) 6 = BitVec.ofNat 8 m.faultIndex.val ∧
    byteOf (mapWord m) 7 = 0#8 := by
  simp (disch := omega) only [byteOf, mapWord, BitVec.extractLsb'_append_eq_of_le,
    BitVec.extractLsb'_append_eq_of_add_le, BitVec.extractLsb'_eq_self, Nat.reduceMul, Nat.reduceSub, and_self]

theorem unmappedRights_fields (s : State) :
    (statusAnswer s .unmappedRights).extractLsb' 0 4 = s.map.unmappedRead ∧
    (statusAnswer s .unmappedRights).extractLsb' 4 4 = 0#4 ∧
    (statusAnswer s .unmappedRights).extractLsb' 8 4 = s.map.unmappedWrite ∧
    (statusAnswer s .unmappedRights).extractLsb' 12 52 = 0#52 := by
  simp (disch := omega) only [statusAnswer, BitVec.extractLsb'_append_eq_of_le,
    BitVec.extractLsb'_append_eq_of_add_le, BitVec.extractLsb'_eq_self, Nat.reduceSub, and_self]

theorem refusalDetail_fields (r : RefusalRecord) :
    (refusalDetail r).getLsbD 0 = r.valid ∧
    (refusalDetail r).extractLsb' 1 7 = 0#7 ∧
    byteOf (refusalDetail r) 1 = 0#6 ++ BitVec.ofNat 2 r.initiator.val ∧
    (refusalDetail r).getLsbD 16 = (r.dir == .write) ∧
    (refusalDetail r).getLsbD 17 = r.privileged ∧
    (refusalDetail r).extractLsb' 18 6 = 0#6 ∧
    byteOf (refusalDetail r) 3 = refusalCode r.reason ∧
    (refusalDetail r).extractLsb' 32 32 = 0#32 := by
  simp (disch := omega) only [byteOf, refusalDetail, BitVec.extractLsb'_append_eq_of_le,
    BitVec.extractLsb'_append_eq_of_add_le, BitVec.extractLsb'_eq_self, BitVec.getLsbD_append, getLsbD_bit,
    Nat.reduceLT, if_true, if_false, Nat.reduceMul, Nat.reduceSub]
  simp [bit]

theorem challengeStatus_fields (u : SlotUnit) :
    (challengeStatus u).extractLsb' 0 49 = BitVec.ofNat 49 (u.ceiling - u.counter) ∧
    (challengeStatus u).extractLsb' 49 7 = 0#7 ∧
    (challengeStatus u).getLsbD 56 = u.exhausted ∧
    (challengeStatus u).getLsbD 57 = u.reservationPending ∧
    (challengeStatus u).extractLsb' 58 6 = 0#6 := by
  simp (disch := omega) only [challengeStatus, BitVec.extractLsb'_append_eq_of_le,
    BitVec.extractLsb'_append_eq_of_add_le, BitVec.extractLsb'_eq_self, BitVec.getLsbD_append, getLsbD_bit,
    Nat.reduceLT, if_true, if_false, Nat.reduceSub, and_self]

theorem nvState_fields (s : State) :
    byteOf (statusAnswer s .nvState) 0 = runningCode s ∧
    byteOf (statusAnswer s .nvState) 1 = waitingPlace s.writer 0 ∧
    byteOf (statusAnswer s .nvState) 2 = waitingPlace s.writer 1 ∧
    byteOf (statusAnswer s .nvState) 3 = waitingPlace s.writer 2 ∧
    (statusAnswer s .nvState).getLsbD 32 = s.writer.zeroizeWaiting ∧
    (statusAnswer s .nvState).extractLsb' 33 7 = 0#7 ∧
    byteOf (statusAnswer s .nvState) 5 = s.writer.attemptsFailed ∧
    (statusAnswer s .nvState).extractLsb' 48 16 = 0#16 := by
  simp (disch := omega) only [byteOf, statusAnswer, BitVec.extractLsb'_append_eq_of_le,
    BitVec.extractLsb'_append_eq_of_add_le, BitVec.extractLsb'_eq_self, BitVec.getLsbD_append, getLsbD_bit,
    Nat.reduceLT, if_true, if_false, Nat.reduceMul, Nat.reduceSub]
  simp

theorem lowHalf_fields (v : BitVec 32) :
    (0#32 ++ v : Word).extractLsb' 0 32 = v ∧
    (0#32 ++ v : Word).extractLsb' 32 32 = 0#32 := by
  simp (disch := omega) only [BitVec.extractLsb'_append_eq_of_le, BitVec.extractLsb'_append_eq_of_add_le,
    BitVec.extractLsb'_eq_self, Nat.reduceSub, and_self]

theorem causeWord_fields (v : BitVec 26) :
    (0#38 ++ v : Word).extractLsb' 0 26 = v ∧
    (0#38 ++ v : Word).extractLsb' 26 38 = 0#38 := by
  simp (disch := omega) only [BitVec.extractLsb'_append_eq_of_le, BitVec.extractLsb'_append_eq_of_add_le,
    BitVec.extractLsb'_eq_self, Nat.reduceSub, and_self]

theorem hold_fields (b : Bool) :
    (0#63 ++ bit b : Word).getLsbD 0 = b ∧
    (0#63 ++ bit b : Word).extractLsb' 1 63 = 0#63 := by
  simp (disch := omega) only [BitVec.extractLsb'_append_eq_of_le, BitVec.extractLsb'_eq_self, BitVec.getLsbD_append,
    getLsbD_bit, Nat.reduceLT, if_true, Nat.reduceSub, and_self]

theorem halves_fields (x y : BitVec 32) :
    (x ++ y : Word).extractLsb' 0 32 = y ∧
    (x ++ y : Word).extractLsb' 32 32 = x := by
  simp (disch := omega) only [BitVec.extractLsb'_append_eq_of_le, BitVec.extractLsb'_append_eq_of_add_le,
    BitVec.extractLsb'_eq_self, Nat.reduceSub, and_self]

/-! ### What fills the fields -/

section
variable {s : State} {ref : SlotRef} {c : SlotCtx}

/-- The words of a slot record are those of the slot's context (R5). -/
theorem answer_slot (hc : s.ctx? ref = some c) (word : Fin 16) : answer s (.slot ref word) = slotAnswer c word := by
  simp [answer, hc]

/-- The answered words of a slot that does not exist are zero (R25, R28). -/
theorem answer_slot_none (hc : s.ctx? ref = none) (word : Fin 16) :
    answer s (.slot ref word) = (slotAnswer SlotCtx.fresh word).map fun _ => 0#64 := by
  simp [answer, hc]

end

/-- The initiator as a byte of the refusal detail (R145). -/
theorem zeros_append_initiator (i : Initiator) : (0#6 ++ BitVec.ofNat 2 i.val).toNat = i.val := by
  fin_cases i <;> rfl

/-- Both model and spec number the kinds of requests alike (R90). -/
theorem requestKindOf_val (r : NvRequest) : (requestKindOf r).val = requestKind r := by cases r <;> rfl

theorem nvOpCode_toNat (op : NvOp) : (nvOpCode op).toNat = runningField op := by
  match op with
  | .request (.admin (.program _ _ _)) | .request (.admin (.markRevoked _)) | .request (.admin (.eraseEntry _ _))
  | .request (.admin (.personalize _ _)) | .request (.admin .lockField) | .request (.admin (.writeReader _))
  | .request (.epochRecord _) | .request (.reservation _) | .reserve _ | .blankWord | .nvZeroize _ => rfl

/-- A kind of which no request waits shows 0 (R184). -/
theorem waitingPlace_none {w : NvWriter} {kind : Fin 3} (h : ∀ r ∈ w.waiting, requestKindOf r ≠ kind) :
    waitingPlace w kind.val = 0#8 := by
  have : w.waiting.findIdx? (fun r => requestKind r == kind.val) = none :=
    List.findIdx?_eq_none_iff.mpr fun r hr => by
      simpa [← requestKindOf_val, ← Fin.ext_iff] using h r hr
  rw [waitingPlace, this]

/-- The first waiting request of a kind shows its place in the list (R184). -/
theorem waitingPlace_first {w : NvWriter} {kind : Fin 3} {before after : List NvRequest} {r : NvRequest}
    (hlen : w.waiting.length ≤ 3) (hw : w.waiting = before ++ r :: after) (hr : requestKindOf r = kind)
    (hbefore : ∀ x ∈ before, requestKindOf x ≠ kind) : (waitingPlace w kind.val).toNat = before.length + 1 := by
  have hnone : before.findIdx? (fun r => requestKind r == kind.val) = none :=
    List.findIdx?_eq_none_iff.mpr fun x hx => by
      simpa [← requestKindOf_val, ← Fin.ext_iff] using hbefore x hx
  have hplace : w.waiting.findIdx? (fun r => requestKind r == kind.val) = some before.length := by
    rw [hw, List.findIdx?_append, hnone, List.findIdx?_cons]
    simp [← requestKindOf_val, hr]
  rw [hw, List.length_append, List.length_cons] at hlen
  rw [waitingPlace, hplace]
  simp only [BitVec.toNat_ofNat]
  omega

/-- The number of filter positions in use (R81). -/
theorem occupancy_eq (f : Filter) : occupancy f = ((List.finRange 256).filter fun i => (f.at i).isSome).length := by
  have : f.positions.toList = (List.finRange 256).map f.at :=
    List.ext_getElem (by simp) fun i _ _ => by simp [Filter.at]
  rw [occupancy, this, List.filter_map, List.length_map]
  rfl

theorem occupancy_lt (f : Filter) : occupancy f < 2 ^ 64 := by
  have : occupancy f ≤ 256 := by
    rw [occupancy_eq]
    exact (List.length_filter_le _ _).trans (by simp)
  omega

/-- The two counters of a counter word (R202). -/
theorem counterPair_eq (s : State) (pair : Fin 6) (low high : Counter) (hl : (counterIndex low).val = 2 * pair.val)
    (hh : (counterIndex high).val = 2 * pair.val + 1) : counterPair s pair = s.counter high ++ s.counter low := by
  have : ∀ c : Counter, s.status.counters.toList.getD (counterIndex c).val 0#32 = s.counter c := fun c => by
    simp [State.counter, List.getD]
  rw [counterPair, ← hh, ← hl, this, this]

/-- The last counter word holds one counter (R202). -/
theorem counterPair_last (s : State) : counterPair s 5 = 0#32 ++ s.counter .pulseGlitches := by
  simp [counterPair, List.getD, State.counter, counterIndex]

end Sys2Proof.Machine
namespace Sys2Proof.Proofs

open Sys2Proof.Machine Sys2Proof.Safety

/-- Settles O9: each word is `some` of its layout, and each field of a layout holds its code. -/
theorem answeredWordsAsLaidOut : Obligations.AnsweredWordsAsLaidOut := by
  refine ⟨fun s ref c hc => ?_, fun s ref => ?_, fun s => ?_, fun s => ?_⟩
  · simp only [answer_slot hc]
    obtain ⟨hstate, hjob, hgen, hlast, hlate, hspare⟩ := stateWord_fields c
    obtain ⟨hverdict, hreason, hdup, hv7⟩ := verdictWord_fields c
    obtain ⟨hcommand, hcgen, hcspare⟩ := commandAnswer_fields c
    have hresult : (slotResultCode c.lastResult).toNat = [SlotResult.none, .ok, .held, .badCommand, .notPermitted,
      .stale, .wrongState, .noService, .exhausted, .challengeWait].idxOf c.lastResult := by cases c.lastResult <;> rfl
    refine ⟨⟨_, rfl, ?_, ?_, hgen, ?_, hlate, hspare⟩, rfl, ⟨_, rfl, timesWord_fields c⟩,
      ⟨_, rfl, ?_, ?_, fun hnone => ?_, fun d hd => ?_⟩, ⟨_, rfl, rfl, ?_, hcgen, hcspare⟩, rfl, rfl⟩
    · rw [hstate]; cases c.state <;> rfl
    · rw [hjob]; rcases c.jobKind with _ | ⟨⟨⟩⟩ <;> rfl
    · rw [hlast, hresult]
    · rw [hverdict]; rcases c.verdict with _ | ⟨⟨⟩⟩ <;> rfl
    · rw [hreason]; rcases c.reason with _ | ⟨⟨⟩⟩ <;> rfl
    · rw [hnone] at hdup
      exact extractLsb'_eq_zero_of_parts (len₁ := 40) (len₂ := 8) hdup hv7
    · obtain ⟨hgroup, hindex, hdgen, hantenna, hordinal⟩ := verdictWord_duplicate c hd
      refine ⟨?_, ?_, hdgen, ?_, hordinal, hv7⟩
      · rw [hgroup]; simp; omega
      · rw [hindex]; simp; omega
      · rw [hantenna]; simp; omega
    · rw [hcommand, hresult]
  · refine ⟨fun word hw => ?_, fun hnone word hw => ?_⟩
    · cases hc : s.ctx? ref with
      | none => rw [answer_slot_none hc]; fin_cases hw <;> rfl
      | some c => rw [answer_slot hc]; fin_cases hw <;> rfl
    · rw [answer_slot_none hnone]; fin_cases hw <;> rfl
  · obtain ⟨hstate, hcommand, hcode, hindex, hcheck, hr7⟩ := resultWord_fields s.keys
    obtain ⟨hqindex, hqstate, husage, hkeySet, hversion, hqcheck⟩ := inquiryWord1_fields s.keys.inquiry
    refine ⟨fun word hw => ?_, ⟨_, rfl, ?_, hcommand, ?_, ?_, hcheck, hr7⟩, ⟨_, rfl, ?_, ?_, ?_, ?_, ?_, hqcheck⟩,
      ⟨_, rfl, inquiryWord2_fields s.keys.inquiry⟩, fun word hw => ?_⟩
    · simp [answer, importAnswer, show word.val < 9 by omega]
    · rw [hstate]; cases s.keys.importState <;> rfl
    · rw [hcode]; cases s.keys.result.code <;> rfl
    · rw [hindex]; simp; omega
    · rw [hqindex]; simp; omega
    · rw [hqstate]; cases s.keys.inquiry.state <;> rfl
    · rw [husage]; cases s.keys.inquiry.usage <;> rfl
    · rw [hkeySet]; simp; omega
    · rw [hversion]; simp; omega
    · have h9 : ¬word.val < 9 := by omega
      have h11 : word.val ≠ 9 ∧ word.val ≠ 10 ∧ word.val ≠ 11 := by omega
      simp [answer, importAnswer, h9, h11]
  · obtain ⟨hfamily, hrevision, hcycle, hreader, hphase, htamper, hspare⟩ := identity_fields s
    obtain ⟨hepoch, hnext, hcountdown, hreason, he7⟩ := epochWord_fields s.time
    obtain ⟨hrequested, hinstalled, hmstate, hfault, hfindex, hm7⟩ := mapWord_fields s.map
    obtain ⟨hvalid, hr1, hinitiator, hdir, hprivileged, hr18, hrreason, hr32⟩ := refusalDetail_fields s.path.refusal
    obtain ⟨hrunning, hadmin, hepochs, hreservation, hzeroize, hn33, hattempts, hn48⟩ := nvState_fields s
    obtain ⟨hcauses, hc26⟩ := causeWord_fields s.status.causes
    have hplace : ∀ c, (statusAnswer s .causes).getLsbD (causePlace c) = s.causeSet c := fun c => by
      have hlt := causeBit_lt c
      have hplaceBit : causePlace c = causeBit c := by cases c <;> rfl
      simpa [State.causeSet, hplaceBit, hlt, statusAnswer] using congrArg (BitVec.getLsbD · (causeBit c)) hcauses
    have hcounters : ∀ pair low high, (counterIndex low).val = 2 * pair.val →
      (counterIndex high).val = 2 * pair.val + 1 →
        (statusAnswer s (.counters pair)).extractLsb' 0 32 = s.counter low ∧
        (statusAnswer s (.counters pair)).extractLsb' 32 32 = s.counter high := fun pair low high hl hh => by
      rw [statusAnswer, counterPair_eq s pair low high hl hh]
      exact halves_fields _ _
    have hfield : ∀ kind : Fin 3, byteOf (statusAnswer s .nvState) (kind.val + 1) = waitingPlace s.writer kind.val :=
      fun kind => by fin_cases kind <;> assumption
    refine ⟨⟨_, rfl, hfamily, hrevision, ?_, hreader, ?_, htamper, hspare⟩, ⟨_, rfl, lowHalf_fields _⟩,
      ⟨_, rfl, lowHalf_fields _⟩, ⟨_, rfl, preWord_fields s.time⟩, ⟨_, rfl, rfl⟩, ⟨_, rfl, pulseCount_fields s⟩,
      ⟨_, rfl, hepoch, fun hnone => ?_, fun p hp => ?_, ?_, he7⟩, ⟨_, rfl, rfl⟩, ⟨_, rfl, hplace, hcauses, hc26⟩,
      ⟨_, rfl, causeWord_fields _⟩, ⟨_, rfl, hrequested, hinstalled, ?_, ?_, ?_, hm7⟩,
        ⟨_, rfl, unmappedRights_fields s⟩,
      ⟨_, rfl, rfl⟩, ⟨_, rfl, rfl⟩, ⟨_, rfl, ?_⟩, ⟨_, rfl, hold_fields _⟩, ⟨_, rfl, hcounters 0 _ _ rfl rfl⟩,
      ⟨_, rfl, hcounters 1 _ _ rfl rfl⟩, ⟨_, rfl, hcounters 2 _ _ rfl rfl⟩, ⟨_, rfl, hcounters 3 _ _ rfl rfl⟩,
      ⟨_, rfl, hcounters 4 _ _ rfl rfl⟩, ⟨_, rfl, ?_⟩, ⟨_, rfl, rfl⟩, ⟨_, rfl, lowHalf_fields _⟩,
      ⟨_, rfl, hvalid, hr1, ?_, hdir, hprivileged, hr18, ?_, hr32⟩, ⟨_, rfl, challengeStatus_fields s.slots⟩,
      ⟨_, rfl, fun op hop => ?_, fun hnone => ?_, fun kind hlen => ⟨fun hk => ?_, fun before r after hw hr hb => ?_⟩,
        hzeroize, hn33, hattempts, hn48⟩, ⟨_, rfl, rfl⟩⟩
    · rw [hcycle]; cases s.life.cycle <;> rfl
    · rw [hphase]; cases s.life.phase <;> rfl
    · rw [shownSchedule, hnone] at hnext hcountdown
      exact extractLsb'_eq_zero_of_parts (len₁ := 16) (len₂ := 16) hnext hcountdown
    · rw [shownSchedule, hp] at hnext hcountdown
      exact ⟨hnext, hcountdown⟩
    · exact (congrArg BitVec.toNat hreason).trans (by cases s.time.reason <;> rfl)
    · exact (congrArg BitVec.toNat hmstate).trans (by cases s.map.state <;> rfl)
    · exact (congrArg BitVec.toNat hfault).trans (by cases s.map.fault <;> rfl)
    · exact (congrArg BitVec.toNat hfindex).trans (by simp; omega)
    · rw [← occupancy_eq]
      exact (BitVec.toNat_ofNat _ _).trans (Nat.mod_eq_of_lt (occupancy_lt s.filter))
    · rw [statusAnswer, counterPair_last]
      exact lowHalf_fields _
    · exact (congrArg BitVec.toNat hinitiator).trans (zeros_append_initiator _)
    · exact (congrArg BitVec.toNat hrreason).trans (by rcases s.path.refusal.reason with _ | ⟨⟨⟩⟩ <;> rfl)
    · rw [hrunning, runningCode, hop]
      exact nvOpCode_toNat op
    · rw [hrunning, runningCode, hnone]
      simp only
      split <;> rfl
    · rw [hfield kind, waitingPlace_none hk]
    · rw [hfield kind, waitingPlace_first hlen hw hr hb]

end Sys2Proof.Proofs
end

