-- ==== Sys2Proof/Proofs/WithoutKeys.lean ====
section
/-! SUPPORT. A part without its keys (O48): what each accessor of the model sees of it, part by part. -/

namespace Sys2Proof.Machine

open Sys2Proof.Safety

/-! ### The parts of `withoutKeys` -/

def bareCtx (c : SlotCtx) : SlotCtx := { c with derivedKey := none }

def bareEntry (e : DirEntry) : DirEntry := { e with key := none }

def bareOp (op : AdminOp) : AdminOp :=
  match op with
  | .program i e p => .program i (bareEntry e) p
  | .eraseEntry i e => .eraseEntry i (bareEntry e)
  | op => op

def bareRequest (r : NvRequest) : NvRequest :=
  match r with
  | .admin op => .admin (bareOp op)
  | r => r

def bareRunning (op : NvOp) : NvOp :=
  match op with
  | .request r => .request (bareRequest r)
  | op => op

def bareWork (w : Work) : Work :=
  match w with
  | .verify r g e _ => .verify r g e 0#128
  | .sealing r g e _ => .sealing r g e 0#128
  | .importing k h _ _ _ => .importing k h 0#128 0#64 none
  | .checking i _ => .checking i none

def bareBuffer (b : Vector Word 5) : Vector Word 5 := #v[b[0], b[1], 0#64, 0#64, 0#64]

def bareContexts (l : List (SlotRef × SlotCtx)) : List (SlotRef × SlotCtx) := l.map fun p => (p.1, bareCtx p.2)

def bareJob (j : Job) : Job := { j with work := bareWork j.work }

def bareEngine (e : Engine) : Engine := { e with job := e.job.map bareJob }

def bareKeys (k : KeyStore) : KeyStore := { k with dir := k.dir.map bareEntry, buffer := bareBuffer k.buffer }

def bareNv (nv : NvArray) : NvArray := { nv with records := nv.records.map fun r => { r with key := 0#128 } }

def bareWriter (w : NvWriter) : NvWriter :=
  { w with running := w.running.map bareRunning, waiting := w.waiting.map bareRequest }

/-- The parts together are the state without its keys. -/
theorem withoutKeys_eq (s : State) : withoutKeys s =
    { s with
      slots := { s.slots with contexts := bareContexts s.slots.contexts }
      engine := bareEngine s.engine
      keys := bareKeys s.keys
      nv := bareNv s.nv
      writer := bareWriter s.writer } := rfl

/-! ### Taking keys away twice -/

theorem bareRequest_bareRequest (r : NvRequest) : bareRequest (bareRequest r) = bareRequest r := by
  match r with
  | .admin (.program _ _ _) | .admin (.personalize _ _) | .admin (.markRevoked _) | .admin (.eraseEntry _ _)
  | .admin (.writeReader _) | .admin .lockField | .epochRecord _ | .reservation _ => rfl

theorem bareRunning_bareRunning (op : NvOp) : bareRunning (bareRunning op) = bareRunning op := by
  match op with
  | .request r => exact congrArg NvOp.request (bareRequest_bareRequest r)
  | .reserve _ | .blankWord | .nvZeroize _ => rfl

theorem bareWork_bareWork (w : Work) : bareWork (bareWork w) = bareWork w := by cases w <;> rfl

theorem withoutKeys_withoutKeys (s : State) : withoutKeys (withoutKeys s) = withoutKeys s := by
  have hcontexts : bareContexts (bareContexts s.slots.contexts) = bareContexts s.slots.contexts := by
    simp only [bareContexts, List.map_map]; rfl
  have hengine : bareEngine (bareEngine s.engine) = bareEngine s.engine := by
    simp only [bareEngine, Option.map_map]
    congr 2
    funext j
    simp [bareJob, bareWork_bareWork]
  have hkeys : bareKeys (bareKeys s.keys) = bareKeys s.keys := by
    simp only [bareKeys, Vector.map_map]; rfl
  have hnv : bareNv (bareNv s.nv) = bareNv s.nv := by
    simp only [bareNv, Vector.map_map]; rfl
  have hwriter : bareWriter (bareWriter s.writer) = bareWriter s.writer := by
    simp only [bareWriter, Option.map_map, List.map_map]
    congr 2
    · funext op; exact bareRunning_bareRunning op
    · funext r; exact bareRequest_bareRequest r
  simp only [withoutKeys_eq, hcontexts, hengine, hkeys, hnv, hwriter]

/-! ### Slots -/

section
variable (s : State)

theorem withoutKeys_ctx? (r : SlotRef) : (withoutKeys s).ctx? r = (s.ctx? r).map bareCtx := by
  simp only [State.ctx?, withoutKeys_eq, bareContexts, List.find?_map, Option.map_map]
  rfl

theorem withoutKeys_stillHolds (w : SlotRef × JobKind) : (withoutKeys s).stillHolds w = s.stillHolds w := by
  simp only [State.stillHolds, withoutKeys_ctx?]
  cases s.ctx? w.1 <;> rfl

/-! ### The key directory -/

theorem withoutKeys_entry (i : Fin 64) : (withoutKeys s).entry i = bareEntry (s.entry i) := by
  simp [State.entry, withoutKeys_eq, bareKeys]

theorem withoutKeys_findEntry (u : Usage) (keySet version : Byte) :
    (withoutKeys s).findEntry u keySet version = s.findEntry u keySet version := by
  simp only [State.findEntry, withoutKeys_entry]; rfl

theorem withoutKeys_lowestEmpty : (withoutKeys s).lowestEmpty = s.lowestEmpty := by
  simp only [State.lowestEmpty, withoutKeys_entry]; rfl

theorem withoutKeys_isProtected (i : Fin 64) : (withoutKeys s).isProtected i = s.isProtected i := by
  simp only [State.isProtected, withoutKeys_entry]; rfl

theorem withoutKeys_nextToCheck (n : Nat) : (withoutKeys s).nextToCheck n = s.nextToCheck n := by
  simp only [State.nextToCheck, withoutKeys_entry]; rfl

theorem withoutKeys_lookupTag (c : SlotCtx) : (withoutKeys s).lookupTag (bareCtx c) = s.lookupTag c := by
  simp only [State.lookupTag, withoutKeys_findEntry, withoutKeys_entry]; rfl

theorem withoutKeys_selectRecord (keySet : Byte) : (withoutKeys s).selectRecord keySet = s.selectRecord keySet := by
  have : (withoutKeys s).recordCandidate keySet = s.recordCandidate keySet := funext fun k => by
    simp only [State.recordCandidate, withoutKeys_entry]; rfl
  simp only [State.selectRecord, this, withoutKeys_entry]; rfl

/-! ### The NV writer -/

theorem requestKind_bareRequest (r : NvRequest) : requestKind (bareRequest r) = requestKind r := by cases r <;> rfl

theorem nvOpCode_bareRunning (op : NvOp) : nvOpCode (bareRunning op) = nvOpCode op := by
  match op with
  | .request (.admin (.program _ _ _)) | .request (.admin (.personalize _ _)) | .request (.admin (.markRevoked _))
  | .request (.admin (.eraseEntry _ _)) | .request (.admin (.writeReader _)) | .request (.admin .lockField)
  | .request (.epochRecord _) | .request (.reservation _) | .reserve _ | .blankWord | .nvZeroize _ => rfl

theorem withoutKeys_waitingPlace (w : NvWriter) (kind : Nat) :
    waitingPlace (bareWriter w) kind = waitingPlace w kind := by
  simp only [waitingPlace, bareWriter, List.findIdx?_map]
  have : (fun r => requestKind r == kind) ∘ bareRequest = fun r => requestKind r == kind :=
    funext fun r => by simp [requestKind_bareRequest]
  rw [this]

theorem withoutKeys_runningCode : runningCode (withoutKeys s) = runningCode s := by
  have : (withoutKeys s).writer.running = s.writer.running.map bareRunning := rfl
  simp only [runningCode, this]
  cases s.writer.running with
  | none => rfl
  | some op => exact nvOpCode_bareRunning op

/-! ### Answers (R6) -/

/-- No answered word shows a key. -/
theorem withoutKeys_answer (p : Place) : answer (withoutKeys s) p = answer s p := by
  cases p with
  | memory => rfl
  | slot r word =>
    simp only [answer, withoutKeys_ctx?]
    cases s.ctx? r <;> rfl
  | status word =>
    have hplace : ∀ kind, waitingPlace (withoutKeys s).writer kind = waitingPlace s.writer kind :=
      withoutKeys_waitingPlace s.writer
    cases word with
    | nvState => simp only [answer, statusAnswer, withoutKeys_runningCode, hplace]; rfl
    | _ => rfl
  | importArea word => rfl

theorem withoutKeys_finishRead (r : Request) (places : List Place) :
    (withoutKeys s).finishRead r places = s.finishRead r places := by
  have : (withoutKeys s).answers places = s.answers places :=
    List.map_congr_left fun p _ => withoutKeys_answer s p
  simp only [State.finishRead, this]

theorem withoutKeys_holdCauses (places : List Place) : (withoutKeys s).holdCauses places = s.holdCauses places := by
  have : (withoutKeys s).holdCause = s.holdCause := funext fun p => by
    simp only [State.holdCause, withoutKeys_stillHolds]
  simp only [State.holdCauses, this]; rfl

theorem withoutKeys_settleEntry (e : QueueEntry) : (withoutKeys s).settleEntry e = s.settleEntry e := by
  have : (withoutKeys s).stillHolds = s.stillHolds := funext (withoutKeys_stillHolds s)
  simp only [State.settleEntry, this, withoutKeys_finishRead]

theorem withoutKeys_limitEntry (e : QueueEntry) : (withoutKeys s).limitEntry e = s.limitEntry e := by
  simp only [State.limitEntry, withoutKeys_finishRead]; rfl

/-! ### Operations that act alike without keys -/

theorem withoutKeys_giveResponses : (withoutKeys s).giveResponses = withoutKeys s.giveResponses := rfl

theorem withoutKeys_settleHolds : (withoutKeys s).settleHolds = withoutKeys s.settleHolds := by
  have : (withoutKeys s).settleEntry = s.settleEntry := funext (withoutKeys_settleEntry s)
  simp only [State.settleHolds, this]; rfl

theorem withoutKeys_endAtLimit (i : Initiator) : (withoutKeys s).endAtLimit i = withoutKeys (s.endAtLimit i) := by
  have : (withoutKeys s).limitEntry = s.limitEntry := funext (withoutKeys_limitEntry s)
  simp only [State.endAtLimit, this]; rfl

theorem withoutKeys_setCtx (r : SlotRef) (c : SlotCtx) :
    (withoutKeys s).setCtx r (bareCtx c) = withoutKeys (s.setCtx r c) := by
  have : (bareContexts s.slots.contexts).map (fun p => if p.1 = r then (r, bareCtx c) else p) =
      bareContexts (s.slots.contexts.map fun p => if p.1 = r then (r, c) else p) := by
    simp only [bareContexts, List.map_map]
    refine List.map_congr_left fun p _ => ?_
    by_cases h : p.1 = r <;> simp [h]
  simp only [State.setCtx, withoutKeys_eq, this]

theorem withoutKeys_enterEnd (r : SlotRef) (c : SlotCtx) :
    (withoutKeys s).enterEnd r (bareCtx c) = withoutKeys (s.enterEnd r c) := by
  simp only [State.enterEnd, withoutKeys_setCtx]; rfl

theorem withoutKeys_setEntry (i : Fin 64) (e : DirEntry) :
    (withoutKeys s).setEntry i (bareEntry e) = withoutKeys (s.setEntry i e) := by
  have : (s.keys.dir.map bareEntry).set i.val (bareEntry e) i.isLt = (s.keys.dir.set i.val e i.isLt).map bareEntry := by
    rw [Vector.map_set]
  simp only [State.setEntry, withoutKeys_eq, bareKeys, this]

theorem withoutKeys_freeAllSlots : (withoutKeys s).freeAllSlots = withoutKeys s.freeAllSlots := by
  have : (bareContexts s.slots.contexts).map (fun p => (p.1, clearCtx p.2)) =
      bareContexts (s.slots.contexts.map fun p => (p.1, clearCtx p.2)) := by
    simp only [bareContexts, List.map_map]; rfl
  simp only [State.freeAllSlots, withoutKeys_eq, this]

end

end Sys2Proof.Machine
end

