-- ==== Sys2Proof/Proofs/OperationsWithoutKeys.lean ====
section
/-! SUPPORT. The operations of the part act alike without its keys (O48). -/

namespace Sys2Proof.Machine

open Sys2Proof.Safety

section
variable (s : State)

/-! ### The NV writer and the Key Store -/

theorem bareWriter_take (r : NvRequest) (w : NvWriter) :
    (bareWriter w).take (bareRequest r) = bareWriter (w.take r) := by
  have hqueue : enqueueRequest (bareRequest r) (w.waiting.map bareRequest) =
      (enqueueRequest r w.waiting).map bareRequest := by
    have hany : (w.waiting.map bareRequest).any (fun x => requestKind x == 1) =
        w.waiting.any fun x => requestKind x == 1 := by
      simp only [List.any_map, Function.comp_def, requestKind_bareRequest]
    cases r with
    | epochRecord v =>
      simp only [bareRequest, enqueueRequest, hany]
      split
      · simp only [List.map_map]
        refine List.map_congr_left fun x _ => ?_
        simp only [Function.comp_apply, requestKind_bareRequest]
        split <;> rfl
      · simp [bareRequest]
    | admin op => simp [bareRequest, enqueueRequest]
    | reservation v => simp [bareRequest, enqueueRequest]
  cases h : w.running with
  | none => simp [NvWriter.take, bareWriter, h, bareRunning]
  | some op => simp [NvWriter.take, bareWriter, h, hqueue]

theorem withoutKeys_nvRequest (r : NvRequest) :
    (withoutKeys s).nvRequest (bareRequest r) = withoutKeys (s.nvRequest r) := by
  have hwriter : (withoutKeys s).writer = bareWriter s.writer := rfl
  have hzeroing : (withoutKeys s).zeroing = s.zeroing := rfl
  simp only [State.nvRequest, hzeroing, hwriter, bareWriter_take]
  split <;> rfl

theorem withoutKeys_reserveWhen (go : Bool) : (withoutKeys s).reserveWhen go = withoutKeys (s.reserveWhen go) := by
  have hwriter : (withoutKeys s).writer = bareWriter s.writer := rfl
  have := bareWriter_take (.reservation (s.slots.ceiling + Config.reserveStep)) s.writer
  simp only [bareRequest] at this
  cases go
  · rfl
  · simp only [State.reserveWhen, hwriter, if_true]
    exact congrArg (fun w => { withoutKeys s with
      slots := { (withoutKeys s).slots with reservationPending := s.slots.reservationPending || true }
      writer := w }) this

theorem withoutKeys_endAtOnce (command : Byte) (code : ImportCode) (index : Fin 64) (check : BitVec 24) :
    (withoutKeys s).endAtOnce command code index check = withoutKeys (s.endAtOnce command code index check) := by
  simp only [State.endAtOnce]
  split <;> rfl

theorem withoutKeys_startImport (cmd : ImportCmd) (st : ImportState) :
    (withoutKeys s).startImport cmd st = withoutKeys (s.startImport cmd st) := rfl

theorem withoutKeys_endImport (code : ImportCode) (index : Fin 64) (check : BitVec 24) :
    (withoutKeys s).endImport code index check = withoutKeys (s.endImport code index check) := rfl

theorem withoutKeys_clearBuffer : (withoutKeys s).clearBuffer = withoutKeys s.clearBuffer := rfl

/-! ### Start-up and zeroization -/

theorem withoutKeys_beginLoad : (withoutKeys s).beginLoad = withoutKeys s.beginLoad := rfl

theorem withoutKeys_endReserve : (withoutKeys s).endReserve = withoutKeys s.endReserve := rfl

theorem withoutKeys_beginReserve : (withoutKeys s).beginReserve = withoutKeys s.beginReserve := by
  have hzeroing : (withoutKeys s).zeroing = s.zeroing := rfl
  have hnv : (withoutKeys s).nv.highWater = s.nv.highWater := rfl
  simp only [State.beginReserve, hzeroing, hnv]
  split
  · rfl
  · split <;> rfl

theorem withoutKeys_continueCheck (n : Nat) : (withoutKeys s).continueCheck n = withoutKeys (s.continueCheck n) := by
  simp only [State.continueCheck, withoutKeys_nextToCheck]
  cases s.nextToCheck n with
  | none => exact withoutKeys_beginReserve s
  | some i => simp only [withoutKeys_entry]; rfl

theorem withoutKeys_endImportByZeroize :
    (withoutKeys s).endImportByZeroize = withoutKeys s.endImportByZeroize := by
  have : (withoutKeys s).keys.importState = s.keys.importState := rfl
  simp only [State.endImportByZeroize, this]
  split <;> rfl

theorem bareWriter_startZeroizeOperation (w : NvWriter) :
    startZeroizeOperation (bareWriter w) = bareWriter (startZeroizeOperation w) := by
  cases h : w.running <;> simp [startZeroizeOperation, bareWriter, h, bareRunning]

theorem withoutKeys_stoppedForZeroize : (withoutKeys s).stoppedForZeroize = withoutKeys s.stoppedForZeroize := by
  have hdir : (Vector.replicate 64 DirEntry.emptied).map bareEntry = Vector.replicate 64 DirEntry.emptied :=
    by simp; rfl
  have hwriter : (withoutKeys s).writer = bareWriter s.writer := rfl
  have hkeys : ∀ k : KeyStore,
    bareKeys { k with dir := Vector.replicate 64 DirEntry.emptied, inquiry := Inquiry.zero } =
      { bareKeys k with dir := Vector.replicate 64 DirEntry.emptied, inquiry := Inquiry.zero } := fun k => by
    simp only [bareKeys, hdir]
  simp only [State.stoppedForZeroize, withoutKeys_freeAllSlots, withoutKeys_endImportByZeroize, hwriter,
    bareWriter_startZeroizeOperation]
  simp only [withoutKeys_eq, hkeys]; rfl

theorem withoutKeys_startZeroization : (withoutKeys s).startZeroization = withoutKeys s.startZeroization := by
  have hlife : (withoutKeys s).life = s.life := rfl
  simp only [State.startZeroization_eq, withoutKeys_stoppedForZeroize, withoutKeys_settleHolds,
    withoutKeys_beginReserve,
    hlife]
  split <;> rfl

/-! ### Slot commands -/

theorem withoutKeys_joinFifo (r : SlotRef) : (withoutKeys s).joinFifo r = withoutKeys (s.joinFifo r) := rfl

theorem withoutKeys_leaveFifo (r : SlotRef) : (withoutKeys s).leaveFifo r = withoutKeys (s.leaveFifo r) := rfl

theorem withoutKeys_carryOpen (r : SlotRef) (c : SlotCtx) :
    (withoutKeys s).carryOpen r (bareCtx c) = withoutKeys (s.carryOpen r c) := by
  have hissue : ∀ u : State, (withoutKeys u).issueChallenge = withoutKeys u.issueChallenge := fun u => rfl
  have hlow : ∀ u : State, (withoutKeys u).reserveIfLow = withoutKeys u.reserveIfLow :=
    fun u => withoutKeys_reserveWhen u _
  have hset : (withoutKeys s).setCtx r (openedCtx (withoutKeys s) r (bareCtx c)) =
      withoutKeys (s.setCtx r (openedCtx s r c)) := withoutKeys_setCtx s r (openedCtx s r c)
  simp only [State.carryOpen, hset, hissue, hlow]; rfl

theorem withoutKeys_carryArm (r : SlotRef) (c : SlotCtx) :
    (withoutKeys s).carryArm r (bareCtx c) = withoutKeys (s.carryArm r c) := by
  have hvalid : inboundValid (bareCtx c) = inboundValid c := rfl
  simp only [State.carryArm, hvalid]
  split
  · exact congrArg (State.joinFifo r)
      (withoutKeys_setCtx s r { c with lastResult := .ok, state := .queued, jobKind := some .verify })
  · exact withoutKeys_enterEnd s r (faultCtx .badInbound { c with lastResult := .ok })

theorem withoutKeys_carrySeal (r : SlotRef) (c : SlotCtx) :
    (withoutKeys s).carrySeal r (bareCtx c) = withoutKeys (s.carrySeal r c) :=
  congrArg (State.joinFifo r) (withoutKeys_setCtx s r { c with
    lastResult := .ok, state := .queued, jobKind := some .sealing })

theorem withoutKeys_carryRelease (r : SlotRef) (c : SlotCtx) :
    (withoutKeys s).carryRelease r (bareCtx c) = withoutKeys (s.carryRelease r c) :=
  withoutKeys_setCtx s r (clearCtx { c with lastResult := .ok })

theorem withoutKeys_carryAbort (r : SlotRef) (c : SlotCtx) :
    (withoutKeys s).carryAbort r (bareCtx c) = withoutKeys (s.carryAbort r c) := by
  have hstate : (bareCtx c).state = c.state := rfl
  simp only [State.carryAbort, hstate, withoutKeys_carryRelease, withoutKeys_leaveFifo, withoutKeys_settleHolds]
  split
  · exact withoutKeys_setCtx s r { c with lastResult := .ok, state := .aborting }
  · split <;> rfl

theorem withoutKeys_refuseSlot (res : SlotResult) (r : SlotRef) (c : SlotCtx) :
    (withoutKeys s).refuseSlot res r (bareCtx c) = withoutKeys (s.refuseSlot res r c) := by
  have hset : (withoutKeys s).setCtx r { bareCtx c with lastResult := res } =
      withoutKeys (s.setCtx r { c with lastResult := res }) := withoutKeys_setCtx s r { c with lastResult := res }
  simp only [State.refuseSlot, hset]
  split
  · exact withoutKeys_reserveWhen _ _
  · rfl

theorem withoutKeys_takeSlotCommand (i : Initiator) (r : SlotRef) (cmd : Option SlotCmd) (upper : BitVec 56) :
    (withoutKeys s).takeSlotCommand i r cmd upper = withoutKeys (s.takeSlotCommand i r cmd upper) := by
  simp only [State.takeSlotCommand, withoutKeys_ctx?]
  cases s.ctx? r with
  | none => rfl
  | some c =>
    have hrefusal : (withoutKeys s).slotRefusal i r cmd upper (bareCtx c) = s.slotRefusal i r cmd upper c := rfl
    simp only [Option.map_some, hrefusal]
    cases s.slotRefusal i r cmd upper c with
    | some res => exact withoutKeys_refuseSlot s res r c
    | none =>
      match cmd with
      | none => rfl
      | some .open' => exact withoutKeys_carryOpen s r c
      | some .arm => exact withoutKeys_carryArm s r c
      | some .sealing => exact withoutKeys_carrySeal s r c
      | some .release => exact withoutKeys_carryRelease s r c
      | some .abort => exact withoutKeys_carryAbort s r c

theorem withoutKeys_shadowInbound (r : SlotRef) (w : Fin 4) (b : WriteBeat) :
    (withoutKeys s).shadowInbound r w b = withoutKeys (s.shadowInbound r w b) := by
  simp only [State.shadowInbound, withoutKeys_ctx?]
  cases s.ctx? r with
  | none => rfl
  | some c =>
    have hstate : (bareCtx c).state = c.state := rfl
    simp only [Option.map_some, hstate]
    split
    · exact withoutKeys_setCtx s r
        { c with inbound := c.inbound.set w.val (mergeBytes c.inbound[w] b.data b.strobes) w.isLt }
    · rfl

theorem withoutKeys_shadowPayload (r : SlotRef) (w : Fin 4) (b : WriteBeat) :
    (withoutKeys s).shadowPayload r w b = withoutKeys (s.shadowPayload r w b) := by
  simp only [State.shadowPayload, withoutKeys_ctx?]
  cases s.ctx? r with
  | none => rfl
  | some c =>
    have hopen : payloadOpen (bareCtx c) = payloadOpen c := rfl
    simp only [Option.map_some, hopen]
    split
    · exact withoutKeys_setCtx s r
        { c with payload := c.payload.set w.val (mergeBytes c.payload[w] b.data b.strobes) w.isLt }
    · rfl

theorem withoutKeys_deadline (r : SlotRef) (c : SlotCtx) :
    (withoutKeys s).deadline r (bareCtx c) = withoutKeys (s.deadline r c) := by
  have hexpires : deadlineExpires (bareCtx c) = deadlineExpires c := rfl
  have hlate : deadlineLate (bareCtx c) = deadlineLate c := rfl
  have hflag : (bareCtx c).late = c.late := rfl
  simp only [State.deadline, hexpires, hlate, hflag]
  split
  · rw [← withoutKeys_settleHolds, ← withoutKeys_leaveFifo, ← withoutKeys_enterEnd]; rfl
  · split
    · exact congrArg (State.bump .late 1) (withoutKeys_setCtx s r { c with late := true })
    · rfl

/-! ### Import commands -/

theorem withdrawCtx_bareCtx (k : Fin 64) (c : SlotCtx) : withdrawCtx k (bareCtx c) = bareCtx (withdrawCtx k c) := by
  have hfaults : withdrawalFaults k (bareCtx c) = withdrawalFaults k c := rfl
  have hmarks : withdrawalMarks k (bareCtx c) = withdrawalMarks k c := rfl
  simp only [withdrawCtx, hfaults, hmarks]
  split
  · rfl
  · split <;> rfl

theorem withoutKeys_withdraw (k : Fin 64) : (withoutKeys s).withdraw k = withoutKeys (s.withdraw k) := by
  have hslots : (withoutKeys s).withdrawnSlots k = s.withdrawnSlots k := by
    simp only [State.withdrawnSlots, withoutKeys_eq, bareContexts, List.filter_map, List.map_map]; rfl
  have hcontexts : (bareContexts s.slots.contexts).map (fun p => (p.1, withdrawCtx k p.2)) =
      bareContexts (s.slots.contexts.map fun p => (p.1, withdrawCtx k p.2)) := by
    simp only [bareContexts, List.map_map]
    exact List.map_congr_left fun p _ => by simp [withdrawCtx_bareCtx]
  simp only [State.withdraw, hslots]
  rw [← withoutKeys_settleHolds]
  simp only [withoutKeys_eq, hcontexts]; rfl

theorem withoutKeys_placeAdmin (cmd : ImportCmd) (op : AdminOp) :
    (withoutKeys s).placeAdmin cmd (bareOp op) = withoutKeys (s.placeAdmin cmd op) :=
  withoutKeys_nvRequest (s.startImport cmd .nvWriting) (.admin op)

theorem withoutKeys_placeUnlessTaken (cmd : ImportCmd) (kind : ImportKind) (h : Block) :
    (withoutKeys s).placeUnlessTaken cmd kind h = withoutKeys (s.placeUnlessTaken cmd kind h) := by
  simp only [State.placeUnlessTaken, withoutKeys_findEntry, withoutKeys_lowestEmpty, withoutKeys_endAtOnce]
  cases s.findEntry (usageOf (headerUsage h)) (headerKeySet h) (headerVersion h) with
  | some i => rfl
  | none => simp only; split <;> rfl

theorem withoutKeys_carryLoadPlain : (withoutKeys s).carryLoadPlain = withoutKeys s.carryLoadPlain := by
  have hheader : importHeader (withoutKeys s).keys = importHeader s.keys := rfl
  simp only [State.carryLoadPlain, hheader, withoutKeys_endAtOnce, withoutKeys_placeUnlessTaken]
  split <;> rfl

theorem withoutKeys_carryLoad : (withoutKeys s).carryLoad = withoutKeys s.carryLoad := by
  have hheader : importHeader (withoutKeys s).keys = importHeader s.keys := rfl
  have hloaded : ∀ v, (withoutKeys s).transportLoaded v = s.transportLoaded v := fun v => by
    simp only [State.transportLoaded, withoutKeys_findEntry, withoutKeys_entry]; rfl
  simp only [State.carryLoad, hheader, hloaded, withoutKeys_endAtOnce, withoutKeys_placeUnlessTaken]
  repeat' split
  all_goals rfl

theorem withoutKeys_carryRevoke : (withoutKeys s).carryRevoke = withoutKeys s.carryRevoke := by
  have hheader : importHeader (withoutKeys s).keys = importHeader s.keys := rfl
  have hnamed : (withoutKeys s).namedEntry = s.namedEntry := by
    simp only [State.namedEntry, hheader, withoutKeys_findEntry]
  simp only [State.carryRevoke, hheader, hnamed, withoutKeys_endAtOnce]
  split
  · rfl
  · cases s.namedEntry with
    | none => rfl
    | some i =>
      have hstate : ((withoutKeys s).entry i).state = (s.entry i).state := by rw [withoutKeys_entry]; rfl
      have hrevoked : ((((withoutKeys s).setEntry i { (withoutKeys s).entry i with state := .revoked }).withdraw
          i).placeAdmin .revoke (.markRevoked i)) =
          withoutKeys (((s.setEntry i { s.entry i with state := .revoked }).withdraw i).placeAdmin .revoke
            (.markRevoked i)) := by
        rw [← withoutKeys_placeAdmin, ← withoutKeys_withdraw, ← withoutKeys_setEntry, withoutKeys_entry]; rfl
      simp only [hstate, withoutKeys_isProtected, hrevoked]
      repeat' split
      all_goals rfl

theorem withoutKeys_carryErase : (withoutKeys s).carryErase = withoutKeys s.carryErase := by
  have hheader : importHeader (withoutKeys s).keys = importHeader s.keys := rfl
  have hnamed : (withoutKeys s).namedEntry = s.namedEntry := by
    simp only [State.namedEntry, hheader, withoutKeys_findEntry]
  simp only [State.carryErase, hheader, hnamed, withoutKeys_endAtOnce]
  split
  · rfl
  · cases s.namedEntry with
    | none => rfl
    | some i =>
      have herased : ((((withoutKeys s).setEntry i DirEntry.emptied).withdraw i).placeAdmin .erase
          (.eraseEntry i (keptWithRequest ((withoutKeys s).entry i)))) =
          withoutKeys (((s.setEntry i DirEntry.emptied).withdraw i).placeAdmin .erase
            (.eraseEntry i (keptWithRequest (s.entry i)))) := by
        rw [← withoutKeys_placeAdmin, ← withoutKeys_withdraw, ← withoutKeys_setEntry, withoutKeys_entry]; rfl
      simp only [withoutKeys_isProtected, herased]
      split <;> rfl

theorem withoutKeys_carryInquire (upper : BitVec 56) :
    (withoutKeys s).carryInquire upper = withoutKeys (s.carryInquire upper) := by
  simp only [State.carryInquire, withoutKeys_entry, ← withoutKeys_endAtOnce]; rfl

theorem withoutKeys_carrySetReader (upper : BitVec 56) :
    (withoutKeys s).carrySetReader upper = withoutKeys (s.carrySetReader upper) := by
  simp only [State.carrySetReader, withoutKeys_endAtOnce]
  split
  · rfl
  · exact withoutKeys_placeAdmin s .setReader (.writeReader (readerOperand upper))

theorem withoutKeys_carryFieldLock : (withoutKeys s).carryFieldLock = withoutKeys s.carryFieldLock := by
  have hlife : (withoutKeys s).life = s.life := rfl
  have hloaded : ((List.finRange 64).any fun i => isLoadedTransport ((withoutKeys s).entry i)) =
      (List.finRange 64).any fun i => isLoadedTransport (s.entry i) := by
    simp only [withoutKeys_entry]; rfl
  simp only [State.carryFieldLock, hlife, hloaded, withoutKeys_endAtOnce]
  split
  · rfl
  · split
    · rfl
    · exact withoutKeys_placeAdmin s .fieldLock .lockField

theorem withoutKeys_carryZeroize : (withoutKeys s).carryZeroize = withoutKeys s.carryZeroize := by
  simp only [State.carryZeroize, withoutKeys_endAtOnce, withoutKeys_startZeroization]

theorem withoutKeys_carryImport (cmd : ImportCmd) (upper : BitVec 56) :
    (withoutKeys s).carryImport cmd upper = withoutKeys (s.carryImport cmd upper) := by
  cases cmd with
  | loadPlain => exact withoutKeys_carryLoadPlain s
  | load => exact withoutKeys_carryLoad s
  | revoke => exact withoutKeys_carryRevoke s
  | erase => exact withoutKeys_carryErase s
  | inquire => exact withoutKeys_carryInquire s upper
  | setReader => exact withoutKeys_carrySetReader s upper
  | fieldLock => exact withoutKeys_carryFieldLock s
  | zeroize => exact withoutKeys_carryZeroize s

theorem withoutKeys_takeImportCommand (code : Byte) (upper : BitVec 56) :
    (withoutKeys s).takeImportCommand code upper = withoutKeys (s.takeImportCommand code upper) := by
  have hlife : (withoutKeys s).life = s.life := rfl
  have hrefusal : ∀ cmd, (withoutKeys s).importRefusal cmd upper = s.importRefusal cmd upper := fun _ => rfl
  simp only [State.takeImportCommand, hlife, hrefusal, withoutKeys_endAtOnce, withoutKeys_carryImport]
  split
  · rfl
  · cases s.importRefusal (importCommandOf code) upper with
    | some refused => rfl
    | none => cases importCommandOf code <;> rfl

/-! ### Settings -/

theorem withoutKeys_switchEpoch (epoch : BitVec 16) :
    (withoutKeys s).switchEpoch epoch = withoutKeys (s.switchEpoch epoch) :=
  withoutKeys_nvRequest
    (State.raise .epochSwitched { s with time := { s.time with epoch := epoch, schedule := none } })
      (.epochRecord epoch)

theorem withoutKeys_writeSchedule (w : Word) :
    (withoutKeys s).writeSchedule w = withoutKeys (s.writeSchedule w) := by
  have htime : (withoutKeys s).time = s.time := rfl
  simp only [State.writeSchedule, htime]
  split <;> rfl

theorem withoutKeys_switchNow : (withoutKeys s).switchNow = withoutKeys s.switchNow := by
  have htime : (withoutKeys s).time = s.time := rfl
  simp only [State.switchNow, htime]
  cases s.time.schedule with
  | none => rfl
  | some p => exact withoutKeys_switchEpoch s p.epoch

theorem withoutKeys_writeEpochControl (w : Word) :
    (withoutKeys s).writeEpochControl w = withoutKeys (s.writeEpochControl w) := by
  simp only [State.writeEpochControl, withoutKeys_switchNow]
  split
  · rfl
  · split <;> rfl

theorem withoutKeys_clearCauses (w : Word) : (withoutKeys s).clearCauses w = withoutKeys (s.clearCauses w) := by
  have hcause : (withoutKeys s).causeSet = s.causeSet := rfl
  simp only [State.clearCauses, hcause]
  split <;> rfl

theorem withoutKeys_endImportByHold : (withoutKeys s).endImportByHold = withoutKeys s.endImportByHold := by
  have : (withoutKeys s).keys.importState = s.keys.importState := rfl
  simp only [State.endImportByHold, this]
  split <;> rfl

theorem withoutKeys_setHold : (withoutKeys s).setHold = withoutKeys s.setHold := by
  have hengine : holdEngine (bareEngine s.engine) = bareEngine (holdEngine s.engine) := by
    simp only [holdEngine, bareEngine, Option.map_map]; rfl
  have hstopped : (withoutKeys s).stoppedForHold = withoutKeys s.stoppedForHold := by
    have : (withoutKeys s).engine = bareEngine s.engine := rfl
    simp only [State.stoppedForHold, withoutKeys_freeAllSlots, withoutKeys_endImportByHold, this, hengine]; rfl
  rw [State.setHold_eq, State.setHold_eq, hstopped, withoutKeys_settleHolds]

theorem withoutKeys_writeHold (w : Word) : (withoutKeys s).writeHold w = withoutKeys (s.writeHold w) := by
  have hstatus : (withoutKeys s).status = s.status := rfl
  simp only [State.writeHold, hstatus, withoutKeys_setHold]
  split
  · split <;> rfl
  · rfl

theorem withoutKeys_applySetting (word : StatusWord) (w : Word) :
    (withoutKeys s).applySetting word w = withoutKeys (s.applySetting word w) := by
  cases word with
  | epoch => exact withoutKeys_writeSchedule s w
  | epochControl => exact withoutKeys_writeEpochControl s w
  | causes => exact withoutKeys_clearCauses s w
  | hold => exact withoutKeys_writeHold s w
  | _ => rfl

theorem withoutKeys_writeStatus (word : StatusWord) (w : Word) :
    (withoutKeys s).writeStatus word w = withoutKeys (s.writeStatus word w) := by
  have htaken : (withoutKeys s).settingTaken word = s.settingTaken word := rfl
  simp only [State.writeStatus, htaken, withoutKeys_applySetting]
  split <;> rfl

end

end Sys2Proof.Machine
end

