-- ==== Sys2Proof/Proofs/RowsWithoutKeys.lean ====
section
/-! SUPPORT. What each row gives out and leaves in the queues, with the keys and without them: O48 (R5, R6, R20, R87,
R96). -/

namespace Sys2Proof.Machine

open Sys2Proof.Safety

/-! ### Two outcomes that look alike from outside -/

/-- Two states that have given the same responses, sent the same to memory, and stand alike in the Memory Path. -/
def SameOutside (t u : State) : Prop := t.sysOut = u.sysOut ∧ t.memOut = u.memOut ∧ t.path = u.path

/-- Two outcomes that are states which look alike. -/
def Alike (o o' : Host.Outcome State Fault Refusal) : Prop := ∃ t u, o = .next t ∧ o' = .next u ∧ SameOutside t u

/-- A row looks the same from outside in a part without its keys. -/
def RowBlind (row : Instr) (s : State) : Prop := Alike (exec row s) (exec row (withoutKeys s))

theorem alike_of_sameOutside {t u : State} (h : SameOutside t u) : Alike (.next t) (.next u) := ⟨t, u, rfl, rfl, h⟩

/-- States that differ in their keys alone look alike. -/
theorem alike_of_withoutKeys {t u : State} (h : withoutKeys u = withoutKeys t) : Alike (.next t) (.next u) := by
  refine alike_of_sameOutside ⟨?_, ?_, ?_⟩
  · show (withoutKeys t).sysOut = (withoutKeys u).sysOut
    rw [h]
  · show (withoutKeys t).memOut = (withoutKeys u).memOut
    rw [h]
  · show (withoutKeys t).path = (withoutKeys u).path
    rw [h]

theorem alike_withoutKeys (t : State) : Alike (.next t) (.next (withoutKeys t)) :=
  alike_of_sameOutside ⟨rfl, rfl, rfl⟩

/-- Two operations that give nothing out. -/
theorem alike_of_outside {s t u : State} (ht : SameOutside s t) (hu : SameOutside (withoutKeys s) u) :
    Alike (.next t) (.next u) := by
  obtain ⟨hsys, hmem, hpath⟩ := ht
  obtain ⟨hsys', hmem', hpath'⟩ := hu
  exact alike_of_sameOutside ⟨hsys.symm.trans hsys', hmem.symm.trans hmem', hpath.symm.trans hpath'⟩

/-- An operation that acts alike without keys, for states that differ in their keys alone. -/
theorem withoutKeys_congr {f : State → State} (hf : ∀ s, f (withoutKeys s) = withoutKeys (f s)) {t u : State}
    (h : withoutKeys u = withoutKeys t) : withoutKeys (f u) = withoutKeys (f t) := by
  rw [← hf u, h, hf t]

/-! ### Beats -/

/-- The captured bytes of a wrapped key are none that the part shows (R96). -/
theorem withoutKeys_captureBlob (s : State) (w : Nat) (b : WriteBeat) :
    withoutKeys ((withoutKeys s).captureBlob w b) = withoutKeys (s.captureBlob w b) := by
  have hcapturing : (withoutKeys s).capturing = s.capturing := rfl
  simp only [State.captureBlob, hcapturing]
  split
  next h =>
    split
    · have hbuffer : bareBuffer ((bareBuffer s.keys.buffer).set w
          (mergeBytes (bareBuffer s.keys.buffer)[w] b.data b.strobes) h) =
          bareBuffer (s.keys.buffer.set w (mergeBytes s.keys.buffer[w] b.data b.strobes) h) := by
        interval_cases w <;> simp [bareBuffer]
      have hset : ∀ (u : State) buffer, withoutKeys { u with keys := { u.keys with buffer := buffer } } =
          { withoutKeys u with keys := { (withoutKeys u).keys with buffer := bareBuffer buffer } } := fun _ _ => rfl
      rw [hset, hset, withoutKeys_withoutKeys]
      exact congrArg (fun buffer => { withoutKeys s with keys := { (withoutKeys s).keys with buffer := buffer } })
        hbuffer
    · exact withoutKeys_withoutKeys s
  next => exact withoutKeys_withoutKeys s

theorem withoutKeys_applyBeat (i : Initiator) (p : Place) (b : WriteBeat) (s : State) :
    withoutKeys ((withoutKeys s).applyBeat i p b) = withoutKeys (s.applyBeat i p b) := by
  cases p with
  | memory => exact withoutKeys_withoutKeys s
  | slot r word =>
    simp only [State.applyBeat, withoutKeys_shadowInbound, withoutKeys_shadowPayload, withoutKeys_takeSlotCommand]
    repeat' split
    all_goals exact withoutKeys_withoutKeys _
  | status word => simp only [State.applyBeat, withoutKeys_writeStatus, withoutKeys_withoutKeys]
  | importArea word =>
    simp only [State.applyBeat, withoutKeys_takeImportCommand]
    split
    · exact withoutKeys_withoutKeys _
    · exact withoutKeys_captureBlob s word.val b

theorem withoutKeys_applyBeats (i : Initiator) (beats : List (Place × WriteBeat)) (s : State) :
    withoutKeys (State.applyBeats i beats (withoutKeys s)) = withoutKeys (State.applyBeats i beats s) := by
  induction beats generalizing s with
  | nil => exact withoutKeys_withoutKeys s
  | cons pb rest ih =>
    obtain ⟨p, b⟩ := pb
    simp only [State.applyBeats]
    rw [← ih, withoutKeys_applyBeat, ih]

section
variable (s : State)

theorem withoutKeys_slotBeat (r : SlotRef) (offset : Nat) (b : WriteBeat) {act : State → State}
    (h : act (withoutKeys s) = withoutKeys (act s)) :
    (withoutKeys s).slotBeat r offset b act = withoutKeys (s.slotBeat r offset b act) := by
  have hreloading : (withoutKeys s).reloading = s.reloading := rfl
  simp only [State.slotBeat, hreloading, withoutKeys_ctx?, Option.isNone_map, h]
  split <;> rfl

theorem withoutKeys_controlBeat (offset : Nat) (b : WriteBeat) {act : State → State}
    (h : withoutKeys (act (withoutKeys s)) = withoutKeys (act s)) :
    withoutKeys ((withoutKeys s).controlBeat offset b act) = withoutKeys (s.controlBeat offset b act) := by
  have hreloading : (withoutKeys s).reloading = s.reloading := rfl
  simp only [State.controlBeat, hreloading]
  split
  · exact withoutKeys_withoutKeys s
  · exact withoutKeys_congr (f := fun t => t.forwardBeat (s.base + offset) b) (fun _ => rfl) h

end

/-- A slot command row. -/
theorem rowBlind_slotCommand (s : State) {row : Instr} (i : Initiator) (r : SlotRef) (cw : CommandWord) (cmd : SlotCmd)
    (upper : BitVec 56) (h : ∀ t, exec row t = .next (t.slotCommandBeat i r cw cmd upper)) : RowBlind row s := by
  have hbeat : (withoutKeys s).slotCommandBeat i r cw cmd upper = withoutKeys (s.slotCommandBeat i r cw cmd upper) :=
    withoutKeys_slotBeat s r _ _ (withoutKeys_takeSlotCommand s i r (some cmd) upper)
  rw [RowBlind, h, h, hbeat]
  exact alike_withoutKeys _

/-- An import command row. -/
theorem rowBlind_importCommand (s : State) {row : Instr} (cmd : ImportCmd) (upper : BitVec 56)
    (h : ∀ t, exec row t = .next (t.importBeat cmd upper)) : RowBlind row s := by
  rw [RowBlind, h, h]
  exact alike_of_withoutKeys (withoutKeys_controlBeat s _ _
    (by rw [withoutKeys_takeImportCommand, withoutKeys_withoutKeys]))

/-- A row that writes a status word. -/
theorem rowBlind_setting (s : State) {row : Instr} (word : StatusWord) (offset : Nat) (w : Word)
    (h : ∀ t, exec row t = .next (t.settingBeat word offset w)) : RowBlind row s := by
  rw [RowBlind, h, h]
  exact alike_of_withoutKeys (withoutKeys_controlBeat s _ _
    (by rw [withoutKeys_writeStatus, withoutKeys_withoutKeys]))

/-! ### Reads, writes and memory's responses -/

section
variable (s : State)

theorem rowBlind_requestAccept (r : Request) : RowBlind (.requestAccept r) s := by
  show Alike (execRequestAccept r s) (execRequestAccept r (withoutKeys s))
  have hqueue : (withoutKeys s).queue r.initiator = s.queue r.initiator := rfl
  simp only [execRequestAccept, hqueue]
  split
  · exact alike_withoutKeys _
  · exact alike_withoutKeys s

theorem withoutKeys_admitRead (i : Initiator) (r : Request) :
    (withoutKeys s).admitRead i r = withoutKeys (s.admitRead i r) := by
  have hplaces : (withoutKeys s).requestPlaces r = s.requestPlaces r := rfl
  have hlatch : ∀ p, (withoutKeys s).latchLt p = withoutKeys (s.latchLt p) := fun _ => rfl
  simp only [State.admitRead, hplaces, withoutKeys_holdCauses, hlatch, withoutKeys_finishRead]
  split <;> rfl

theorem rowBlind_readTaken (i : Initiator) : RowBlind (.readTaken i) s := by
  show Alike (execReadTaken i s) (execReadTaken i (withoutKeys s))
  have hnext : (withoutKeys s).nextRequest i = s.nextRequest i := rfl
  have hrefusal : ∀ r, (withoutKeys s).refusalReason r [] = s.refusalReason r [] := fun _ => rfl
  simp only [execReadTaken, hnext, hrefusal, withoutKeys_admitRead]
  cases s.nextRequest i with
  | none => exact alike_withoutKeys s
  | some r =>
    simp only
    split
    · exact alike_withoutKeys s
    · cases s.refusalReason r [] with
      | some reason => exact alike_withoutKeys _
      | none => exact alike_withoutKeys _

theorem withoutKeys_admitWrite (i : Initiator) (r : Request) (beats : List WriteBeat) :
    withoutKeys ((withoutKeys s).admitWrite i r beats) = withoutKeys (s.admitWrite i r beats) := by
  have hplaces : (withoutKeys s).requestPlaces r = s.requestPlaces r := rfl
  simp only [State.admitWrite, hplaces]
  exact withoutKeys_congr (f := fun t => { t.setQueue i (takeHead (.forwarded [] false) (t.queue i)) with
    memOut := t.memOut ++ [.write r (((s.requestPlaces r).zip beats).map fun pb => forwardedBeat pb.1 pb.2)] })
    (fun _ => rfl) (withoutKeys_applyBeats i _ s)

theorem rowBlind_writeTaken (i : Initiator) (beats : List WriteBeat) : RowBlind (.writeTaken i beats) s := by
  show Alike (execWriteTaken i beats s) (execWriteTaken i beats (withoutKeys s))
  have hnext : (withoutKeys s).nextRequest i = s.nextRequest i := rfl
  have hrefusal : ∀ r, (withoutKeys s).refusalReason r beats = s.refusalReason r beats := fun _ => rfl
  simp only [execWriteTaken, hnext, hrefusal]
  cases s.nextRequest i with
  | none => exact alike_withoutKeys s
  | some r =>
    simp only
    split
    · exact alike_withoutKeys s
    · cases s.refusalReason r beats with
      | some reason => exact alike_withoutKeys _
      | none => exact alike_of_withoutKeys (withoutKeys_admitWrite s i r beats)

theorem rowBlind_memoryReadResponse (i : Initiator) (place : Fin 8) (beats : List ReadBeat) :
    RowBlind (.memoryReadResponse i place beats) s := by
  show Alike (execMemoryReadResponse i place beats s) (execMemoryReadResponse i place beats (withoutKeys s))
  have hqueue : (withoutKeys s).queue i = s.queue i := rfl
  simp only [execMemoryReadResponse, hqueue]
  split
  · split
    · exact alike_withoutKeys s
    · exact alike_withoutKeys _
  · exact alike_withoutKeys s

theorem rowBlind_memoryWriteResponse (i : Initiator) (place : Fin 8) (resp : Resp) :
    RowBlind (.memoryWriteResponse i place resp) s := by
  show Alike (execMemoryWriteResponse i place resp s) (execMemoryWriteResponse i place resp (withoutKeys s))
  have hqueue : (withoutKeys s).queue i = s.queue i := rfl
  simp only [execMemoryWriteResponse, hqueue]
  split
  · split
    · exact alike_withoutKeys s
    · exact alike_withoutKeys _
  · exact alike_withoutKeys s

/-! ### The clock, the deadline and the sampler -/

theorem rowBlind_tick : RowBlind .tick s := by
  show Alike (execTick s) (execTick (withoutKeys s))
  have hlife : (withoutKeys s).life = s.life := rfl
  simp only [execTick, hlife]
  split
  · exact alike_withoutKeys s
  · exact alike_withoutKeys _

theorem withoutKeys_countDown : (withoutKeys s).countDown = withoutKeys s.countDown := by
  have htime : (withoutKeys s).time = s.time := rfl
  simp only [State.countDown, htime]
  cases s.time.schedule with
  | none => rfl
  | some p =>
    simp only [withoutKeys_switchEpoch]
    split <;> rfl

theorem rowBlind_syncEdge : RowBlind .syncEdge s := by
  show Alike (execSyncEdge s) (execSyncEdge (withoutKeys s))
  have htime : (withoutKeys s).time = s.time := rfl
  have hcaptured : ∀ t : TimeUnit, ({ withoutKeys s with time := t } : State) = withoutKeys { s with time := t } :=
    fun _ => rfl
  simp only [execSyncEdge, htime, hcaptured, withoutKeys_countDown]
  split
  · exact alike_withoutKeys _
  · exact alike_withoutKeys _

theorem withoutKeys_tamperEvent : (withoutKeys s).tamperEvent = withoutKeys s.tamperEvent := by
  have hlife : (withoutKeys s).life = s.life := rfl
  simp only [State.tamperEvent, hlife]
  split
  · rfl
  · split
    · exact withoutKeys_startZeroization
        (State.raise .tamper { s with life := { s.life with tamperSeen := true } })
    · rfl

theorem rowBlind_tamperSample (asserted : Bool) : RowBlind (.tamperSample asserted) s := by
  show Alike (execTamperSample asserted s) (execTamperSample asserted (withoutKeys s))
  have hlife : (withoutKeys s).life = s.life := rfl
  have hsampler : ∀ n a, (withoutKeys s).setSampler n a = withoutKeys (s.setSampler n a) := fun _ _ => rfl
  simp only [execTamperSample, hlife, hsampler, withoutKeys_tamperEvent]
  split
  · exact alike_withoutKeys s
  · cases asserted with
    | false => exact alike_withoutKeys _
    | true =>
      cases s.life.armed with
      | false => exact alike_withoutKeys s
      | true =>
        simp only
        split
        · exact alike_withoutKeys _
        · exact alike_withoutKeys _

theorem rowBlind_deadlineReached (r : SlotRef) : RowBlind (.deadlineReached r) s := by
  show Alike (execDeadlineReached r s) (execDeadlineReached r (withoutKeys s))
  simp only [execDeadlineReached, withoutKeys_ctx?]
  cases s.ctx? r with
  | none => exact alike_withoutKeys s
  | some c =>
    have hdeadline : (bareCtx c).deadline = c.deadline := rfl
    have htime : (withoutKeys s).time = s.time := rfl
    simp only [Option.map_some, hdeadline, htime, withoutKeys_deadline]
    split
    · exact alike_withoutKeys _
    · exact alike_withoutKeys s

theorem rowBlind_readHoldLimit (i : Initiator) : RowBlind (.readHoldLimit i) s := by
  show Alike (.next (s.endAtLimit i)) (.next ((withoutKeys s).endAtLimit i))
  rw [withoutKeys_endAtLimit]
  exact alike_withoutKeys _

/-! ### The engine (chapter 2) -/

/-- A slot job that ends as it is taken (R43, R48). -/
theorem withoutKeys_completeSlotJob (r : SlotRef) (discard : Bool) {deliver : SlotCtx → State → State}
    (h : ∀ c t, deliver (bareCtx c) (withoutKeys t) = withoutKeys (deliver c t)) :
    (withoutKeys s).completeSlotJob r discard deliver = withoutKeys (s.completeSlotJob r discard deliver) := by
  have hidle : (withoutKeys s).idleEngine = withoutKeys s.idleEngine := rfl
  simp only [State.completeSlotJob, hidle, withoutKeys_ctx?]
  split
  · rfl
  · cases s.idleEngine.ctx? r with
    | none => rfl
    | some c =>
      have hstate : (bareCtx c).state = c.state := rfl
      have hwithdrawn : (bareCtx c).withdrawn = c.withdrawn := rfl
      simp only [Option.map_some, hstate, hwithdrawn]
      split
      · rw [← withoutKeys_settleHolds]
        exact congrArg State.settleHolds (withoutKeys_setCtx s.idleEngine r (clearCtx c))
      · split
        · split
          · rw [← withoutKeys_settleHolds]
            exact congrArg State.settleHolds (withoutKeys_enterEnd s.idleEngine r (faultCtx .keyWithdrawn c))
          · rw [← withoutKeys_settleHolds, ← h]
        · rfl

/-- A job that starts gives nothing out. -/
theorem sameOutside_startJob (r : SlotRef) (rest : List SlotRef) (c : SlotCtx) (w : Work) :
    SameOutside s (((s.popFifo rest).setCtx r c).startJob w) := ⟨rfl, rfl, rfl⟩

theorem alike_startJob (r : SlotRef) (rest : List SlotRef) (c c' : SlotCtx) (w w' : Work) :
    Alike (.next (((s.popFifo rest).setCtx r c).startJob w))
      (.next ((((withoutKeys s).popFifo rest).setCtx r c').startJob w')) :=
  alike_of_outside (sameOutside_startJob s r rest c w) (sameOutside_startJob (withoutKeys s) r rest c' w')

/-- A slot job that completes as it is taken. -/
theorem alike_takenAtOnce (r : SlotRef) (rest : List SlotRef) (c : SlotCtx) {deliver : SlotCtx → State → State}
    (h : ∀ c t, deliver (bareCtx c) (withoutKeys t) = withoutKeys (deliver c t)) :
    Alike (.next (((s.popFifo rest).setCtx r { c with state := .busy }).completeSlotJob r false deliver))
      (.next ((((withoutKeys s).popFifo rest).setCtx r { bareCtx c with state := .busy }).completeSlotJob r false
        deliver)) := by
  have hbusy : ((withoutKeys s).popFifo rest).setCtx r { bareCtx c with state := .busy } =
      withoutKeys ((s.popFifo rest).setCtx r { c with state := .busy }) :=
    withoutKeys_setCtx (s.popFifo rest) r { c with state := .busy }
  rw [hbusy, withoutKeys_completeSlotJob _ r false h]
  exact alike_withoutKeys _

theorem withoutKeys_deliverKeyReason (r : SlotRef) (generation : BitVec 8) (reason : Reason) (c : SlotCtx) :
    (withoutKeys s).deliverVerify r generation (.keyReason reason) (bareCtx c) =
      withoutKeys (s.deliverVerify r generation (.keyReason reason) c) :=
  congrArg (State.bump .key 1) (withoutKeys_enterEnd s r (rejectCtx reason c))

theorem alike_takeSlotJob (r : SlotRef) (rest : List SlotRef) :
    Alike (.next (s.takeSlotJob r rest)) (.next ((withoutKeys s).takeSlotJob r rest)) := by
  have hbare := withoutKeys_ctx? s r
  cases hc : s.ctx? r with
  | none =>
    rw [hc] at hbare
    have hnone : ∀ u : State, u.ctx? r = none → u.takeSlotJob r rest = u := fun u hu => by
      simp only [State.takeSlotJob, hu]
    rw [hnone s hc, hnone _ hbare]
    exact alike_withoutKeys s
  | some c =>
    rw [hc, Option.map_some] at hbare
    have hkind : (bareCtx c).jobKind = c.jobKind := rfl
    have hlookup := withoutKeys_lookupTag s c
    have hselect := withoutKeys_selectRecord s (tagKeySet c)
    cases hk : c.jobKind with
    | none =>
      have hnone : ∀ (u : State) c, u.ctx? r = some c → c.jobKind = none → u.takeSlotJob r rest = u :=
        fun u c hu hn => by
        simp only [State.takeSlotJob, hu, hn]
      rw [hnone s c hc hk, hnone _ _ hbare hk]
      exact alike_withoutKeys s
    | some kind =>
      cases kind with
      | verify =>
        cases hl : s.lookupTag c with
        | inr k =>
          rw [State.takeSlotJob_verify r rest s c k hc hk hl,
            State.takeSlotJob_verify r rest _ (bareCtx c) k hbare hk (hlookup.trans hl)]
          exact alike_startJob s r rest _ _ _ _
        | inl reason =>
          have hgeneration : (bareCtx c).generation = c.generation := rfl
          rw [State.takeSlotJob_verify_failing rest hc hk hl,
            State.takeSlotJob_verify_failing rest hbare hk (hlookup.trans hl), hgeneration]
          exact alike_takenAtOnce s r rest c (deliver :=
            fun c' t => t.deliverVerify r c.generation (.keyReason reason) c')
            fun c' t => withoutKeys_deliverKeyReason t r c.generation reason c'
      | sealing =>
        cases hl : s.selectRecord (tagKeySet c) with
        | some k =>
          rw [State.takeSlotJob_sealing rest hc hk hl, State.takeSlotJob_sealing rest hbare hk (hselect.trans hl)]
          exact alike_startJob s r rest _ _ _ _
        | none =>
          rw [State.takeSlotJob_sealing_failing rest hc hk hl,
            State.takeSlotJob_sealing_failing rest hbare hk (hselect.trans hl)]
          exact alike_takenAtOnce s r rest c (deliver := fun c' t => t.deliverSeal r none c')
            fun c' t => withoutKeys_enterEnd t r (faultCtx .noRecordKey c')

/-- An import job that starts gives nothing out. -/
theorem sameOutside_takeImportJob (kind : ImportKind) : SameOutside s (s.takeImportJob kind) := by
  simp only [SameOutside, State.takeImportJob, State.startJob, and_self]

theorem alike_takeImportJob (kind : ImportKind) :
    Alike (.next (s.takeImportJob kind)) (.next ((withoutKeys s).takeImportJob kind)) :=
  alike_of_outside (sameOutside_takeImportJob s kind) (sameOutside_takeImportJob (withoutKeys s) kind)

theorem rowBlind_engineTakeJob : RowBlind .engineTakeJob s := by
  show Alike (execEngineTakeJob s) (execEngineTakeJob (withoutKeys s))
  have hjob : (withoutKeys s).engine.job = s.engine.job.map bareJob := rfl
  have hfifo : (withoutKeys s).engine.fifo = s.engine.fifo := rfl
  have hplace : (withoutKeys s).engine.importPlace = s.engine.importPlace := rfl
  have hcount : (withoutKeys s).engine.waitCount = s.engine.waitCount := rfl
  have himport := alike_takeImportJob s
  simp only [execEngineTakeJob, hjob]
  cases s.engine.job with
  | some j => exact alike_withoutKeys s
  | none =>
    simp only [Option.map_none, State.arbitrate, hfifo, hplace, hcount]
    cases s.engine.fifo with
    | nil =>
      cases s.engine.importPlace with
      | none => exact alike_withoutKeys s
      | some kind => exact himport kind
    | cons r rest =>
      cases s.engine.importPlace with
      | none => exact alike_takeSlotJob s r rest
      | some kind =>
        simp only
        split
        · exact alike_takeSlotJob s r rest
        · exact himport kind

end

end Sys2Proof.Machine
end

