-- ==== Sys2Proof/Proofs/KeysUnseen.lean ====
section
/-! SUPPORT. The rows of the Key Store's jobs, of the NV writer and of the Window Map, with the keys and without them:
O48 (R5, R6, R20, R87, R96). -/

namespace Sys2Proof.Machine

open Sys2Proof.Safety

section
variable (s : State)

/-! ### Import and check jobs -/

theorem State.handOver_outside (kind : ImportKind) (h : Block) (res : Sum ImportCode (Block × BitVec 24)) :
    SameOutside s (s.handOver kind h res) := by
  simp only [SameOutside, State.handOver]
  repeat' split
  all_goals exact ⟨rfl, rfl, rfl⟩

theorem rowBlind_importComplete : RowBlind .importComplete s := by
  show Alike (execImportComplete s) (execImportComplete (withoutKeys s))
  have hjob : (withoutKeys s).engine.job = s.engine.job.map bareJob := rfl
  have hdone : ∀ u : State, SameOutside u u.idleEngine := fun _ => ⟨rfl, rfl, rfl⟩
  have hover : ∀ (u : State) kind h res, SameOutside u (u.idleEngine.handOver kind h res) := fun u kind h res =>
    u.idleEngine.handOver_outside kind h res
  simp only [execImportComplete, hjob]
  cases s.engine.job with
  | none => exact alike_withoutKeys s
  | some j =>
    obtain ⟨work, discard⟩ := j
    cases work with
    | importing kind h w mac transport =>
      simp only [Option.map_some, bareJob, bareWork]
      split
      · exact alike_of_outside (hdone s) (hdone _)
      · exact alike_of_outside (hover s _ _ _) (hover _ _ _ _)
    | _ => exact alike_withoutKeys s

/-- KEY_CHECK goes on from above an entry whatever the entry has become. -/
theorem State.continueCheck_setEntry (i : Fin 64) (e : DirEntry) :
    (s.setEntry i e).continueCheck (i.val + 1) = (s.continueCheck (i.val + 1)).setEntry i e := by
  have hentry : ∀ j : Fin 64, i.val + 1 ≤ j.val → (s.setEntry i e).entry j = s.entry j := fun j hj =>
    entry_setEntry_of_ne s e (by rintro rfl; omega)
  have hnext : (s.setEntry i e).nextToCheck (i.val + 1) = s.nextToCheck (i.val + 1) := by
    refine congrArg (fun p => List.find? p (List.finRange 64)) (funext fun j => ?_)
    by_cases hj : i.val + 1 ≤ j.val
    · simp [hentry j hj]
    · simp [hj]
  simp only [State.continueCheck, hnext]
  cases h : s.nextToCheck (i.val + 1) with
  | none =>
    have hnv : (s.setEntry i e).nv = s.nv := rfl
    have hzeroing : (s.setEntry i e).zeroing = s.zeroing := rfl
    simp only [State.beginReserve, hnv, hzeroing]
    split
    · rfl
    · split <;> rfl
  | some j =>
    have hj : i.val + 1 ≤ j.val := by
      have := List.find?_some h
      simp only [Bool.and_eq_true, decide_eq_true_eq] at this
      exact this.1
    simp only [hentry j hj]; rfl

theorem rowBlind_checkComplete : RowBlind .checkComplete s := by
  show Alike (execCheckComplete s) (execCheckComplete (withoutKeys s))
  have hjob : (withoutKeys s).engine.job = s.engine.job.map bareJob := rfl
  have hidle : (withoutKeys s).idleEngine = withoutKeys s.idleEngine := rfl
  have hset : ∀ (u : State) i e, SameOutside u (u.setEntry i e) := fun _ _ _ => ⟨rfl, rfl, rfl⟩
  simp only [execCheckComplete, hjob, hidle]
  cases s.engine.job with
  | none => exact alike_withoutKeys s
  | some j =>
    obtain ⟨work, discard⟩ := j
    cases work with
    | checking i key =>
      simp only [Option.map_some, bareJob, bareWork, State.continueCheck_setEntry, withoutKeys_continueCheck]
      exact alike_of_outside (hset _ _ _) (hset _ _ _)
    | _ => exact alike_withoutKeys s

/-! ### The NV writer -/

theorem bareWriter_goOn (w : NvWriter) : (bareWriter w).goOn = bareWriter w.goOn := by
  have hzeroize : (bareWriter w).zeroizeWaiting = w.zeroizeWaiting := rfl
  have hwaiting : (bareWriter w).waiting = w.waiting.map bareRequest := rfl
  simp only [NvWriter.goOn, hzeroize, hwaiting]
  split
  · rfl
  · cases w.waiting <;> rfl

theorem withoutKeys_nvNext : (withoutKeys s).nvNext = withoutKeys s.nvNext := by
  have hwriter : (withoutKeys s).writer = bareWriter s.writer := rfl
  simp only [State.nvNext, hwriter, bareWriter_goOn]; rfl

theorem withoutKeys_noteVerify (passed : Bool) :
    (withoutKeys s).noteVerify passed = withoutKeys (s.noteVerify passed) := by
  cases passed <;> rfl

theorem withoutKeys_endEpochRecord (value : BitVec 16) (passed : Bool) :
    (withoutKeys s).endEpochRecord value passed = withoutKeys (s.endEpochRecord value passed) := by
  simp only [State.endEpochRecord, ← withoutKeys_nvNext]
  split <;> rfl

theorem withoutKeys_endReservation (value : Nat) (passed : Bool) :
    (withoutKeys s).endReservation value passed = withoutKeys (s.endReservation value passed) := by
  simp only [State.endReservation, ← withoutKeys_nvNext]
  split <;> rfl

theorem withoutKeys_endReserveProgram (value : Nat) (passed : Bool) :
    (withoutKeys s).endReserveProgram value passed = withoutKeys (s.endReserveProgram value passed) := by
  simp only [State.endReserveProgram, ← withoutKeys_endReserve, ← withoutKeys_nvNext]
  split <;> rfl

theorem withoutKeys_leaveNvRead : (withoutKeys s).leaveNvRead = withoutKeys s.leaveNvRead := by
  have hlife : (withoutKeys s).life = s.life := rfl
  have hleft : ∀ l : LifeUnit, ({ withoutKeys s with life := l } : State) = withoutKeys { s with life := l } :=
    fun _ => rfl
  simp only [State.leaveNvRead, hlife, hleft, withoutKeys_startZeroization, withoutKeys_continueCheck]
  split <;> rfl

theorem withoutKeys_endBlankWord (passed : Bool) :
    (withoutKeys s).endBlankWord passed = withoutKeys (s.endBlankWord passed) := by
  cases passed with
  | false => rfl
  | true => exact withoutKeys_leaveNvRead { ((s.setLifeWord .blank).takeFromNv .blank).raise .zeroized with
      writer := { s.writer with running := none } }

theorem rowBlind_nvOperationEnd (passed : Bool) : RowBlind (.nvOperationEnd passed) s := by
  show Alike (execNvOperationEnd passed s) (execNvOperationEnd passed (withoutKeys s))
  have hrunning : (withoutKeys s).writer.running = s.writer.running.map bareRunning := rfl
  have hadmin : ∀ (u : State) op, SameOutside u ((u.noteVerify passed).endAdmin op passed) := fun u op => by
    simp [SameOutside]
  simp only [execNvOperationEnd, hrunning]
  cases s.writer.running with
  | none => exact alike_withoutKeys s
  | some op =>
    cases op with
    | request r =>
      cases r with
      | admin op => exact alike_of_outside (hadmin s op) (hadmin _ _)
      | epochRecord v =>
        simp only [Option.map_some, bareRunning, bareRequest, withoutKeys_noteVerify, withoutKeys_endEpochRecord]
        exact alike_withoutKeys _
      | reservation v =>
        simp only [Option.map_some, bareRunning, bareRequest, withoutKeys_noteVerify, withoutKeys_endReservation]
        exact alike_withoutKeys _
    | reserve v =>
      simp only [Option.map_some, bareRunning, withoutKeys_noteVerify, withoutKeys_endReserveProgram]
      exact alike_withoutKeys _
    | blankWord =>
      simp only [Option.map_some, bareRunning, withoutKeys_noteVerify, withoutKeys_endBlankWord]
      exact alike_withoutKeys _
    | nvZeroize n => exact alike_withoutKeys s

theorem rowBlind_nvZeroizeAttemptEnd (passed : Bool) : RowBlind (.nvZeroizeAttemptEnd passed) s := by
  show Alike (execNvZeroizeAttemptEnd passed s) (execNvZeroizeAttemptEnd passed (withoutKeys s))
  have hrunning : (withoutKeys s).writer.running = s.writer.running.map bareRunning := rfl
  have hlife : (withoutKeys s).life = s.life := rfl
  simp only [execNvZeroizeAttemptEnd, hrunning, hlife]
  cases s.writer.running with
  | none => exact alike_withoutKeys s
  | some op =>
    cases op with
    | nvZeroize n =>
      simp only [Option.map_some, bareRunning]
      split
      · split
        · exact alike_of_sameOutside ⟨rfl, rfl, rfl⟩
        · exact alike_of_sameOutside ⟨rfl, rfl, rfl⟩
      · split
        · exact alike_withoutKeys s
        · exact alike_of_sameOutside ⟨rfl, rfl, rfl⟩
    | request r => exact alike_withoutKeys s
    | reserve v => exact alike_withoutKeys s
    | blankWord => exact alike_withoutKeys s

theorem rowBlind_nvZeroizeStageEnd : RowBlind .nvZeroizeStageEnd s := by
  show Alike (execNvZeroizeStageEnd s) (execNvZeroizeStageEnd (withoutKeys s))
  have hrunning : (withoutKeys s).writer.running = s.writer.running.map bareRunning := rfl
  simp only [execNvZeroizeStageEnd, hrunning]
  cases s.writer.running with
  | none => exact alike_withoutKeys s
  | some op =>
    cases op with
    | nvZeroize n =>
      simp only [Option.map_some, bareRunning]
      split
      · exact alike_withoutKeys s
      · exact alike_of_sameOutside ⟨rfl, rfl, rfl⟩
    | request r => exact alike_withoutKeys s
    | reserve v => exact alike_withoutKeys s
    | blankWord => exact alike_withoutKeys s

/-- The entry that NV_READ places shows nothing of the record's key (R167). -/
theorem withoutKeys_readEntry (i : Fin 64) : bareEntry ((withoutKeys s).readEntry i) = bareEntry (s.readEntry i) := by
  have hrecord : ∀ j, bareEntry (entryOfRecord ((withoutKeys s).record j)) = bareEntry (entryOfRecord (s.record j)) :=
    fun j => by
      have : (withoutKeys s).record j = { s.record j with key := 0#128 } := by
        simp [State.record, withoutKeys_eq, bareNv]
      have hzero : recordFieldsZero { s.record j with key := 0#128 } = recordFieldsZero (s.record j) := rfl
      have hgood : recordFieldsGood { s.record j with key := 0#128 } = recordFieldsGood (s.record j) := rfl
      have hdamaged : damagedOfRecord { s.record j with key := 0#128 } = damagedOfRecord (s.record j) := rfl
      rw [this]
      simp only [entryOfRecord, hzero, hgood, hdamaged]
      repeat' split
      all_goals rfl
  have hfield : ∀ {α : Type} (f : DirEntry → α), (∀ e, f (bareEntry e) = f e) → ∀ j,
      f (entryOfRecord ((withoutKeys s).record j)) = f (entryOfRecord (s.record j)) := fun f hf j => by
    rw [← hf, hrecord, hf]
  have hrepeats : (withoutKeys s).repeatsTriple i = s.repeatsTriple i := by
    simp only [State.repeatsTriple, hasTriple, hfield DirEntry.state fun _ => rfl, hfield DirEntry.usage fun _ => rfl,
      hfield DirEntry.keySet fun _ => rfl, hfield DirEntry.version fun _ => rfl]
  simp only [State.readEntry, hrepeats]
  split
  · show bareEntry (damagedNameless (bareEntry _)) = bareEntry (damagedNameless (bareEntry _))
    rw [hrecord]
  · exact hrecord i

theorem withoutKeys_withDir {dir dir' : Vector DirEntry 64} (h : dir.map bareEntry = dir'.map bareEntry) :
    withoutKeys { withoutKeys s with keys := { (withoutKeys s).keys with dir := dir } } =
      withoutKeys { s with keys := { s.keys with dir := dir' } } := by
  have hset : ∀ (u : State) dir, withoutKeys { u with keys := { u.keys with dir := dir } } =
      { withoutKeys u with keys := { (withoutKeys u).keys with dir := dir.map bareEntry } } := fun _ _ => rfl
  have hplaced := congrArg₂ (fun (u : State) dir => ({ u with keys := { u.keys with dir := dir } } : State))
    (withoutKeys_withoutKeys s) h
  exact (hset (withoutKeys s) dir).trans (hplaced.trans (hset s dir').symm)

theorem rowBlind_nvReadEnd : RowBlind .nvReadEnd s := by
  show Alike (execNvReadEnd s) (execNvReadEnd (withoutKeys s))
  have hlife : (withoutKeys s).life = s.life := rfl
  have hword : (withoutKeys s).nv.lifeWord = s.nv.lifeWord := rfl
  have hrunning : (withoutKeys s).writer.running.isSome = s.writer.running.isSome := Option.isSome_map
  simp only [execNvReadEnd, hlife, hword, hrunning]
  split
  · exact alike_withoutKeys s
  · split
    · exact alike_of_sameOutside ⟨rfl, rfl, rfl⟩
    · have htake : ∀ l, (withoutKeys s).takeFromNv l = withoutKeys (s.takeFromNv l) := fun _ => rfl
      have hdir : (Vector.ofFn (withoutKeys s).readEntry).map bareEntry = (Vector.ofFn s.readEntry).map bareEntry :=
        Vector.ext fun i hi => by simp [withoutKeys_readEntry]
      refine alike_of_withoutKeys (withoutKeys_congr (f := State.leaveNvRead) withoutKeys_leaveNvRead ?_)
      rw [htake]
      exact withoutKeys_withDir _ hdir

/-! ### The Window Map -/

theorem withoutKeys_installContexts (new : Vector Descriptor 16) :
    installContexts (withoutKeys s) new = bareContexts (installContexts s new) := by
  have hgroup : ∀ g, groupContexts (withoutKeys s) new g = bareContexts (groupContexts s new g) := fun g => by
    have hkept : groupKept (withoutKeys s).map.table new g = groupKept s.map.table new g := rfl
    have hcontexts : (withoutKeys s).slots.contexts = bareContexts s.slots.contexts := rfl
    simp only [groupContexts, hkept, hcontexts, bareContexts, List.filter_map]
    split
    · rfl
    · split
      · simp only [List.map_map]; rfl
      · rfl
  simp only [installContexts_eq, funext hgroup, bareContexts, List.map_flatMap]

theorem installEngine_bareEngine (e : Engine) (kept : Fin 16 → Bool) :
    installEngine (bareEngine e) kept = bareEngine (installEngine e kept) := by
  have hjob : ∀ j, discardDropped kept (bareJob j) = bareJob (discardDropped kept j) := fun j => by
    have hslot : jobSlot (bareJob j) = jobSlot j := by
      obtain ⟨work, discard⟩ := j
      cases work <;> rfl
    simp only [discardDropped, hslot]
    cases jobSlot j with
    | none => rfl
    | some r => simp only; split <;> rfl
  simp only [installEngine, bareEngine, Option.map_map]
  congr 2
  exact funext hjob

theorem withoutKeys_installMap (new : Vector Descriptor 16) :
    (withoutKeys s).installMap new = withoutKeys (s.installMap new) := by
  have hengine : (withoutKeys s).engine = bareEngine s.engine := rfl
  have hinstalled : installed (withoutKeys s) new = withoutKeys (installed s new) := by
    simp only [installed, withoutKeys_installContexts, hengine, installEngine_bareEngine]; rfl
  rw [State.installMap_eq, State.installMap_eq, hinstalled, withoutKeys_settleHolds]; rfl

theorem withoutKeys_judgeTable (beats : List ReadBeat) :
    (withoutKeys s).judgeTable beats = withoutKeys (s.judgeTable beats) := by
  have hbase : (withoutKeys s).base = s.base := rfl
  simp only [State.judgeTable, hbase, withoutKeys_installMap]
  split <;> rfl

theorem rowBlind_mapTableReadStart : RowBlind .mapTableReadStart s := by
  show Alike (execMapTableReadStart s) (execMapTableReadStart (withoutKeys s))
  have hmap : (withoutKeys s).map = s.map := rfl
  have hdrained : (withoutKeys s).drained = s.drained := rfl
  simp only [execMapTableReadStart, hmap, hdrained]
  split
  · exact alike_withoutKeys _
  · exact alike_withoutKeys s

theorem rowBlind_mapTableReadEnd (first second : List ReadBeat) : RowBlind (.mapTableReadEnd first second) s := by
  show Alike (execMapTableReadEnd first second s) (execMapTableReadEnd first second (withoutKeys s))
  have hmap : (withoutKeys s).map = s.map := rfl
  have haddr : (withoutKeys s).tableAddr = s.tableAddr := rfl
  have hmem : (withoutKeys s).memOut = s.memOut := rfl
  simp only [execMapTableReadEnd, hmap, haddr, hmem]
  split
  · exact alike_withoutKeys s
  · cases first.findIdx? beatError with
    | some k => exact alike_withoutKeys _
    | none =>
      simp only
      split
      · exact alike_withoutKeys s
      · cases second.findIdx? beatError with
        | some k => exact alike_withoutKeys _
        | none =>
          have hjudged := withoutKeys_judgeTable { s with memOut := s.memOut ++ [MemOut.tableRead (s.tableAddr 1)] }
            (first ++ second)
          exact alike_of_withoutKeys ((congrArg withoutKeys hjudged).trans (withoutKeys_withoutKeys _))

/-! ### The other rows -/

theorem rowBlind_blobWrite (w : Fin 8) (b : WriteBeat) : RowBlind (.blobWrite w b) s :=
  alike_of_withoutKeys (withoutKeys_controlBeat s _ _ (withoutKeys_captureBlob s w.val b))

theorem rowBlind_inboundShadowWrite (r : SlotRef) (w : Fin 4) (b : WriteBeat) :
    RowBlind (.inboundShadowWrite r w b) s := by
  show Alike (.next _) (.next ((withoutKeys s).slotBeat r (0x20 + 8 * w.val) b fun t => t.shadowInbound r w b))
  rw [withoutKeys_slotBeat s r _ _ (withoutKeys_shadowInbound s r w b)]
  exact alike_withoutKeys _

theorem rowBlind_payloadShadowWrite (r : SlotRef) (w : Fin 4) (b : WriteBeat) :
    RowBlind (.payloadShadowWrite r w b) s := by
  show Alike (.next _) (.next ((withoutKeys s).slotBeat r (0x48 + 8 * w.val) b fun t => t.shadowPayload r w b))
  rw [withoutKeys_slotBeat s r _ _ (withoutKeys_shadowPayload s r w b)]
  exact alike_withoutKeys _

theorem rowBlind_resetNRelease : RowBlind .resetNRelease s := by
  show Alike (execResetNRelease s) (execResetNRelease (withoutKeys s))
  have hlife : (withoutKeys s).life = s.life := rfl
  simp only [execResetNRelease, hlife]
  split
  · exact alike_withoutKeys _
  · exact alike_withoutKeys s

theorem rowBlind_powerOnReset (straps : BitVec 2) : RowBlind (.powerOnReset straps) s :=
  alike_of_sameOutside ⟨rfl, rfl, rfl⟩

end

end Sys2Proof.Machine

namespace Sys2Proof.Proofs

open Sys2Proof.Machine Sys2Proof.Safety

/-- Settles O48, row by row. -/
theorem readsDoNotDependOnKeys : Obligations.ReadsDoNotDependOnKeys := by
  intro row s hverify hseal
  show RowBlind row s
  cases row with
  | verifyComplete => exact absurd rfl hverify
  | sealComplete => exact absurd rfl hseal
  | powerOnReset straps => exact rowBlind_powerOnReset s straps
  | tick => exact rowBlind_tick s
  | syncEdge => exact rowBlind_syncEdge s
  | tamperSample asserted => exact rowBlind_tamperSample s asserted
  | deadlineReached r => exact rowBlind_deadlineReached s r
  | readHoldLimit i => exact rowBlind_readHoldLimit s i
  | requestAccept r => exact rowBlind_requestAccept s r
  | readTaken i => exact rowBlind_readTaken s i
  | writeTaken i beats => exact rowBlind_writeTaken s i beats
  | memoryReadResponse i place beats => exact rowBlind_memoryReadResponse s i place beats
  | memoryWriteResponse i place resp => exact rowBlind_memoryWriteResponse s i place resp
  | inboundShadowWrite r w b => exact rowBlind_inboundShadowWrite s r w b
  | payloadShadowWrite r w b => exact rowBlind_payloadShadowWrite s r w b
  | openSlot i r cw upper => exact rowBlind_slotCommand s i r cw .open' upper fun _ => rfl
  | arm i r cw upper => exact rowBlind_slotCommand s i r cw .arm upper fun _ => rfl
  | sealSlot i r cw upper => exact rowBlind_slotCommand s i r cw .sealing upper fun _ => rfl
  | release i r cw upper => exact rowBlind_slotCommand s i r cw .release upper fun _ => rfl
  | abort i r cw upper => exact rowBlind_slotCommand s i r cw .abort upper fun _ => rfl
  | engineTakeJob => exact rowBlind_engineTakeJob s
  | importComplete => exact rowBlind_importComplete s
  | checkComplete => exact rowBlind_checkComplete s
  | blobWrite w b => exact rowBlind_blobWrite s w b
  | loadPlain upper => exact rowBlind_importCommand s .loadPlain upper fun _ => rfl
  | load upper => exact rowBlind_importCommand s .load upper fun _ => rfl
  | revoke upper => exact rowBlind_importCommand s .revoke upper fun _ => rfl
  | erase upper => exact rowBlind_importCommand s .erase upper fun _ => rfl
  | inquire upper => exact rowBlind_importCommand s .inquire upper fun _ => rfl
  | setReader upper => exact rowBlind_importCommand s .setReader upper fun _ => rfl
  | fieldLock upper => exact rowBlind_importCommand s .fieldLock upper fun _ => rfl
  | zeroize upper => exact rowBlind_importCommand s .zeroize upper fun _ => rfl
  | nvOperationEnd passed => exact rowBlind_nvOperationEnd s passed
  | nvZeroizeAttemptEnd passed => exact rowBlind_nvZeroizeAttemptEnd s passed
  | nvReadEnd => exact rowBlind_nvReadEnd s
  | nvZeroizeStageEnd => exact rowBlind_nvZeroizeStageEnd s
  | mapTableReadStart => exact rowBlind_mapTableReadStart s
  | mapTableReadEnd first second => exact rowBlind_mapTableReadEnd s first second
  | mapWordWrite w => exact rowBlind_setting s .mapWord 0x050 w fun _ => rfl
  | preWrite w => exact rowBlind_setting s .pre 0x018 w fun _ => rfl
  | epochScheduleWrite w => exact rowBlind_setting s .epoch 0x030 w fun _ => rfl
  | switchNow => exact rowBlind_setting s .epochControl 0x038 1#64 fun _ => rfl
  | cancel => exact rowBlind_setting s .epochControl 0x038 2#64 fun _ => rfl
  | attentionCausesWrite w => exact rowBlind_setting s .causes 0x040 w fun _ => rfl
  | attentionEnablesWrite w => exact rowBlind_setting s .enables 0x048 w fun _ => rfl
  | unmappedRightsWrite w => exact rowBlind_setting s .unmappedRights 0x058 w fun _ => rfl
  | duplicateIntervalWrite w => exact rowBlind_setting s .dInterval 0x060 w fun _ => rfl
  | holdTimeWrite w => exact rowBlind_setting s .holdTime 0x068 w fun _ => rfl
  | holdSet upper => exact rowBlind_setting s .hold 0x078 (upper ++ 1#1) fun _ => rfl
  | holdClear upper => exact rowBlind_setting s .hold 0x078 (upper ++ 0#1) fun _ => rfl
  | counterClear w => exact rowBlind_setting s .counterClear 0x0B0 w fun _ => rfl
  | resetNRelease => exact rowBlind_resetNRelease s

end Sys2Proof.Proofs
end

