-- ==== Sys2Proof/Proofs/BesideLoad.lean ====
section
/-! SUPPORT. What a beat of a write acts alike under: whether a reload runs (R146) makes no difference to any beat but
the map word's (O46). -/

namespace Sys2Proof.Machine

open Sys2Proof.Safety

/-- The part with the load of its window table at a stage. -/
def State.withLoad (l : Option LoadStage) (s : State) : State := { s with map := { s.map with load := l } }

theorem withLoad_self (s : State) : s.withLoad s.map.load = s := rfl

section
variable (l : Option LoadStage) (s : State)

/-! ### Held reads -/

theorem withLoad_answer (p : Place) : answer (s.withLoad l) p = answer s p := by
  cases p with
  | status word => cases word <;> rfl
  | _ => rfl

theorem withLoad_settleHolds : (s.withLoad l).settleHolds = s.settleHolds.withLoad l := by
  have hanswers : ∀ places, (s.withLoad l).answers places = s.answers places := fun places =>
    List.map_congr_left fun p _ => withLoad_answer l s p
  have hfinish : ∀ r places, (s.withLoad l).finishRead r places = s.finishRead r places := fun r places => by
    simp only [State.finishRead, hanswers]
  have hholds : (s.withLoad l).stillHolds = s.stillHolds := rfl
  have hentry : (s.withLoad l).settleEntry = s.settleEntry := funext fun e => by
    simp only [State.settleEntry, hholds, hfinish]
  simp only [State.settleHolds, hentry]; rfl

/-! ### Slot words -/

theorem withLoad_carryArm (r : SlotRef) (c : SlotCtx) : (s.withLoad l).carryArm r c = (s.carryArm r c).withLoad l := by
  simp only [State.carryArm]
  split <;> rfl

theorem withLoad_carryAbort (r : SlotRef) (c : SlotCtx) :
    (s.withLoad l).carryAbort r c = (s.carryAbort r c).withLoad l := by
  simp only [State.carryAbort]
  split
  · rfl
  · split
    · exact withLoad_settleHolds l ((s.carryRelease r c).leaveFifo r)
    · rfl

theorem withLoad_refuseSlot (res : SlotResult) (r : SlotRef) (c : SlotCtx) :
    (s.withLoad l).refuseSlot res r c = (s.refuseSlot res r c).withLoad l := by
  simp only [State.refuseSlot]
  split <;> rfl

theorem withLoad_takeSlotCommand (i : Initiator) (r : SlotRef) (cmd : Option SlotCmd) (upper : BitVec 56) :
    (s.withLoad l).takeSlotCommand i r cmd upper = (s.takeSlotCommand i r cmd upper).withLoad l := by
  have hctx : (s.withLoad l).ctx? r = s.ctx? r := rfl
  have hrefusal : ∀ c, (s.withLoad l).slotRefusal i r cmd upper c = s.slotRefusal i r cmd upper c := fun _ => rfl
  simp only [State.takeSlotCommand, hctx, hrefusal]
  cases s.ctx? r with
  | none => rfl
  | some c =>
    simp only
    cases s.slotRefusal i r cmd upper c with
    | some res => exact withLoad_refuseSlot l s res r c
    | none =>
      match cmd with
      | none => rfl
      | some .open' => rfl
      | some .arm => exact withLoad_carryArm l s r c
      | some .sealing => rfl
      | some .release => rfl
      | some .abort => exact withLoad_carryAbort l s r c

theorem withLoad_shadowInbound (r : SlotRef) (w : Fin 4) (b : WriteBeat) :
    (s.withLoad l).shadowInbound r w b = (s.shadowInbound r w b).withLoad l := by
  have hctx : (s.withLoad l).ctx? r = s.ctx? r := rfl
  simp only [State.shadowInbound, hctx]
  cases s.ctx? r with
  | none => rfl
  | some c => simp only; split <;> rfl

theorem withLoad_shadowPayload (r : SlotRef) (w : Fin 4) (b : WriteBeat) :
    (s.withLoad l).shadowPayload r w b = (s.shadowPayload r w b).withLoad l := by
  have hctx : (s.withLoad l).ctx? r = s.ctx? r := rfl
  simp only [State.shadowPayload, hctx]
  cases s.ctx? r with
  | none => rfl
  | some c => simp only; split <;> rfl

/-! ### Words of the import area -/

theorem withLoad_captureBlob (w : Nat) (b : WriteBeat) :
    (s.withLoad l).captureBlob w b = (s.captureBlob w b).withLoad l := by
  have hcapturing : (s.withLoad l).capturing = s.capturing := rfl
  simp only [State.captureBlob, hcapturing]
  split
  · split <;> rfl
  · rfl

theorem withLoad_withdraw (k : Fin 64) : (s.withLoad l).withdraw k = (s.withdraw k).withLoad l :=
  withLoad_settleHolds l (s.withdrawing k)

theorem withLoad_placeUnlessTaken (cmd : ImportCmd) (kind : ImportKind) (h : Block) :
    (s.withLoad l).placeUnlessTaken cmd kind h = (s.placeUnlessTaken cmd kind h).withLoad l := by
  have hfind : (s.withLoad l).findEntry = s.findEntry := rfl
  have hempty : (s.withLoad l).lowestEmpty = s.lowestEmpty := rfl
  simp only [State.placeUnlessTaken, hfind, hempty]
  cases s.findEntry (usageOf (headerUsage h)) (headerKeySet h) (headerVersion h) with
  | some i => rfl
  | none => simp only; split <;> rfl

theorem withLoad_carryLoadPlain : (s.withLoad l).carryLoadPlain = s.carryLoadPlain.withLoad l := by
  have hkeys : (s.withLoad l).keys = s.keys := rfl
  simp only [State.carryLoadPlain, hkeys, withLoad_placeUnlessTaken]
  split <;> rfl

theorem withLoad_carryLoad : (s.withLoad l).carryLoad = s.carryLoad.withLoad l := by
  have hkeys : (s.withLoad l).keys = s.keys := rfl
  have hloaded : (s.withLoad l).transportLoaded = s.transportLoaded := rfl
  simp only [State.carryLoad, hkeys, hloaded, withLoad_placeUnlessTaken]
  split
  · rfl
  · split <;> rfl

/-- A withdrawal with its admin request. -/
theorem withLoad_withdrawn (cmd : ImportCmd) (i : Fin 64) (e : DirEntry) (op : AdminOp) :
    (((s.withLoad l).setEntry i e).withdraw i).placeAdmin cmd op =
      (((s.setEntry i e).withdraw i).placeAdmin cmd op).withLoad l :=
  congrArg (State.placeAdmin cmd op) (withLoad_withdraw l (s.setEntry i e) i)

theorem withLoad_carryRevoke : (s.withLoad l).carryRevoke = s.carryRevoke.withLoad l := by
  have hkeys : (s.withLoad l).keys = s.keys := rfl
  have hnamed : (s.withLoad l).namedEntry = s.namedEntry := rfl
  have hentry : (s.withLoad l).entry = s.entry := rfl
  have hprotected : (s.withLoad l).isProtected = s.isProtected := rfl
  simp only [State.carryRevoke, hkeys, hnamed, hentry, hprotected, withLoad_withdrawn]
  split
  · rfl
  · cases s.namedEntry with
    | none => rfl
    | some i =>
      simp only
      split
      · rfl
      · split <;> rfl

theorem withLoad_carryErase : (s.withLoad l).carryErase = s.carryErase.withLoad l := by
  have hkeys : (s.withLoad l).keys = s.keys := rfl
  have hnamed : (s.withLoad l).namedEntry = s.namedEntry := rfl
  have hentry : (s.withLoad l).entry = s.entry := rfl
  have hprotected : (s.withLoad l).isProtected = s.isProtected := rfl
  simp only [State.carryErase, hkeys, hnamed, hentry, hprotected, withLoad_withdrawn]
  split
  · rfl
  · cases s.namedEntry with
    | none => rfl
    | some i => simp only; split <;> rfl

theorem withLoad_carrySetReader (upper : BitVec 56) :
    (s.withLoad l).carrySetReader upper = (s.carrySetReader upper).withLoad l := by
  simp only [State.carrySetReader]
  split <;> rfl

theorem withLoad_carryFieldLock : (s.withLoad l).carryFieldLock = s.carryFieldLock.withLoad l := by
  have hlife : (s.withLoad l).life = s.life := rfl
  have hentry : (s.withLoad l).entry = s.entry := rfl
  simp only [State.carryFieldLock, hlife, hentry]
  split
  · rfl
  · split <;> rfl

/-- A zeroization that does not end KEY_CHECK leaves the load alone. -/
theorem withLoad_startZeroization (h : s.life.phase ≠ .keyCheck) :
    (s.withLoad l).startZeroization = s.startZeroization.withLoad l := by
  have hlife : (s.withLoad l).life = s.life := rfl
  have himport : (s.withLoad l).endImportByZeroize = s.endImportByZeroize.withLoad l := by
    have hkeys : (s.withLoad l).keys = s.keys := rfl
    simp only [State.endImportByZeroize, hkeys]
    split <;> rfl
  have hstopped : (s.withLoad l).stoppedForZeroize = s.stoppedForZeroize.withLoad l := by
    simp only [State.stoppedForZeroize, himport]; rfl
  rw [State.startZeroization_eq, State.startZeroization_eq, hlife, if_neg h, if_neg h, hstopped, withLoad_settleHolds]

theorem withLoad_takeImportCommand (code : Byte) (upper : BitVec 56) :
    (s.withLoad l).takeImportCommand code upper = (s.takeImportCommand code upper).withLoad l := by
  have hlife : (s.withLoad l).life = s.life := rfl
  have hrefusal : ∀ cmd, (s.withLoad l).importRefusal cmd upper = s.importRefusal cmd upper := fun _ => rfl
  simp only [State.takeImportCommand, hlife, hrefusal]
  split
  · rfl
  next hphase =>
    have hrunning : s.life.phase ≠ .keyCheck := fun h => by simp [h] at hphase
    cases s.importRefusal (importCommandOf code) upper with
    | some refused => rfl
    | none =>
      match importCommandOf code with
      | none => rfl
      | some .loadPlain => exact withLoad_carryLoadPlain l s
      | some .load => exact withLoad_carryLoad l s
      | some .revoke => exact withLoad_carryRevoke l s
      | some .erase => exact withLoad_carryErase l s
      | some .inquire => rfl
      | some .setReader => exact withLoad_carrySetReader l s upper
      | some .fieldLock => exact withLoad_carryFieldLock l s
      | some .zeroize => exact withLoad_startZeroization l (s.endAtOnce 0x08#8 .ok 0 0#24) hrunning

/-! ### Settings -/

theorem withLoad_writeSchedule (w : Word) : (s.withLoad l).writeSchedule w = (s.writeSchedule w).withLoad l := by
  have htime : (s.withLoad l).time = s.time := rfl
  simp only [State.writeSchedule, htime]
  split <;> rfl

theorem withLoad_writeEpochControl (w : Word) :
    (s.withLoad l).writeEpochControl w = (s.writeEpochControl w).withLoad l := by
  have hswitch : (s.withLoad l).switchNow = s.switchNow.withLoad l := by
    have htime : (s.withLoad l).time = s.time := rfl
    simp only [State.switchNow, htime]
    cases s.time.schedule <;> rfl
  simp only [State.writeEpochControl, hswitch]
  split
  · rfl
  · split <;> rfl

theorem withLoad_clearCauses (w : Word) : (s.withLoad l).clearCauses w = (s.clearCauses w).withLoad l := by
  have hcause : (s.withLoad l).causeSet = s.causeSet := rfl
  simp only [State.clearCauses, hcause]
  split <;> rfl

theorem withLoad_writeHold (w : Word) : (s.withLoad l).writeHold w = (s.writeHold w).withLoad l := by
  have hstatus : (s.withLoad l).status = s.status := rfl
  have himport : (s.withLoad l).endImportByHold = s.endImportByHold.withLoad l := by
    have hkeys : (s.withLoad l).keys = s.keys := rfl
    simp only [State.endImportByHold, hkeys]
    split <;> rfl
  have hstopped : (s.withLoad l).stoppedForHold = s.stoppedForHold.withLoad l := by
    simp only [State.stoppedForHold, himport]; rfl
  have hset : (s.withLoad l).setHold = s.setHold.withLoad l := by
    rw [State.setHold_eq, State.setHold_eq, hstopped, withLoad_settleHolds]
  simp only [State.writeHold, hstatus, hset]
  split
  · split <;> rfl
  · rfl

theorem withLoad_writeStatus (word : StatusWord) (w : Word) (h : word ≠ .mapWord) :
    (s.withLoad l).writeStatus word w = (s.writeStatus word w).withLoad l := by
  have hmap : (word == .mapWord) = false := by simpa using h
  have htaken : (s.withLoad l).settingTaken word = s.settingTaken word := by
    simp only [State.settingTaken, hmap, Bool.false_and]; rfl
  have hset : (s.withLoad l).applySetting word w = (s.applySetting word w).withLoad l := by
    cases word with
    | mapWord => exact absurd rfl h
    | epoch => exact withLoad_writeSchedule l s w
    | epochControl => exact withLoad_writeEpochControl l s w
    | causes => exact withLoad_clearCauses l s w
    | hold => exact withLoad_writeHold l s w
    | _ => rfl
  simp only [State.writeStatus, htaken, hset]
  split <;> rfl

/-- Every beat but the map word's acts alike whether a load is under way or not. -/
theorem withLoad_applyBeat (i : Initiator) (p : Place) (b : WriteBeat) (h : p ≠ .status .mapWord) :
    (s.withLoad l).applyBeat i p b = (s.applyBeat i p b).withLoad l := by
  cases p with
  | memory => rfl
  | slot r word =>
    simp only [State.applyBeat, withLoad_shadowInbound, withLoad_shadowPayload, withLoad_takeSlotCommand]
    split
    · rfl
    · split
      · rfl
      · split <;> rfl
  | status word => exact withLoad_writeStatus l s word b.data fun e => h (by rw [e])
  | importArea word =>
    simp only [State.applyBeat, withLoad_takeImportCommand, withLoad_captureBlob]
    split <;> rfl

end

end Sys2Proof.Machine
end

