-- ==== Sys2Proof/Proofs/Beats.lean ====
section
/-! SUPPORT. The beats of a write, each as its own row or as its rule says, and the write as a whole: O46 (R4, R8, R9,
R18, R19, R96, R100, R128, R142, R181). -/

namespace Sys2Proof.Machine

open Sys2Proof.Safety

/-! ### The first request of a queue that has not been taken -/

/-- The first entry of an initiator's queue that has not been taken. -/
def State.firstUntaken (s : State) (i : Initiator) : Option QueueEntry := (s.queue i).find? isUntaken

theorem firstUntaken_of_queues {s t : State} (h : t.path.queues = s.path.queues) (i : Initiator) :
    t.firstUntaken i = s.firstUntaken i := by simp only [State.firstUntaken, State.queue, h]

/-- A change of taken entries alone. -/
theorem find?_isUntaken_map {f : QueueEntry → QueueEntry} (hf : ∀ e, isUntaken (f e) = isUntaken e)
    (hid : ∀ e, isUntaken e = true → f e = e) (q : List QueueEntry) :
    (q.map f).find? isUntaken = q.find? isUntaken := by
  induction q with
  | nil => rfl
  | cons e q ih =>
    rw [List.map_cons, List.find?_cons, List.find?_cons, hf, ih]
    cases h : isUntaken e with
    | false => rfl
    | true => rw [hid e h]

theorem find?_isUntaken_drain (q : List QueueEntry) : (drain q).2.find? isUntaken = q.find? isUntaken := by
  induction q with
  | nil => rfl
  | cons e q ih =>
    unfold drain
    split
    next reply h =>
      have : isUntaken e = false := by simp [isUntaken, h]
      simp [this, ih]
    next => rfl

theorem isUntaken_settleEntry (s : State) (e : QueueEntry) : isUntaken (s.settleEntry e).1 = isUntaken e := by
  obtain ⟨r, stage⟩ := e
  cases stage with
  | held endsAt places waits =>
    simp only [State.settleEntry, State.finishRead]
    repeat' split
    all_goals rfl
  | _ => rfl

theorem settleEntry_of_isUntaken (s : State) {e : QueueEntry} (h : isUntaken e = true) : (s.settleEntry e).1 = e := by
  obtain ⟨r, stage⟩ := e
  cases stage <;> simp_all [isUntaken, State.settleEntry]

section
variable (s : State) (i : Initiator)

theorem firstUntaken_settleHolds : s.settleHolds.firstUntaken i = s.firstUntaken i := by
  rw [State.firstUntaken, State.queue_settleHolds, find?_isUntaken_drain,
    find?_isUntaken_map (isUntaken_settleEntry s) fun _ => settleEntry_of_isUntaken s]
  rfl

theorem firstUntaken_beginLoad : s.beginLoad.firstUntaken i = s.firstUntaken i := by
  have hqueue : s.beginLoad.queue i = (s.queue i).map markEntry := by
    simp [State.beginLoad, State.queue, Fin.getElem_fin]
  have hmark : ∀ e, isUntaken (markEntry e) = isUntaken e := fun e => by
    obtain ⟨r, stage⟩ := e
    cases stage with
    | forwarded a m => simp only [markEntry]; split <;> rfl
    | _ => rfl
  have hid : ∀ e, isUntaken e = true → markEntry e = e := fun e he => by
    obtain ⟨r, stage⟩ := e
    cases stage <;> simp_all [isUntaken, markEntry]
  rw [State.firstUntaken, hqueue, find?_isUntaken_map hmark hid]
  rfl

theorem firstUntaken_carrySlot (cmd : SlotCmd) (r : SlotRef) (c : SlotCtx) :
    (s.carrySlot cmd r c).firstUntaken i = s.firstUntaken i := by
  cases cmd with
  | arm => simp only [State.carrySlot, State.carryArm]; split <;> rfl
  | abort =>
    simp only [State.carrySlot, State.carryAbort]
    split
    · rfl
    · split
      · exact firstUntaken_settleHolds ((s.carryRelease r c).leaveFifo r) i
      · rfl
  | _ => rfl

theorem firstUntaken_takeSlotCommand (who : Initiator) (r : SlotRef) (cmd : Option SlotCmd) (upper : BitVec 56) :
    (s.takeSlotCommand who r cmd upper).firstUntaken i = s.firstUntaken i := by
  simp only [State.takeSlotCommand]
  split
  · rfl
  · split
    · simp only [State.refuseSlot]; split <;> rfl
    · exact firstUntaken_carrySlot s i _ _ _
    · rfl

theorem firstUntaken_placeUnlessTaken (cmd : ImportCmd) (kind : ImportKind) (h : Block) :
    (s.placeUnlessTaken cmd kind h).firstUntaken i = s.firstUntaken i := by
  simp only [State.placeUnlessTaken]
  split
  · rfl
  · split <;> rfl

theorem firstUntaken_withdrawn (cmd : ImportCmd) (k : Fin 64) (e : DirEntry) (op : AdminOp) :
    (((s.setEntry k e).withdraw k).placeAdmin cmd op).firstUntaken i = s.firstUntaken i :=
  firstUntaken_settleHolds ((s.setEntry k e).withdrawing k) i

theorem firstUntaken_startZeroization (h : s.life.phase ≠ .keyCheck) :
    s.startZeroization.firstUntaken i = s.firstUntaken i := by
  rw [State.startZeroization_eq, if_neg h]
  exact firstUntaken_settleHolds s.stoppedForZeroize i

theorem firstUntaken_carryImport (h : s.life.phase ≠ .keyCheck) (cmd : ImportCmd) (upper : BitVec 56) :
    (s.carryImport cmd upper).firstUntaken i = s.firstUntaken i := by
  cases cmd with
  | loadPlain =>
    simp only [State.carryImport, State.carryLoadPlain]
    split
    · rfl
    · exact firstUntaken_placeUnlessTaken s i _ _ _
  | load =>
    simp only [State.carryImport, State.carryLoad]
    split
    · rfl
    · split
      · rfl
      · exact firstUntaken_placeUnlessTaken s i _ _ _
  | revoke =>
    simp only [State.carryImport, State.carryRevoke]
    split
    · rfl
    · split
      · rfl
      · split
        · rfl
        · split
          · rfl
          · exact firstUntaken_withdrawn s i _ _ _ _
  | erase =>
    simp only [State.carryImport, State.carryErase]
    split
    · rfl
    · split
      · rfl
      · split
        · rfl
        · exact firstUntaken_withdrawn s i _ _ _ _
  | inquire => rfl
  | setReader =>
    simp only [State.carryImport, State.carrySetReader]
    split <;> rfl
  | fieldLock =>
    simp only [State.carryImport, State.carryFieldLock]
    split
    · rfl
    · split <;> rfl
  | zeroize => exact firstUntaken_startZeroization (s.endAtOnce 0x08#8 .ok 0 0#24) i h

theorem firstUntaken_takeImportCommand (code : Byte) (upper : BitVec 56) :
    (s.takeImportCommand code upper).firstUntaken i = s.firstUntaken i := by
  simp only [State.takeImportCommand]
  split
  · rfl
  next hphase =>
    split
    · rfl
    · exact firstUntaken_carryImport s i (fun h => hphase (by simp [h])) _ _
    · rfl

theorem firstUntaken_writeStatus (word : StatusWord) (w : Word) :
    (s.writeStatus word w).firstUntaken i = s.firstUntaken i := by
  simp only [State.writeStatus]
  split
  · cases word with
    | epoch => simp only [State.applySetting, State.writeSchedule]; split <;> rfl
    | epochControl =>
      simp only [State.applySetting, State.writeEpochControl, State.switchNow]
      repeat' split
      all_goals rfl
    | causes => simp only [State.applySetting, State.clearCauses]; split <;> rfl
    | mapWord => exact firstUntaken_beginLoad { s with map := { s.map with requested := w.extractLsb' 0 16 } } i
    | hold =>
      simp only [State.applySetting, State.writeHold, State.setHold_eq]
      split
      · split
        · rfl
        · exact firstUntaken_settleHolds s.stoppedForHold i
      · rfl
    | _ => rfl
  · rfl

/-- No beat takes a request, nor passes one by (R136). -/
theorem firstUntaken_applyBeat (who : Initiator) (p : Place) (b : WriteBeat) :
    (s.applyBeat who p b).firstUntaken i = s.firstUntaken i := by
  cases p with
  | memory => rfl
  | slot r word =>
    simp only [State.applyBeat]
    split
    · simp only [State.shadowInbound]
      repeat' split
      all_goals rfl
    · split
      · simp only [State.shadowPayload]
        repeat' split
        all_goals rfl
      · split
        · exact firstUntaken_takeSlotCommand s i _ _ _ _
        · rfl
  | status word => exact firstUntaken_writeStatus s i word b.data
  | importArea word =>
    simp only [State.applyBeat]
    split
    · exact firstUntaken_takeImportCommand s i _ _
    · simp only [State.captureBlob]
      repeat' split
      all_goals rfl

theorem firstUntaken_applyBeats (who : Initiator) (beats : List (Place × WriteBeat)) :
    (State.applyBeats who beats s).firstUntaken i = s.firstUntaken i := by
  induction beats generalizing s with
  | nil => rfl
  | cons pb rest ih =>
    obtain ⟨p, b⟩ := pb
    exact (ih _).trans (firstUntaken_applyBeat s i who p b)

end

/-- The first untaken entry with what stands around it. -/
theorem firstUntaken_eq_some {s : State} {i : Initiator} {e : QueueEntry} : s.firstUntaken i = some e ↔
    isUntaken e = true ∧ ∃ front back, s.queue i = front ++ e :: back ∧ ∀ x ∈ front, isUntaken x = false := by
  simp only [State.firstUntaken, List.find?_eq_some_iff_append, Bool.not_eq_true']

/-- The head of the untaken part moves to a stage, whatever stands before it. -/
theorem takeHead_of_first (st : Stage) {front back : List QueueEntry} {r : Request}
    (h : ∀ e ∈ front, isUntaken e = false) :
    takeHead st (front ++ { req := r, stage := .untaken } :: back) = front ++ { req := r, stage := st } :: back := by
  induction front with
  | nil => rfl
  | cons e l ih =>
    obtain ⟨he, hl⟩ := List.forall_mem_cons.mp h
    simp [takeHead, he, ih hl]

theorem map_req_takeHead (st : Stage) (q : List QueueEntry) : (takeHead st q).map (·.req) = q.map (·.req) := by
  induction q with
  | nil => rfl
  | cons e l ih => simp only [takeHead]; split <;> simp [ih]

/-! ### The rows that are beats -/

theorem slotCommandOf_slotCode (cmd : SlotCmd) : slotCommandOf (slotCode cmd) = some cmd := by cases cmd <;> rfl

theorem importCommandOf_importCode (cmd : ImportCmd) : importCommandOf (importCode cmd) = some cmd := by
  cases cmd <;> rfl

theorem exec_importRow {row : Instr} {cmd : ImportCmd} {upper : BitVec 56} (h : importRow row = some (cmd, upper))
    (s : State) : exec row s = .next (s.importBeat cmd upper) := by
  cases row <;> cases h <;> rfl

theorem exec_settingRow {row : Instr} {word : StatusWord} {offset : Nat} {w : Word}
    (h : settingRow row = some (word, offset, w)) (s : State) :
    exec row s = .next (s.settingBeat word offset w) := by
  cases row <;> cases h <;> rfl

/-- The command of a written slot command word (R198). -/
theorem commandRow_cases (i : Initiator) (ref : SlotRef) (cw : CommandWord) (w : Word) :
    (commandRow i ref cw w = none ∧ slotCommandOf (w.extractLsb' 0 8) = none) ∨
    ∃ row cmd, commandRow i ref cw w = some row ∧ slotCommandOf (w.extractLsb' 0 8) = some cmd ∧
      slotRow row = some (i, ref, cw, cmd, w.extractLsb' 8 56) := by
  simp only [commandRow, slotCommandOf, slotCode, List.find?_cons, List.find?_nil]
  generalize w.extractLsb' 0 8 = code
  by_cases h1 : code = 0x01#8
  · subst h1; exact .inr ⟨_, .open', rfl, rfl, rfl⟩
  by_cases h2 : code = 0x02#8
  · subst h2; exact .inr ⟨_, .arm, rfl, rfl, rfl⟩
  by_cases h3 : code = 0x03#8
  · subst h3; exact .inr ⟨_, .sealing, rfl, rfl, rfl⟩
  by_cases h4 : code = 0x04#8
  · subst h4; exact .inr ⟨_, .release, rfl, rfl, rfl⟩
  by_cases h5 : code = 0x05#8
  · subst h5; exact .inr ⟨_, .abort, rfl, rfl, rfl⟩
  · refine .inl ⟨by simp only [h1, h2, h3, h4, h5, if_false], ?_⟩
    have hne : ∀ {a : Byte}, code ≠ a → (a == code) = false := fun h => beq_eq_false_iff_ne.mpr (Ne.symm h)
    simp only [hne h1, hne h2, hne h3, hne h4, hne h5]

/-- The command of a written import command word (R200). -/
theorem importCommandRow_cases (w : Word) :
    (importCommandRow w = none ∧ importCommandOf (w.extractLsb' 0 8) = none) ∨
    ∃ row cmd, importCommandRow w = some row ∧ importCommandOf (w.extractLsb' 0 8) = some cmd ∧
      w.extractLsb' 0 8 = importCode cmd ∧ importRow row = some (cmd, w.extractLsb' 8 56) := by
  simp only [importCommandRow, importCommandOf, importCode, List.find?_cons, List.find?_nil]
  generalize w.extractLsb' 0 8 = code
  by_cases h1 : code = 0x01#8
  · subst h1; exact .inr ⟨_, .loadPlain, rfl, rfl, rfl, rfl⟩
  by_cases h2 : code = 0x02#8
  · subst h2; exact .inr ⟨_, .load, rfl, rfl, rfl, rfl⟩
  by_cases h3 : code = 0x03#8
  · subst h3; exact .inr ⟨_, .revoke, rfl, rfl, rfl, rfl⟩
  by_cases h4 : code = 0x04#8
  · subst h4; exact .inr ⟨_, .erase, rfl, rfl, rfl, rfl⟩
  by_cases h5 : code = 0x05#8
  · subst h5; exact .inr ⟨_, .inquire, rfl, rfl, rfl, rfl⟩
  by_cases h6 : code = 0x06#8
  · subst h6; exact .inr ⟨_, .setReader, rfl, rfl, rfl, rfl⟩
  by_cases h7 : code = 0x07#8
  · subst h7; exact .inr ⟨_, .fieldLock, rfl, rfl, rfl, rfl⟩
  by_cases h8 : code = 0x08#8
  · subst h8; exact .inr ⟨_, .zeroize, rfl, rfl, rfl, rfl⟩
  · refine .inl ⟨by simp only [h1, h2, h3, h4, h5, h6, h7, h8, if_false], ?_⟩
    have hne : ∀ {a : Byte}, code ≠ a → (a == code) = false := fun h => beq_eq_false_iff_ne.mpr (Ne.symm h)
    simp only [hne h1, hne h2, hne h3, hne h4, hne h5, hne h6, hne h7, hne h8]

/-- A hold word is its bit 0 and what stands above it. -/
theorem hold_word (w : Word) : w.extractLsb' 1 63 ++ w.extractLsb' 0 1 = w := by
  exact BitVec.extractLsb'_append_extractLsb' (w := 63) (len := 1)

/-- The row of a written status word (R201). -/
theorem settingRowOf_some {word : StatusWord} {w : Word} {row : Instr} (h : settingRowOf word w = some row) :
    ∃ offset, settingRow row = some (word, offset, w) := by
  cases word with
  | epochControl =>
    simp only [settingRowOf] at h
    split at h
    next e => cases h; exact ⟨_, by rw [e]; rfl⟩
    next =>
      split at h
      next e => cases h; exact ⟨_, by rw [e]; rfl⟩
      next => cases h
  | hold =>
    have hbit : ∀ b : BitVec 1, w.getLsbD 0 = b.getLsbD 0 → w.extractLsb' 1 63 ++ b = w := fun b hb => by
      have : w.extractLsb' 0 1 = b := BitVec.eq_of_getLsbD_eq fun k hk => by
        obtain rfl : k = 0 := by omega
        simpa using hb
      rw [← this, hold_word]
    simp only [settingRowOf] at h
    split at h
    next e =>
      cases h
      exact ⟨_, congrArg (fun w => some (StatusWord.hold, 0x078, w)) (hbit 1#1 e)⟩
    next e =>
      cases h
      exact ⟨_, congrArg (fun w => some (StatusWord.hold, 0x078, w)) (hbit 0#1 (by simpa using e))⟩
  | identity | ltLow | ltHigh | pulseCapture | pulseCount | occupancy | counters | refusalAddress | refusalDetail
  | challengeStatus | nvState | unassigned => cases h
  | _ => cases h; exact ⟨_, rfl⟩

/-- The row of a slot word, by what the word is (R2). -/
theorem rowOfBeat_slot (i : Initiator) (ref : SlotRef) (word : Fin 16) (b : WriteBeat) :
    rowOfBeat i (.slot ref word) b =
      if isInboundWord word then some (.inboundShadowWrite ref (Fin.ofNat 4 (word.val - 4)) b)
      else if isPayloadWord word then some (.payloadShadowWrite ref (Fin.ofNat 4 (word.val - 9)) b)
      else if isCommandWord word then commandRow i ref (if word = 8 then .a else .b) b.data
      else none := by
  fin_cases word <;> rfl

theorem State.controlBeat_taken {s : State} (h : s.reloading = false) (offset : Nat) (b : WriteBeat)
    (act : State → State) : s.controlBeat offset b act = (act s).forwardBeat (s.base + offset) b := by
  simp [State.controlBeat, h]

/-- A slot command row is a beat to its command word. -/
theorem exec_slotRow_taken {row : Instr} {i : Initiator} {ref : SlotRef} {cw : CommandWord} {cmd : SlotCmd}
    {upper : BitVec 56} (h : slotRow row = some (i, ref, cw, cmd, upper)) {s : State} {c : SlotCtx}
    (hc : s.ctx? ref = some c) (hr : s.reloading = false) :
    exec row s = .next ((s.takeSlotCommand i ref (some cmd) upper).forwardBeat (s.slotAddr ref (commandOffset cw))
      (fullBeat (upper ++ slotCode cmd))) :=
  (exec_slotRow h s).trans (congrArg _ (State.slotBeat_taken ref _ _ _ s c hc hr))

/-- An import command row is a beat to the import command word. -/
theorem exec_importRow_taken {row : Instr} {cmd : ImportCmd} {upper : BitVec 56} (h : importRow row = some (cmd, upper))
    {s : State} (hr : s.reloading = false) :
    exec row s = .next ((s.takeImportCommand (importCode cmd) upper).forwardBeat (s.base + 0x340) (fullBeat 0#64)) :=
  (exec_importRow h s).trans (congrArg _ (State.controlBeat_taken hr _ _ _))

/-- A setting row is a beat to its status word. -/
theorem exec_settingRow_taken {row : Instr} {word : StatusWord} {offset : Nat} {w : Word}
    (h : settingRow row = some (word, offset, w)) {s : State} (hr : s.reloading = false) :
    exec row s = .next ((s.writeStatus word w).forwardBeat (s.base + offset) (fullBeat w)) :=
  (exec_settingRow h s).trans (congrArg _ (State.settingBeat_taken word offset w s hr))

/-- A beat that is a row: the row does what the beat does, and sends the beat to memory. -/
theorem exec_of_rowOfBeat {i : Initiator} {p : Place} {b : WriteBeat} {row : Instr} (h : rowOfBeat i p b = some row)
    {s : State} (hr : s.reloading = false) (hslot : ∀ ref word, p = .slot ref word → s.ctx? ref ≠ none) :
    ∃ addr out, exec row s = .next ((s.applyBeat i p b).forwardBeat addr out) := by
  cases p with
  | memory => cases h
  | status word =>
    obtain ⟨offset, hrow⟩ := settingRowOf_some h
    exact ⟨_, _, exec_settingRow_taken hrow hr⟩
  | importArea word =>
    simp only [rowOfBeat] at h
    split at h
    next hw =>
      cases h
      have hval : (Fin.ofNat 8 word.val).val = word.val := Nat.mod_eq_of_lt hw
      have hact : s.applyBeat i (.importArea word) b = s.captureBlob (Fin.ofNat 8 word.val).val b := by
        rw [State.applyBeat, if_neg (by omega), hval]
      rw [hact]
      exact ⟨_, _, congrArg Host.Outcome.next (State.controlBeat_taken hr _ _ _)⟩
    next =>
      split at h
      next hw =>
        rcases importCommandRow_cases b.data with ⟨hnone, -⟩ | ⟨row', cmd, hsome, -, hcode, hrow⟩
        · rw [hnone] at h; cases h
        · obtain rfl : row' = row := Option.some.inj (hsome.symm.trans h)
          have hact : s.applyBeat i (.importArea word) b =
              s.takeImportCommand (importCode cmd) (b.data.extractLsb' 8 56) := by
            rw [State.applyBeat, if_pos hw, ← hcode]; rfl
          rw [hact]
          exact ⟨_, _, exec_importRow_taken hrow hr⟩
      next => cases h
  | slot ref word =>
    obtain ⟨c, hc⟩ := Option.ne_none_iff_exists'.mp (hslot ref word rfl)
    rw [rowOfBeat_slot] at h
    simp only [State.applyBeat]
    by_cases hin : isInboundWord word = true
    · rw [if_pos hin] at h ⊢
      cases h
      exact ⟨_, _, congrArg Host.Outcome.next (State.slotBeat_taken ref _ b _ s c hc hr)⟩
    rw [if_neg hin] at h ⊢
    by_cases hpay : isPayloadWord word = true
    · rw [if_pos hpay] at h ⊢
      cases h
      exact ⟨_, _, congrArg Host.Outcome.next (State.slotBeat_taken ref _ b _ s c hc hr)⟩
    rw [if_neg hpay] at h ⊢
    by_cases hcmd : isCommandWord word = true
    · rw [if_pos hcmd] at h ⊢
      rcases commandRow_cases i ref (if word = 8 then .a else .b) b.data with
        ⟨hnone, -⟩ | ⟨row', cmd, hsome, hcode, hrow⟩
      · rw [hnone] at h; cases h
      · obtain rfl : row' = row := Option.some.inj (hsome.symm.trans h)
        have hbyte : slotCommandOf (byteOf b.data 0) = some cmd := hcode
        rw [hbyte]
        exact ⟨_, _, exec_slotRow_taken hrow hc hr⟩
    · rw [if_neg hcmd] at h
      cases h

/-! ### The beats of a write, as the statements say them -/

/-- A beat to a slot that does not exist acts nowhere (log entry 28). -/
theorem applyBeat_slot_none {s : State} {ref : SlotRef} (h : s.ctx? ref = none) (i : Initiator) (word : Fin 16)
    (b : WriteBeat) : s.applyBeat i (.slot ref word) b = s := by
  simp only [State.applyBeat, State.shadowInbound, State.shadowPayload, State.takeSlotCommand, h, ite_self]

/-- A slot command word with an unknown code gives HELD or BAD_COMMAND (R9). -/
theorem takeSlotCommand_unknown {s : State} {ref : SlotRef} {c : SlotCtx} (h : s.ctx? ref = some c) (i : Initiator)
    (upper : BitVec 56) : s.takeSlotCommand i ref none upper =
      s.setCtx ref { c with lastResult := if s.status.hold = true then .held else .badCommand } := by
  cases hh : s.status.hold <;> simp [State.takeSlotCommand, h, State.slotRefusal, State.refuseSlot, hh]

/-- An import command word with an unknown code (R100). -/
theorem takeImportCommand_unknown {s : State} (h : s.life.phase = .running) {code : Byte}
    (hcode : importCommandOf code = none) (upper : BitVec 56) :
    ImportRefused code
      (if s.life.cycle = .zeroizing ∨ s.life.cycle = .zeroized then .wrongLifecycle
      else if s.status.hold = true then .held
      else if s.keys.importState ≠ .idle then .busy
      else .badCommand) s (s.takeImportCommand code upper) := by
  have hzeroing : s.zeroing = true ↔ s.life.cycle = .zeroizing ∨ s.life.cycle = .zeroized := by
    simp [State.zeroing]
  have hrefusal : s.importRefusal none upper = some
      (if s.life.cycle = .zeroizing ∨ s.life.cycle = .zeroized then .wrongLifecycle
      else if s.status.hold = true then .held
      else if s.keys.importState ≠ .idle then .busy
      else .badCommand) := by
    have hcmd : ((none : Option ImportCmd) != some .inquire) = true := rfl
    simp only [State.importRefusal, hcmd, Bool.and_true, hzeroing, bne_iff_ne, ne_eq]
    repeat' split
    all_goals rfl
  have hrunning : ¬s.life.phase ≠ .running := fun hn => hn h
  simp only [State.takeImportCommand, if_neg hrunning, hcode, hrefusal]
  generalize (if s.life.cycle = .zeroizing ∨ s.life.cycle = .zeroized then ImportCode.wrongLifecycle
      else if s.status.hold = true then .held
      else if s.keys.importState ≠ .idle then .busy
      else .badCommand) = refused
  refine ⟨rfl, rfl, ?_, onlyRaised_of_raise s _ .importDone _ (by simp) rfl, countersKept_of_same _ _ _ rfl, rfl⟩
  exact (State.causeSet_raise s .importDone .importDone).trans (by simp)

/-- A beat that is no row acts as its rule says. -/
theorem rowlessBeatActs {i : Initiator} {p : Place} {b : WriteBeat} (h : rowOfBeat i p b = none) (s : State) :
    RowlessBeatActs p b s (s.applyBeat i p b) := by
  cases p with
  | memory => rfl
  | status word =>
    show s.writeStatus word b.data = s
    have hset : s.applySetting word b.data = s := by
      cases word with
      | epochControl =>
        simp only [rowOfBeat, settingRowOf] at h
        split at h
        · cases h
        next h1 =>
          split at h
          · cases h
          next h2 => simp only [State.applySetting, State.writeEpochControl, if_neg h1, if_neg h2]
      | hold =>
        simp only [rowOfBeat, settingRowOf] at h
        split at h <;> cases h
      | pre | epoch | causes | enables | mapWord | unmappedRights | dInterval | holdTime | counterClear => cases h
      | _ => rfl
    simp only [State.writeStatus, hset, ite_self]
  | importArea word =>
    simp only [rowOfBeat] at h
    split at h
    · cases h
    next hlow =>
      split at h
      next h8 =>
        have hword : word = 8 := Fin.ext h8
        rcases importCommandRow_cases b.data with ⟨-, hnone⟩ | ⟨row, cmd, hsome, -⟩
        · have hact : s.applyBeat i (.importArea word) b =
              s.takeImportCommand (b.data.extractLsb' 0 8) (b.data.extractLsb' 8 56) := if_pos h8
          rw [hact]
          by_cases hphase : s.life.phase = .running
          · exact (if_pos ⟨hword, hphase⟩).mpr (takeImportCommand_unknown hphase hnone _)
          · exact (if_neg fun hp => hphase hp.2).mpr (if_pos hphase)
        · rw [hsome] at h; cases h
      next h8 =>
        have hact : s.applyBeat i (.importArea word) b = s := by
          rw [State.applyBeat, if_neg h8, State.captureBlob, dif_neg (by omega)]
        exact (if_neg fun hp => h8 (by rw [hp.1]; rfl)).mpr hact
  | slot ref word =>
    rw [rowOfBeat_slot] at h
    refine ⟨fun c hc hw => ?_, fun hnot => ?_⟩
    · have hin : isInboundWord word = false := by rcases hw with rfl | rfl <;> rfl
      have hpay : isPayloadWord word = false := by rcases hw with rfl | rfl <;> rfl
      have hcmd : isCommandWord word = true := by rcases hw with rfl | rfl <;> rfl
      simp only [hin, hpay, hcmd, Bool.false_eq_true, if_false, if_true] at h
      rcases commandRow_cases i ref (if word = 8 then .a else .b) b.data with ⟨-, hnone⟩ | ⟨row, cmd, hsome, -⟩
      · have hbyte : slotCommandOf (byteOf b.data 0) = none := hnone
        simp only [State.applyBeat, hin, hpay, hcmd, hbyte, Bool.false_eq_true, if_false, if_true,
          takeSlotCommand_unknown hc]
        exact ⟨ctx?_of_setCtx hc rfl, otherSlotsKept_of_setCtx rfl, rfl⟩
      · rw [hsome] at h; cases h
    · cases hc : s.ctx? ref with
      | none => exact applyBeat_slot_none hc i word b
      | some c =>
        have hword : word ≠ 8 ∧ word ≠ 13 := hnot.resolve_left (by simp [hc])
        have hcmd : isCommandWord word = false := by
          simp only [isCommandWord, Bool.or_eq_false_iff, beq_eq_false_iff_ne]
          exact ⟨fun h => hword.1 (Fin.ext h), fun h => hword.2 (Fin.ext h)⟩
        split at h
        · cases h
        next hin =>
          split at h
          · cases h
          next hpay => simp only [State.applyBeat, hin, hpay, hcmd, Bool.false_eq_true, if_false]

end Sys2Proof.Machine
end

