-- ==== Sys2Proof/Proofs/Writes.lean ====
section
/-! A write as it is taken: its beats in order, the burst forwarded whole: O46 (R4, R142). -/

namespace Sys2Proof.Machine

open Sys2Proof.Safety

/-- A beat of a write does what its row does, or what its rule says. -/
theorem beatActs_applyBeat (i : Initiator) (p : Place) (b : WriteBeat) (s : State) :
    BeatActs i p b s (s.applyBeat i p b) := by
  refine ⟨fun h => rowlessBeatActs h s, fun row h => ⟨?_, fun hslot => ⟨?_, ?_, fun hp => ?_⟩⟩⟩
  · rintro ⟨ref, word, rfl, hc⟩
    exact applyBeat_slot_none hc i word b
  · rintro rfl hr
    have htaken : s.settingTaken .mapWord = false := by simp [State.settingTaken, hr]
    exact (congrArg (fun t => if t = true then s.applySetting .mapWord b.data else s) htaken).trans
      (if_neg (by simp))
  · rintro rfl hr
    obtain ⟨addr, out, hexec⟩ := exec_of_rowOfBeat h hr (by rintro _ _ ⟨⟩)
    exact ⟨_, .beat addr out, hexec, rfl, rfl⟩
  · have hr : (s.withLoad none).reloading = false := rfl
    obtain ⟨addr, out, hexec⟩ := exec_of_rowOfBeat h hr hslot
    rw [withLoad_applyBeat none s i p b hp] at hexec
    have hload : (s.applyBeat i p b).withLoad s.map.load = s.applyBeat i p b := by
      rw [← withLoad_applyBeat s.map.load s i p b hp, withLoad_self]
    exact ⟨_, .beat addr out, hexec, rfl, hload.symm⟩

/-- The beats of a write act one after another (R4, R142). -/
theorem beatsAct_applyBeats (i : Initiator) (beats : List (Place × WriteBeat)) (s : State) :
    BeatsAct i beats s (State.applyBeats i beats s) := by
  induction beats generalizing s with
  | nil => rfl
  | cons pb rest ih =>
    obtain ⟨p, b⟩ := pb
    exact ⟨_, beatActs_applyBeat i p b s, ih _⟩

/-- Beats that reach memory alone act nowhere in the part. -/
theorem applyBeats_memory (i : Initiator) {beats : List (Place × WriteBeat)} (h : ∀ pb ∈ beats, pb.1 = .memory)
    (s : State) : State.applyBeats i beats s = s := by
  induction beats generalizing s with
  | nil => rfl
  | cons pb rest ih =>
    obtain ⟨hp, hrest⟩ := List.forall_mem_cons.mp h
    obtain ⟨p, b⟩ := pb
    cases hp
    exact ih hrest s

/-- A beat as it is forwarded: zero data from the blob words, the spare words and the command word of the import area
(R96). -/
theorem forwardedBeat_eq (p : Place) (b : WriteBeat) : forwardedBeat p b =
    match p with
    | .importArea word => if word.val ≤ 8 then { b with data := 0#64 } else b
    | _ => b := by
  cases p with
  | importArea word => simp [forwardedBeat, zeroedPlace]
  | _ => rfl

/-- A request that is not refused has one place for each beat. -/
theorem length_requestPlaces {s : State} {r : Request} {beats : List WriteBeat} (h : s.refusalReason r beats = none) :
    (s.requestPlaces r).length = r.len.toNat + 1 := by
  simp only [State.refusalReason] at h
  simp only [State.requestPlaces]
  split at h
  · cases h
  next region hregion => simp [State.placesOf, beatCount]

/-- A write that passes its checks is taken (R142). -/
theorem exec_writeTaken {s : State} {i : Initiator} {pre post : List QueueEntry} {r : Request} {beats : List WriteBeat}
    (hnext : NextIs s i pre r post) (hd : r.dir = .write) (hlen : beats.length = r.len.toNat + 1)
    (hr : s.refusalReason r beats = none) : exec (.writeTaken i beats) s = .next (s.admitWrite i r beats) := by
  show execWriteTaken i beats s = _
  have hform : ¬(r.dir = .read ∨ beats.length ≠ beatCount r) := by simp [hd, hlen, beatCount]
  simp only [execWriteTaken, s.nextRequest_of_next i pre r post hnext, if_neg hform, hr]

/-- The parts of a written command word (R198, R200). -/
theorem commandWord_parts {w : Word} {upper : BitVec 56} {code : Byte} (h : w = upper ++ code) :
    byteOf w 0 = code ∧ w.extractLsb' 8 56 = upper := by
  subst h
  exact ⟨BitVec.extractLsb'_append_eq_right, BitVec.extractLsb'_append_eq_left⟩

/-- The next request is the first that has not been taken. -/
theorem firstUntaken_of_nextIs {s : State} {i : Initiator} {pre post : List QueueEntry} {r : Request}
    (h : NextIs s i pre r post) : s.firstUntaken i = some { req := r, stage := .untaken } := by
  obtain ⟨-, hq, hpre, -⟩ := h
  exact firstUntaken_eq_some.mpr ⟨rfl, pre, post, hq, fun e he => (hpre e he).1⟩

end Sys2Proof.Machine

namespace Sys2Proof.Proofs

open Sys2Proof.Machine Sys2Proof.Safety

/-- Settles O46: `applyBeats` is the beats' own rows in order, and each beat's row is the beat with its word sent to
memory. -/
theorem writeDoesWhatItsRowDoes : Obligations.WriteDoesWhatItsRowDoes := by
  refine ⟨fun s i pre r post beats hord hnext hd hlen hr => ?_,
    fun s i pre r post beats hord hnext hd hlen hr hmem => ?_,
    fun s i pre r post row b place hord hnext hd hlen hr hplace hrow => ?_⟩
  · rw [exec_writeTaken hnext hd hlen hr]
    have hfirst := (firstUntaken_applyBeats s i i ((s.requestPlaces r).zip beats)).trans (firstUntaken_of_nextIs hnext)
    obtain ⟨-, front, back, hq, hfront⟩ := firstUntaken_eq_some.mp hfirst
    refine ⟨_, State.applyBeats i ((s.requestPlaces r).zip beats) s, rfl, beatsAct_applyBeats i _ s, ?_, rfl,
      fun j hj => ?_, front, back, hq, hfront, ?_⟩
    · have hout : ((s.requestPlaces r).zip beats).map (fun pb => forwardedBeat pb.1 pb.2) = _ :=
        List.map_congr_left fun pb _ => forwardedBeat_eq pb.1 pb.2
      exact congrArg (fun out => { State.applyBeats i ((s.requestPlaces r).zip beats) s with
        path := (s.admitWrite i r beats).path
        memOut := (State.applyBeats i ((s.requestPlaces r).zip beats) s).memOut ++ [MemOut.write r out] }) hout
    · exact (State.queue_setQueue _ i j _).trans (if_neg hj)
    · refine (State.queue_setQueue _ i i _).trans ?_
      rw [if_pos rfl, hq, takeHead_of_first _ hfront]
  · have hzip : ∀ pb ∈ (s.requestPlaces r).zip beats, pb.1 = .memory := fun pb hpb =>
      hmem _ (List.of_mem_zip hpb).1
    have hout : ((s.requestPlaces r).zip beats).map (fun pb => forwardedBeat pb.1 pb.2) = beats := by
      have hsame : ((s.requestPlaces r).zip beats).map (fun pb => forwardedBeat pb.1 pb.2) =
          ((s.requestPlaces r).zip beats).map (·.2) :=
        List.map_congr_left fun pb hpb => by rw [hzip pb hpb]; rfl
      rw [hsame]
      exact List.map_snd_zip (by rw [length_requestPlaces hr, hlen])
    have hadmit : s.admitWrite i r beats =
        { s.setQueue i (takeHead (.forwarded [] false) (s.queue i)) with memOut := s.memOut ++ [.write r beats] } := by
      simp only [State.admitWrite, applyBeats_memory i hzip, hout]
    obtain ⟨-, hq, hpre, -⟩ := id hnext
    refine ⟨_, (exec_writeTaken hnext hd hlen hr).trans (congrArg _ hadmit), ?_, fun j hj => ?_, rfl⟩
    · refine (State.queue_setQueue s i i _).trans ?_
      rw [if_pos rfl, hq, takeHead_of_next _ pre r post hpre]
    · exact (State.queue_setQueue s i j _).trans (if_neg hj)
  · obtain ⟨hreloading, -⟩ := id hnext
    have hadmit : s.admitWrite i r [b] =
        { (s.applyBeat i place b).setQueue i
            (takeHead (.forwarded [] false) ((s.applyBeat i place b).queue i)) with
          memOut := (s.applyBeat i place b).memOut ++ [.write r [forwardedBeat place b]] } := by
      simp only [State.admitWrite, hplace]; rfl
    have hbeat : ∃ addr out, exec row s = .next ((s.applyBeat i place b).forwardBeat addr out) ∧
        forwardedBeat place b = match place with
          | .importArea _ => { b with data := 0#64 }
          | _ => b := by
      rcases hrow with ⟨ref, cw, cmd, upper, hrow, hdata, rfl, hc⟩ | ⟨word, off, hrow, rfl⟩ |
        ⟨cmd, upper, hrow, hdata, rfl⟩
      · obtain ⟨c, hc⟩ := Option.isSome_iff_exists.mp hc
        obtain ⟨hcode, hupper⟩ := commandWord_parts hdata
        have hact : s.takeSlotCommand i ref (slotCommandOf (byteOf b.data 0)) (b.data.extractLsb' 8 56) =
            s.takeSlotCommand i ref (some cmd) upper := by
          rw [hcode, hupper, slotCommandOf_slotCode]
        have hexec := exec_slotRow_taken hrow hc hreloading
        cases cw with
        | a => exact ⟨_, _, hexec.trans (congrArg _ (congrArg (State.forwardBeat _ _) hact.symm)), rfl⟩
        | b => exact ⟨_, _, hexec.trans (congrArg _ (congrArg (State.forwardBeat _ _) hact.symm)), rfl⟩
      · exact ⟨_, _, exec_settingRow_taken hrow hreloading, rfl⟩
      · obtain ⟨hcode, hupper⟩ := commandWord_parts hdata
        have hact : s.applyBeat i (.importArea 8) b = s.takeImportCommand (importCode cmd) upper := by
          rw [← hupper, ← hcode]; rfl
        rw [hact]
        exact ⟨_, _, exec_importRow_taken hrow hreloading, rfl⟩
    obtain ⟨addr, out, hexec, hforward⟩ := hbeat
    refine ⟨_, _, (exec_writeTaken hnext hd (by simp [hlen]) hr).trans (congrArg _ hadmit), hexec, rfl, rfl, ?_, ?_,
      fun j hj => (State.queue_setQueue _ i j _).trans (if_neg hj)⟩
    · exact (congrArg (fun w => (s.applyBeat i place b).memOut ++ [MemOut.write r [w]]) hforward).trans
        (congrArg (· ++ _) List.dropLast_concat.symm)
    · refine (congrArg (List.map (·.req)) (State.queue_setQueue _ i i _)).trans ?_
      rw [if_pos rfl, map_req_takeHead]; rfl

end Sys2Proof.Proofs
end

