-- ==== Sys2Proof/Proofs/RegionOf.lean ====
section
/-! SUPPORT. The one region that a request lies in, on a legal map (R138, R149, R152). -/

namespace Sys2Proof.Machine

open Sys2Proof.Safety

/-- The bytes a request touches are those of its range, which has one. -/
theorem touches_iff (r : Request) (a : Nat) : Touches r a ↔ (byteRange r).1 ≤ a ∧ a < (byteRange r).2 := by
  simp only [Touches, byteRange, beatCount, beatBytes]
  cases r.burst <;> rfl

theorem byteRange_nonempty (r : Request) : (byteRange r).1 < (byteRange r).2 := by
  have hsize : 0 < 2 ^ r.size.toNat := by positivity
  have hbeat := Nat.lt_div_mul_add (a := r.addr.toNat) hsize
  have htotal : 2 ^ r.size.toNat ≤ (r.len.toNat + 1) * 2 ^ r.size.toNat := Nat.le_mul_of_pos_left _ (by omega)
  simp only [byteRange, beatCount, beatBytes]
  cases r.burst <;> simp only <;> omega

/-- An address lies in a listed region. -/
def Listed (x : Region × Nat × Nat) (a : Nat) : Prop := x.2.1 ≤ a ∧ a < x.2.2

theorem isPlain_of_isSlots {d : Descriptor} (hs : d.isSlots = true) : d.isPlain = false := by
  simp only [Descriptor.isSlots, Bool.and_eq_true, beq_iff_eq] at hs
  simp [Descriptor.isPlain, hs.2]

/-- The regions of the loaded map: the control region, slot groups and PLAIN windows. -/
theorem mem_regions {s : State} {x : Region × Nat × Nat} : x ∈ s.regions ↔
    x = (.control, s.base, s.base + 4096) ∨
    (∃ g, (s.descriptor g).isSlots = true ∧ x = (.group g, (s.descriptor g).base * 4096,
      (s.descriptor g).base * 4096 + (s.descriptor g).slotCount * 128)) ∨
    ∃ i, (s.descriptor i).isPlain = true ∧ x = (.plain i, (s.descriptor i).base * 4096,
      ((s.descriptor i).base + (s.descriptor i).size) * 4096) := by
  have hwindow : ∀ i, regionOfDescriptor i (s.descriptor i) = some x ↔
      (s.descriptor i).isSlots = true ∧ x = (.group i, (s.descriptor i).base * 4096,
        (s.descriptor i).base * 4096 + (s.descriptor i).slotCount * 128) ∨
      (s.descriptor i).isPlain = true ∧ x = (.plain i, (s.descriptor i).base * 4096,
        ((s.descriptor i).base + (s.descriptor i).size) * 4096) := fun i => by
    simp only [regionOfDescriptor]
    split
    next hs => simp [hs, isPlain_of_isSlots hs, eq_comm]
    next hs =>
      rw [Option.ite_none_right_eq_some, Option.some_inj]
      exact ⟨fun ⟨hi, hx⟩ => .inr ⟨hi, hx.symm⟩,
        fun h => h.elim (fun h => absurd h.1 hs) fun ⟨hi, hx⟩ => ⟨hi, hx.symm⟩⟩
  simp only [State.regions, List.mem_cons, List.mem_filterMap, List.mem_finRange, true_and, hwindow, exists_or]

/-- An address lies in a region of the map where the region is listed with it; in none where no listed one has it. -/
theorem inRegion_iff {s : State} {a : Nat} {region : Region} (h : region ≠ .unmapped) :
    InRegion s a region ↔ ∃ x ∈ s.regions, x.1 = region ∧ Listed x a := by
  simp only [mem_regions]
  constructor
  · intro ha
    cases region with
    | control => exact ⟨_, .inl rfl, rfl, ha⟩
    | group g => exact ⟨_, .inr (.inl ⟨g, ha.1, rfl⟩), rfl, ha.2⟩
    | plain i => exact ⟨_, .inr (.inr ⟨i, ha.1, rfl⟩), rfl, ha.2⟩
    | unmapped => exact absurd rfl h
  · rintro ⟨x, rfl | ⟨g, hg, rfl⟩ | ⟨i, hi, rfl⟩, rfl, ha⟩
    · exact ha
    · exact ⟨hg, ha⟩
    · exact ⟨hi, ha⟩

theorem inRegion_unmapped_iff {s : State} {a : Nat} :
    InRegion s a .unmapped ↔ ∀ x ∈ s.regions, ¬Listed x a := by
  simp only [mem_regions, Listed, InRegion]
  constructor
  · rintro ⟨hcontrol, hwindows⟩ x (rfl | ⟨g, hg, rfl⟩ | ⟨i, hi, rfl⟩) hx
    · exact hcontrol hx
    · exact (hwindows g).1 ⟨hg, hx⟩
    · exact (hwindows i).2 ⟨hi, hx⟩
  · exact fun h => ⟨h _ (.inl rfl), fun i => ⟨fun ⟨hi, hx⟩ => h _ (.inr (.inl ⟨i, hi, rfl⟩)) hx,
      fun ⟨hi, hx⟩ => h _ (.inr (.inr ⟨i, hi, rfl⟩)) hx⟩⟩

/-- Every listed region has a byte. -/
theorem regions_nonempty {s : State} (hs : MapLegal s) : ∀ x ∈ s.regions, x.2.1 < x.2.2 := by
  obtain ⟨-, hslots, -⟩ := hs
  intro x hx
  rcases mem_regions.mp hx with rfl | ⟨g, hg, rfl⟩ | ⟨i, -, rfl⟩
  · simp
  · have := (hslots g hg).1
    simp only; omega
  · have : 1 ≤ (s.descriptor i).size := by simp [Descriptor.size]
    simp only; omega

/-- The window of a listed region holds it. -/
theorem regionOfDescriptor_within {s : State} (hs : MapLegal s) {i : Fin 16} {x : Region × Nat × Nat}
    (h : regionOfDescriptor i (s.descriptor i) = some x) :
    (s.descriptor i).present = true ∧ (windowOf (s.descriptor i)).1 ≤ x.2.1 ∧
      x.2.2 ≤ (windowOf (s.descriptor i)).2 := by
  obtain ⟨-, hslots, -⟩ := hs
  simp only [regionOfDescriptor] at h
  split at h
  next hi =>
    obtain ⟨-, hcount, -⟩ := hslots i hi
    have hp : (s.descriptor i).present = true := by simp only [Descriptor.isSlots, Bool.and_eq_true] at hi; exact hi.1
    cases h
    simp only [windowOf, hi, if_true]
    exact ⟨hp, by omega, by omega⟩
  next hi =>
    split at h
    next hplain =>
      have hp : (s.descriptor i).present = true := by
        simp only [Descriptor.isPlain, Bool.and_eq_true] at hplain; exact hplain.1
      cases h
      simp [windowOf, hi, hp]
    next => cases h

/-- The listed regions lie apart. -/
theorem regions_apart {s : State} (hs : MapLegal s) : s.regions.Pairwise fun x y => apart x.2 y.2 := by
  obtain ⟨-, -, -, hcontrol, hwindows, -⟩ := id hs
  refine List.pairwise_cons.mpr ⟨fun y hy => ?_, List.pairwise_filterMap.mpr ?_⟩
  · obtain ⟨i, -, hi⟩ := List.mem_filterMap.mp hy
    obtain ⟨hp, hlo, hhi⟩ := regionOfDescriptor_within hs hi
    have := hcontrol i hp
    simp only [apart] at this ⊢
    omega
  · refine (List.pairwise_lt_finRange 16).imp fun {i j} hij x hx y hy => ?_
    obtain ⟨hpi, hloi, hhii⟩ := regionOfDescriptor_within hs hx
    obtain ⟨hpj, hloj, hhij⟩ := regionOfDescriptor_within hs hy
    have := hwindows i j hij hpi hpj
    simp only [apart] at this ⊢
    omega

/-- The listed regions that a range of bytes meets. -/
def State.regionsMet (s : State) (lo hi : Nat) : List (Region × Nat × Nat) :=
  s.regions.filter fun x => decide (lo < x.2.2) && decide (x.2.1 < hi)

theorem mem_regionsMet {s : State} (hs : MapLegal s) {lo hi : Nat} (hlt : lo < hi) {x : Region × Nat × Nat} :
    x ∈ s.regionsMet lo hi ↔ x ∈ s.regions ∧ ∃ a, (lo ≤ a ∧ a < hi) ∧ Listed x a := by
  simp only [State.regionsMet, List.mem_filter, Bool.and_eq_true, decide_eq_true_eq, and_congr_right_iff, Listed]
  intro hx
  have := regions_nonempty hs x hx
  exact ⟨fun _ => ⟨max lo x.2.1, by omega⟩, fun ⟨_, _⟩ => by omega⟩

/-- A range all of whose bytes lie in one listed region meets that one alone. -/
theorem regionsMet_of_within {s : State} (hs : MapLegal s) {lo hi : Nat} (hlt : lo < hi) {x : Region × Nat × Nat}
    (hx : x ∈ s.regions) (h : x.2.1 ≤ lo ∧ hi ≤ x.2.2) : s.regionsMet lo hi = [x] := by
  have hmem : x ∈ s.regionsMet lo hi := (mem_regionsMet hs hlt).mpr ⟨hx, lo, by simp only [Listed]; omega⟩
  have hother : ∀ y ∈ s.regionsMet lo hi, ¬(apart x.2 y.2 ∨ apart y.2 x.2) := fun y hy hap => by
    obtain ⟨-, a, ha, hya⟩ := (mem_regionsMet hs hlt).mp hy
    simp only [apart, Listed] at hap hya
    omega
  have hap : (s.regionsMet lo hi).Pairwise fun x y => apart x.2 y.2 := (regions_apart hs).filter _
  obtain ⟨before, after, hsplit⟩ := List.append_of_mem hmem
  rw [hsplit] at hother hap ⊢
  obtain ⟨-, hafter, hbefore⟩ := List.pairwise_append.mp hap
  have hb : before = [] := List.eq_nil_iff_forall_not_mem.mpr fun y hy =>
    hother y (by simp [hy]) (.inr (hbefore y hy x List.mem_cons_self))
  have ha : after = [] := List.eq_nil_iff_forall_not_mem.mpr fun y hy =>
    hother y (by simp [hy]) (.inl ((List.pairwise_cons.mp hafter).1 y hy))
  simp [hb, ha]

/-- The region of a request all of whose bytes lie in it (R138). -/
theorem regionOf_of_liesIn {s : State} (hs : MapLegal s) {r : Request} {region : Region} (h : LiesIn s r region) :
    s.regionOf (byteRange r).1 (byteRange r).2 = some region := by
  have hlt := byteRange_nonempty r
  generalize hlo : (byteRange r).1 = lo at hlt ⊢
  generalize hhi : (byteRange r).2 = hi at hlt ⊢
  have hall : ∀ a, lo ≤ a ∧ a < hi → InRegion s a region := fun a ha =>
    h a ((touches_iff r a).mpr (by rw [hlo, hhi]; exact ha))
  show (match s.regionsMet lo hi with
    | [] => some Region.unmapped
    | [x] => if x.2.1 ≤ lo ∧ hi ≤ x.2.2 then some x.1 else none
    | _ => none) = some region
  by_cases hu : region = .unmapped
  · subst hu
    have hnil : s.regionsMet lo hi = [] := List.eq_nil_iff_forall_not_mem.mpr fun x hx => by
      obtain ⟨hx, a, ha, hxa⟩ := (mem_regionsMet hs hlt).mp hx
      exact inRegion_unmapped_iff.mp (hall a ha) x hx hxa
    rw [hnil]
  · obtain ⟨x, hx, rfl, hfirst⟩ := (inRegion_iff hu).mp (hall lo (by omega))
    obtain ⟨y, hy, hxy, hlast⟩ := (inRegion_iff hu).mp (hall (hi - 1) (by omega))
    have hsame : y = x := by
      rcases mem_regions.mp hx with rfl | ⟨_, _, rfl⟩ | ⟨_, _, rfl⟩ <;>
        rcases mem_regions.mp hy with rfl | ⟨_, _, rfl⟩ | ⟨_, _, rfl⟩ <;> simp_all
    subst hsame
    simp only [Listed] at hfirst hlast
    have hin : y.2.1 ≤ lo ∧ hi ≤ y.2.2 := by omega
    rw [regionsMet_of_within hs hlt hx hin]
    exact if_pos hin

/-- A request whose bytes lie in two regions has none (R138). -/
theorem regionOf_of_two {s : State} (hs : MapLegal s) {r : Request} {a a' : Nat} {region region' : Region}
    (ha : Touches r a) (hr : InRegion s a region) (ha' : Touches r a') (hr' : InRegion s a' region')
    (hne : region ≠ region') : s.regionOf (byteRange r).1 (byteRange r).2 = none := by
  have hlt := byteRange_nonempty r
  rw [touches_iff] at ha ha'
  generalize (byteRange r).1 = lo at hlt ha ha' ⊢
  generalize (byteRange r).2 = hi at hlt ha ha' ⊢
  show (match s.regionsMet lo hi with
    | [] => some Region.unmapped
    | [x] => if x.2.1 ≤ lo ∧ hi ≤ x.2.2 then some x.1 else none
    | _ => none) = none
  have hmet : ∀ {a region}, lo ≤ a ∧ a < hi → InRegion s a region → region ≠ .unmapped →
      ∃ x ∈ s.regionsMet lo hi, x.1 = region := fun {a region} ha hr hu => by
    obtain ⟨x, hx, hxr, hxa⟩ := (inRegion_iff hu).mp hr
    exact ⟨x, (mem_regionsMet hs hlt).mpr ⟨hx, a, ha, hxa⟩, hxr⟩
  have hinside : ∀ {x a region}, x.2.1 ≤ lo ∧ hi ≤ x.2.2 → lo ≤ a ∧ a < hi → x ∈ s.regionsMet lo hi →
      InRegion s a region → region ≠ .unmapped := fun {x a region} hin ha hx hr hu => by
    subst hu
    exact inRegion_unmapped_iff.mp hr x ((mem_regionsMet hs hlt).mp hx).1 (by simp only [Listed]; omega)
  split
  next hnil =>
    have hboth : region = .unmapped ∧ region' = .unmapped := by
      constructor <;> by_contra hu
      · obtain ⟨x, hx, -⟩ := hmet ha hr hu
        simp [hnil] at hx
      · obtain ⟨x, hx, -⟩ := hmet ha' hr' hu
        simp [hnil] at hx
    exact absurd (hboth.1.trans hboth.2.symm) hne
  next x hone =>
    refine if_neg fun hin => hne ?_
    have hx : x ∈ s.regionsMet lo hi := by simp [hone]
    obtain ⟨y, hy, rfl⟩ := hmet ha hr (hinside hin ha hx hr)
    obtain ⟨z, hz, rfl⟩ := hmet ha' hr' (hinside hin ha' hx hr')
    rw [hone, List.mem_singleton] at hy hz
    rw [hy, hz]
  next => rfl

end Sys2Proof.Machine
end

