-- ==== Sys2Proof/Proofs/WordChecks.lean ====
section
/-! SUPPORT. The checks of a request word by word (R139 to R141). -/

namespace Sys2Proof.Machine

open Sys2Proof.Safety

/-! ### Burst form -/

theorem formGood_iff (r : Request) : formGood r = true ↔ BurstInForm r := by
  have haddr : r.addr.extractLsb' 0 3 = 0#3 ↔ r.addr.toNat % 8 = 0 := by
    rw [← BitVec.toNat_inj]
    simp [BitVec.extractLsb'_toNat]
  have hcount : beatCount r ≤ 16 ↔ r.len.toNat ≤ 15 := by simp only [beatCount]; omega
  simp only [formGood, BurstInForm, Bool.and_eq_true, beq_iff_eq, Bool.not_eq_true', haddr, and_assoc,
    decide_eq_true_eq, hcount]

/-- The bytes of a burst in form: eight for each beat, in ascending order. -/
theorem byteRange_inForm {r : Request} (h : BurstInForm r) :
    byteRange r = (r.addr.toNat, r.addr.toNat + 8 * (r.len.toNat + 1)) := by
  obtain ⟨hburst, -, hsize, halign, -⟩ := h
  have hbytes : 2 ^ (3#3 : BitVec 3).toNat = 8 := rfl
  simp only [byteRange, beatCount, beatBytes, hburst, hsize, hbytes]
  congr 1
  omega

theorem touches_inForm {r : Request} (h : BurstInForm r) (a : Nat) :
    Touches r a ↔ r.addr.toNat ≤ a ∧ a < r.addr.toNat + 8 * (r.len.toNat + 1) := by
  rw [touches_iff, byteRange_inForm h]

/-- A burst in form begins at or above the first byte of its region, and its region ends within the address space. -/
theorem liesIn_control_bounds {s : State} {r : Request} (h : LiesIn s r .control) (hf : BurstInForm r) :
    s.base ≤ r.addr.toNat ∧ r.addr.toNat + 8 * (r.len.toNat + 1) ≤ 2 ^ 32 := by
  have hfirst : InRegion s _ .control := h r.addr.toNat ((touches_inForm hf _).mpr (by omega))
  have hlast : InRegion s _ .control := h (r.addr.toNat + 8 * r.len.toNat + 7) ((touches_inForm hf _).mpr (by omega))
  have hbase : s.base ≤ 0xFFFFF000 := by
    simp only [State.base, controlBase]
    split_ifs <;> omega
  simp only [InRegion] at hfirst hlast
  omega

theorem liesIn_group_bounds {s : State} (hs : MapLegal s) {r : Request} {g : Fin 16} (h : LiesIn s r (.group g))
    (hf : BurstInForm r) :
    (s.descriptor g).base * 4096 ≤ r.addr.toNat ∧ r.addr.toNat + 8 * (r.len.toNat + 1) ≤ 2 ^ 32 := by
  obtain ⟨-, hslots, hend, -⟩ := hs
  obtain ⟨hg, hlo, -⟩ : InRegion s _ (.group g) := h r.addr.toNat ((touches_inForm hf _).mpr (by omega))
  obtain ⟨-, -, hhi⟩ : InRegion s _ (.group g) :=
    h (r.addr.toNat + 8 * r.len.toNat + 7) ((touches_inForm hf _).mpr (by omega))
  obtain ⟨-, hcount, -⟩ := hslots g hg
  have hp : (s.descriptor g).present = true := by simp only [Descriptor.isSlots, Bool.and_eq_true] at hg; exact hg.1
  have hwindow := hend g hp
  simp only [windowOf, hg, if_true] at hwindow
  omega

/-- A burst in form, all in one region that is checked word by word, ends within the address space. -/
theorem liesIn_wordwise_end {s : State} (hs : MapLegal s) {r : Request} {region : Region}
    (hregion : region = .control ∨ ∃ g, region = .group g) (h : LiesIn s r region) (hf : BurstInForm r) :
    r.addr.toNat + 8 * (r.len.toNat + 1) ≤ 2 ^ 32 := by
  rcases hregion with rfl | ⟨g, rfl⟩
  · exact (liesIn_control_bounds h hf).2
  · exact (liesIn_group_bounds hs h hf).2

/-! ### A word of a burst, as a request of its own -/

section WordRequest

variable {s : State} {r : Request} {k : Nat}

theorem addr_wordRequest (hend : r.addr.toNat + 8 * (r.len.toNat + 1) ≤ 2 ^ 32) (hk : k ≤ r.len.toNat) :
    (wordRequest r k).addr.toNat = r.addr.toNat + 8 * k := by
  show (r.addr + BitVec.ofNat 32 (8 * k)).toNat = _
  rw [BitVec.toNat_add, BitVec.toNat_ofNat]
  omega

theorem wordRequest_inForm (hf : BurstInForm r) (hend : r.addr.toNat + 8 * (r.len.toNat + 1) ≤ 2 ^ 32)
    (hk : k ≤ r.len.toNat) : BurstInForm (wordRequest r k) := by
  have haddr := addr_wordRequest hend hk
  obtain ⟨hburst, -, hsize, halign, hexclusive⟩ := hf
  exact ⟨hburst, Nat.zero_le _, hsize, by omega, hexclusive⟩

theorem wordRequest_liesIn {region : Region} (hf : BurstInForm r)
    (hend : r.addr.toNat + 8 * (r.len.toNat + 1) ≤ 2 ^ 32) (hk : k ≤ r.len.toNat) (h : LiesIn s r region) :
    LiesIn s (wordRequest r k) region := fun a ha => by
  rw [touches_inForm (wordRequest_inForm hf hend hk), addr_wordRequest hend hk] at ha
  have hlen : (wordRequest r k).len.toNat = 0 := rfl
  exact h a ((touches_inForm hf a).mpr (by omega))

end WordRequest

/-! ### The checks word by word -/

/-- The rights of word `k` of a request in a region that is checked word by word (R95, R140, R150). -/
def State.wordRight (s : State) (region : Region) (r : Request) (k : Nat) : Right :=
  match region with
  | .control => controlRight r (beatAddr r k - s.base)
  | .group g =>
    groupRight (s.descriptor g) r (Fin.ofNat 16 ((beatAddr r k - (s.descriptor g).base * 4096) % 128 / 8))
  | _ => .allowed

/-- What word `k` of a request reaches. -/
def State.wordPlace (s : State) (region : Region) (r : Request) (k : Nat) : Place :=
  match region with
  | .control => controlPlace (beatAddr r k - s.base)
  | .group g => slotPlace g (beatAddr r k - (s.descriptor g).base * 4096)
  | _ => .memory

/-- A word fails the check of a refusal reason (R141): by its right, its place, the direction, and its data beat where
it has one. -/
def wordFails (right : Right) (place : Place) (dir : Direction) (b : Option WriteBeat) : RefusalReason → Bool
  | .limit => false
  | .permission => right == .permission
  | .privilege => right == .privilege
  | .resultWrite => dir == .write && isResultPlace place
  | .reserved => dir == .write && isReservedPlace place
  | .form => dir == .write && b.any fun b => isTakenPlace place && !allStrobes b.strobes

/-- The checks of a request in form, in their order (R141). -/
def wordChecks : List RefusalReason := [.permission, .privilege, .resultWrite, .reserved, .form]

theorem placesOf_eq (s : State) (region : Region) (r : Request) :
    s.placesOf region r = (List.range (beatCount r)).map (s.wordPlace region r) := by
  simp only [State.placesOf]
  refine List.map_congr_left fun k _ => ?_
  cases region <;> rfl

theorem rightsOf_eq (s : State) {region : Region} (h : region = .control ∨ ∃ g, region = .group g) (r : Request) :
    s.rightsOf region r = (List.range (beatCount r)).map (s.wordRight region r) := by
  rcases h with rfl | ⟨g, rfl⟩
  · rfl
  · simp only [State.rightsOf, placesOf_eq, List.map_map]
    exact List.map_congr_left fun k _ => rfl

/-- A list found in is tried from its head. -/
theorem find?_cons_eq_ite {α : Type} (p : α → Bool) (x : α) (l : List α) :
    (x :: l).find? p = if p x = true then some x else l.find? p := by
  cases h : p x <;> simp [h]

/-- What holds of some pair of a place and its beat holds at some number of a beat. -/
theorem zip_map_range_any {α β : Type} {n : Nat} {beats : List β} (h : beats.length = n) (f : Nat → α)
    (p : α × β → Bool) : (((List.range n).map f).zip beats).any p =
      (List.range n).any fun k => beats[k]?.any fun b => p (f k, b) := by
  subst h
  rw [Bool.eq_iff_iff]
  simp only [List.any_eq_true, List.mem_iff_getElem, List.getElem_zip, List.getElem_map, List.getElem_range]
  constructor
  · rintro ⟨_, ⟨k, hk, rfl⟩, hp⟩
    have hk' : k < beats.length := by simpa using hk
    exact ⟨k, ⟨k, by simpa using hk', rfl⟩, by simpa [hk'] using hp⟩
  · rintro ⟨_, ⟨k, hk, rfl⟩, hp⟩
    have hk' : k < beats.length := by simpa using hk
    exact ⟨_, ⟨k, by simpa using hk', rfl⟩, by simpa [hk'] using hp⟩

/-- The first check that some word of a request in form fails gives the reason. -/
theorem refusalReason_wordwise {s : State} (hs : MapLegal s) {r : Request} {region : Region} {beats : List WriteBeat}
    (hregion : region = .control ∨ ∃ g, region = .group g) (h : LiesIn s r region) (hf : BurstInForm r)
    (hbeats : r.dir = .write → beats.length = r.len.toNat + 1) :
    s.refusalReason r beats = wordChecks.find? fun reason => (List.range (beatCount r)).any fun k =>
      wordFails (s.wordRight region r k) (s.wordPlace region r k) r.dir beats[k]? reason := by
  have hform : (region.wordwise && !formGood r) = false := by simp [(formGood_iff r).mpr hf]
  have hright (x : Right) : (s.rightsOf region r).contains x =
      (List.range (beatCount r)).any fun k => s.wordRight region r k == x := by
    rw [rightsOf_eq s hregion, Bool.eq_iff_iff]
    simp
  have hplace (p : Place → Bool) : (s.placesOf region r).any p =
      (List.range (beatCount r)).any fun k => p (s.wordPlace region r k) := by
    rw [placesOf_eq, List.any_map]; rfl
  simp only [State.refusalReason, regionOf_of_liesIn hs h, hform, Bool.false_eq_true, if_false, hright, hplace,
    wordChecks, find?_cons_eq_ite, List.find?_nil, wordFails]
  cases hd : r.dir with
  | read =>
    have hwrite : (Direction.read == Direction.write) = false := rfl
    have hnone (n : Nat) : ((List.range n).any fun _ => false) = false := by simp
    simp only [hwrite, Bool.false_and, hnone, Bool.false_eq_true, if_false, beq_self_eq_true, if_true]
  | write =>
    have hread : (Direction.write == Direction.read) = false := rfl
    have hlen : (s.placesOf region r).length = beats.length := by simp [placesOf_eq, beatCount, hbeats hd]
    have hzip : (((s.placesOf region r).zip beats).any fun pb => isTakenPlace pb.1 && !allStrobes pb.2.strobes) =
        (List.range (beatCount r)).any fun k =>
          beats[k]?.any fun b => isTakenPlace (s.wordPlace region r k) && !allStrobes b.strobes := by
      rw [placesOf_eq]
      exact zip_map_range_any (hbeats hd) _ _
    simp only [hread, beq_self_eq_true, Bool.true_and, Bool.false_eq_true, if_false, hzip]

/-! ### The first failing check of a burst and of its words -/

/-- In a list that a measure orders strictly, the element found is the least that satisfies the predicate. -/
theorem find?_eq_some_iff_least {α : Type} {f : α → Nat} {p : α → Bool} {l : List α} {a : α}
    (h : l.Pairwise fun x y => f x < f y) :
    l.find? p = some a ↔ (a ∈ l ∧ p a = true) ∧ ∀ b ∈ l, p b = true → f a ≤ f b := by
  induction l with
  | nil => simp
  | cons x l ih =>
    obtain ⟨hx, hl⟩ := List.pairwise_cons.mp h
    cases hp : p x with
    | true =>
      simp only [List.find?_cons, hp]
      constructor
      · rintro ⟨rfl⟩
        exact ⟨⟨List.mem_cons_self, hp⟩, List.forall_mem_cons.mpr ⟨fun _ => le_rfl, fun b hb _ => (hx b hb).le⟩⟩
      · rintro ⟨⟨ha, -⟩, hleast⟩
        rcases List.mem_cons.mp ha with rfl | ha
        · rfl
        · exact absurd (hleast x List.mem_cons_self hp) (Nat.not_le.mpr (hx a ha))
    | false =>
      simp only [List.find?_cons, hp, ih hl]
      have hne : p a = true → a ≠ x := fun ha hax => by simp [hax, hp] at ha
      constructor
      · rintro ⟨⟨ha, hpa⟩, hleast⟩
        exact ⟨⟨List.mem_cons_of_mem _ ha, hpa⟩, List.forall_mem_cons.mpr ⟨by simp [hp], hleast⟩⟩
      · rintro ⟨⟨ha, hpa⟩, hleast⟩
        exact ⟨⟨(List.mem_cons.mp ha).resolve_left (hne hpa), hpa⟩, (List.forall_mem_cons.mp hleast).2⟩

/-- The first check that some word fails is the first of the words' first failing checks. -/
theorem find?_any_eq_some_iff {α : Type} {f : α → Nat} {p : Nat → α → Bool} {l : List α} {n : Nat} {a : α}
    (h : l.Pairwise fun x y => f x < f y) :
    (l.find? fun x => (List.range (n + 1)).any fun k => p k x) = some a ↔
      (∃ k, k ≤ n ∧ l.find? (p k) = some a) ∧ ∀ k b, k ≤ n → l.find? (p k) = some b → f a ≤ f b := by
  simp only [find?_eq_some_iff_least h, List.any_eq_true, List.mem_range, Nat.lt_succ_iff]
  constructor
  · rintro ⟨⟨ha, k, hk, hpa⟩, hleast⟩
    exact ⟨⟨k, hk, ⟨ha, hpa⟩, fun b hb hpb => hleast b hb ⟨k, hk, hpb⟩⟩,
      fun k b hk ⟨⟨hb, hpb⟩, _⟩ => hleast b hb ⟨k, hk, hpb⟩⟩
  · rintro ⟨⟨k, hk, ⟨ha, hpa⟩, -⟩, hleast⟩
    refine ⟨⟨ha, k, hk, hpa⟩, fun b hb ⟨j, hj, hpb⟩ => ?_⟩
    obtain ⟨c, hc⟩ : ∃ c, l.find? (p j) = some c := Option.isSome_iff_exists.mp (List.find?_isSome.mpr ⟨b, hb, hpb⟩)
    exact (hleast j c hj ((find?_eq_some_iff_least h).mp hc)).trans (((find?_eq_some_iff_least h).mp hc).2 b hb hpb)

/-- A request of one word is refused for the first check its word fails. -/
theorem refusalReason_word {s : State} (hs : MapLegal s) {r : Request} {region : Region} {beats : List WriteBeat}
    (hregion : region = .control ∨ ∃ g, region = .group g) (h : LiesIn s r region) (hf : BurstInForm r)
    (hlen : r.len = 0#8) (hbeats : r.dir = .write → beats.length = 1) :
    s.refusalReason r beats =
      wordChecks.find? (wordFails (s.wordRight region r 0) (s.wordPlace region r 0) r.dir beats[0]?) := by
  rw [refusalReason_wordwise hs hregion h hf (by simpa [hlen] using hbeats)]
  have hcount : beatCount r = 1 := by simp [beatCount, hlen]
  simp [hcount]

/-- Word `k` of a burst alone is refused for the first check that word `k` fails. -/
theorem refusalReason_wordRequest {s : State} (hs : MapLegal s) {r : Request} {region : Region} {beats : List WriteBeat}
    (hregion : region = .control ∨ ∃ g, region = .group g) (h : LiesIn s r region) (hf : BurstInForm r)
    (hbeats : r.dir = .write → beats.length = r.len.toNat + 1) {k : Nat} (hk : k ≤ r.len.toNat) :
    s.refusalReason (wordRequest r k) ((beats.drop k).take 1) =
      wordChecks.find? (wordFails (s.wordRight region r k) (s.wordPlace region r k) r.dir beats[k]?) := by
  have hend := liesIn_wordwise_end hs hregion h hf
  have haddr : beatAddr (wordRequest r k) 0 = beatAddr r k := addr_wordRequest hend hk
  rw [refusalReason_word hs hregion (wordRequest_liesIn hf hend hk h) (wordRequest_inForm hf hend hk) rfl
    fun hd => by have := hbeats hd; simp; omega]
  have hright : s.wordRight region (wordRequest r k) 0 = s.wordRight region r k := by
    rcases hregion with rfl | ⟨g, rfl⟩ <;> simp only [State.wordRight, haddr] <;> rfl
  have hplace : s.wordPlace region (wordRequest r k) 0 = s.wordPlace region r k := by
    rcases hregion with rfl | ⟨g, rfl⟩ <;> simp only [State.wordPlace, haddr]
  have hbeat : ((beats.drop k).take 1)[0]? = beats[k]? := by simp
  rw [hright, hplace, hbeat]
  rfl

/-! ### The checks of one word -/

theorem wordReason_read (right : Right) (place : Place) (b : Option WriteBeat) :
    wordChecks.find? (wordFails right place .read b) =
      if right = .permission then some .permission else if right = .privilege then some .privilege else none := by
  cases right <;> rfl

theorem wordReason_write (right : Right) (place : Place) (b : WriteBeat) :
    wordChecks.find? (wordFails right place .write (some b)) =
      if right = .permission then some .permission else if right = .privilege then some .privilege
      else if isResultPlace place = true then some .resultWrite
      else if isReservedPlace place = true then some .reserved
      else if isTakenPlace place = true ∧ b.strobes ≠ 0xFF#8 then some .form else none := by
  have htaken : (isTakenPlace place && !allStrobes b.strobes) =
      decide (isTakenPlace place = true ∧ b.strobes ≠ 0xFF#8) := by
    rw [Bool.eq_iff_iff]
    simp [allStrobes]
  cases right <;> simp [wordChecks, wordFails, find?_cons_eq_ite, htaken]

/-- The rights under a mask (R140). -/
theorem maskRight_eq (admitted privilegedOnly : Bool) (r : Request) : maskRight admitted privilegedOnly r =
    if admitted = false then .permission
    else if privilegedOnly = true ∧ r.prot.getLsbD 0 = false then .privilege else .allowed := by
  cases admitted <;> simp [maskRight, privileged]

theorem isInbound_or_isPayload (word : Fin 16) :
    (isInboundWord word || isPayloadWord word) = decide (word.val ∈ [4, 5, 6, 7, 9, 10, 11, 12]) := by
  revert word; decide

theorem isResultWord_eq (word : Fin 16) : isResultWord word = decide (word.val ∈ [0, 1, 2, 3, 14, 15]) := by
  revert word; decide

theorem isCommandWord_eq (word : Fin 16) : isCommandWord word = decide (word.val ∈ [8, 13]) := by
  revert word; decide

/-- A write to a slot word is admitted by the fill mask, and by the manage mask where it is no shadow word (R3). -/
theorem groupRight_write {r : Request} (hd : r.dir = .write) (d : Descriptor) (word : Fin 16) :
    groupRight d r word =
      if d.writeMask.getLsbD r.initiator.val = false ∧
          (word.val ∈ [4, 5, 6, 7, 9, 10, 11, 12] ∨ d.manageMask.getLsbD r.initiator.val = false) then .permission
      else if d.privilegedOnly = true ∧ r.prot.getLsbD 0 = false then .privilege else .allowed := by
  simp only [groupRight, hd, isInbound_or_isPayload, maskRight_eq, inMask]
  congr 1
  by_cases hword : word.val ∈ [4, 5, 6, 7, 9, 10, 11, 12] <;> simp [hword]

/-- Only the settings of the status block take writes (R181, R201). -/
theorem statusReserved_eq (w : StatusWord) : statusReserved w = !decide (w ∈ [StatusWord.pre, .epoch, .epochControl,
    .causes, .enables, .mapWord, .unmappedRights, .dInterval, .holdTime, .hold, .counterClear]) := by
  cases w <;> simp [statusReserved]

theorem statusWordAt_eq {off : Nat} (h : off < 0x200) : statusWordAt (off / 8) = statusWordOf off := by
  have htable : ∀ n : Fin 64, statusWordAt n.val = statusWordOf (8 * n.val) := by decide
  have hoff : statusWordOf off = statusWordOf (8 * (off / 8)) := by
    simp only [statusWordOf, show off - off % 8 = 8 * (off / 8) - 8 * (off / 8) % 8 by omega]
  rw [hoff]
  exact htable ⟨off / 8, by omega⟩

end Sys2Proof.Machine
end

