-- ==== Sys2Proof/Proofs/RequestChecks.lean ====
section
/-! The checks of a request in their order: O45 (R138 to R141). -/

namespace Sys2Proof.Machine

open Sys2Proof.Safety

/-! ### Requests of one region -/

theorem refusalReason_two_regions {s : State} (hs : MapLegal s) {r : Request} (beats : List WriteBeat) {a a' : Nat}
    {region region' : Region} (ha : Touches r a) (hr : InRegion s a region) (ha' : Touches r a')
    (hr' : InRegion s a' region') (hne : region ≠ region') : s.refusalReason r beats = some .limit := by
  simp only [State.refusalReason, regionOf_of_two hs ha hr ha' hr' hne]

theorem refusalReason_outOfForm {s : State} (hs : MapLegal s) {r : Request} (beats : List WriteBeat) {region : Region}
    (hregion : region = .control ∨ ∃ g, region = .group g) (h : LiesIn s r region) (hf : ¬BurstInForm r) :
    s.refusalReason r beats = some .form := by
  have hbad : formGood r = false := by simpa using mt (formGood_iff r).mp hf
  rcases hregion with rfl | ⟨g, rfl⟩ <;>
    simp only [State.refusalReason, regionOf_of_liesIn hs h, hbad] <;> rfl

/-- What follows from a right follows from what decides the right. -/
theorem ite_right {α : Type} (p q : Prop) [Decidable p] [Decidable q] (a b c : α) :
    (if (if p then Right.permission else if q then .privilege else .allowed) = .permission then a
      else if (if p then Right.permission else if q then .privilege else .allowed) = .privilege then b else c) =
      if p then a else if q then b else c := by
  by_cases hp : p
  · simp [hp]
  · by_cases hq : q <;> simp [hp, hq]

/-- Where the rights are one for the whole request, they decide: no word there is checked by itself (R140). -/
theorem refusalReason_of_right {s : State} {r : Request} (beats : List WriteBeat) {region : Region} {right : Right}
    (hregion : s.regionOf (byteRange r).1 (byteRange r).2 = some region)
    (hmemory : region = .unmapped ∨ ∃ i, region = .plain i) (hright : s.rightsOf region r = [right]) :
    s.refusalReason r beats = if right = .permission then some .permission
      else if right = .privilege then some .privilege else none := by
  have hplain : region.wordwise = false := by rcases hmemory with rfl | ⟨i, rfl⟩ <;> rfl
  have hplace : ∀ p ∈ s.placesOf region r, p = .memory := by
    rcases hmemory with rfl | ⟨i, rfl⟩ <;> simp [State.placesOf]
  have hnone (p : Place → Bool) (hp : p .memory = false) : (s.placesOf region r).any p = false :=
    List.any_eq_false.mpr fun x hx => by rw [hplace x hx, hp]; simp
  have hbeats : ((s.placesOf region r).zip beats).any (fun pb => isTakenPlace pb.1 && !allStrobes pb.2.strobes) =
      false :=
    List.any_eq_false.mpr fun x hx => by rw [hplace x.1 (List.of_mem_zip hx).1]; simp [isTakenPlace]
  simp only [State.refusalReason, hregion, hplain, hright, hnone isResultPlace rfl, hnone isReservedPlace rfl, hbeats]
  cases right <;> simp

theorem refusalReason_plain {s : State} (hs : MapLegal s) {r : Request} (beats : List WriteBeat) {w : Fin 16}
    (h : LiesIn s r (.plain w)) : s.refusalReason r beats =
      if (if r.dir = .read then (s.descriptor w).readMask else (s.descriptor w).writeMask).getLsbD r.initiator.val =
        false
      then some .permission
      else if (s.descriptor w).privilegedOnly = true ∧ r.prot.getLsbD 0 = false then some .privilege else none := by
  rw [refusalReason_of_right beats (regionOf_of_liesIn hs h) (.inr ⟨w, rfl⟩) rfl]
  cases hd : r.dir <;> simp only [maskRight_eq, inMask, ite_right] <;> rfl

theorem refusalReason_unmapped {s : State} (hs : MapLegal s) {r : Request} (beats : List WriteBeat)
    (h : LiesIn s r .unmapped) : s.refusalReason r beats =
      if (if r.dir = .read then s.map.unmappedRead else s.map.unmappedWrite).getLsbD r.initiator.val = false
      then some .permission else none := by
  rw [refusalReason_of_right beats (regionOf_of_liesIn hs h) (.inl rfl) rfl]
  simp only [maskRight_eq, ite_right]
  cases hd : r.dir <;> simp only [Bool.false_eq_true, false_and, if_false] <;> rfl

/-! ### Bursts of words -/

/-- A burst of words is refused for the first reason that any of its words alone would give. -/
theorem refusalReason_burst_iff {s : State} (hs : MapLegal s) {r : Request} {region : Region} {beats : List WriteBeat}
    (hregion : region = .control ∨ ∃ g, region = .group g) (h : LiesIn s r region) (hf : BurstInForm r)
    (hbeats : r.dir = .write → beats.length = r.len.toNat + 1) (reason : RefusalReason) :
    s.refusalReason r beats = some reason ↔
      (∃ k, k ≤ r.len.toNat ∧ s.refusalReason (wordRequest r k) ((beats.drop k).take 1) = some reason) ∧
      ∀ k reason', k ≤ r.len.toNat → s.refusalReason (wordRequest r k) ((beats.drop k).take 1) = some reason' →
        checkOrder reason ≤ checkOrder reason' := by
  have halone {k : Nat} (hk : k ≤ r.len.toNat) := refusalReason_wordRequest hs hregion h hf hbeats hk
  have horder : wordChecks.Pairwise fun x y => checkOrder x < checkOrder y := by decide
  rw [refusalReason_wordwise hs hregion h hf hbeats]
  refine (find?_any_eq_some_iff horder).trans (and_congr ?_ ?_)
  · exact exists_congr fun k => and_congr_right fun hk => by rw [halone hk]
  · exact forall_congr' fun k => forall_congr' fun reason' => forall_congr' fun hk => by rw [halone hk]

theorem requestPlaces_group {s : State} (hs : MapLegal s) {r : Request} {g : Fin 16} (h : LiesIn s r (.group g))
    (hf : BurstInForm r) : s.requestPlaces r = (List.range (r.len.toNat + 1)).map fun k =>
      slotPlace g (r.addr.toNat - (s.descriptor g).base * 4096 + 8 * k) := by
  obtain ⟨hlo, -⟩ := liesIn_group_bounds hs h hf
  simp only [State.requestPlaces, regionOf_of_liesIn hs h, placesOf_eq]
  refine List.map_congr_left fun k _ => congrArg (slotPlace g) ?_
  simp only [beatAddr]
  omega

theorem controlPlace_eq (off : Nat) : controlPlace off =
    if off < 0x200 then .status (statusWordOf off)
    else if 0x300 ≤ off ∧ off < 0x380 then .importArea (Fin.ofNat 16 ((off - 0x300) / 8)) else .memory := by
  simp only [controlPlace]
  split
  next h => rw [statusWordAt_eq h]
  next => rfl

theorem requestPlaces_control {s : State} (hs : MapLegal s) {r : Request} (h : LiesIn s r .control)
    (hf : BurstInForm r) : s.requestPlaces r = (List.range (r.len.toNat + 1)).map fun k =>
      controlPlace (r.addr.toNat - s.base + 8 * k) := by
  obtain ⟨hlo, -⟩ := liesIn_control_bounds h hf
  simp only [State.requestPlaces, regionOf_of_liesIn hs h, placesOf_eq]
  refine List.map_congr_left fun k _ => congrArg controlPlace ?_
  simp only [beatAddr]
  omega

/-! ### One word -/

theorem refusalReason_groupRead {s : State} (hs : MapLegal s) {r : Request} {g : Fin 16} (h : LiesIn s r (.group g))
    (hf : BurstInForm r) (hlen : r.len = 0#8) (hd : r.dir = .read) : s.refusalReason r [] =
      if (s.descriptor g).readMask.getLsbD r.initiator.val = false then some .permission
      else if (s.descriptor g).privilegedOnly = true ∧ r.prot.getLsbD 0 = false then some .privilege else none := by
  rw [refusalReason_word hs (.inr ⟨g, rfl⟩) h hf hlen (by simp [hd]), hd, wordReason_read]
  simp only [State.wordRight, groupRight, hd, maskRight_eq, inMask, ite_right]

theorem refusalReason_groupWrite {s : State} (hs : MapLegal s) {r : Request} {g : Fin 16} (b : WriteBeat)
    (h : LiesIn s r (.group g)) (hf : BurstInForm r) (hlen : r.len = 0#8) (hd : r.dir = .write) {word : Nat}
    (hword : word = (r.addr.toNat - (s.descriptor g).base * 4096) % 128 / 8) : s.refusalReason r [b] =
      if (s.descriptor g).writeMask.getLsbD r.initiator.val = false ∧
          (word ∈ [4, 5, 6, 7, 9, 10, 11, 12] ∨ (s.descriptor g).manageMask.getLsbD r.initiator.val = false)
        then some .permission
      else if (s.descriptor g).privilegedOnly = true ∧ r.prot.getLsbD 0 = false then some .privilege
      else if word ∈ [0, 1, 2, 3, 14, 15] then some .resultWrite
      else if word ∈ [8, 13] ∧ b.strobes ≠ 0xFF#8 then some .form else none := by
  have hbeat : [b][0]? = some b := rfl
  have haddr : beatAddr r 0 = r.addr.toNat := rfl
  have hval : (Fin.ofNat 16 word).val = word := by simp only [Fin.ofNat]; omega
  rw [refusalReason_word hs (.inr ⟨g, rfl⟩) h hf hlen (by simp), hd, hbeat, wordReason_write]
  simp only [State.wordRight, State.wordPlace, slotPlace, groupRight_write hd, isResultPlace, isReservedPlace,
    isTakenPlace, isResultWord_eq, isCommandWord_eq, haddr, ← hword, hval, decide_eq_true_eq,
    Bool.false_eq_true, if_false, ite_right]

/-- A request for one word of the control region lies in it and is in form. -/
theorem liesIn_of_isWordAt {s : State} {r : Request} {off : Nat} (h : isWordAt s r off) :
    LiesIn s r .control ∧ BurstInForm r := by
  obtain ⟨hlen, hsize, hburst, hexclusive, hoff, halign, haddr⟩ := h
  have hbase : s.base % 8 = 0 := by
    simp only [State.base, controlBase]
    split_ifs <;> rfl
  have hf : BurstInForm r := ⟨hburst, by simp [hlen], hsize, by omega, hexclusive⟩
  refine ⟨fun a ha => ?_, hf⟩
  rw [touches_inForm hf, haddr, hlen] at ha
  simp only [BitVec.toNat_ofNat, Nat.reducePow, Nat.zero_mod, Nat.zero_add] at ha
  show s.base ≤ a ∧ a < s.base + 4096
  omega

section ControlWord

variable {s : State} {r : Request} {off : Nat}

theorem refusalReason_controlRead (hs : MapLegal s) (h : isWordAt s r off) (hd : r.dir = .read) :
    s.refusalReason r [] =
      if controlRight r off = .permission then some .permission
      else if controlRight r off = .privilege then some .privilege else none := by
  obtain ⟨hin, hf⟩ := liesIn_of_isWordAt h
  obtain ⟨hlen, -, -, -, -, -, haddr⟩ := h
  have hoff : beatAddr r 0 - s.base = off := by simp [beatAddr, haddr]
  rw [refusalReason_word hs (.inl rfl) hin hf hlen (by simp [hd]), hd, wordReason_read]
  simp only [State.wordRight, hoff]

theorem refusalReason_controlWrite (hs : MapLegal s) (b : WriteBeat) (h : isWordAt s r off) (hd : r.dir = .write) :
    s.refusalReason r [b] =
      if controlRight r off = .permission then some .permission
      else if controlRight r off = .privilege then some .privilege
      else if isResultPlace (controlPlace off) = true then some .resultWrite
      else if isReservedPlace (controlPlace off) = true then some .reserved
      else if isTakenPlace (controlPlace off) = true ∧ b.strobes ≠ 0xFF#8 then some .form else none := by
  obtain ⟨hin, hf⟩ := liesIn_of_isWordAt h
  obtain ⟨hlen, -, -, -, -, -, haddr⟩ := h
  have hbeat : [b][0]? = some b := rfl
  have hoff : beatAddr r 0 - s.base = off := by simp [beatAddr, haddr]
  rw [refusalReason_word hs (.inl rfl) hin hf hlen (by simp), hd, hbeat, wordReason_write]
  simp only [State.wordRight, State.wordPlace, hoff]

/-- What is admitted from initiator 0, privileged, alone (R95, R150). -/
theorem privilegedZero_eq (r : Request) : privilegedZero r =
    if r.initiator = 0 ∧ r.prot.getLsbD 0 = true then .allowed
    else if r.initiator ≠ 0 then .permission else .privilege := by
  simp only [privilegedZero, privileged]
  split_ifs <;> simp_all

theorem controlRight_write_of_lt (hd : r.dir = .write) (h : off < 0x380) : controlRight r off = privilegedZero r := by
  simp only [controlRight, hd, h, if_true]
  split <;> rfl

theorem controlRight_import (h : 0x300 ≤ off) (h' : off < 0x380) : controlRight r off = privilegedZero r := by
  simp only [controlRight, if_neg (Nat.not_lt.mpr h), if_pos h']

theorem controlRight_above (h : 0x380 ≤ off) :
    controlRight r off = if r.initiator = 0 then .allowed else .permission := by
  simp only [controlRight, if_neg (show ¬off < 0x300 by omega), if_neg (show ¬off < 0x380 by omega)]

/-- A write that the rights of the control region allow is refused by its place alone. -/
theorem refusalReason_controlWrite_allowed (hs : MapLegal s) (b : WriteBeat) (h : isWordAt s r off)
    (hd : r.dir = .write) (ha : controlRight r off = .allowed) : s.refusalReason r [b] =
      if isResultPlace (controlPlace off) = true then some .resultWrite
      else if isReservedPlace (controlPlace off) = true then some .reserved
      else if isTakenPlace (controlPlace off) = true ∧ b.strobes ≠ 0xFF#8 then some .form else none := by
  rw [refusalReason_controlWrite hs b h hd, ha]
  simp

theorem controlRight_admitted (hd : r.dir = .write) (h : off < 0x380)
    (ha : r.initiator = 0 ∧ r.prot.getLsbD 0 = true) : controlRight r off = .allowed := by
  rw [controlRight_write_of_lt hd h, privilegedZero_eq, if_pos ha]

/-- Places of the control region outside the status block and the import area are memory. -/
theorem controlPlace_memory (h : 0x200 ≤ off) (h' : ¬(0x300 ≤ off ∧ off < 0x380)) : controlPlace off = .memory := by
  rw [controlPlace_eq, if_neg (Nat.not_lt.mpr h), if_neg h']

end ControlWord

end Sys2Proof.Machine

namespace Sys2Proof.Proofs

open Sys2Proof.Machine Sys2Proof.Safety

/-- Settles O45: a request lies in one region of the legal map, and the check it fails first is the first that one of
its words fails. -/
theorem requestChecksInOrder : Obligations.RequestChecksInOrder := by
  intro s hs
  refine ⟨fun r beats a a' region region' ha hr ha' hr' hne => refusalReason_two_regions hs beats ha hr ha' hr' hne,
    fun r beats region hregion h hf => refusalReason_outOfForm hs beats hregion h hf,
    fun r beats w h => refusalReason_plain hs beats h, fun r beats h => refusalReason_unmapped hs beats h,
    fun r region beats hregion h hf _ hbeats => refusalReason_burst_iff hs hregion h hf hbeats,
    fun r g h hf => requestPlaces_group hs h hf, fun r h hf => ?_, fun r g b h hf hlen => ⟨fun hd => ?_, fun hd => ?_⟩,
    fun r off b h => ⟨fun hd => ?_, fun hd hoff hna => ?_, fun hd hoff ha => ?_, fun hd hlo hhi ha => ?_,
      fun hd hlo hhi ha => ?_, fun hd hoff => ?_⟩⟩
  · rw [requestPlaces_control hs h hf]
    exact List.map_congr_left fun k _ => controlPlace_eq _
  · exact refusalReason_groupRead hs h hf hlen hd
  · exact refusalReason_groupWrite hs b h hf hlen hd rfl
  · rw [refusalReason_controlRead hs h hd]
    by_cases hlow : off < 0x300
    · simp [controlRight, hd, hlow]
    · by_cases himport : off < 0x380
      · rw [controlRight_import (by omega) himport, privilegedZero_eq, if_neg hlow, if_pos himport]
        split_ifs <;> simp_all
      · rw [controlRight_above (by omega), if_neg hlow, if_neg himport]
        split_ifs <;> simp_all
  · rw [refusalReason_controlWrite hs b h hd, controlRight_write_of_lt hd hoff, privilegedZero_eq, if_neg hna]
    split_ifs <;> simp_all
  · rw [refusalReason_controlWrite_allowed hs b h hd (controlRight_admitted hd (by omega) ha), controlPlace_eq,
      if_pos hoff]
    simp only [isResultPlace, isReservedPlace, isTakenPlace, statusReserved_eq]
    split_ifs <;> simp_all
  · rw [refusalReason_controlWrite_allowed hs b h hd (controlRight_admitted hd (by omega) ha),
      controlPlace_memory hlo (by omega)]
    rfl
  · rw [refusalReason_controlWrite_allowed hs b h hd (controlRight_admitted hd hhi ha), controlPlace_eq,
      if_neg (show ¬off < 0x200 by omega), if_pos (And.intro hlo hhi)]
    have hword : (Fin.ofNat 16 ((off - 0x300) / 8)).val = (off - 0x300) / 8 := by simp only [Fin.ofNat]; omega
    obtain ⟨-, -, -, -, -, halign, -⟩ := h
    have hresult : isResultPlace (.importArea (Fin.ofNat 16 ((off - 0x300) / 8))) = true ↔
        0x348 ≤ off ∧ off ≤ 0x358 := by
      simp only [isResultPlace, hword, Bool.and_eq_true, decide_eq_true_eq]; omega
    have htaken : isTakenPlace (.importArea (Fin.ofNat 16 ((off - 0x300) / 8))) = true ↔ off = 0x340 := by
      simp only [isTakenPlace, hword, beq_iff_eq]; omega
    simp only [hresult, htaken, isReservedPlace, Bool.false_eq_true, if_false]
  · rw [refusalReason_controlWrite hs b h hd, controlRight_above hoff, controlPlace_memory (by omega) (by omega)]
    split_ifs <;> simp_all [isResultPlace, isReservedPlace, isTakenPlace]

end Sys2Proof.Proofs
end

