-- ==== Sys2Proof/Proofs/StartUpRows.lean ====
section
/-! SUPPORT. The order of start-up under every row that is no beat, and O51 (R40, R54, R131, R161, R166, R168, R170,
R187, R191). -/

namespace Sys2Proof.Machine

/-! ### What the shared operations leave as it was -/

@[simp] theorem State.beginReserve_enables (s : State) : s.beginReserve.status.enables = s.status.enables := by
  simp only [State.beginReserve, State.endReserve, State.beginLoad, State.raiseLow, State.raise]
  (repeat' split) <;> simp

@[simp] theorem State.endReserve_enables (s : State) : s.endReserve.status.enables = s.status.enables := by
  simp only [State.endReserve, State.beginLoad, State.raiseLow, State.raise]
  split <;> rfl

@[simp] theorem State.endReserve_hold (s : State) : s.endReserve.status.hold = s.status.hold := by
  simp only [State.endReserve, State.beginLoad, State.raiseLow, State.raise]
  split <;> rfl

@[simp] theorem State.startZeroization_enables (s : State) : s.startZeroization.status.enables = s.status.enables := by
  have h : s.endImportByZeroize.status.enables = s.status.enables := by
    simp only [State.endImportByZeroize]; split <;> rfl
  rw [State.startZeroization_eq]
  split <;> simpa [State.stoppedForZeroize] using h

/-- A zeroization that ends no KEY_CHECK leaves the map (R175). -/
theorem State.startZeroization_map {s : State} (h : s.life.phase ≠ .keyCheck) : s.startZeroization.map = s.map := by
  rw [State.startZeroization_eq, if_neg h]; rfl

end Sys2Proof.Machine

namespace Sys2Proof.Safety

open Sys2Proof.Machine

/-! ### The parts of the order -/

/-- Nothing of service exists: no slot, no queued job, no import, no schedule, no hold, no enable, no waiting request
(R40, R131, R166, R187, R191). -/
def NoService (s : State) : Prop :=
  s.slots.contexts = [] ∧ s.engine.fifo = [] ∧ s.engine.importPlace = none ∧ s.keys.importState = .idle ∧
  s.time.schedule = none ∧ s.status.hold = false ∧ s.status.enables = 0#26 ∧ s.writer.waiting = []

/-- A running operation of the NV writer belongs to its phase; `waits`: an NV zeroize waits (R166 to R172). -/
def OpInPhase (phase : Phase) (cycle : LifeCycle) (waits : Bool) : NvOp → Prop
  | .request _ => phase = .running
  | .reserve _ => phase = .reserve
  | .blankWord => phase = .nvRead ∧ waits = false
  | .nvZeroize _ => (cycle = .zeroizing ∨ phase = .nvRead) ∧ waits = false

/-- The NV writer belongs to the phase; an NV zeroize waits only in ZEROIZING, for the operation that runs (R94). -/
def WriterInPhase (phase : Phase) (cycle : LifeCycle) (w : NvWriter) : Prop :=
  (∀ op, w.running = some op → OpInPhase phase cycle w.zeroizeWaiting op) ∧
  (w.zeroizeWaiting = true → cycle = .zeroizing ∧ w.running.isSome = true)

/-- The order of start-up by its parts. -/
theorem startUpOrder_iff (s : State) :
    StartUpOrder s ↔
      (s.life.phase ≠ .running → NoService s) ∧
      (s.life.phase = .nvRead ∨ s.life.phase = .keyCheck ∨ s.life.phase = .reserve → s.map.load = none) ∧
      (∀ j, s.engine.job = some j → if isServiceJob j then s.life.phase = .running else s.life.phase = .keyCheck) ∧
      WriterInPhase s.life.phase s.life.cycle s.writer ∧ (s.life.phase = .nvRead → s.zeroing = false) := by
  have hop : (∀ op, s.writer.running = some op → OpInPhase s.life.phase s.life.cycle s.writer.zeroizeWaiting op) ↔
      ∀ op, s.writer.running = some op →
        match op with
        | .request _ => s.life.phase = .running
        | .reserve _ => s.life.phase = .reserve
        | .blankWord => s.life.phase = .nvRead ∧ s.writer.zeroizeWaiting = false
        | .nvZeroize _ =>
          (s.life.cycle = .zeroizing ∨ s.life.phase = .nvRead) ∧ s.writer.zeroizeWaiting = false :=
    forall_congr' fun op => by cases op <;> rfl
  rw [WriterInPhase, hop, and_assoc]
  rfl

/-! ### The NV writer in a phase -/

/-- An idle writer, no NV zeroize waiting. -/
theorem writerInPhase_idle {phase : Phase} {cycle : LifeCycle} {w : NvWriter} (hr : w.running = none)
    (hz : w.zeroizeWaiting = false) : WriterInPhase phase cycle w :=
  ⟨fun op h => by simp [hr] at h, fun h => by simp [hz] at h⟩

/-- A writer that runs an operation of the phase. -/
theorem writerInPhase_running {phase : Phase} {cycle : LifeCycle} {w : NvWriter} {op : NvOp} (hr : w.running = some op)
    (hop : OpInPhase phase cycle w.zeroizeWaiting op) (hz : w.zeroizeWaiting = true → cycle = .zeroizing) :
    WriterInPhase phase cycle w :=
  ⟨fun op' h => by rw [hr] at h; cases h; exact hop, fun h => ⟨hz h, by simp [hr]⟩⟩

/-- KEY_CHECK and MAP_LOAD run no operation of their own, so what runs in them belongs to the phase after them too. -/
theorem WriterInPhase.next {phase phase' : Phase} {cycle : LifeCycle} {w : NvWriter} (h : WriterInPhase phase cycle w)
    (hp : phase = .keyCheck ∨ phase = .mapLoad ∨ phase' = phase) : WriterInPhase phase' cycle w := by
  rcases hp with rfl | rfl | rfl
  case inr.inr => exact h
  all_goals
    refine ⟨fun op hr => ?_, h.2⟩
    have hop := h.1 op hr
    cases op with
    | request r => cases hop
    | reserve v => cases hop
    | blankWord => cases hop.1
    | nvZeroize n => exact ⟨.inl (hop.1.resolve_right (by simp)), hop.2⟩

/-- Outside ZEROIZING no NV zeroize waits. -/
theorem WriterInPhase.not_waiting {phase : Phase} {cycle : LifeCycle} {w : NvWriter} (h : WriterInPhase phase cycle w)
    (hc : cycle ≠ .zeroizing) : w.zeroizeWaiting = false :=
  Bool.eq_false_iff.mpr fun hz => hc (h.2 hz).1

/-- The NV zeroize runs with none waiting behind it. -/
theorem WriterInPhase.not_waiting_of_zeroize {phase : Phase} {cycle : LifeCycle} {w : NvWriter} {n : Fin 4}
    (h : WriterInPhase phase cycle w) (hr : w.running = some (.nvZeroize n)) : w.zeroizeWaiting = false :=
  (h.1 _ hr).2

/-- A writer that goes on: to the NV zeroize that waits, or, in RUNNING alone, to a request (R94). -/
theorem writerInPhase_goOn {phase : Phase} {cycle : LifeCycle} {w : NvWriter}
    (hz : w.zeroizeWaiting = true → cycle = .zeroizing) (hw : phase ≠ .running → w.waiting = []) :
    WriterInPhase phase cycle w.goOn := by
  cases hzw : w.zeroizeWaiting with
  | true =>
    exact writerInPhase_running (op := .nvZeroize 0) (by simp [NvWriter.goOn, hzw])
      (.intro (.inl (hz hzw)) (by simp [NvWriter.goOn, hzw])) fun _ => hz hzw
  | false =>
    cases hwait : w.waiting with
    | nil => exact writerInPhase_idle (by simp [NvWriter.goOn, hzw, hwait]) (by simp [NvWriter.goOn, hzw, hwait])
    | cons r rest =>
      have hp : phase = .running := by
        by_contra hp
        simp [hw hp] at hwait
      exact writerInPhase_running (op := .request r) (by simp [NvWriter.goOn, hzw, hwait]) hp
        fun h => by simp [NvWriter.goOn, hzw, hwait] at h

/-- A request is taken in RUNNING (R90). -/
theorem WriterInPhase.take {cycle : LifeCycle} {w : NvWriter} (h : WriterInPhase .running cycle w) (r : NvRequest) :
    WriterInPhase .running cycle (w.take r) := by
  cases hr : w.running with
  | none =>
    have hz : w.zeroizeWaiting = false := Bool.eq_false_iff.mpr fun hz => by simpa [hr] using (h.2 hz).2
    exact writerInPhase_running (op := .request r) (by simp [NvWriter.take, hr]) rfl
      fun hw => by simp [NvWriter.take, hr, hz] at hw
  | some op => simpa [WriterInPhase, NvWriter.take, hr] using h

/-- The start of a zeroization outside NV_READ: what runs belongs to the phase after it too, since none of it is of
KEY_CHECK, the one phase that the zeroization ends (R94, R172, R175). -/
theorem WriterInPhase.startZeroize {phase phase' : Phase} {cycle : LifeCycle} {w : NvWriter}
    (h : WriterInPhase phase cycle w) (hp : phase ≠ .nvRead) (hc : cycle ≠ .zeroizing)
    (hp' : phase = .keyCheck ∨ phase' = phase) : WriterInPhase phase' .zeroizing (startZeroizeOperation w) := by
  cases hr : w.running with
  | none =>
    have hz := h.not_waiting hc
    exact writerInPhase_running (op := .nvZeroize 0) (by simp [startZeroizeOperation, hr])
      ⟨.inl rfl, by simp [startZeroizeOperation, hr]⟩ fun _ => rfl
  | some op =>
    refine writerInPhase_running (op := op) (by simp [startZeroizeOperation, hr]) ?_ fun _ => rfl
    have hop := h.1 op hr
    cases op with
    | request r => exact (hp'.resolve_left (by rw [show phase = .running from hop]; simp)).trans hop
    | reserve v => exact (hp'.resolve_left (by rw [show phase = .reserve from hop]; simp)).trans hop
    | blankWord => exact absurd hop.1 hp
    | nvZeroize n => exact absurd hop.1 (by simp [hc, hp])

/-! ### What a state in order says of what it holds -/

section
variable {s : State} (hs : StartUpOrder s)
include hs

theorem StartUpOrder.noService (hp : s.life.phase ≠ .running) : NoService s := hs.1 hp

theorem StartUpOrder.writerInPhase : WriterInPhase s.life.phase s.life.cycle s.writer := by
  obtain ⟨-, -, -, hw, -⟩ := (startUpOrder_iff s).mp hs
  exact hw

/-- A waiting slot job is there in RUNNING alone (R40). -/
theorem StartUpOrder.running_of_fifo {r : SlotRef} {rest : List SlotRef} (hf : s.engine.fifo = r :: rest) :
    s.life.phase = .running := by
  by_contra hp
  obtain ⟨-, h, -⟩ := hs.noService hp
  simp [hf] at h

theorem StartUpOrder.running_of_importPlace {kind : ImportKind} (hi : s.engine.importPlace = some kind) :
    s.life.phase = .running := by
  by_contra hp
  obtain ⟨-, -, h, -⟩ := hs.noService hp
  simp [hi] at h

theorem StartUpOrder.running_of_schedule (hsch : s.time.schedule ≠ none) : s.life.phase = .running := by
  by_contra hp
  obtain ⟨-, -, -, -, h, -⟩ := hs.noService hp
  exact hsch h

/-- A job of a slot or of an import is worked in RUNNING alone (R166). -/
theorem StartUpOrder.running_of_job {j : Job} (hj : s.engine.job = some j) (hserve : isServiceJob j = true) :
    s.life.phase = .running := by
  obtain ⟨-, -, hjob, -⟩ := hs
  simpa [hserve] using hjob j hj

theorem StartUpOrder.running_of_liveJob {x : SlotRef × JobKind} (hl : liveJob s.engine = some x) :
    s.life.phase = .running := by
  unfold liveJob at hl
  split at hl
  next hj => exact hs.running_of_job hj rfl
  next hj => exact hs.running_of_job hj rfl
  next => cases hl

theorem StartUpOrder.running_of_liveImport {h : Block} (hl : liveImport s.engine = some h) :
    s.life.phase = .running := by
  unfold liveImport at hl
  split at hl
  next hj => exact hs.running_of_job hj rfl
  next => cases hl

/-- A CHECK job is worked in KEY_CHECK alone (R54). -/
theorem StartUpOrder.keyCheck_of_job {j : Job} (hj : s.engine.job = some j) (hserve : isServiceJob j = false) :
    s.life.phase = .keyCheck := by
  obtain ⟨-, -, hjob, -⟩ := hs
  simpa [hserve] using hjob j hj

/-- Outside RUNNING and KEY_CHECK the engine is idle (R54, R166). -/
theorem StartUpOrder.job_none (hr : s.life.phase ≠ .running) (hk : s.life.phase ≠ .keyCheck) :
    s.engine.job = none := by
  cases hj : s.engine.job with
  | none => rfl
  | some j =>
    cases hserve : isServiceJob j with
    | true => exact absurd (hs.running_of_job hj hserve) hr
    | false => exact absurd (hs.keyCheck_of_job hj hserve) hk

/-- A load is under way only from MAP_LOAD on (R161). -/
theorem StartUpOrder.phase_of_load {l : LoadStage} (hl : s.map.load = some l) :
    s.life.phase = .mapLoad ∨ s.life.phase = .running := by
  obtain ⟨-, hload, -⟩ := hs
  cases hp : s.life.phase with
  | mapLoad => exact .inl rfl
  | running => exact .inr rfl
  | _ => simp [hp, hl] at hload

end

/-! ### Events in RUNNING -/

/-- An event in RUNNING that starts no CHECK job and leaves the NV writer in service keeps the order. -/
theorem StartUpOrder.of_running {t : State} (hp : t.life.phase = .running)
    (hj : ∀ j, t.engine.job = some j → isServiceJob j = true) (hw : WriterInPhase .running t.life.cycle t.writer) :
    StartUpOrder t :=
  (startUpOrder_iff t).mpr ⟨fun h => absurd hp h, fun h => by simp [hp] at h, fun j h => by simp [hj j h, hp],
    hp.symm ▸ hw, fun h => by simp [hp] at h⟩

/-- Nothing of the Life-cycle Unit or the NV writer changes in RUNNING, and no CHECK job starts. -/
theorem StartUpOrder.inService {s t : State} (hs : StartUpOrder s) (hp : s.life.phase = .running)
    (hl : t.life = s.life) (hw : t.writer = s.writer)
    (hj : ∀ j, t.engine.job = some j → s.engine.job = some j ∨ isServiceJob j = true) : StartUpOrder t := by
  refine .of_running (by rw [hl, hp]) (fun j h => (hj j h).elim (fun h0 => ?_) id) ?_
  · cases hserve : isServiceJob j with
    | true => rfl
    | false => simpa [hp] using hs.keyCheck_of_job h0 hserve
  · rw [hl, hw, ← hp]; exact hs.writerInPhase

/-- A request of RUNNING ends, and the writer goes on (R90, R94). -/
theorem StartUpOrder.requestEnded {s t : State} {r : NvRequest} (hs : StartUpOrder s)
    (hr : s.writer.running = some (.request r)) (hp : t.life.phase = s.life.phase)
    (hc : s.writer.zeroizeWaiting = true → t.life.cycle = .zeroizing) (he : t.engine = s.engine)
    (hw : t.writer = s.writer.goOn) : StartUpOrder t := by
  have hrun : s.life.phase = .running := hs.writerInPhase.1 _ hr
  refine .of_running (hp.trans hrun) (fun j hj => ?_) (hw ▸ writerInPhase_goOn hc fun h => absurd rfl h)
  rw [he] at hj
  cases hserve : isServiceJob j with
  | true => rfl
  | false => simpa [hrun] using hs.keyCheck_of_job hj hserve

/-- An admin operation ends (R92 to R94). -/
theorem StartUpOrder.endAdmin {s : State} {op : AdminOp} (hs : StartUpOrder s)
    (hr : s.writer.running = some (.request (.admin op))) (passed : Bool) : StartUpOrder (s.endAdmin op passed) := by
  have hrun : s.life.phase = .running := hs.writerInPhase.1 _ hr
  have hwait : s.zeroing = false → s.writer.zeroizeWaiting = false := fun hz =>
    hs.writerInPhase.not_waiting fun hc => by simp [State.zeroing, hc] at hz
  rcases s.endAdmin_cases op passed with ⟨hz, e⟩ | ⟨hz, i, e', -, -, e⟩ | ⟨hz, -, e⟩ <;> rw [e]
  · exact hs.requestEnded hr (by simp) (fun h => by simpa using (hs.writerInPhase.2 h).1) (by simp) (by simp [State.nvNext])
  · have hserve : ∀ j, s.engine.job = some j → isServiceJob j = true := ((startUpOrder_running hrun).mp hs).1
    refine .of_running (by simpa using hrun) (fun j hj => hserve j (by simpa using hj)) ?_
    exact writerInPhase_running (op := .request (.admin (.personalize i e'.check))) rfl rfl
      fun h => by simp [hwait hz] at h
  · exact hs.requestEnded hr (by simp) (fun h => by simp [hwait hz] at h) (by simp) (by simp [State.nvNext])

/-- The result of an import job is handed over (R53, R104). -/
theorem StartUpOrder.handOver {s : State} {h : Block} (hs : StartUpOrder s) (hl : liveImport s.engine = some h)
    (kind : ImportKind) (res : Sum ImportCode (Block × BitVec 24)) :
    StartUpOrder (s.idleEngine.handOver kind h res) := by
  have hp := hs.running_of_liveImport hl
  have hidle : ∀ u : State, u.life = s.life → u.writer = s.writer → u.engine.job = none → StartUpOrder u :=
    fun u hul huw huj => hs.inService hp hul huw fun j hj => by simp [huj] at hj
  cases res with
  | inl code => exact hidle _ rfl rfl rfl
  | inr key =>
    cases hk : s.idleEngine.lowestEmpty with
    | none => simpa only [State.handOver, hk] using hidle s.idleEngine rfl rfl rfl
    | some i =>
      simp only [State.handOver, hk]
      refine .of_running hp (fun j hj => by cases hj) ?_
      have hw : WriterInPhase .running s.life.cycle s.writer := hp ▸ hs.writerInPhase
      show WriterInPhase .running s.life.cycle (if s.zeroing then s.writer else s.writer.take _)
      split
      · exact hw
      · exact hw.take _

/-! ### RESERVE and KEY_CHECK -/

/-- MAP_LOAD with nothing of service, the engine idle, and the NV writer at most zeroizing (R161). -/
theorem startUpOrder_mapLoad {t : State} (hp : t.life.phase = .mapLoad) (hn : NoService t) (hj : t.engine.job = none)
    (hw : WriterInPhase .mapLoad t.life.cycle t.writer) : StartUpOrder t :=
  (startUpOrder_iff t).mpr ⟨fun _ => hn, fun h => by simp [hp] at h, fun j h => by simp [hj] at h,
    hp.symm ▸ hw, fun h => by simp [hp] at h⟩

/-- KEY_CHECK ends, and RESERVE begins or ends at once (R54, R170, R172). -/
theorem StartUpOrder.beginReserve {s : State} (hs : StartUpOrder s) (hp : s.life.phase = .keyCheck)
    (hj : s.engine.job = none) : StartUpOrder s.beginReserve := by
  obtain ⟨h1, h2, h3, h4, h5, h6, h7, h8⟩ := hs.noService (by simp [hp])
  have hw : WriterInPhase .keyCheck s.life.cycle s.writer := hp ▸ hs.writerInPhase
  rcases s.beginReserve_phase with ⟨hphase, hwriter⟩ | ⟨hphase, hz, hlt, -⟩
  · refine startUpOrder_mapLoad hphase (by simp [NoService, *]) (by simp [hj]) ?_
    rw [hwriter, State.beginReserve_cycle]
    exact hw.next (.inl rfl)
  · have hne : s.life.cycle ≠ .zeroizing := fun h => by simp [State.zeroing, h] at hz
    rw [State.beginReserve_program s hlt hz]
    refine (startUpOrder_iff _).mpr ⟨fun _ => ⟨h1, h2, h3, h4, h5, h6, h7, h8⟩, fun _ => ?_,
      fun j h => by simp [hj] at h, ?_, fun h => by simp at h⟩
    · obtain ⟨-, hload, -⟩ := hs
      exact hload (.inr (.inl hp))
    · exact writerInPhase_running (op := .reserve (s.nv.highWater + 4096)) rfl rfl
        fun h => by simp [hw.not_waiting hne] at h

/-- KEY_CHECK goes on (R54, R169). -/
theorem StartUpOrder.continueCheck {s : State} (hs : StartUpOrder s) (hp : s.life.phase = .keyCheck)
    (hj : s.engine.job = none) (n : Nat) : StartUpOrder (s.continueCheck n) := by
  rcases s.continueCheck_cases n with ⟨i, e⟩ | e <;> rw [e]
  · obtain ⟨h1, h2, -, h4, h5⟩ := (startUpOrder_iff s).mp hs
    exact (startUpOrder_iff _).mpr ⟨h1, h2, fun j h => by cases h; simp [isServiceJob, hp], h4, h5⟩
  · exact hs.beginReserve hp hj

/-- A CHECK job ends (R54). -/
theorem StartUpOrder.checked {s : State} (hs : StartUpOrder s) {j : Job} (hj : s.engine.job = some j)
    (hserve : isServiceJob j = false) (i : Fin 64) (e : DirEntry) (n : Nat) :
    StartUpOrder ((s.idleEngine.setEntry i e).continueCheck n) := by
  have hidle : StartUpOrder (s.idleEngine.setEntry i e) := by
    obtain ⟨h1, h2, -, h4, h5⟩ := (startUpOrder_iff s).mp hs
    exact (startUpOrder_iff _).mpr ⟨h1, h2, fun j h => (by cases h), h4, h5⟩
  exact hidle.continueCheck (hs.keyCheck_of_job hj hserve) rfl n

/-- The program of RESERVE ends, and MAP_LOAD begins (R170, R172). -/
theorem StartUpOrder.endReserveProgram {s : State} (hs : StartUpOrder s) {v : Nat}
    (hr : s.writer.running = some (.reserve v)) (passed : Bool) : StartUpOrder (s.endReserveProgram v passed) := by
  have hp : s.life.phase = .reserve := hs.writerInPhase.1 _ hr
  obtain ⟨h1, h2, h3, h4, h5, h6, h7, h8⟩ := hs.noService (by simp [hp])
  have hj := hs.job_none (by simp [hp]) (by simp [hp])
  have hw : WriterInPhase .mapLoad s.life.cycle s.writer.goOn :=
    writerInPhase_goOn (fun h => (hs.writerInPhase.2 h).1) fun _ => h8
  have hwait : s.writer.goOn.waiting = [] := List.sublist_nil.mp (h8 ▸ waiting_goOn s.writer)
  cases passed with
  | false => exact startUpOrder_mapLoad rfl (by simp [NoService, State.endReserveProgram, State.nvNext, *]) hj hw
  | true => exact startUpOrder_mapLoad rfl (by simp [NoService, State.endReserveProgram, State.nvNext, *]) hj hw

/-! ### Zeroization, NV_READ and the NV zeroize -/

/-- A zeroization starts outside NV_READ (R172, R175). -/
theorem StartUpOrder.startZeroization {s : State} (hs : StartUpOrder s) (hp : s.life.phase ≠ .nvRead)
    (hz : s.zeroing = false) : StartUpOrder s.startZeroization := by
  have f := s.startZeroization_fields
  have hphase : s.life.phase = .keyCheck ∧ s.startZeroization.life.phase = .mapLoad ∨
      s.life.phase ≠ .keyCheck ∧ s.startZeroization.life.phase = s.life.phase :=
    f.counter.imp (fun h => ⟨h.1, h.2.1⟩) fun h => ⟨h.1, h.2.1⟩
  have hne : s.life.cycle ≠ .zeroizing := fun h => by simp [State.zeroing, h] at hz
  refine (startUpOrder_iff _).mpr ⟨fun hr => ?_, fun hload => ?_, fun j hj => by simp [f.engine] at hj, ?_, fun h => ?_⟩
  · have hr' : s.life.phase ≠ .running := by rcases hphase with ⟨h, h'⟩ | ⟨-, h'⟩ <;> simp_all
    obtain ⟨h1, -, -, -, h5, h6, h7, -⟩ := hs.noService hr'
    exact ⟨by simp [f.contexts, h1], by simp [f.engine], by simp [f.engine], f.importState, by simpa using h5,
      by simpa [f.hold] using h6, by simpa using h7, by rw [f.writer, waiting_startZeroize]⟩
  · rcases hphase with ⟨-, h'⟩ | ⟨hk, h'⟩
    · simp [h'] at hload
    · obtain ⟨-, hl, -⟩ := hs
      rw [State.startZeroization_map hk]
      exact hl (h' ▸ hload)
  · rw [f.writer, f.cycle]
    exact hs.writerInPhase.startZeroize hp hne (hphase.imp (·.1) (·.2))
  · rcases hphase with ⟨-, h'⟩ | ⟨-, h'⟩
    · simp [h'] at h
    · exact absurd (h' ▸ h) hp

/-- NV_READ ends, with the NV writer idle and a life cycle that is no zeroization's (R167, R168, R174). -/
theorem startUpOrder_leaveNvRead {s : State} (hn : NoService s) (hl : s.map.load = none) (hj : s.engine.job = none)
    (hr : s.writer.running = none) (hw : s.writer.zeroizeWaiting = false) (hz : s.zeroing = false) :
    StartUpOrder s.leaveNvRead := by
  have hs : StartUpOrder { s with life := { s.life with phase := .keyCheck, deferred := false } } :=
    (startUpOrder_iff _).mpr ⟨fun _ => hn, fun _ => hl, fun j h => by simp [hj] at h, writerInPhase_idle hr hw,
      fun h => by simp at h⟩
  rcases s.leaveNvRead_cases with ⟨e, -⟩ | e <;> rw [e]
  · exact hs.startZeroization (by simp) hz
  · exact hs.continueCheck rfl hj 0

/-- Another NV array and another state of the NV writer that belongs to the phase. -/
theorem StartUpOrder.withWriter {s : State} (hs : StartUpOrder s) (n : NvArray) {w : NvWriter}
    (hwait : w.waiting = s.writer.waiting) (hw : WriterInPhase s.life.phase s.life.cycle w) :
    StartUpOrder { s with nv := n, writer := w } := by
  obtain ⟨h1, h2, h3, -, h5⟩ := (startUpOrder_iff s).mp hs
  refine (startUpOrder_iff _).mpr ⟨fun hp => ?_, h2, h3, hw, h5⟩
  obtain ⟨a, b, c, d, e, f, g, h⟩ := h1 hp
  exact ⟨a, b, c, d, e, f, g, hwait.trans h⟩

/-- The NV zeroize goes on in another stage or attempt (R176, R178). -/
theorem StartUpOrder.nvZeroize {s : State} (hs : StartUpOrder s) {n m : Fin 4} (nv : NvArray) {w : NvWriter}
    (hr : s.writer.running = some (.nvZeroize n)) (hw : w.running = some (.nvZeroize m))
    (hwait : w.waiting = s.writer.waiting) (hz : w.zeroizeWaiting = s.writer.zeroizeWaiting) :
    StartUpOrder { s with nv := nv, writer := w } := by
  have hop := hs.writerInPhase.1 _ hr
  exact hs.withWriter nv hwait (writerInPhase_running hw (hz.symm ▸ hop)
    fun h => by simp [hz, hs.writerInPhase.not_waiting_of_zeroize hr] at h)

/-- The NV zeroize has passed outside NV_READ: ZEROIZED, and in RUNNING the requests that waited are served (R176). -/
theorem StartUpOrder.completeZeroize {s : State} (hs : StartUpOrder s) {n : Fin 4} (nv : NvArray)
    (hr : s.writer.running = some (.nvZeroize n)) (hp : s.life.phase ≠ .nvRead) :
    StartUpOrder ({ s with nv := nv }.completeZeroize) := by
  obtain ⟨h1, h2, h3, hw, -⟩ := (startUpOrder_iff s).mp hs
  refine (startUpOrder_iff _).mpr ⟨fun h => ?_, h2, h3, ?_, fun h => absurd h hp⟩
  · obtain ⟨a, b, c, d, -, f, g, hwait⟩ := h1 h
    exact ⟨a, b, c, d, rfl, f, g, List.sublist_nil.mp (hwait ▸ waiting_goOn s.writer)⟩
  · refine writerInPhase_goOn (fun h => ?_) fun h => ?_
    · simp [hw.not_waiting_of_zeroize hr] at h
    · obtain ⟨-, -, -, -, -, -, -, hwait⟩ := h1 h
      exact hwait

/-! ### The ends of a load -/

/-- A load of the map ends, and with the start-up load MAP_LOAD: RUNNING begins (R161). -/
theorem StartUpOrder.loadEnded {s t : State} (hs : StartUpOrder s) {l : LoadStage} (hl : s.map.load = some l)
    (hlife : t.life = s.endLoad.life) (hw : t.writer = s.writer)
    (hj : ∀ j, t.engine.job = some j → ∃ j0, s.engine.job = some j0 ∧ isServiceJob j = isServiceJob j0) :
    StartUpOrder t := by
  have hphase := hs.phase_of_load hl
  have hrun : t.life.phase = .running := by
    rcases hphase with h | h <;> simp [hlife, State.endLoad, h]
  have hcycle : t.life.cycle = s.life.cycle := by rw [hlife]; rfl
  refine .of_running hrun (fun j h => ?_) ?_
  · obtain ⟨j0, h0, hserve⟩ := hj j h
    rw [hserve]
    cases hserve0 : isServiceJob j0 with
    | true => rfl
    | false => rcases hphase with hp | hp <;> simpa [hp] using hs.keyCheck_of_job h0 hserve0
  · rw [hcycle, hw]
    exact hs.writerInPhase.next (.inr (hphase.imp_right Eq.symm))

/-- Discarding a job leaves its kind (R51). -/
theorem isServiceJob_discardDropped (kept : Fin 16 → Bool) (j : Job) :
    isServiceJob (discardDropped kept j) = isServiceJob j := by
  simp only [discardDropped]
  repeat' split
  all_goals rfl

/-! ### Every row -/

/-- Every row that is no beat keeps the order of start-up. -/
theorem StartUpOrder.row {s t : State} (h : RowEvent s t) (hs : StartUpOrder s) : StartUpOrder t := by
  cases h with
  | powerOn straps =>
    exact (startUpOrder_iff _).mpr ⟨fun _ => ⟨rfl, rfl, rfl, rfl, rfl, rfl, rfl, rfl⟩, fun _ => rfl,
      fun j h => (by cases h), writerInPhase_idle rfl rfl, fun _ => rfl⟩
  | tamper hp hz => exact hs.startZeroization hp hz
  | switched e hsch => exact StartUpOrder.beat (.switched e hsch) hs
  | expired r c hc _ _ => exact hs.inService (StartUpOrder.running_of_ctx hs hc) rfl rfl fun j hj => .inl hj
  | late r c hc _ _ => exact hs.inService (StartUpOrder.running_of_ctx hs hc) rfl rfl fun j hj => .inl hj
  | tookVerify r rest c k key _ hf _ _ =>
    exact hs.inService (hs.running_of_fifo hf) rfl rfl fun j hj => .inr (by cases hj; rfl)
  | tookSeal r rest c k key _ hf _ _ =>
    exact hs.inService (hs.running_of_fifo hf) rfl rfl fun j hj => .inr (by cases hj; rfl)
  | tookFailing r rest c c' _ hf _ _ => exact hs.inService (hs.running_of_fifo hf) rfl rfl fun j hj => .inl hj
  | tookImport kind _ hi =>
    exact hs.inService (hs.running_of_importPlace hi) rfl rfl fun j hj => .inr (by cases hj; rfl)
  | jobLost j hj hserve _ _ => exact hs.inService (hs.running_of_job hj hserve) rfl rfl fun j h => by cases h
  | jobAborted r kind c hl _ _ => exact hs.inService (hs.running_of_liveJob hl) rfl rfl fun j h => by cases h
  | jobEnded r kind c c' f hl _ _ _ => exact hs.inService (hs.running_of_liveJob hl) rfl rfl fun j h => by cases h
  | handedOver kind h res hl => exact hs.handOver hl kind res
  | checked i key hj =>
    obtain ⟨d, hj⟩ := hj
    exact hs.checked hj rfl i _ _
  | adminEnded op passed hr => exact hs.endAdmin hr passed
  | epochEnded v passed hr =>
    cases passed <;> exact hs.requestEnded hr rfl (fun h => (hs.writerInPhase.2 h).1) rfl rfl
  | reservationEnded v passed hr =>
    cases passed <;> exact hs.requestEnded hr rfl (fun h => (hs.writerInPhase.2 h).1) rfl rfl
  | reserveEnded v passed hr => exact hs.endReserveProgram hr passed
  | blankWritten hr =>
    obtain ⟨hp, hw⟩ : OpInPhase _ _ _ .blankWord := hs.writerInPhase.1 _ hr
    obtain ⟨-, hload, -⟩ := id hs
    exact startUpOrder_leaveNvRead (hs.noService (by simp [hp])) (hload (.inl hp))
      (hs.job_none (by simp [hp]) (by simp [hp])) rfl hw rfl
  | stagePassed n hr _ => exact hs.nvZeroize _ hr rfl rfl rfl
  | attemptFailed n hr _ => exact hs.nvZeroize _ hr (restartZeroize_running _) rfl rfl
  | zeroizeThenBlank n hr hp =>
    have hw := hs.writerInPhase.not_waiting_of_zeroize hr
    exact hs.withWriter _ rfl (writerInPhase_running (op := .blankWord) rfl ⟨hp, hw⟩ fun h => by simp [hw] at h)
  | zeroizeDone n hr hp => exact hs.completeZeroize _ hr hp
  | readZeroized hp hr =>
    have hw : s.writer.zeroizeWaiting = false := Bool.eq_false_iff.mpr fun h => by
      simpa [hr] using (hs.writerInPhase.2 h).2
    exact hs.withWriter s.nv rfl (writerInPhase_running (op := .nvZeroize 0) rfl ⟨.inr hp, hw⟩ fun h => by simp [hw] at h)
  | readEnded l d hp hr h1 h2 =>
    have hw : s.writer.zeroizeWaiting = false := Bool.eq_false_iff.mpr fun h => by
      simpa [hr] using (hs.writerInPhase.2 h).2
    obtain ⟨-, hload, -⟩ := id hs
    exact startUpOrder_leaveNvRead (hs.noService (by simp [hp])) (hload (.inl hp))
      (hs.job_none (by simp [hp]) (by simp [hp])) hr hw (by simp [State.zeroing, State.takeFromNv, h1, h2])
  | installed beats hl _ _ =>
    refine hs.loadEnded hl rfl rfl fun j hj => ?_
    obtain ⟨j0, h0, rfl⟩ := Option.map_eq_some_iff.mp (show s.engine.job.map _ = some j from hj)
    exact ⟨j0, h0, isServiceJob_discardDropped _ j0⟩
  | mapFaulted f n hl => exact hs.loadEnded hl rfl rfl fun j hj => ⟨j, hj, rfl⟩

end Sys2Proof.Safety

namespace Sys2Proof.Proofs

open Sys2Proof.Machine Sys2Proof.Safety

/-- Settles O51: the events of a beat keep the order (`StartUpOrder.beat`), and so does every other row. -/
theorem stepKeepsStartUpOrder : Obligations.StepKeepsStartUpOrder := fun _ _ hs h =>
  step_keeps (Q := fun _ => True) (fun _ _ _ _ => trivial) (fun _ _ _ _ => trivial) (fun _ _ => StartUpOrder.same)
    (fun _ _ _ => StartUpOrder.beat) (fun _ _ _ => StartUpOrder.row) trivial hs h

end Sys2Proof.Proofs
end

