-- ==== Sys2Proof/Proofs/ImportJobs.lean ====
section
/-! SUPPORT. The jobs of LOAD_PLAIN and LOAD from the command to the request that programs the entry, and the CHECK jobs
of start-up: O21, O25, O26 and O31 (R40, R42, R49, R52 to R54, R102 to R104, R169). -/

namespace Sys2Proof.Machine

open Sys2Proof.Safety

/-! ### The header of an import (R65, R102, R103) -/

/-- The one usage code of TRANSPORT (R65). -/
theorem usageOf_eq_transport (u : Byte) : usageOf u = .transport ↔ u = 0x01#8 := by
  unfold usageOf
  split_ifs <;> simp_all

/-- The codes that name a usage (R65). -/
theorem usageOf_ne_none (u : Byte) : usageOf u ≠ .none ↔ u ∈ [0x01#8, 0x02#8, 0x03#8] := by
  unfold usageOf
  split_ifs <;> simp_all

/-- The header conditions of LOAD_PLAIN, as R102 lists them. -/
theorem headerGoodPlain_iff (h : Block) :
    headerGoodPlain h = true ↔ headerUsage h = 0x01#8 ∧ headerKeySet h = 0#8 ∧ headerVersion h ≤ 15#8 ∧
      headerTransportVersion h = 0#8 ∧ headerValidFrom h = 0#16 ∧ headerValidUntil h = 0xFFFF#16 ∧
      h.extractLsb' 0 40 = 0#40 := by
  simp only [headerGoodPlain, headerTailZero, Bool.and_eq_true, beq_iff_eq, decide_eq_true_eq, usageOf_eq_transport,
    and_assoc]

/-- The header conditions of LOAD, as R103 lists them. -/
theorem headerGoodLoad_iff (h : Block) :
    headerGoodLoad h = true ↔ headerUsage h ∈ [0x01#8, 0x02#8, 0x03#8] ∧ headerKeySet h ≤ 31#8 ∧
      headerVersion h ≤ 15#8 ∧ headerTransportVersion h ≤ 15#8 ∧ h.extractLsb' 0 40 = 0#40 ∧
      (if headerUsage h = 0x01#8 then
        headerKeySet h = 0#8 ∧ headerValidFrom h = 0#16 ∧ headerValidUntil h = 0xFFFF#16
      else headerValidFrom h ≤ headerValidUntil h) := by
  simp only [headerGoodLoad, headerTripleGood, headerTailZero, Bool.and_eq_true, Bool.or_eq_true, bne_iff_ne, ne_eq,
    beq_iff_eq, decide_eq_true_eq, ← usageOf_ne_none, ← usageOf_eq_transport]
  by_cases ht : usageOf (headerUsage h) = .transport
  · simp only [ht, not_true_eq_false, false_or, if_true, Bool.and_eq_true, beq_iff_eq]
    exact ⟨fun ⟨⟨⟨⟨⟨⟨hu, hset⟩, hversion⟩, hset0⟩, htransport⟩, htail⟩, hrange⟩ =>
        ⟨hu, hset, hversion, htransport, htail, hset0, hrange⟩,
      fun ⟨hu, hset, hversion, htransport, htail, hset0, hrange⟩ =>
        ⟨⟨⟨⟨⟨⟨hu, hset⟩, hversion⟩, hset0⟩, htransport⟩, htail⟩, hrange⟩⟩
  · simp only [ht, not_false_eq_true, true_or, and_true, if_false, decide_eq_true_eq, and_assoc]

/-! ### The directory lookups of an import -/

/-- The lowest-indexed EMPTY entry (R104). -/
theorem State.lowestEmpty_eq_some {s : State} {i : Fin 64} (he : (s.entry i).state = .empty)
    (hlow : ∀ j, j < i → (s.entry j).state ≠ .empty) : s.lowestEmpty = some i := by
  rw [State.lowestEmpty, List.find?_eq_some_iff_getElem]
  exact ⟨by simp [he], i.val, by simp, by simp, fun j hj => by simpa using hlow ⟨j, by omega⟩ hj⟩

/-- FULL: no entry is EMPTY (R102). -/
theorem State.lowestEmpty_isNone (s : State) :
    s.lowestEmpty.isNone = true ↔ ¬∃ i, (s.entry i).state = .empty := by
  simp [State.lowestEmpty]

/-- The TRANSPORT entry of a version is there and LOADED (R103). -/
theorem State.transportLoaded_iff (s : State) (version : Byte) :
    s.transportLoaded version = true ↔
      ∃ i, s.findEntry .transport 0#8 version = some i ∧ (s.entry i).state = .loaded := by
  unfold State.transportLoaded
  split
  next i hi => simp [hi]
  next hn => simp [hn]

/-! ### LOAD_PLAIN and LOAD (R102, R103) -/

section
variable (s : State) (cmd : ImportCmd) (kind : ImportKind) (h : Block)

theorem State.placeUnlessTaken_exists {i : Fin 64}
    (hi : s.findEntry (usageOf (headerUsage h)) (headerKeySet h) (headerVersion h) = some i) :
    s.placeUnlessTaken cmd kind h = s.endAtOnce (importCode cmd) .exists' i 0#24 := by
  simp only [State.placeUnlessTaken, hi]

theorem State.placeUnlessTaken_full
    (hi : s.findEntry (usageOf (headerUsage h)) (headerKeySet h) (headerVersion h) = none)
    (hroom : ¬∃ i, (s.entry i).state = .empty) :
    s.placeUnlessTaken cmd kind h = s.endAtOnce (importCode cmd) .full 0 0#24 := by
  simp only [State.placeUnlessTaken, hi, if_pos (s.lowestEmpty_isNone.mpr hroom)]

theorem State.placeUnlessTaken_room
    (hi : s.findEntry (usageOf (headerUsage h)) (headerKeySet h) (headerVersion h) = none)
    (hroom : ∃ i, (s.entry i).state = .empty) : s.placeUnlessTaken cmd kind h = s.placeImportJob cmd kind := by
  have hsome : ¬s.lowestEmpty.isNone = true := fun hn => s.lowestEmpty_isNone.mp hn hroom
  simp only [State.placeUnlessTaken, hi, if_neg hsome]

end

/-- The beat of an import command whose carrying out ends it at once (R101): its row ends the command. -/
theorem importBeat_endedAtOnce {s : State} {cmd : ImportCmd} {upper : BitVec 56} {command : Byte} {code : ImportCode}
    {index : Fin 64} {check : BitVec 24} (hbusy : code ≠ .busy) (hr : s.reloading = false)
    (hp : s.life.phase = .running) (hrefuse : s.importRefusal (some cmd) upper = none)
    (hcarry : s.carryImport cmd upper = s.endAtOnce command code index check) :
    EndedAtOnce command code index check s (s.importBeat cmd upper) ∧
      (s.importBeat cmd upper).keys.inquiry = s.keys.inquiry := by
  rw [State.importBeat_carried hr hp hrefuse, hcarry]
  refine ⟨⟨rfl, if_neg hbusy, ?_, onlyRaised_of_raise s _ .importDone _ (by simp) rfl, countersKept_of_same _ _ _ rfl,
    rfl⟩, rfl⟩
  exact (State.causeSet_raise s .importDone .importDone).trans (by simp)

/-- The last checks of LOAD_PLAIN and LOAD, and what the row does at each: EXISTS, FULL, or the job is placed with wait
count 0 and the import state QUEUED (R39, R101 to R103). -/
theorem importBeat_placeUnlessTaken {s : State} {cmd : ImportCmd} {upper : BitVec 56} {kind : ImportKind} {h : Block}
    (hr : s.reloading = false) (hp : s.life.phase = .running) (hrefuse : s.importRefusal (some cmd) upper = none)
    (hcarry : s.carryImport cmd upper = s.placeUnlessTaken cmd kind h) :
    let target := s.findEntry (usageOf (headerUsage h)) (headerKeySet h) (headerVersion h)
    let room := ∃ i, (s.entry i).state = .empty
    let ended := fun code index =>
      EndedAtOnce (importCode cmd) code index 0#24 s (s.importBeat cmd upper) ∧
        (s.importBeat cmd upper).keys.inquiry = s.keys.inquiry
    (∀ i, target = some i → ended .exists' i) ∧ (target = none → ¬room → ended .full 0) ∧
      (target = none → room → s.importBeat cmd upper = { s with
        engine := { s.engine with importPlace := some kind, waitCount := 0 }
        keys := { s.keys with
          importState := .queued, inFlight := importCode cmd
          result := { command := importCode cmd, code := .none, index := 0, check := 0#24 } }
        memOut := s.memOut ++ [importOut s] }) := by
  refine ⟨fun i htarget => ?_, fun htarget hroom => ?_, fun htarget hroom => ?_⟩
  · exact importBeat_endedAtOnce (by simp) hr hp hrefuse
      (hcarry.trans (s.placeUnlessTaken_exists cmd kind h htarget))
  · exact importBeat_endedAtOnce (by simp) hr hp hrefuse
      (hcarry.trans (s.placeUnlessTaken_full cmd kind h htarget hroom))
  · rw [State.importBeat_carried hr hp hrefuse, hcarry, s.placeUnlessTaken_room cmd kind h htarget hroom]
    rfl

/-! ### The engine and the import job (R40, R42, R52, R53) -/

/-- The arbiter takes the import job that waits (R40). -/
theorem State.arbitrate_import {s : State} {kind : ImportKind} (hi : s.engine.importPlace = some kind)
    (hturn : s.engine.fifo = [] ∨ 8 ≤ s.engine.waitCount) : s.arbitrate = s.takeImportJob kind := by
  unfold State.arbitrate
  cases hf : s.engine.fifo with
  | nil => simp only [hi]
  | cons r rest =>
    have hwait : 8 ≤ s.engine.waitCount := hturn.resolve_left (by simp [hf])
    simp only [hi, if_neg (Nat.not_lt.mpr hwait)]

section
variable {kind : ImportKind} {h w : Block} {mac : Word} {transport : Option Block}

/-- The key that an import hands over: unwrapped for LOAD, as it stands for LOAD_PLAIN (R52, R53, R67). -/
def importedKey (kind : ImportKind) (h w : Block) (transport : Option Block) : Block :=
  match kind with
  | .load => w ^^^ aes128 (transport.getD 0#128) (headerWithTail h 0x4B#8)
  | .loadPlain => w

theorem importJobResult_eq : importJobResult kind h w mac transport =
    if kind = .load ∧ blobMacOf (transport.getD 0#128) h w ≠ mac then .inl .badBlob
    else if checkValue (importedKey kind h w transport) ≠ headerCheck h then .inl .checkMismatch
    else .inr (importedKey kind h w transport, checkValue (importedKey kind h w transport)) := by
  cases kind <;> rfl

/-- No MAC is judged, or it is equal (R52). -/
theorem not_badBlob (hmac : kind = .loadPlain ∨ blobMacOf (transport.getD 0#128) h w = mac) :
    ¬(kind = .load ∧ blobMacOf (transport.getD 0#128) h w ≠ mac) := by
  rintro ⟨rfl, hne⟩
  exact hne (hmac.resolve_left (by simp))

end

/-- The key goes to the NV writer for the lowest-indexed EMPTY entry (R104). -/
theorem State.handOver_program {s : State} {i : Fin 64} {kind : ImportKind} {h key : Block} {check : BitVec 24}
    (hi : s.lowestEmpty = some i) : s.handOver kind h (.inr (key, check)) =
      { s with keys := { s.keys with importState := .nvWriting } }.nvRequest
        (.admin (.program i (entryOfHeader h key check) (kind == ImportKind.loadPlain))) := by
  simp only [State.handOver, hi]

/-- The command in flight ends as its job's result is handed over (R101). -/
theorem endImport_commandEnded (s : State) (code : ImportCode) (index : Fin 64) (check : BitVec 24) :
    CommandEnded code index check s (s.idleEngine.endImport code index check) ∧
      OnlyRaised [.importDone] s (s.idleEngine.endImport code index check) ∧
      CountersKept [] s (s.idleEngine.endImport code index check) := by
  refine ⟨⟨rfl, rfl, rfl, ?_⟩, onlyRaised_of_raise s _ .importDone _ (by simp) rfl, countersKept_of_same _ _ _ rfl⟩
  exact (State.causeSet_raise s .importDone .importDone).trans (by simp)

/-! ### CHECK (R54) -/

/-- An entry with a key is judged by its check value (R54). -/
theorem checkedEntry_some (e : DirEntry) (key : Block) :
    checkedEntry e (some key) = if (e.state = .loaded ∨ e.state = .revoked) ∧ checkValue key ≠ e.check then
      { e with state := .damaged } else e := by
  cases he : e.state with
  | loaded => simp [checkedEntry, he]
  | revoked => simp [checkedEntry, he]
  | empty => simp [checkedEntry, he]
  | damaged => simp [checkedEntry, he]

/-- An entry that is neither LOADED nor REVOKED is not judged (R54). -/
theorem checkedEntry_of_not {e : DirEntry} (hl : e.state ≠ .loaded) (hr : e.state ≠ .revoked) (key : Option Block) :
    checkedEntry e key = e := by
  cases he : e.state with
  | loaded => exact absurd he hl
  | revoked => exact absurd he hr
  | empty => simp [checkedEntry, he]
  | damaged => simp [checkedEntry, he]

end Sys2Proof.Machine

namespace Sys2Proof.Proofs

open Sys2Proof.Machine Sys2Proof.Safety

/-- Settles O31: each command's own checks, and then the checks that both share (`importBeat_placeUnlessTaken`). -/
theorem loadCommandsPlaceImportJobs : Obligations.LoadCommandsPlaceImportJobs := by
  intro s hp hr hh hi h placed ended target room
  refine ⟨fun hcycle => ?_, fun hcycle => ?_⟩
  · intro good
    have hrefuse : s.importRefusal (some .loadPlain) 0#56 = none :=
      State.importRefusal_none_of (by simp [State.zeroing, hcycle]) hh hi rfl (by simp [cyclesOf, hcycle])
    have hgood : headerGoodPlain (importHeader s.keys) = true ↔ good := headerGoodPlain_iff h
    have htaken := fun hg : good => importBeat_placeUnlessTaken (kind := .loadPlain) (h := h) hr hp hrefuse
      (show s.carryLoadPlain = _ by simp [State.carryLoadPlain, hgood.mpr hg, h])
    refine ⟨fun hg => ⟨_, rfl, importBeat_endedAtOnce (by simp) hr hp hrefuse (?_ : s.carryLoadPlain = _)⟩,
      fun hg i htarget => ⟨_, rfl, (htaken hg).1 i htarget⟩,
      fun hg htarget hroom => ⟨_, rfl, (htaken hg).2.1 htarget hroom⟩,
      fun hg htarget hroom => congrArg Host.Outcome.next ((htaken hg).2.2 htarget hroom)⟩
    have hbad : headerGoodPlain (importHeader s.keys) = false := Bool.eq_false_iff.mpr fun e => hg (hgood.mp e)
    simp [State.carryLoadPlain, hbad]
  · intro good transport
    have hrefuse : s.importRefusal (some .load) 0#56 = none :=
      State.importRefusal_none_of (by rcases hcycle with e | e <;> simp [State.zeroing, e]) hh hi rfl
        (by simpa [cyclesOf] using hcycle)
    have hgood : headerGoodLoad (importHeader s.keys) = true ↔ good := headerGoodLoad_iff h
    have hloaded : s.transportLoaded (headerTransportVersion (importHeader s.keys)) = true ↔ transport :=
      s.transportLoaded_iff _
    have htaken := fun (hg : good) (ht : transport) =>
      importBeat_placeUnlessTaken (kind := .load) (h := h) hr hp hrefuse
        (show s.carryLoad = _ by simp [State.carryLoad, hgood.mpr hg, hloaded.mpr ht, h])
    refine ⟨fun hg => ⟨_, rfl, importBeat_endedAtOnce (by simp) hr hp hrefuse (?_ : s.carryLoad = _)⟩,
      fun hg ht => ⟨_, rfl, importBeat_endedAtOnce (by simp) hr hp hrefuse (?_ : s.carryLoad = _)⟩,
      fun hg ht i htarget => ⟨_, rfl, (htaken hg ht).1 i htarget⟩,
      fun hg ht htarget hroom => ⟨_, rfl, (htaken hg ht).2.1 htarget hroom⟩,
      fun hg ht htarget hroom => congrArg Host.Outcome.next ((htaken hg ht).2.2 htarget hroom)⟩
    · have hbad : headerGoodLoad (importHeader s.keys) = false := Bool.eq_false_iff.mpr fun e => hg (hgood.mp e)
      simp [State.carryLoad, hbad]
    · have hno : s.transportLoaded (headerTransportVersion (importHeader s.keys)) = false :=
        Bool.eq_false_iff.mpr fun e => ht (hloaded.mp e)
      simp [State.carryLoad, hgood.mpr hg, hno]

/-- Settles O21. -/
theorem engineTakesImportJob : Obligations.EngineTakesImportJob := by
  refine ⟨fun s kind hj hi hturn => ?_, fun s hno => ?_⟩
  · have hexec : exec .engineTakeJob s = .next s.arbitrate := by
      show execEngineTakeJob s = _
      simp only [execEngineTakeJob, hj]
    rw [hexec, State.arbitrate_import hi hturn]
    cases kind with
    | loadPlain => rfl
    | load => rfl
  · show execEngineTakeJob s = _
    cases hj : s.engine.job with
    | some j => simp only [execEngineTakeJob, hj]
    | none =>
      obtain ⟨hf, hi⟩ := hno.resolve_left (not_not.mpr hj)
      simp only [execEngineTakeJob, hj, State.arbitrate, hf, hi]

/-- Settles O25: the result of the job, by the checks of R52 and R53, and what the Key Store makes of it. -/
theorem importResultIsHandedOver : Obligations.ImportResultIsHandedOver := by
  intro s kind h w mac transport discard hj
  refine ⟨fun hd => ?_, fun hd => ?_⟩
  · show execImportComplete s = _
    simp only [execImportComplete, hj, hd, if_true]
    rfl
  intro kt key ended
  have hexec : exec .importComplete s =
      .next (s.idleEngine.handOver kind h (importJobResult kind h w mac transport)) := by
    show execImportComplete s = _
    simp [execImportComplete, hj, hd]
  have hend : ∀ code, importJobResult kind h w mac transport = .inl code → ended code := fun code hres => by
    obtain ⟨h1, h2, h3⟩ := endImport_commandEnded s code 0 0#24
    exact ⟨_, hexec.trans (by rw [hres]; rfl), h1, h2, h3, rfl, rfl, rfl⟩
  have hkey : importedKey kind h w transport = key := rfl
  refine ⟨fun hk hmac => hend _ ?_, fun hmac hcheck => hend _ ?_, fun hmac hcheck i he hlow => ?_⟩
  · rw [importJobResult_eq, if_pos ⟨hk, hmac⟩]
  · rw [importJobResult_eq, if_neg (not_badBlob hmac), hkey, if_pos hcheck]
  · have hres : importJobResult kind h w mac transport = .inr (key, headerCheck h) := by
      rw [importJobResult_eq, if_neg (not_badBlob hmac), hkey, hcheck, if_neg (by simp)]
    have hlowest : s.idleEngine.lowestEmpty = some i := State.lowestEmpty_eq_some he hlow
    rw [hres, State.handOver_program hlowest] at hexec
    exact ⟨_, hexec, requestReached_of_nvRequest rfl rfl rfl, rfl⟩

/-- Settles O26: the entry is judged, and the check goes on as `State.continueCheck_wentOn` says. -/
theorem startUpChecksEachEntry : Obligations.StartUpChecksEachEntry := by
  intro s i key discard hj
  let u : State := s.idleEngine.setEntry i (checkedEntry (s.entry i) key)
  have hexec : exec .checkComplete s = .next (u.continueCheck (i.val + 1)) := by
    show execCheckComplete s = _
    simp only [execCheckComplete, hj]
    rfl
  have hkeys : (u.continueCheck (i.val + 1)).keys = u.keys := by simp
  have hentry : ∀ j, (u.continueCheck (i.val + 1)).entry j = u.entry j := fun j => by simp only [State.entry, hkeys]
  have hself : (u.continueCheck (i.val + 1)).entry i = checkedEntry (s.entry i) key :=
    (hentry i).trans (State.entry_setEntry_self _ i _)
  refine ⟨_, hexec, fun k hk => ?_, fun hl hr => ?_, fun j hne => ?_, ?_, ?_⟩
  · rw [hself, hk, checkedEntry_some]
  · rw [hself, checkedEntry_of_not hl hr]
  · exact (hentry j).trans (State.entry_setEntry_of_ne _ _ hne)
  · rw [hkeys]; rfl
  · rw [hkeys]
    exact State.continueCheck_wentOn (i.val + 1) u

end Sys2Proof.Proofs
end

