-- ==== Sys2Proof/Proofs/CipherBlocks.lean ====
section
/-! SUPPORT. The cipher blocks of chapter 3 as lists of bytes, the chained MAC over such lists and the bytes of what it
gives, and from them O27 (R56 to R67). -/

namespace Sys2Proof.Machine

open Sys2Proof.Safety

/-! ### Bytes that spell a field -/

/-- The bytes `l`, the first one most significant, spell the field `v`: laid after any bytes of a block they add `v` at
its low end. The fields of a block are spelled one by one (`Spells.append`). -/
def Spells {n : Nat} (v : BitVec n) (l : List Byte) : Prop :=
  ∀ b : Block, l.foldl (fun (b : Block) x => b <<< 8 ||| x.setWidth 128) b = b <<< n ||| v.setWidth 128

/-- A block is the block of the bytes that spell it. -/
theorem Spells.blockOf_eq {v : Block} {l : List Byte} (h : Spells v l) : blockOf l = v := by
  simpa [blockOf] using h 0#128

theorem spells_byte (x : Byte) : Spells x [x] := fun _ => rfl

/-- A field laid after a field, in a block. -/
theorem setWidth_append_block {n m : Nat} (v : BitVec n) (w : BitVec m) :
    (v ++ w).setWidth 128 = v.setWidth 128 <<< m ||| w.setWidth 128 := by
  apply BitVec.eq_of_getLsbD_eq
  intro i hi
  by_cases him : i < m
  · simp [BitVec.getLsbD_append, hi, him]
  · simp [BitVec.getLsbD_append, hi, him, BitVec.getLsbD_of_ge w i (by omega)]

theorem Spells.append {n m : Nat} {v : BitVec n} {w : BitVec m} {l l' : List Byte} (hv : Spells v l)
    (hw : Spells w l') : Spells (v ++ w) (l ++ l') := fun b => by
  rw [List.foldl_append, hv, hw, setWidth_append_block, BitVec.shiftLeft_or_distrib, ← BitVec.shiftLeft_add,
    BitVec.or_assoc]

/-- The bytes of a number, the last one apart. -/
theorem numberBytes_succ (n v : Nat) : numberBytes (n + 1) v = numberBytes n (v / 256) ++ [BitVec.ofNat 8 v] := by
  simp only [numberBytes, List.range_succ, List.map_append, List.map_cons, List.map_nil]
  congr 1
  · refine List.map_congr_left fun j hj => ?_
    have hj : j < n := List.mem_range.mp hj
    rw [show n + 1 - 1 - j = n - 1 - j + 1 by omega, Nat.pow_succ', Nat.div_div_eq_div_mul]
  · simp

/-- A number is spelled by its bytes (section 3.1). -/
theorem spells_ofNat (n v : Nat) : Spells (BitVec.ofNat (8 * n) v) (numberBytes n v) := by
  induction n generalizing v with
  | zero => intro b; simp [numberBytes, BitVec.eq_nil (BitVec.ofNat 0 v)]
  | succ n ih =>
    have hsplit : BitVec.ofNat (8 * (n + 1)) v = BitVec.ofNat (8 * n) (v / 256) ++ BitVec.ofNat 8 v := by
      apply BitVec.eq_of_getLsbD_eq
      intro i hi
      rw [BitVec.getLsbD_append, BitVec.getLsbD_ofNat, BitVec.getLsbD_ofNat, BitVec.getLsbD_ofNat]
      split_ifs with h8
      · simp [hi, h8]
      · rw [show 256 = 2 ^ 8 from rfl, Nat.testBit_div_two_pow, show i - 8 + 8 = i by omega]
        simp [hi, show i - 8 < 8 * n by omega]
    rw [numberBytes_succ, hsplit]
    exact (ih (v / 256)).append (spells_byte _)

/-- A field of a word is spelled by the bytes of its number, zeros above it (section 3.1). -/
theorem spells_number {w : Nat} (n : Nat) (v : BitVec w) : Spells (v.setWidth (8 * n)) (numberBytes n v.toNat) := by
  rw [← BitVec.ofNat_toNat]
  exact spells_ofNat n v.toNat

/-- Zeros of a block, as a field. -/
theorem spells_zero (n : Nat) : Spells (0#(8 * n)) (zeroBytes n) := by
  induction n with
  | zero => intro b; simp [zeroBytes]
  | succ n ih =>
    rw [zeroBytes, List.replicate_succ', show 0#(8 * (n + 1)) = 0#(8 * n) ++ 0#8 from BitVec.zero_append_zero.symm]
    exact ih.append (spells_byte _)

/-- A word is spelled in address order (section 3.1). -/
theorem spells_addressOrder (w : Word) : Spells (addressOrder w) (stringBytes w) :=
  ((((((((spells_byte _).append (spells_byte _)).append (spells_byte _)).append (spells_byte _)).append
    (spells_byte _)).append (spells_byte _)).append (spells_byte _)).append (spells_byte _))

theorem spells_blockOfWords (lo hi : Word) : Spells (blockOfWords lo hi) (stringBytes lo ++ stringBytes hi) :=
  (spells_addressOrder lo).append (spells_addressOrder hi)

/-- The first bytes of a block spell its high end (section 3.1). -/
theorem spells_firstBytes (b : Block) {n : Nat} (hn : n ≤ 16) :
    Spells (b.extractLsb' (8 * (16 - n)) (8 * n)) ((List.range n).map (blockByte b)) := by
  induction n with
  | zero => intro b; simp
  | succ n ih =>
    have hsplit : b.extractLsb' (8 * (16 - n)) (8 * n) ++ b.extractLsb' (8 * (15 - n)) 8 =
        b.extractLsb' (8 * (15 - n)) (8 * n + 8) :=
      BitVec.extractLsb'_append_extractLsb'_eq_extractLsb' (by omega)
    rw [List.range_succ, List.map_append, show 16 - (n + 1) = 15 - n by omega,
      show b.extractLsb' (8 * (15 - n)) (8 * (n + 1)) = _ from hsplit.symm]
    exact (ih (by omega)).append (spells_byte _)

/-- A block is the block of its sixteen bytes. -/
theorem spells_block (b : Block) : Spells b ((List.range 16).map (blockByte b)) := by
  simpa using spells_firstBytes b (n := 16) le_rfl

theorem spells_headerWithTail (h : Block) (tail : Byte) :
    Spells (headerWithTail h tail) ((List.range 15).map (blockByte h) ++ [tail]) :=
  (spells_firstBytes h (n := 15) (by omega)).append (spells_byte tail)

/-! ### MACs (R60) -/

/-- The chaining over lists of bytes is the chaining over their blocks. -/
theorem chainEnd_eq_foldl (key y : Block) (blocks : List (List Byte)) :
    chainEnd key y blocks = (blocks.map blockOf).foldl (fun y x => aes128 key (y ^^^ x)) y := by
  induction blocks generalizing y with
  | nil => rfl
  | cons x rest ih => exact ih _

/-- The chained MAC is the end of the chain over the blocks' bytes (R60). -/
theorem chainedMac_eq_chainEnd (key : Block) {blocks : List Block} {bytes : List (List Byte)}
    (h : List.Forall₂ Spells blocks bytes) : chainedMac key blocks = chainEnd key 0#128 bytes := by
  have hblocks : bytes.map blockOf = blocks := by
    induction h with
    | nil => rfl
    | cons hx _ ih => simp [hx.blockOf_eq, ih]
  rw [chainEnd_eq_foldl, hblocks, chainedMac]

/-- Address order reverses the bytes of a word. -/
theorem byteOf_addressOrder (w : Word) (k : Fin 8) : byteOf (addressOrder w) k.val = byteOf w (7 - k.val) := by
  rw [addressOrder, byteOf_eight]
  fin_cases k <;> rfl

/-- The word of a block's first eight bytes holds them in address order (R60). -/
theorem holdsMac_wordOfFirstBytes (y : Block) : HoldsMac (wordOfFirstBytes y) y 8 := by
  intro j hj
  have hbyte : byteOf (y.extractLsb' 64 64) (7 - j) = blockByte y j := by
    apply BitVec.eq_of_getLsbD_eq
    intro i hi
    simp [byteOf, blockByte, hi, show 8 * (7 - j) + i < 64 by omega,
      show 64 + (8 * (7 - j) + i) = 8 * (15 - j) + i by omega]
  rw [if_pos hj, ← hbyte]
  exact byteOf_addressOrder _ ⟨j, hj⟩

/-- The bytes of a word whose upper half is cleared. -/
theorem byteOf_lowHalf (w : Word) (j : Nat) :
    byteOf ((w.extractLsb' 0 32).setWidth 64) j = if j < 4 then byteOf w j else 0#8 := by
  apply BitVec.eq_of_getLsbD_eq
  intro i hi
  split_ifs with hj
  · simp [byteOf, hi, show 8 * j + i < 32 by omega, show 8 * j + i < 64 by omega]
  · simp [byteOf, show ¬8 * j + i < 32 by omega]

/-- Truncation leaves the first bytes of a MAC, and zeros above them (R63). -/
theorem holdsMac_truncateMac {w : Word} {y : Block} {length : Nat} (h : HoldsMac w y 8) (hl : length = 4 ∨ length = 8) :
    HoldsMac (truncateMac length w) y length := by
  rcases hl with rfl | rfl
  · intro j hj
    rw [truncateMac, if_pos rfl, byteOf_lowHalf, h j hj, if_pos hj]
  · exact h

/-- The word of a MAC over blocks holds the end of the chain over the blocks' bytes (R60). -/
theorem holdsMac_chainedMac (key : Block) {blocks : List Block} {bytes : List (List Byte)}
    (h : List.Forall₂ Spells blocks bytes) :
    HoldsMac (wordOfFirstBytes (chainedMac key blocks)) (chainEnd key 0#128 bytes) 8 := by
  rw [← chainedMac_eq_chainEnd key h]
  exact holdsMac_wordOfFirstBytes _

/-! ### The blocks of a slot (R59, R61 to R64) -/

section
variable (c : SlotCtx)

theorem spells_tagCounter : Spells (tagCounter c) (numberBytes 3 (tagCounter c).toNat) := by
  simpa using spells_number 3 (tagCounter c)

theorem spells_tagVersion : Spells ((tagVersion c).setWidth 8) (numberBytes 1 (tagVersion c).toNat) :=
  spells_number 1 (tagVersion c)

theorem spells_tagKeySet : Spells (tagKeySet c) (numberBytes 1 (tagKeySet c).toNat) := by
  simpa using spells_number 1 (tagKeySet c)

theorem spells_tagAntenna : Spells ((tagAntenna c).setWidth 8) (numberBytes 1 (tagAntenna c).toNat) :=
  spells_number 1 (tagAntenna c)

/-- A purpose byte, the key set and the version begin the blocks of R59, R61, R63 and R64. -/
theorem spells_keyFields (purpose : Byte) : Spells (purpose ++ tagKeySet c ++ (tagVersion c).setWidth 8)
    ([purpose] ++ numberBytes 1 (tagKeySet c).toNat ++ numberBytes 1 (tagVersion c).toNat) :=
  ((spells_byte purpose).append (spells_tagKeySet c)).append (spells_tagVersion c)

/-- The block B_d (R59). -/
theorem spells_deriveBlock : Spells (deriveBlock c) ([0x44#8] ++ numberBytes 1 (tagKeySet c).toNat ++
    numberBytes 1 (tagVersion c).toNat ++ zeroBytes 5 ++ stringBytes (tagId c)) :=
  ((spells_keyFields c 0x44#8).append (spells_zero 5)).append (spells_addressOrder _)

/-- X1 of the tag authenticator (R61). -/
theorem spells_authBlock1 : Spells (authBlock1 c) ([0x41#8] ++ numberBytes 1 (tagKeySet c).toNat ++
    numberBytes 1 (tagVersion c).toNat ++ numberBytes 3 (tagCounter c).toNat ++ zeroBytes 2 ++ stringBytes (tagId c)) :=
  (((spells_keyFields c 0x41#8).append (spells_tagCounter c)).append (spells_zero 2)).append (spells_addressOrder _)

theorem spells_payloadLow : Spells (payloadLow c) (stringBytes c.payload[0] ++ stringBytes c.payload[1]) :=
  spells_blockOfWords _ _

theorem spells_payloadHigh : Spells (payloadHigh c) (stringBytes c.payload[2] ++ stringBytes c.payload[3]) :=
  spells_blockOfWords _ _

variable {c}

/-- X1 of the record seal (R64). -/
theorem spells_sealBlock1 {arrived : Word} (ha : c.arrival = some arrived) :
    Spells (sealBlock1 c) ([0x52#8] ++ numberBytes 1 (tagKeySet c).toNat ++ numberBytes 1 (tagVersion c).toNat ++
      numberBytes 1 (tagAntenna c).toNat ++ numberBytes 4 (arrived.extractLsb' 0 32).toNat ++
      numberBytes 3 (tagCounter c).toNat ++ [0x01#8] ++ zeroBytes 4) := by
  have harrival : Spells ((c.arrival.getD 0#64).extractLsb' 0 32) (numberBytes 4 (arrived.extractLsb' 0 32).toNat) := by
    simpa [ha] using spells_number 4 (arrived.extractLsb' 0 32)
  exact (((((spells_keyFields c 0x52#8).append (spells_tagAntenna c)).append harrival).append
    (spells_tagCounter c)).append (spells_byte _)).append (spells_zero 4)

variable {ch : Word} (hch : c.challenge = some ch)
include hch

theorem spells_challenge : Spells (c.challenge.getD 0#64) (numberBytes 8 ch.toNat) := by
  simpa [hch] using spells_number 8 ch

/-- X2 of the tag authenticator (R61). -/
theorem spells_authBlock2 : Spells (authBlock2 c) (numberBytes 8 ch.toNat ++ stringBytes (tagNonce c)) :=
  (spells_challenge hch).append (spells_addressOrder _)

/-- X1 of the tag-write MAC (R63). -/
theorem spells_writeMacBlock : Spells (writeMacBlock c) ([0x57#8] ++ numberBytes 1 (tagKeySet c).toNat ++
    numberBytes 1 (tagVersion c).toNat ++ numberBytes 3 (tagCounter c).toNat ++ numberBytes 1 (tagAntenna c).toNat ++
    zeroBytes 1 ++ numberBytes 8 ch.toNat) :=
  ((((spells_keyFields c 0x57#8).append (spells_tagCounter c)).append (spells_tagAntenna c)).append
    (spells_zero 1)).append (spells_challenge hch)

/-- X2 of the record seal (R64). -/
theorem spells_sealBlock2 : Spells (sealBlock2 c) (numberBytes 8 ch.toNat ++ stringBytes (tagId c)) :=
  (spells_challenge hch).append (spells_addressOrder _)

end

/-! ### Values cut out of a block (R58, R65, R67) -/

/-- Two neighbours among the bytes of a block. -/
theorem blockByte_append (b : Block) {j : Nat} (hj : j ≤ 14) :
    blockByte b j ++ blockByte b (j + 1) = b.extractLsb' (8 * (14 - j)) 16 :=
  (BitVec.extractLsb'_append_extractLsb'_eq_extractLsb' (by omega)).trans (by rw [show 15 - (j + 1) = 14 - j by omega])

/-- Three neighbours among the bytes of a block. -/
theorem blockByte_append_append (b : Block) {j : Nat} (hj : j ≤ 13) :
    blockByte b j ++ blockByte b (j + 1) ++ blockByte b (j + 2) = b.extractLsb' (8 * (13 - j)) 24 := by
  rw [blockByte_append b (by omega)]
  exact (BitVec.extractLsb'_append_extractLsb'_eq_extractLsb' (by omega)).trans
    (by rw [show 15 - (j + 2) = 13 - j by omega])

theorem blockByte_xor (x y : Block) (j : Nat) : blockByte (x ^^^ y) j = blockByte x j ^^^ blockByte y j :=
  BitVec.extractLsb'_xor

/-- The check value (R58). -/
theorem checkValue_eq (key : Block) : checkValue key =
    blockByte (aes128 key (blockOf (zeroBytes 16))) 0 ++ blockByte (aes128 key (blockOf (zeroBytes 16))) 1 ++
      blockByte (aes128 key (blockOf (zeroBytes 16))) 2 := by
  rw [(spells_zero 16).blockOf_eq]
  exact (blockByte_append_append _ (j := 0) (by omega)).symm

end Sys2Proof.Machine

namespace Sys2Proof.Proofs

open Sys2Proof.Machine Sys2Proof.Safety

/-- Settles O27: every block is spelled by its fields' bytes (`Spells`), and the word of a MAC holds the end of the
chain over those bytes (`holdsMac_chainedMac`). -/
theorem cipherBlocksAsLaidOut : Obligations.CipherBlocksAsLaidOut := by
  refine ⟨checkValue_eq, fun c => ⟨rfl, rfl, rfl, rfl, ?_⟩, fun k => ?_, fun h w transportKey => ?_⟩
  · intro counter version keySet antenna tagId nonce payloadLow payloadHigh
    refine ⟨(spells_deriveBlock c).blockOf_eq.symm, fun _ => rfl, fun ch arrived hch ha => ?_⟩
    have hlow := spells_payloadLow c
    have hhigh := spells_payloadHigh c
    exact ⟨fun tagKey => holdsMac_chainedMac tagKey (.cons (spells_authBlock1 c) (.cons (spells_authBlock2 hch) .nil)),
      fun tagKey length hl => holdsMac_truncateMac
        (holdsMac_chainedMac tagKey (.cons (spells_writeMacBlock hch) (.cons hlow (.cons hhigh .nil)))) hl,
      fun recordKey => holdsMac_chainedMac recordKey
        (.cons (spells_sealBlock1 ha) (.cons (spells_sealBlock2 hch) (.cons hlow (.cons hhigh .nil))))⟩
  · exact ⟨(spells_blockOfWords _ _).blockOf_eq.symm, (spells_blockOfWords _ _).blockOf_eq.symm, rfl⟩
  · refine ⟨rfl, rfl, rfl, rfl, (blockByte_append h (j := 4) (by omega)).symm,
      (blockByte_append h (j := 6) (by omega)).symm, (blockByte_append_append h (j := 8) (by omega)).symm,
      rfl, rfl, rfl, fun tail => (spells_headerWithTail h tail).blockOf_eq.symm,
      holdsMac_chainedMac transportKey (.cons (spells_headerWithTail h 0x54#8) (.cons (spells_block w) .nil)),
      fun j _ => ?_⟩
    rw [(spells_headerWithTail h 0x4B#8).blockOf_eq]
    exact blockByte_xor w _ j

end Sys2Proof.Proofs
end

