-- ==== Sys2Proof/Proofs/PassageFilter.lean ====
section
/-! SUPPORT. The passage filter: its positions, the lookup, the victim and the consultation, each by its cases; O28 and
O29 (R68 to R80). -/

namespace Sys2Proof.Machine

/-! ### Positions (R68) -/

/-- Each position after an entry has been written. -/
theorem Filter.at_put (f : Filter) (i j : Fin 256) (e : FilterEntry) :
    (f.put i e).at j = if j = i then some e else f.at j := by
  simp only [Filter.at, Filter.put, Fin.getElem_fin]
  by_cases h : j = i
  · subst h; simp
  · have : i.val ≠ j.val := fun e => h (Fin.ext e.symm)
    simp [h, this]

@[simp] theorem Filter.at_put_self (f : Filter) (i : Fin 256) (e : FilterEntry) : (f.put i e).at i = some e := by
  simp [Filter.at_put]

theorem Filter.at_put_of_ne (f : Filter) {i j : Fin 256} (e : FilterEntry) (h : j ≠ i) :
    (f.put i e).at j = f.at j := by simp [Filter.at_put, h]

/-! ### The lookup and the lowest free position (R69, R74, R78) -/

theorem sameKey_iff (e : FilterEntry) (r : Reading) :
    sameKey e r = true ↔ e.keySet = r.keySet ∧ e.tagId = r.tagId := by simp [sameKey]

/-- The first index that passes a test. -/
theorem find?_finRange_eq_some_iff {n : Nat} {p : Fin n → Bool} {i : Fin n} :
    (List.finRange n).find? p = some i ↔ p i = true ∧ ∀ j, j < i → p j = false := by
  rw [find?_eq_some_iff_least (f := Fin.val) (List.pairwise_lt_finRange n)]
  refine and_congr (by simp) ⟨fun h j hj => ?_, fun h j _ hp => ?_⟩
  · by_contra hp
    exact absurd (h j (List.mem_finRange j) (by simpa using hp)) (Nat.not_le.mpr hj)
  · by_contra hj
    exact absurd hp (by simp [h j (Nat.not_le.mp hj)])

/-- The lookup finds the first entry that has the reading's key (R69, R74). -/
theorem Filter.lookup_eq_some_iff {f : Filter} {r : Reading} {i : Fin 256} :
    f.lookup r = some i ↔
      (∃ e, f.at i = some e ∧ e.keySet = r.keySet ∧ e.tagId = r.tagId) ∧
        ∀ j e, j < i → f.at j = some e → e.keySet ≠ r.keySet ∨ e.tagId ≠ r.tagId := by
  simp only [Filter.lookup, find?_finRange_eq_some_iff, Option.any_eq_true, sameKey_iff, Bool.eq_false_iff, ne_eq,
    ← not_and_or, not_exists, not_and]
  exact and_congr_right fun _ => forall_congr' fun j => forall_comm

/-- The lookup finds nothing where no entry has the reading's key (R74). -/
theorem Filter.lookup_eq_none_iff {f : Filter} {r : Reading} :
    f.lookup r = none ↔ ∀ i e, f.at i = some e → e.keySet ≠ r.keySet ∨ e.tagId ≠ r.tagId := by
  simp only [Filter.lookup, List.find?_eq_none, List.mem_finRange, true_implies, Option.any_eq_true, sameKey_iff, ne_eq,
    ← not_and_or, not_exists, not_and]

/-- The lowest free position (R78). -/
theorem Filter.lowestFree_eq_some {f : Filter} {i : Fin 256} (hi : f.at i = none) (hlow : ∀ j, j < i → f.at j ≠ none) :
    f.lowestFree = some i :=
  find?_finRange_eq_some_iff.mpr ⟨by simp [hi], fun j hj => by simpa [Option.isSome_iff_ne_none] using hlow j hj⟩

/-- A full filter has no free position (R79). -/
theorem Filter.lowestFree_eq_none {f : Filter} (h : ∀ j, f.at j ≠ none) : f.lowestFree = none :=
  List.find?_eq_none.mpr fun j _ => by simpa using h j

/-! ### The victim (R79) -/

/-- The choice between the oldest position so far and the next one (R79). -/
def older (age : Fin 256 → Word) (best i : Fin 256) : Fin 256 := if age best < age i then i else best

theorem Filter.oldest_eq (f : Filter) (now : Word) :
    f.oldest now = (List.finRange 256).foldl (older (f.age now)) 0 := rfl

/-- A position that no other one exceeds stays the victim. -/
theorem foldl_older_of_max {age : Fin 256 → Word} {i : Fin 256} {l : List (Fin 256)} (hmax : ∀ j, age j ≤ age i) :
    l.foldl (older age) i = i := by
  induction l with
  | nil => rfl
  | cons x l ih =>
    have : older age i x = i := by simp [older, BitVec.not_lt.mpr (hmax x)]
    rw [List.foldl_cons, this, ih]

/-- In ascending order, the first of the positions of greatest age becomes the victim when it is reached. -/
theorem foldl_older_of_first_max {age : Fin 256 → Word} {i best : Fin 256} {l : List (Fin 256)}
    (hsorted : l.Pairwise (· < ·)) (hmem : i ∈ l) (hbest : age best < age i) (hmax : ∀ j, age j ≤ age i)
    (hfirst : ∀ j, j < i → age j < age i) : l.foldl (older age) best = i := by
  induction l generalizing best with
  | nil => cases hmem
  | cons x l ih =>
    obtain ⟨hx, hl⟩ := List.pairwise_cons.mp hsorted
    rw [List.foldl_cons]
    rcases List.mem_cons.mp hmem with rfl | hmem
    · rw [older, if_pos hbest, foldl_older_of_max hmax]
    · refine ih hl hmem ?_
      rw [older]
      split
      · exact hfirst x (hx i hmem)
      · exact hbest

theorem Filter.age_of_at {f : Filter} {i : Fin 256} {e : FilterEntry} (he : f.at i = some e) (now : Word) :
    f.age now i = now - e.lastTime := by simp [Filter.age, he, elapsed]

/-- The victim of a full filter is the lowest-indexed position of greatest elapsed time (R79). -/
theorem Filter.oldest_eq_of_full {f : Filter} {now : Word} {i : Fin 256} {e : FilterEntry} (he : f.at i = some e)
    (hfull : ∀ j, f.at j ≠ none) (hmax : ∀ j e', f.at j = some e' → now - e'.lastTime ≤ now - e.lastTime)
    (hfirst : ∀ j e', j < i → f.at j = some e' → now - e'.lastTime < now - e.lastTime) : f.oldest now = i := by
  have hmaxAge : ∀ j, f.age now j ≤ f.age now i := fun j => by
    obtain ⟨e', he'⟩ := Option.ne_none_iff_exists'.mp (hfull j)
    rw [f.age_of_at he', f.age_of_at he]
    exact hmax j e' he'
  have hfirstAge : ∀ j, j < i → f.age now j < f.age now i := fun j hj => by
    obtain ⟨e', he'⟩ := Option.ne_none_iff_exists'.mp (hfull j)
    rw [f.age_of_at he', f.age_of_at he]
    exact hfirst j e' hj he'
  rw [Filter.oldest_eq]
  by_cases hi : i = 0
  · subst hi; exact foldl_older_of_max hmaxAge
  · exact foldl_older_of_first_max (List.pairwise_lt_finRange 256) (List.mem_finRange i)
      (hfirstAge 0 (Fin.pos_iff_ne_zero.mpr hi)) hmaxAge hfirstAge

/-! ### The consultation (R73 to R79) -/

section
variable {f : Filter} {r : Reading} {i : Fin 256} {e : FilterEntry}

/-- A reading whose entry is current is judged against it (R74). -/
theorem Filter.classify_current (hl : f.lookup r = some i) (he : f.at i = some e) (hcur : r.now - e.lastTime < f.h) :
    f.classify r = f.judge i e r := by simp [Filter.classify, hl, he, elapsed, hcur]

/-- A reading whose entry is retired is accepted in its place (R74). -/
theorem Filter.classify_retired (hl : f.lookup r = some i) (he : f.at i = some e) (hret : f.h ≤ r.now - e.lastTime) :
    f.classify r = (f.put i (acceptedEntry r), .accept false) := by
  simp [Filter.classify, hl, he, elapsed, BitVec.not_lt.mpr hret]

/-- A reading of a new tag is accepted in the lowest free position (R78). -/
theorem Filter.classify_free (hl : f.lookup r = none) (hi : f.at i = none) (hlow : ∀ j, j < i → f.at j ≠ none) :
    f.classify r = (f.put i (acceptedEntry r), .accept false) := by
  simp [Filter.classify, hl, Filter.newcomer, Filter.lowestFree_eq_some hi hlow]

/-- In a full filter it takes the victim's place, an eviction where the victim was current (R79). -/
theorem Filter.classify_full (hl : f.lookup r = none) (hfull : ∀ j, f.at j ≠ none) (ho : f.oldest r.now = i) :
    f.classify r = (f.put i (acceptedEntry r), .accept (decide (f.age r.now i < f.h))) := by
  simp [Filter.classify, hl, Filter.newcomer, Filter.lowestFree_eq_none hfull, ho]

/-- A time in the hold time lies within the effective interval where it lies within D (R70). -/
theorem lt_effectiveD_iff {x : Word} (h : x < f.h) : x < effectiveD f ↔ x < f.d := by
  rw [effectiveD]
  split
  · rfl
  next hd => exact iff_of_true h (BitVec.lt_trans h (BitVec.not_le.mp hd))

/-- The entry after one more DUPLICATE (R76). -/
def duplicatedEntry (e : FilterEntry) (now : Word) : FilterEntry :=
  { e with lastTime := now, duplicates := nextDuplicate e.duplicates }

/-- Counter distance 0 within the effective interval (R76). -/
theorem Filter.judge_duplicate (hc : r.counter = e.lastCounter) (hd : r.now - e.lastTime < effectiveD f) :
    f.judge i e r = (f.put i (duplicatedEntry e r.now),
      .duplicate { first := e.first, ordinal := nextDuplicate e.duplicates }) := by
  simp [Filter.judge, hc, elapsed, hd, duplicatedEntry]

/-- Counter distance 0 past the effective interval (R76). -/
theorem Filter.judge_late (hc : r.counter = e.lastCounter) (hd : effectiveD f ≤ r.now - e.lastTime) :
    f.judge i e r = (f, .replay) := by
  simp [Filter.judge, hc, elapsed, BitVec.not_lt.mpr hd]

/-- Counter distance 1 to 2^23 − 1 (R75, R77). -/
theorem Filter.judge_advanced (hc : r.counter ≠ e.lastCounter) (hd : r.counter - e.lastCounter ≤ 8388607#24) :
    f.judge i e r = (f.put i (acceptedEntry r), .accept false) := by
  have : r.counter - e.lastCounter ≠ 0#24 := sub_ne_zero.mpr hc
  simp [Filter.judge, this, hd]

/-- Counter distance 2^23 and above (R75). -/
theorem Filter.judge_behind (hd : 8388607#24 < r.counter - e.lastCounter) : f.judge i e r = (f, .replay) := by
  have : r.counter - e.lastCounter ≠ 0#24 := fun h => by simp [h] at hd
  simp [Filter.judge, this, BitVec.not_le.mpr hd]

/-- The four ways a reading is judged against a current entry (R75 to R77). -/
theorem Filter.judge_cases (f : Filter) (i : Fin 256) (e : FilterEntry) (r : Reading) :
    f.judge i e r = (f, .replay) ∨
    (f.judge i e r = (f.put i (duplicatedEntry e r.now),
      .duplicate { first := e.first, ordinal := nextDuplicate e.duplicates })) ∨
    (r.counter ≠ e.lastCounter ∧ f.judge i e r = (f.put i (acceptedEntry r), .accept false)) := by
  by_cases hc : r.counter = e.lastCounter
  · by_cases hd : r.now - e.lastTime < effectiveD f
    · exact .inr (.inl (Filter.judge_duplicate hc hd))
    · exact .inl (Filter.judge_late hc (BitVec.not_lt.mp hd))
  · by_cases hd : r.counter - e.lastCounter ≤ 8388607#24
    · exact .inr (.inr ⟨hc, Filter.judge_advanced hc hd⟩)
    · exact .inl (Filter.judge_behind (BitVec.not_le.mp hd))

/-- Judging a reading changes at most the entry that it is judged against. -/
theorem Filter.judge_frame (f : Filter) (i : Fin 256) (e : FilterEntry) (r : Reading) :
    (∀ j, j ≠ i → (f.judge i e r).1.at j = f.at j) ∧ (f.judge i e r).1.d = f.d ∧ (f.judge i e r).1.h = f.h := by
  rcases f.judge_cases i e r with h | h | ⟨-, h⟩ <;> rw [h]
  · exact ⟨fun _ _ => rfl, rfl, rfl⟩
  · exact ⟨fun _ hj => Filter.at_put_of_ne f _ hj, rfl, rfl⟩
  · exact ⟨fun _ hj => Filter.at_put_of_ne f _ hj, rfl, rfl⟩

end

/-- What a consultation can do: nothing, one more DUPLICATE of the entry that the lookup finds, or an accepted entry, in
the place of that entry or where no entry has the reading's key (R74 to R79). -/
theorem Filter.classify_cases (f : Filter) (r : Reading) :
    f.classify r = (f, .replay) ∨
    (∃ i e info, f.lookup r = some i ∧ f.at i = some e ∧
      f.classify r = (f.put i (duplicatedEntry e r.now), .duplicate info)) ∨
    (∃ i evicted, (f.lookup r = some i ∨ f.lookup r = none) ∧
      f.classify r = (f.put i (acceptedEntry r), .accept evicted)) := by
  cases hl : f.lookup r with
  | none =>
    refine .inr (.inr ?_)
    cases hfree : f.lowestFree with
    | some i => exact ⟨i, false, .inr rfl, by simp [Filter.classify, hl, Filter.newcomer, hfree]⟩
    | none => exact ⟨f.oldest r.now, decide (f.age r.now (f.oldest r.now) < f.h), .inr rfl,
        by simp [Filter.classify, hl, Filter.newcomer, hfree]⟩
  | some i =>
    obtain ⟨⟨e, he, -⟩, -⟩ := Filter.lookup_eq_some_iff.mp hl
    by_cases hcur : r.now - e.lastTime < f.h
    · rw [Filter.classify_current hl he hcur]
      rcases f.judge_cases i e r with h | h | ⟨-, h⟩
      · exact .inl h
      · exact .inr (.inl ⟨i, e, _, rfl, he, h⟩)
      · exact .inr (.inr ⟨i, false, .inl rfl, h⟩)
    · exact .inr (.inr ⟨i, false, .inl rfl, Filter.classify_retired hl he (BitVec.not_lt.mp hcur)⟩)

/-! ### One entry for each tag (R68) -/

/-- At most one entry for each pair of key set and tag ID (R68). -/
def Filter.KeysUnique (f : Filter) : Prop :=
  ∀ i j e e', f.at i = some e → f.at j = some e' → e.keySet = e'.keySet → e.tagId = e'.tagId → i = j

/-- The position that the lookup finds, or any position where it finds none, is the only one that may have the reading's
key. -/
theorem Filter.KeysUnique.eq_of_sameKey {f : Filter} (hu : f.KeysUnique) {r : Reading} {i j : Fin 256}
    {e : FilterEntry} (hl : f.lookup r = some i ∨ f.lookup r = none) (hj : f.at j = some e)
    (hset : e.keySet = r.keySet) (hid : e.tagId = r.tagId) : j = i := by
  rcases hl with hl | hl
  · obtain ⟨⟨e', hi, hset', hid'⟩, -⟩ := Filter.lookup_eq_some_iff.mp hl
    exact hu j i e e' hj hi (hset.trans hset'.symm) (hid.trans hid'.symm)
  · exact ((Filter.lookup_eq_none_iff.mp hl j e hj).elim (· hset) (· hid)).elim

/-- An entry written over the only one of its key leaves the keys unique. -/
theorem Filter.KeysUnique.put {f : Filter} (hu : f.KeysUnique) {i : Fin 256} {new : FilterEntry}
    (honly : ∀ j e, f.at j = some e → e.keySet = new.keySet → e.tagId = new.tagId → j = i) :
    (f.put i new).KeysUnique := by
  intro j k e e' hj hk hset hid
  rw [Filter.at_put] at hj hk
  split at hj <;> split at hk
  next hji hki => rw [hji, hki]
  next hji _ => cases hj; rw [hji]; exact (honly k e' hk hset.symm hid.symm).symm
  next _ hki => cases hk; rw [hki]; exact honly j e hj hset hid
  next => exact hu j k e e' hj hk hset hid

/-- A consultation leaves the keys unique (R74 to R79). -/
theorem Filter.KeysUnique.classify {f : Filter} (hu : f.KeysUnique) (r : Reading) : (f.classify r).1.KeysUnique := by
  rcases f.classify_cases r with h | ⟨i, e, info, -, he, h⟩ | ⟨i, evicted, hl, h⟩ <;> rw [h]
  · exact hu
  · exact hu.put fun j e' hj hset hid => hu j i e' e hj he hset hid
  · exact hu.put fun j e hj hset hid => hu.eq_of_sameKey hl hj hset hid

/-- Where the keys are unique, the lookup finds the entry of the reading's key (R74). -/
theorem Filter.KeysUnique.lookup_eq {f : Filter} (hu : f.KeysUnique) {r : Reading} {i : Fin 256} {e : FilterEntry}
    (he : f.at i = some e) (hset : e.keySet = r.keySet) (hid : e.tagId = r.tagId) : f.lookup r = some i := by
  cases hl : f.lookup r with
  | none => exact ((Filter.lookup_eq_none_iff.mp hl i e he).elim (· hset) (· hid)).elim
  | some j => rw [hu.eq_of_sameKey (.inl hl) he hset hid]

/-- Against a current entry of the same counter no reading is accepted (R75, R76). -/
theorem Filter.judge_not_accept {f : Filter} {i : Fin 256} {e : FilterEntry} {r : Reading}
    (hc : r.counter = e.lastCounter) (evicted : Bool) : (f.judge i e r).2 ≠ .accept evicted := by
  rcases f.judge_cases i e r with h | h | ⟨hne, -⟩
  · simp [h]
  · simp [h]
  · exact absurd hc hne

end Sys2Proof.Machine

namespace Sys2Proof.Proofs

open Sys2Proof.Machine Sys2Proof.Safety

/-- Settles O28: a reading with a current entry goes by the cases of `judge`, any other by where its entry is written,
and the lookup by its characterisation. -/
theorem filterJudgesReadings : Obligations.FilterJudgesReadings := by
  refine ⟨fun f r i e hl he hcur => ?_, fun f r => ⟨fun i e hl he hret => ?_, fun hl => ⟨fun i hi hlow => ?_,
    fun i e he hfull hmax hfirst => ?_⟩⟩, fun f r => ⟨fun i => Filter.lookup_eq_some_iff, Filter.lookup_eq_none_iff⟩⟩
  · rw [Filter.classify_current hl he hcur]
    refine ⟨fun hc hd => ?_, fun hc hd => ?_, fun hc hd => ?_, fun hd => Filter.judge_behind hd, f.judge_frame i e r⟩
    · rw [Filter.judge_duplicate hc ((lt_effectiveD_iff hcur).mpr hd)]
      exact ⟨rfl, f.at_put_self i _⟩
    · exact Filter.judge_late hc (BitVec.not_lt.mp fun h => BitVec.not_lt.mpr hd ((lt_effectiveD_iff hcur).mp h))
    · rw [Filter.judge_advanced hc hd]
      exact ⟨rfl, f.at_put_self i _⟩
  · rw [Filter.classify_retired hl he hret]
    exact ⟨rfl, f.at_put_self i _, fun j hj => f.at_put_of_ne _ hj⟩
  · rw [Filter.classify_free hl hi hlow]
    exact ⟨rfl, f.at_put_self i _, fun j hj => f.at_put_of_ne _ hj⟩
  · rw [Filter.classify_full hl hfull (Filter.oldest_eq_of_full he hfull hmax hfirst), f.age_of_at he]
    exact ⟨rfl, f.at_put_self i _, fun j hj => f.at_put_of_ne _ hj⟩

/-- Settles O29: the accepted entry is the one that the lookup finds for the next reading, it is current, and its
counter is the reading's. -/
theorem acceptedReadingNotAcceptedAgain : Obligations.AcceptedReadingNotAcceptedAgain := by
  intro f r r' f' evicted hu hclass hset hid hcounter hcur evicted'
  have hu' : f'.KeysUnique := by simpa [hclass] using Filter.KeysUnique.classify hu r
  rcases f.classify_cases r with h | ⟨i, e, info, -, -, h⟩ | ⟨i, evicted, -, h⟩ <;> rw [hclass] at h <;> cases h
  have hat := f.at_put_self i (acceptedEntry r)
  rw [Filter.classify_current (hu'.lookup_eq hat hset.symm hid.symm) hat hcur]
  exact Filter.judge_not_accept hcounter evicted'

end Sys2Proof.Proofs
end

