-- ==== Sys2Proof/Proofs/OwnedSettings.lean ====
section
/-! SUPPORT. The settings that reach one owner and the setting beats that are ignored: O6 (R70, R116, R147, R153, R181,
R190, R193). -/

namespace Sys2Proof.Machine

open Sys2Proof.Safety

/-- The stored H is the written one, at most 2^40 (R70). -/
theorem State.toNat_writeH (w : Word) (s : State) : (s.writeH w).filter.h.toNat = min w.toNat (2 ^ 40) := by
  have hmax : Config.hMax.toNat = 2 ^ 40 := rfl
  simp only [State.writeH]
  split
  next h => rw [BitVec.lt_def] at h; omega
  next h => rw [BitVec.lt_def] at h; omega

/-- The counter-clear word clears the counters whose bits it has (R190, R202). -/
theorem State.counter_clearCounters (w : Word) (s : State) (c : Counter) :
    (s.clearCounters w).counter c = if w.getLsbD (counterIndex c).val then 0#32 else s.counter c := by
  simp [State.clearCounters, State.counter]

/-- A setting that is taken acts and goes to memory (R181). -/
theorem exec_settingRow_applied {row : Instr} {word : StatusWord} {offset : Nat} {w : Word}
    (h : settingRow row = some (word, offset, w)) {s : State} (hp : s.life.phase = .running)
    (hh : s.status.hold = false) (hr : s.reloading = false) :
    exec row s = .next ((s.applySetting word w).forwardBeat (s.base + offset) (fullBeat w)) := by
  rw [exec_settingRow_taken h hr, State.writeStatus_taken word w s hr hp hh]

/-- A setting before RUNNING, or shut out by the hold, is ignored (R147, R181, R193). -/
theorem State.writeStatus_ignored {s : State} {word : StatusWord} (w : Word)
    (h : s.life.phase ≠ .running ∨ (s.status.hold = true ∧ word ≠ .hold ∧ word ≠ .causes ∧ word ≠ .enables)) :
    s.writeStatus word w = s := by
  have hnot : s.settingTaken word = false := by
    rcases h with hp | ⟨hh, h1, h2, h3⟩
    · simp [State.settingTaken, hp]
    · simp [State.settingTaken, takenUnderHold, hh, h1, h2, h3]
  simp [State.writeStatus, hnot]

end Sys2Proof.Machine

namespace Sys2Proof.Proofs

open Sys2Proof.Machine Sys2Proof.Safety

/-- Settles O6: a taken setting is `applySetting` with the beat passed to memory, an ignored one the passed beat
alone. -/
theorem settingsReachOwnersOrOnlyMemory : Obligations.SettingsReachOwnersOrOnlyMemory := by
  refine ⟨fun s w hp hh hr => ⟨?_, ?_, ?_, ?_, ?_⟩, fun c word offset w s hrow hr hout => ?_⟩
  · exact exec_settingRow_applied (row := .preWrite w) rfl hp hh hr
  · exact exec_settingRow_applied (row := .unmappedRightsWrite w) rfl hp hh hr
  · exact exec_settingRow_applied (row := .duplicateIntervalWrite w) rfl hp hh hr
  · exact ⟨_, exec_settingRow_applied (row := .holdTimeWrite w) rfl hp hh hr, s.toNat_writeH w, rfl⟩
  · exact ⟨_, exec_settingRow_applied (row := .counterClear w) rfl hp hh hr, s.counter_clearCounters w,
      onlyRaised_of_same _ _ _ rfl rfl rfl, rfl⟩
  · rw [exec_settingRow_taken hrow hr, State.writeStatus_ignored w hout]
    rfl

end Sys2Proof.Proofs
end

