-- ==== Sys2Proof/Proofs/FilterEvents.lean ====
section
/-! SUPPORT. What every row does to the filter, operation by operation, and O57 (R46, R68, R70, R73, R166, R175, R192).
-/

namespace Sys2Proof.Machine

open Sys2Proof.Safety

/-- What one event of the part does to the filter. -/
inductive FilterEvent (f : Filter) : Filter → Prop
  /-- Nothing. -/
  | same : FilterEvent f f
  /-- Every position is cleared (R175, R192). -/
  | cleared : FilterEvent f f.cleared
  /-- D is written (R70). -/
  | dWritten (d) : FilterEvent f { f with d := d }
  /-- H is written, clamped (R70). -/
  | hWritten (h) : h ≤ Config.hMax → FilterEvent f { f with h := h }
  /-- A reading is classified (R73). -/
  | consulted (r) : FilterEvent f (f.classify r).1
  /-- The filter takes its power-on value (R166). -/
  | powerOn : FilterEvent f State.reset.filter

theorem FilterEvent.of_eq {f g : Filter} (h : g = f) : FilterEvent f g := h ▸ .same

/-! ### Slot commands and shadows -/

theorem State.carryArm_filter (r : SlotRef) (c : SlotCtx) (s : State) : (s.carryArm r c).filter = s.filter := by
  simp only [State.carryArm]; split <;> simp

theorem State.carryAbort_filter (r : SlotRef) (c : SlotCtx) (s : State) : (s.carryAbort r c).filter = s.filter := by
  simp only [State.carryAbort, State.carryRelease]; (repeat' split) <;> simp

theorem State.carrySlot_filter (cmd : SlotCmd) (r : SlotRef) (c : SlotCtx) (s : State) :
    (s.carrySlot cmd r c).filter = s.filter := by
  cases cmd with
  | arm => exact s.carryArm_filter r c
  | abort => exact s.carryAbort_filter r c
  | _ => rfl

theorem State.refuseSlot_filter (res : SlotResult) (r : SlotRef) (c : SlotCtx) (s : State) :
    (s.refuseSlot res r c).filter = s.filter := by
  simp only [State.refuseSlot]; split <;> simp

theorem State.takeSlotCommand_filter (i : Initiator) (r : SlotRef) (cmd : Option SlotCmd) (upper : BitVec 56)
    (s : State) : (s.takeSlotCommand i r cmd upper).filter = s.filter := by
  simp only [State.takeSlotCommand]
  split
  · rfl
  · split
    · exact s.refuseSlot_filter _ _ _
    · exact s.carrySlot_filter _ _ _
    · rfl

theorem State.shadowInbound_filter (r : SlotRef) (w : Fin 4) (b : WriteBeat) (s : State) :
    (s.shadowInbound r w b).filter = s.filter := by
  simp only [State.shadowInbound]; (repeat' split) <;> rfl

theorem State.shadowPayload_filter (r : SlotRef) (w : Fin 4) (b : WriteBeat) (s : State) :
    (s.shadowPayload r w b).filter = s.filter := by
  simp only [State.shadowPayload]; (repeat' split) <;> rfl

theorem State.deadline_filter (r : SlotRef) (c : SlotCtx) (s : State) : (s.deadline r c).filter = s.filter := by
  simp only [State.deadline]; (repeat' split) <;> simp

/-! ### The import area -/

theorem State.captureBlob_filter (w : Nat) (b : WriteBeat) (s : State) : (s.captureBlob w b).filter = s.filter := by
  simp only [State.captureBlob]; (repeat' split) <;> rfl

theorem State.placeUnlessTaken_filter (cmd : ImportCmd) (kind : ImportKind) (h : Block) (s : State) :
    (s.placeUnlessTaken cmd kind h).filter = s.filter := by
  simp only [State.placeUnlessTaken]; (repeat' split) <;> rfl

theorem State.carryLoadPlain_filter (s : State) : s.carryLoadPlain.filter = s.filter := by
  simp only [State.carryLoadPlain]
  split
  · rfl
  · exact s.placeUnlessTaken_filter _ _ _

theorem State.carryLoad_filter (s : State) : s.carryLoad.filter = s.filter := by
  simp only [State.carryLoad]
  repeat' split
  · rfl
  · rfl
  · exact s.placeUnlessTaken_filter _ _ _

theorem State.carryRevoke_filter (s : State) : s.carryRevoke.filter = s.filter := by
  simp only [State.carryRevoke]; (repeat' split) <;> rfl

theorem State.carryErase_filter (s : State) : s.carryErase.filter = s.filter := by
  simp only [State.carryErase]; (repeat' split) <;> rfl

theorem State.carrySetReader_filter (upper : BitVec 56) (s : State) : (s.carrySetReader upper).filter = s.filter := by
  simp only [State.carrySetReader]; split <;> rfl

theorem State.carryFieldLock_filter (s : State) : s.carryFieldLock.filter = s.filter := by
  simp only [State.carryFieldLock]; (repeat' split) <;> rfl

/-- The start of a zeroization clears the filter (R175). -/
theorem FilterEvent.startZeroization {f : Filter} {s : State} (h : s.filter = f) :
    FilterEvent f s.startZeroization.filter := by
  rw [s.startZeroization_fields.filter, h]; exact .cleared

theorem FilterEvent.carryImport (cmd : ImportCmd) (upper : BitVec 56) (s : State) :
    FilterEvent s.filter (s.carryImport cmd upper).filter := by
  cases cmd with
  | loadPlain => exact .of_eq s.carryLoadPlain_filter
  | load => exact .of_eq s.carryLoad_filter
  | revoke => exact .of_eq s.carryRevoke_filter
  | erase => exact .of_eq s.carryErase_filter
  | inquire => exact .same
  | setReader => exact .of_eq (s.carrySetReader_filter upper)
  | fieldLock => exact .of_eq s.carryFieldLock_filter
  | zeroize => exact .startZeroization rfl

theorem FilterEvent.takeImportCommand (code : Byte) (upper : BitVec 56) (s : State) :
    FilterEvent s.filter (s.takeImportCommand code upper).filter := by
  simp only [State.takeImportCommand]
  split
  · exact .same
  · split
    · exact .same
    · exact .carryImport _ upper s
    · exact .same

/-! ### The settings -/

theorem FilterEvent.writeHold (w : Word) (s : State) : FilterEvent s.filter (s.writeHold w).filter := by
  simp only [State.writeHold]
  repeat' split
  · exact .same
  · rw [State.setHold_eq]; exact .cleared
  · exact .same

theorem State.writeEpochControl_filter (w : Word) (s : State) : (s.writeEpochControl w).filter = s.filter := by
  simp only [State.writeEpochControl, State.switchNow]; (repeat' split) <;> rfl

/-- The clamped H is at most 2^40 (R70). -/
theorem FilterEvent.writeH (w : Word) (s : State) : FilterEvent s.filter (s.writeH w).filter := by
  refine .hWritten _ ?_
  split
  · exact BitVec.le_refl _
  next h => exact BitVec.not_lt.mp h

theorem FilterEvent.applySetting (word : StatusWord) (w : Word) (s : State) :
    FilterEvent s.filter (s.applySetting word w).filter := by
  cases word with
  | dInterval => exact .dWritten w
  | holdTime => exact .writeH w s
  | hold => exact .writeHold w s
  | epoch => refine .of_eq ?_; simp only [State.applySetting, State.writeSchedule]; split <;> rfl
  | epochControl => exact .of_eq (s.writeEpochControl_filter w)
  | causes => refine .of_eq ?_; simp only [State.applySetting, State.clearCauses]; split <;> rfl
  | _ => exact .same

theorem FilterEvent.writeStatus (word : StatusWord) (w : Word) (s : State) :
    FilterEvent s.filter (s.writeStatus word w).filter := by
  simp only [State.writeStatus]
  split
  · exact .applySetting word w s
  · exact .same

/-! ### Beats, and the rows that are one beat -/

theorem FilterEvent.applyBeat (i : Initiator) (p : Place) (b : WriteBeat) (s : State) :
    FilterEvent s.filter (s.applyBeat i p b).filter := by
  cases p with
  | memory => exact .same
  | slot r word =>
    simp only [State.applyBeat]
    repeat' split
    · exact .of_eq (s.shadowInbound_filter r _ b)
    · exact .of_eq (s.shadowPayload_filter r _ b)
    · exact .of_eq (s.takeSlotCommand_filter i r _ _)
    · exact .same
  | status word => exact .writeStatus word b.data s
  | importArea word =>
    simp only [State.applyBeat]
    split
    · exact .takeImportCommand _ _ s
    · exact .of_eq (s.captureBlob_filter _ b)

/-- Events of the filter one after another, as the beats of one write cause them (R142). -/
abbrev FilterRun : Filter → Filter → Prop := Relation.ReflTransGen FilterEvent

theorem FilterRun.applyBeats (i : Initiator) (l : List (Place × WriteBeat)) (s : State) :
    FilterRun s.filter (State.applyBeats i l s).filter := by
  induction l generalizing s with
  | nil => exact .refl
  | cons pb l ih => exact .head (.applyBeat i pb.1 pb.2 s) (ih _)

theorem FilterEvent.slotBeat {r : SlotRef} {offset : Nat} {b : WriteBeat} {act : State → State} {s : State}
    (h : (act s).filter = s.filter) : FilterEvent s.filter (s.slotBeat r offset b act).filter := by
  simp only [State.slotBeat]
  split
  · exact .same
  · exact .of_eq h

theorem FilterEvent.controlBeat {offset : Nat} {b : WriteBeat} {act : State → State} {s : State}
    (h : FilterEvent s.filter (act s).filter) : FilterEvent s.filter (s.controlBeat offset b act).filter := by
  simp only [State.controlBeat]
  split
  · exact .same
  · exact h

/-! ### The engine -/

theorem State.deliverClass_filter (r : SlotRef) (cls : PassageClass) (c : SlotCtx) (s : State) :
    (s.deliverClass r cls c).filter = s.filter := by
  cases cls with
  | accept evicted => cases evicted <;> rfl
  | duplicate info => rfl
  | replay => rfl

/-- An authenticated reading consults the filter; no other VERIFY result does (R46, R73). -/
theorem FilterEvent.deliverVerify (r : SlotRef) (g : BitVec 8) (res : VerifyResult) (c : SlotCtx) (s : State) :
    FilterEvent s.filter (s.deliverVerify r g res c).filter := by
  cases res with
  | authenticated => simp only [State.deliverVerify, State.deliverClass_filter]; exact .consulted _
  | badMac => exact .same
  | keyReason reason => exact .same

theorem State.deliverSeal_filter (r : SlotRef) (key : Option Block) (c : SlotCtx) (s : State) :
    (s.deliverSeal r key c).filter = s.filter := by cases key <;> rfl

/-- A slot job that completes does to the filter at most what its delivery does (R45). -/
theorem FilterEvent.completeSlotJob {r : SlotRef} {discard : Bool} {deliver : SlotCtx → State → State} {s : State}
    (hd : ∀ c t, FilterEvent t.filter (deliver c t).filter) :
    FilterEvent s.filter (s.completeSlotJob r discard deliver).filter := by
  simp only [State.completeSlotJob]
  repeat' split
  · exact .same
  · exact .same
  · exact .same
  · exact .same
  · exact hd _ s.idleEngine
  · exact .same

theorem FilterEvent.takeSlotJob (r : SlotRef) (rest : List SlotRef) (s : State) :
    FilterEvent s.filter (s.takeSlotJob r rest).filter := by
  simp only [State.takeSlotJob]
  split
  · exact .same
  · split
    · exact .same
    · split
      · exact .completeSlotJob (s := (s.popFifo rest).setCtx r _) fun c t => .deliverVerify r _ _ c t
      · exact .same
    · split
      · exact .completeSlotJob (s := (s.popFifo rest).setCtx r _) fun c t => .of_eq (t.deliverSeal_filter r none c)
      · exact .same

theorem FilterEvent.arbitrate (s : State) : FilterEvent s.filter s.arbitrate.filter := by
  simp only [State.arbitrate]
  repeat' split
  · exact .same
  · exact .same
  · exact .takeSlotJob _ _ s
  · exact .takeSlotJob _ _ s
  · exact .same

theorem FilterEvent.engineTakeJob {s t : State} (h : execEngineTakeJob s = .next t) :
    FilterEvent s.filter t.filter := by
  simp only [execEngineTakeJob] at h
  split at h <;> cases h
  · exact .arbitrate s
  · exact .same

theorem FilterEvent.verifyComplete {s t : State} (h : execVerifyComplete s = .next t) :
    FilterEvent s.filter t.filter := by
  simp only [execVerifyComplete] at h
  split at h <;> cases h
  · exact .completeSlotJob fun c t => .deliverVerify _ _ _ c t
  · exact .same

theorem FilterEvent.sealComplete {s t : State} (h : execSealComplete s = .next t) : FilterEvent s.filter t.filter := by
  simp only [execSealComplete] at h
  split at h <;> cases h
  · exact .completeSlotJob fun c t => .of_eq (t.deliverSeal_filter _ _ c)
  · exact .same

theorem State.handOver_filter (kind : ImportKind) (h : Block) (res : Sum ImportCode (Block × BitVec 24)) (s : State) :
    (s.handOver kind h res).filter = s.filter := by
  simp only [State.handOver]; (repeat' split) <;> rfl

theorem FilterEvent.importComplete {s t : State} (h : execImportComplete s = .next t) :
    FilterEvent s.filter t.filter := by
  simp only [execImportComplete] at h
  repeat' split at h
  all_goals cases h
  · exact .same
  · exact .of_eq (State.handOver_filter _ _ _ s.idleEngine)
  · exact .same

theorem FilterEvent.checkComplete {s t : State} (h : execCheckComplete s = .next t) :
    FilterEvent s.filter t.filter := by
  simp only [execCheckComplete] at h
  split at h <;> cases h
  · exact .of_eq (by simp)
  · exact .same

/-! ### Clocks, pins, start-up and the NV writer -/

theorem FilterEvent.syncEdge {s t : State} (h : execSyncEdge s = .next t) : FilterEvent s.filter t.filter := by
  simp only [execSyncEdge] at h
  split at h <;> cases h
  · exact .of_eq (by simp)
  · exact .same

theorem FilterEvent.deadlineReached {r : SlotRef} {s t : State} (h : execDeadlineReached r s = .next t) :
    FilterEvent s.filter t.filter := by
  simp only [execDeadlineReached] at h
  repeat' split at h
  all_goals cases h
  · exact .of_eq (s.deadline_filter r _)
  · exact .same
  · exact .same

/-- NV_READ is left into a zeroization or into KEY_CHECK (R167, R174). -/
theorem FilterEvent.leaveNvRead {f : Filter} {s : State} (h : s.filter = f) : FilterEvent f s.leaveNvRead.filter := by
  rcases s.leaveNvRead_cases with ⟨e, -⟩ | e <;> rw [e]
  · exact .startZeroization h
  · exact .of_eq (by simpa using h)

theorem FilterEvent.tamperEvent (s : State) : FilterEvent s.filter s.tamperEvent.filter := by
  simp only [State.tamperEvent]
  repeat' split
  · exact .same
  · exact .startZeroization rfl
  · exact .same

theorem FilterEvent.tamperSample {asserted : Bool} {s t : State} (h : execTamperSample asserted s = .next t) :
    FilterEvent s.filter t.filter := by
  simp only [execTamperSample] at h
  repeat' split at h
  all_goals cases h
  · exact .same
  · exact .tamperEvent (s.setSampler 0#4 false)
  all_goals exact .same

theorem FilterEvent.endBlankWord (passed : Bool) (s : State) : FilterEvent s.filter (s.endBlankWord passed).filter := by
  cases passed with
  | true => exact .leaveNvRead rfl
  | false => exact .same

theorem FilterEvent.nvOperationEnd {passed : Bool} {s t : State} (h : execNvOperationEnd passed s = .next t) :
    FilterEvent s.filter t.filter := by
  simp only [execNvOperationEnd] at h
  split at h <;> cases h
  · exact .of_eq (by simp)
  · cases passed <;> exact .same
  · cases passed <;> exact .same
  · cases passed <;> exact .same
  · exact .endBlankWord passed (s.noteVerify passed)
  · exact .same
  · exact .same

theorem FilterEvent.nvZeroizeAttemptEnd {passed : Bool} {s t : State} (h : execNvZeroizeAttemptEnd passed s = .next t) :
    FilterEvent s.filter t.filter := by
  simp only [execNvZeroizeAttemptEnd] at h
  repeat' split at h
  all_goals cases h; exact .same

theorem FilterEvent.nvReadEnd {s t : State} (h : execNvReadEnd s = .next t) : FilterEvent s.filter t.filter := by
  simp only [execNvReadEnd] at h
  repeat' split at h
  all_goals cases h
  · exact .same
  · exact .same
  · exact .leaveNvRead rfl

/-! ### The ports and the map -/

theorem State.admitRead_filter (i : Initiator) (r : Request) (s : State) : (s.admitRead i r).filter = s.filter := by
  simp only [State.admitRead]; split <;> rfl

theorem FilterEvent.readTaken {i : Initiator} {s t : State} (h : execReadTaken i s = .next t) :
    FilterEvent s.filter t.filter := by
  simp only [execReadTaken] at h
  repeat' split at h
  all_goals cases h
  · exact .same
  · exact .same
  · exact .of_eq (by simp)
  · exact .of_eq (s.admitRead_filter i _)

theorem FilterRun.writeTaken {i : Initiator} {beats : List WriteBeat} {s t : State}
    (h : execWriteTaken i beats s = .next t) : FilterRun s.filter t.filter := by
  simp only [execWriteTaken] at h
  repeat' split at h
  all_goals cases h
  · exact .refl
  · exact .refl
  · exact .single (.of_eq (by simp))
  · exact .applyBeats i _ s

theorem State.judgeTable_filter (beats : List ReadBeat) (s : State) : (s.judgeTable beats).filter = s.filter := by
  simp only [State.judgeTable]; split <;> rfl

theorem FilterEvent.mapTableReadEnd {first second : List ReadBeat} {s t : State}
    (h : execMapTableReadEnd first second s = .next t) : FilterEvent s.filter t.filter := by
  simp only [execMapTableReadEnd] at h
  repeat' split at h
  all_goals cases h
  · exact .same
  · exact .same
  · exact .same
  · exact .same
  · exact .of_eq (State.judgeTable_filter _ _)

/-! ### Every row -/

/-- WRITE_TAKEN does an event of the filter for each of its beats, any other row at most one. -/
theorem exec_filter {row : Instr} {s t : State} (h : exec row s = .next t) : FilterRun s.filter t.filter := by
  cases row with
  | writeTaken i beats => exact .writeTaken h
  | powerOnReset straps => cases h; exact .single .powerOn
  | tick => simp only [exec, execTick] at h; split at h <;> cases h <;> exact .refl
  | syncEdge => exact .single (.syncEdge h)
  | tamperSample asserted => exact .single (.tamperSample h)
  | deadlineReached r => exact .single (.deadlineReached h)
  | readHoldLimit i => cases h; exact .refl
  | requestAccept r => simp only [exec, execRequestAccept] at h; split at h <;> cases h <;> exact .refl
  | readTaken i => exact .single (.readTaken h)
  | memoryReadResponse i place beats =>
    simp only [exec, execMemoryReadResponse] at h
    repeat' split at h
    all_goals cases h; exact .refl
  | memoryWriteResponse i place resp =>
    simp only [exec, execMemoryWriteResponse] at h
    repeat' split at h
    all_goals cases h; exact .refl
  | inboundShadowWrite r w b => cases h; exact .single (.slotBeat (s.shadowInbound_filter r w b))
  | payloadShadowWrite r w b => cases h; exact .single (.slotBeat (s.shadowPayload_filter r w b))
  | openSlot i r cw upper | arm i r cw upper | sealSlot i r cw upper | release i r cw upper | abort i r cw upper =>
    cases h; exact .single (.slotBeat (s.takeSlotCommand_filter i r _ upper))
  | engineTakeJob => exact .single (.engineTakeJob h)
  | verifyComplete => exact .single (.verifyComplete h)
  | sealComplete => exact .single (.sealComplete h)
  | importComplete => exact .single (.importComplete h)
  | checkComplete => exact .single (.checkComplete h)
  | blobWrite w b => cases h; exact .single (.controlBeat (.of_eq (s.captureBlob_filter w.val b)))
  | loadPlain upper | load upper | revoke upper | erase upper | inquire upper | setReader upper | fieldLock upper
  | zeroize upper => cases h; exact .single (.controlBeat (.takeImportCommand _ upper s))
  | nvOperationEnd passed => exact .single (.nvOperationEnd h)
  | nvZeroizeAttemptEnd passed => exact .single (.nvZeroizeAttemptEnd h)
  | nvReadEnd => exact .single (.nvReadEnd h)
  | mapTableReadStart => simp only [exec, execMapTableReadStart] at h; split at h <;> cases h <;> exact .refl
  | mapTableReadEnd first second => exact .single (.mapTableReadEnd h)
  | mapWordWrite w | preWrite w | epochScheduleWrite w | attentionCausesWrite w | attentionEnablesWrite w
  | unmappedRightsWrite w | duplicateIntervalWrite w | holdTimeWrite w | counterClear w =>
    cases h; exact .single (.controlBeat (.writeStatus _ w s))
  | switchNow | cancel => cases h; exact .single (.controlBeat (.writeStatus _ _ s))
  | holdSet upper | holdClear upper => cases h; exact .single (.controlBeat (.writeStatus _ _ s))
  | resetNRelease => simp only [exec, execResetNRelease] at h; split at h <;> cases h <;> exact .refl
  | nvZeroizeStageEnd =>
    simp only [exec, execNvZeroizeStageEnd] at h
    repeat' split at h
    all_goals cases h; exact .refl

theorem step_filter {s t : State} (h : step s = .next t) : FilterRun s.filter t.filter := by
  simp only [step] at h
  split at h
  next => cases h; exact .refl
  next rest _ => exact exec_filter (s := { s with pending := rest }) h

/-! ### The form of the filter (R68, R70) -/

/-- One entry for each tag of a key set, and H at most 2^40 (R68, R70). -/
def Filter.InForm (f : Filter) : Prop := f.h ≤ Config.hMax ∧ f.KeysUnique

theorem filterKeysUnique_iff (s : State) : FilterKeysUnique s ↔ s.filter.InForm := .rfl

theorem Filter.keysUnique_of_clear {f : Filter} (h : ∀ i, f.at i = none) : f.KeysUnique := fun i _ _ _ hi => by
  simp [h i] at hi

/-- A consultation leaves H (R70). -/
theorem Filter.classify_h (f : Filter) (r : Reading) : (f.classify r).1.h = f.h := by
  rcases f.classify_cases r with h | ⟨i, e, info, -, -, h⟩ | ⟨i, evicted, -, h⟩ <;> rw [h] <;> rfl

theorem Filter.InForm.event {f g : Filter} (h : FilterEvent f g) (hf : f.InForm) : g.InForm := by
  obtain ⟨hh, hu⟩ := hf
  cases h with
  | same => exact ⟨hh, hu⟩
  | cleared => exact ⟨hh, Filter.keysUnique_of_clear f.at_cleared⟩
  | dWritten d => exact ⟨hh, hu⟩
  | hWritten h hle => exact ⟨hle, hu⟩
  | consulted r => exact ⟨(f.classify_h r).symm ▸ hh, hu.classify r⟩
  | powerOn => exact ⟨by decide, Filter.keysUnique_of_clear fun i => by simp [State.reset, State.powerOn, Filter.at]⟩

theorem Filter.InForm.run {f g : Filter} (h : FilterRun f g) (hf : f.InForm) : g.InForm := by
  induction h with
  | refl => exact hf
  | tail _ he ih => exact ih.event he

end Sys2Proof.Machine

namespace Sys2Proof.Proofs

open Sys2Proof.Machine Sys2Proof.Safety

/-- Settles O57: each event of the filter keeps its form, and a step does such events alone. -/
theorem stepKeepsFilterKeysUnique : Obligations.StepKeepsFilterKeysUnique := fun s t hs h =>
  (filterKeysUnique_iff t).mpr (((filterKeysUnique_iff s).mp hs).run (step_filter h))

end Sys2Proof.Proofs
end

