-- ==== Sys2Proof/Proofs/EpochSchedules.lean ====
section
/-! SUPPORT. The power-on values, lane time, SYNC edges and epoch schedules: O2, O4 and O5 (R115, R116, R120, R121, R125
to R128, R166). -/

namespace Sys2Proof.Machine

open Sys2Proof.Safety

/-- A switch of the active epoch, in the words of the statements; `s` and `u` are the part before the event and at the
switch (R127). -/
theorem State.switchEpoch_switched {s u : State} (e : BitVec 16) (hstatus : u.status = s.status)
    (hwriter : u.writer = s.writer) (hlife : u.life = s.life) :
    (u.switchEpoch e).time = { u.time with epoch := e, schedule := none } ∧
      (u.switchEpoch e).causeSet .epochSwitched = true ∧ OnlyRaised [.epochSwitched] s (u.switchEpoch e) ∧
      CountersKept [] s (u.switchEpoch e) ∧ RequestReached (.epochRecord e) s (u.switchEpoch e) := by
  have hs : (u.switchEpoch e).status = (s.raise .epochSwitched).status := by
    show (u.raise .epochSwitched).status = _
    simp only [State.raise, hstatus]
  refine ⟨rfl, ?_, onlyRaised_of_raise s _ .epochSwitched _ (by simp) hs, countersKept_of_same _ _ _ (by rw [hs]; rfl),
    requestReached_of_nvRequest (u := { u with time := { u.time with epoch := e, schedule := none } }) rfl hwriter
      (by simp only [State.zeroing, hlife])⟩
  have : (u.switchEpoch e).causeSet .epochSwitched = (s.raise .epochSwitched).causeSet .epochSwitched := by
    simp only [State.causeSet, hs]
  rw [this, State.causeSet_raise]
  simp

/-- An edge of SYNC is accepted without a capture, or 500,000 ticks or more after it (R120). -/
theorem edgeAccepted_iff (t : TimeUnit) :
    edgeAccepted t = true ↔ ∀ c, t.capture = some c → 500000#64 ≤ t.lt - c := by
  unfold edgeAccepted
  split
  next h => simp [h]
  next c h => simp only [h, Option.some.injEq, forall_eq', decide_eq_true_iff]; rfl

/-- The part after an accepted edge has captured and counted, before the countdown (R121). -/
def State.captured (s : State) : State :=
  { s with time := { s.time with capture := some s.time.lt, pulses := s.time.pulses + 1#16 } }

theorem exec_syncEdge_accepted {s : State} (h : ∀ c, s.time.capture = some c → 500000#64 ≤ s.time.lt - c) :
    exec .syncEdge s = .next s.captured.countDown := by
  show execSyncEdge s = _
  rw [execSyncEdge, if_pos ((edgeAccepted_iff _).mpr h)]
  rfl

theorem exec_syncEdge_glitch {s : State} {c : Word} (hc : s.time.capture = some c)
    (h : s.time.lt - c < 500000#64) : exec .syncEdge s = .next (s.bump .pulseGlitches 1) := by
  have hno : ¬edgeAccepted s.time = true := fun ha => BitVec.not_le.mpr h ((edgeAccepted_iff _).mp ha c hc)
  show execSyncEdge s = _
  rw [execSyncEdge, if_neg hno]

/-- The countdown of a schedule at an accepted edge, by its cases (R121, R126). -/
theorem State.countDown_none {s : State} (h : s.time.schedule = none) : s.countDown = s := by
  simp only [State.countDown, h]

theorem State.countDown_goesOn {s : State} {p : Schedule} (h : s.time.schedule = some p) (hp : 1#16 < p.countdown) :
    s.countDown =
      { s with time := { s.time with schedule := some { p with countdown := p.countdown - 1#16 } } } := by
  simp only [State.countDown, h, if_neg (BitVec.not_le.mpr hp)]

theorem State.countDown_switches {s : State} {p : Schedule} (h : s.time.schedule = some p) (hp : p.countdown ≤ 1#16) :
    s.countDown = s.switchEpoch p.epoch := by
  simp only [State.countDown, h, if_pos hp]

end Sys2Proof.Machine

namespace Sys2Proof.Proofs

open Sys2Proof.Machine Sys2Proof.Safety

/-- The words that a part answers of what has not happened yet are zero (R98, R99, R145). -/
theorem reset_words_zero :
    refusalDetail State.reset.path.refusal = 0#64 ∧ resultWord State.reset.keys = 0#64 ∧
      inquiryWord1 State.reset.keys.inquiry = 0#64 ∧ inquiryWord2 State.reset.keys.inquiry = 0#64 := by
  decide

/-- Settles O2: the fields of `State.powerOn`. -/
theorem powerOnGivesResetValues : Obligations.PowerOnGivesResetValues := by
  intro straps s
  obtain ⟨hdetail, hresult, hinquiry1, hinquiry2⟩ := reset_words_zero
  refine ⟨_, rfl, rfl, rfl, rfl, rfl, rfl, fun c => ?_, fun c => BitVec.getLsbD_zero, rfl, rfl, rfl, fun i => ?_, rfl,
    hdetail, rfl, fun i => ?_, rfl, rfl, rfl, rfl, rfl, rfl, rfl, rfl, rfl, rfl, rfl, fun i => ?_, rfl, rfl,
    fun i => ?_, rfl, rfl, hresult, hinquiry1, hinquiry2, rfl, rfl, rfl⟩
  · simp [State.counter, State.powerOn]
  · simp [State.queue, State.powerOn]
  · simp [State.descriptor, State.powerOn, Descriptor.present]
  · simp [Filter.at, State.powerOn]
  · simp [State.entry, State.powerOn]

/-- Settles O4: an accepted edge by what the countdown of the schedule does. -/
theorem ticksAndSyncEdgesCount : Obligations.TicksAndSyncEdgesCount := by
  refine ⟨fun s h => ?_, fun s h => ?_, fun s h => ?_, fun s h => ⟨_, exec_syncEdge_accepted h, ?_⟩,
    fun s c hc h => ⟨_, exec_syncEdge_glitch hc h, rfl, onlyRaised_of_same _ _ _ rfl rfl rfl, ?_, fun d hd => ?_⟩⟩
  · show execResetNRelease s = _
    rw [execResetNRelease, if_pos h]
  · show execTick s = _
    rw [execTick, if_neg (by simp [h])]
    cases hp : s.time.pendingPre <;> simp [hp]
  · show execTick s = _
    rw [execTick, if_pos h]
  · cases hsch : s.time.schedule with
    | none =>
      have hsch' : s.captured.time.schedule = none := hsch
      rw [State.countDown_none hsch']
      exact ⟨rfl, rfl, countersKept_of_same _ _ _ rfl, fun _ => ⟨hsch, rfl, rfl, rfl⟩, nofun, nofun⟩
    | some p =>
      have hsch' : s.captured.time.schedule = some p := hsch
      by_cases hp : p.countdown ≤ 1#16
      · obtain ⟨htime, hset, hraised, hkept, hreached⟩ :=
          State.switchEpoch_switched (s := s) (u := s.captured) p.epoch rfl rfl rfl
        rw [State.countDown_switches hsch' hp]
        refine ⟨rfl, rfl, hkept, nofun, fun q hq hlt => ?_, fun q hq _ => ?_⟩
        · cases hq; exact absurd hp (BitVec.not_le.mpr hlt)
        · cases hq; exact ⟨rfl, rfl, hset, hraised, hreached⟩
      · rw [State.countDown_goesOn hsch' (BitVec.not_le.mp hp)]
        refine ⟨rfl, rfl, countersKept_of_same _ _ _ rfl, nofun, fun q hq _ => ?_, fun q hq hle => ?_⟩
        · cases hq; exact ⟨rfl, rfl, rfl, rfl⟩
        · cases hq; exact absurd hle hp
  · rw [State.counter_bump_self, saturate_one]
  · exact State.counter_bump_of_ne _ _ _ _ (by simpa using hd)

/-- Settles O5: a taken setting is `applySetting`, and a switch is `State.switchEpoch_switched`. -/
theorem schedulesAreTakenSwitchedAndCancelled : Obligations.SchedulesAreTakenSwitchedAndCancelled := by
  refine ⟨fun s w hp hh hr => ?_, fun s hp hh hr => ?_⟩
  · have hexec := exec_settingRow_applied (row := .epochScheduleWrite w) rfl hp hh hr
    refine ⟨fun hlt => ?_, fun hle => ⟨_, hexec, ?_⟩⟩
    · have hepoch : s.time.epoch < (scheduleOf w).epoch := hlt
      rw [hexec]
      simp only [State.applySetting, State.writeSchedule, if_pos hepoch]
      rfl
    · have hepoch : ¬s.time.epoch < (scheduleOf w).epoch := BitVec.not_lt.mpr hle
      have hact : s.applySetting .epoch w =
          { s with time := { s.time with reason := .rejected } }.raise .scheduleRejected := by
        simp only [State.applySetting, State.writeSchedule, if_neg hepoch]
      rw [hact]
      refine ⟨rfl, ?_, onlyRaised_of_raise s _ .scheduleRejected _ (by simp) rfl, countersKept_of_same _ _ _ rfl, rfl⟩
      exact (State.causeSet_raise s .scheduleRejected .scheduleRejected).trans (by simp)
  · have hswitch := exec_settingRow_applied (row := .switchNow) rfl hp hh hr
    refine ⟨fun p hsch => ?_, fun hsch => ?_, ?_⟩
    · have hact : s.applySetting .epochControl 1#64 = s.switchEpoch p.epoch := by
        simp [State.applySetting, State.writeEpochControl, State.switchNow, hsch]
      obtain ⟨htime, hset, hraised, hkept, hreached⟩ :=
        State.switchEpoch_switched (s := s) (u := s) p.epoch rfl rfl rfl
      rw [hact] at hswitch
      exact ⟨_, hswitch, htime, hset, hraised, hkept, hreached, rfl⟩
    · have hact : s.applySetting .epochControl 1#64 = s := by
        simp [State.applySetting, State.writeEpochControl, State.switchNow, hsch]
      rw [hswitch, hact]
      rfl
    · exact exec_settingRow_applied (row := .cancel) rfl hp hh hr

end Sys2Proof.Proofs
end

