-- ==== Sys2Proof/Proofs/ImportCommands.lean ====
section
/-! SUPPORT. Blob beats, the common checks of the import commands, and the commands that end as they are taken or ask for
one word in NV: O30, O33, O34 and O35 (R96, R97, R100, R105 to R110). -/

namespace Sys2Proof.Machine

open Sys2Proof.Safety

/-! ### Blob beats (R96) -/

theorem State.capturing_iff (s : State) :
    s.capturing = true ↔ s.life.phase = .running ∧ s.keys.importState = .idle ∧ s.life.cycle ≠ .zeroizing ∧
      s.life.cycle ≠ .zeroized := by
  simp [State.capturing, State.zeroing, and_assoc]

/-- A blob beat changes at most the buffer. -/
theorem State.captureBlob_eq (w : Nat) (b : WriteBeat) (s : State) :
    s.captureBlob w b = { s with keys := { s.keys with buffer := (s.captureBlob w b).keys.buffer } } := by
  simp only [State.captureBlob]
  repeat' split
  all_goals rfl

/-- A blob beat leaves every other word of the buffer. -/
theorem State.captureBlob_of_ne (w : Nat) (b : WriteBeat) (s : State) {j : Fin 5} (h : j.val ≠ w) :
    (s.captureBlob w b).keys.buffer[j] = s.keys.buffer[j] := by
  simp only [State.captureBlob]
  repeat' split
  · simp [Ne.symm h]
  · rfl
  · rfl

/-- The bytes of the buffer word after a blob beat to it. -/
theorem State.byteOf_captureBlob {w : Nat} (hw : w < 5) (b : WriteBeat) (s : State) (k : Fin 8) :
    byteOf (s.captureBlob w b).keys.buffer[w] k.val =
      if s.capturing = true ∧ b.strobes.getLsbD k.val = true then byteOf b.data k.val
      else byteOf s.keys.buffer[w] k.val := by
  by_cases hc : s.capturing = true
  · have hset : (s.captureBlob w b).keys.buffer[w] = mergeBytes s.keys.buffer[w] b.data b.strobes := by
      simp only [State.captureBlob, dif_pos hw, if_pos hc, Vector.getElem_set_self]
    simp only [hset, byteOf_mergeBytes, hc, true_and]
  · have hkept : s.captureBlob w b = s := by simp only [State.captureBlob, dif_pos hw, if_neg hc]
    rw [hkept, if_neg fun h => hc h.1]

/-! ### The common checks (R100) -/

/-- The operands in form, as the statements list them. -/
theorem importFormGood_iff (cmd : ImportCmd) (u : BitVec 56) : importFormGood cmd u = true ↔ operandGood cmd u := by
  cases cmd with
  | inquire => simp only [importFormGood, operandGood, Bool.and_eq_true, beq_iff_eq, decide_eq_true_eq]
  | setReader => simp only [importFormGood, operandGood, Bool.and_eq_true, beq_iff_eq]
  | zeroize =>
    simp only [importFormGood, operandGood, Bool.and_eq_true, beq_iff_eq, Config.zeroizePattern]
    refine ⟨fun ⟨hlow, hhigh⟩ => ?_, fun h => by subst h; decide⟩
    have h0 := congrArg BitVec.toNat hlow
    have h8 := congrArg BitVec.toNat hhigh
    simp only [BitVec.extractLsb'_toNat, BitVec.toNat_ofNat, Nat.shiftRight_eq_div_pow] at h0 h8
    exact BitVec.eq_of_toNat_eq (by have := u.isLt; simp only [BitVec.toNat_ofNat]; omega)
  | _ => simp only [importFormGood, operandGood, beq_iff_eq]

theorem State.zeroing_iff (s : State) : s.zeroing = true ↔ s.life.cycle = .zeroizing ∨ s.life.cycle = .zeroized := by
  simp [State.zeroing]

/-- An import command that a step of R100 refuses ends at once with the step's code. -/
theorem State.takeImportCommand_refused {s : State} {cmd : ImportCmd} {upper : BitVec 56} {code : ImportCode}
    (hp : s.life.phase = .running) (h : s.importRefusal (some cmd) upper = some code) :
    s.takeImportCommand (importCode cmd) upper = s.endAtOnce (importCode cmd) code 0 0#24 := by
  have hcmd : importCommandOf (importCode cmd) = some cmd := by cases cmd <;> rfl
  simp only [State.takeImportCommand, hp, ne_eq, not_true_eq_false, if_false, hcmd, h]

/-- What a command that ends at once leaves, the beat passed to memory (R97, R98, R101). -/
theorem State.endAtOnce_forwarded (s : State) (command : Byte) (code : ImportCode) (index : Fin 64) (check : BitVec 24)
    (addr : Nat) (b : WriteBeat) :
    let t := (s.endAtOnce command code index check).forwardBeat addr b
    t.keys.result = { command := command, code := code, index := index, check := check } ∧
      t.keys.buffer = (if code = .busy then s.keys.buffer else Vector.replicate 5 0#64) ∧
      t.causeSet .importDone = true ∧ OnlyRaised [.importDone] s t ∧ CountersKept [] s t ∧
      t = { s with
        keys := { s.keys with result := t.keys.result, buffer := t.keys.buffer }, status := t.status
        memOut := s.memOut ++ [.beat addr b] } :=
  ⟨rfl, rfl, (State.causeSet_raise s .importDone .importDone).trans (by simp),
    onlyRaised_of_raise s _ .importDone _ (by simp) rfl, countersKept_of_same _ _ _ rfl, rfl⟩

/-! ### REVOKE and ERASE (R105 to R107) -/

/-- Header bytes 0 to 2 in range, as R105 lists them. -/
theorem headerTripleGood_iff (h : Block) :
    headerTripleGood h = true ↔ headerUsage h ∈ [0x01#8, 0x02#8, 0x03#8] ∧ headerKeySet h ≤ 31#8 ∧
      headerVersion h ≤ 15#8 ∧ (headerUsage h = 0x01#8 → headerKeySet h = 0#8) := by
  simp only [headerTripleGood, Bool.and_eq_true, Bool.or_eq_true, bne_iff_ne, ne_eq, beq_iff_eq, decide_eq_true_eq,
    ← usageOf_ne_none, ← usageOf_eq_transport, and_assoc, imp_iff_not_or]

theorem isLoadedTransport_iff (e : DirEntry) :
    isLoadedTransport e = true ↔ e.usage = .transport ∧ e.state = .loaded := by
  simp [isLoadedTransport]

/-- The last LOADED TRANSPORT entry is protected (R107). -/
theorem State.isProtected_of_last {s : State} {i : Fin 64}
    (hi : (s.entry i).usage = .transport ∧ (s.entry i).state = .loaded)
    (hlast : ∀ j, j ≠ i → ¬((s.entry j).usage = .transport ∧ (s.entry j).state = .loaded)) :
    s.isProtected i = true := by
  have hno : ((List.finRange 64).any fun j => j != i && isLoadedTransport (s.entry j)) = false :=
    List.any_eq_false.mpr fun j _ => by
      rw [Bool.and_eq_true, bne_iff_ne, isLoadedTransport_iff]
      exact fun ⟨hne, hj⟩ => hlast j hne hj
  simp [State.isProtected, hno, (isLoadedTransport_iff _).mpr hi]

section
variable {s : State}

theorem State.carryRevoke_badHeader (h : headerTripleGood (importHeader s.keys) = false) :
    s.carryRevoke = s.endAtOnce 0x03#8 .badHeader 0 0#24 := by
  simp [State.carryRevoke, h]

theorem State.carryErase_badHeader (h : headerTripleGood (importHeader s.keys) = false) :
    s.carryErase = s.endAtOnce 0x04#8 .badHeader 0 0#24 := by
  simp [State.carryErase, h]

variable (hgood : headerTripleGood (importHeader s.keys) = true)
include hgood

theorem State.carryRevoke_notFound (h : s.namedEntry = none) :
    s.carryRevoke = s.endAtOnce 0x03#8 .notFound 0 0#24 := by
  simp [State.carryRevoke, hgood, h]

theorem State.carryErase_notFound (h : s.namedEntry = none) :
    s.carryErase = s.endAtOnce 0x04#8 .notFound 0 0#24 := by
  simp [State.carryErase, hgood, h]

theorem State.carryRevoke_notLoaded {i : Fin 64} (h : s.namedEntry = some i) (hl : (s.entry i).state ≠ .loaded) :
    s.carryRevoke = s.endAtOnce 0x03#8 .notFound 0 0#24 := by
  simp [State.carryRevoke, hgood, h, hl]

theorem State.carryRevoke_protected {i : Fin 64} (h : s.namedEntry = some i) (hl : (s.entry i).state = .loaded)
    (hp : s.isProtected i = true) : s.carryRevoke = s.endAtOnce 0x03#8 .protected' 0 0#24 := by
  simp [State.carryRevoke, hgood, h, hl, hp]

theorem State.carryErase_protected {i : Fin 64} (h : s.namedEntry = some i) (hp : s.isProtected i = true) :
    s.carryErase = s.endAtOnce 0x04#8 .protected' 0 0#24 := by
  simp [State.carryErase, hgood, h, hp]

end

/-! ### INQUIRE, SET_READER and FIELD_LOCK (R108 to R110) -/

/-- The word of an INQUIRE is in form, and names its index (R108). -/
theorem inquire_operand (i : Fin 64) :
    importFormGood .inquire (0#48 ++ BitVec.ofNat 8 i.val) = true ∧ inquireIndex (0#48 ++ BitVec.ofNat 8 i.val) = i := by
  have hle : (BitVec.ofNat 8 i.val).toNat = i.val := by simp; omega
  refine ⟨?_, ?_⟩
  · rw [importFormGood_iff]
    simp only [operandGood, spare_of_upper, generation_of_upper, true_and]
    rw [BitVec.le_def, hle]
    exact Nat.le_of_lt_succ i.isLt
  · simp only [inquireIndex, generation_of_upper, hle]
    exact Fin.ext (Nat.mod_eq_of_lt i.isLt)

/-- The word of a SET_READER is in form, and holds its reader number (R109). -/
theorem setReader_operand (v : BitVec 16) :
    importFormGood .setReader (0#32 ++ v ++ 0#8) = true ∧ readerOperand (0#32 ++ v ++ 0#8) = v := by
  refine ⟨?_, ?_⟩
  · rw [importFormGood_iff]
    refine ⟨BitVec.eq_of_getLsbD_eq fun i hi => ?_, BitVec.eq_of_getLsbD_eq fun i hi => ?_⟩
    · simp only [BitVec.getLsbD_extractLsb', BitVec.getLsbD_append]
      simp [hi]
    · simp only [BitVec.getLsbD_extractLsb', BitVec.getLsbD_append]
      simp
      omega
  · apply BitVec.eq_of_getLsbD_eq
    intro i hi
    simp only [readerOperand, BitVec.getLsbD_extractLsb', BitVec.getLsbD_append]
    simp [hi]

/-- INQUIRE is refused by no life cycle (R108, the table of section 5.5). -/
theorem State.importRefusal_inquire {s : State} {upper : BitVec 56} (hh : s.status.hold = false)
    (hi : s.keys.importState = .idle) (hform : importFormGood .inquire upper = true) :
    s.importRefusal (some .inquire) upper = none := by
  simp [State.importRefusal, hh, hi, hform, acceptedIn]

/-- A LOADED TRANSPORT entry is there (R110). -/
theorem State.any_loadedTransport (s : State) :
    ((List.finRange 64).any fun i => isLoadedTransport (s.entry i)) = true ↔
      ∃ i, (s.entry i).usage = .transport ∧ (s.entry i).state = .loaded := by
  simp [isLoadedTransport_iff]

/-- The beat of a command whose carrying out places an admin request (R101). -/
theorem importBeat_placedAdmin {s : State} {cmd : ImportCmd} {upper : BitVec 56} {op : AdminOp}
    (hr : s.reloading = false) (hp : s.life.phase = .running) (hrefuse : s.importRefusal (some cmd) upper = none)
    (hcarry : s.carryImport cmd upper = s.placeAdmin cmd op) :
    let t := s.importBeat cmd upper
    AdminPlaced (importCode cmd) op s t ∧
      t = { s with
        keys := { s.keys with
          importState := t.keys.importState, inFlight := t.keys.inFlight, result := t.keys.result }
        writer := t.writer, memOut := s.memOut ++ [importOut s] } := by
  rw [State.importBeat_carried hr hp hrefuse, hcarry]
  exact ⟨State.adminPlaced (u := s) cmd op rfl rfl rfl rfl, rfl⟩

end Sys2Proof.Machine

namespace Sys2Proof.Proofs

open Sys2Proof.Machine Sys2Proof.Safety

/-- Settles O30. -/
theorem blobBeatsAreCaptured : Obligations.BlobBeatsAreCaptured := by
  intro w b s hr
  refine ⟨_, congrArg Host.Outcome.next (State.controlBeat_taken hr _ _ _), ?_, fun j hj => ?_, fun h k => ?_⟩
  · rw [State.captureBlob_eq, Nat.add_assoc]
    rfl
  · exact s.captureBlob_of_ne w.val b hj
  · refine (s.byteOf_captureBlob h b k).trans ?_
    simp only [State.capturing_iff, and_assoc]

/-- Settles O33: each refusal ends its command as it is taken. -/
theorem lastTransportKeyIsProtected : Obligations.LastTransportKeyIsProtected := by
  intro s hp hr hh hi hcycle h good target lastTransport ended
  have hz : s.zeroing = false := by rcases hcycle with e | e <;> simp [State.zeroing, e]
  have hgood : headerTripleGood (importHeader s.keys) = true ↔ good := headerTripleGood_iff h
  have hrevoke : ∀ {code}, code ≠ .busy → s.carryRevoke = s.endAtOnce 0x03#8 code 0 0#24 →
      ended (.revoke 0#56) 0x03#8 code := fun hb hc => ⟨_, rfl, importBeat_endedAtOnce hb hr hp
    (State.importRefusal_none_of hz hh hi rfl (by simpa [cyclesOf] using hcycle)) hc⟩
  have herase : ∀ {code}, code ≠ .busy → s.carryErase = s.endAtOnce 0x04#8 code 0 0#24 →
      ended (.erase 0#56) 0x04#8 code := fun hb hc => ⟨_, rfl, importBeat_endedAtOnce hb hr hp
    (State.importRefusal_none_of hz hh hi rfl (by simpa [cyclesOf] using hcycle)) hc⟩
  refine ⟨fun hbad => ?_, fun hg htarget => ?_, fun hg i htarget hl => ?_, fun hg i htarget ⟨hu, hs, hlast⟩ => ?_⟩
  · have hbad : headerTripleGood (importHeader s.keys) = false := Bool.eq_false_iff.mpr fun e => hbad (hgood.mp e)
    exact ⟨hrevoke (by simp) (State.carryRevoke_badHeader hbad), herase (by simp) (State.carryErase_badHeader hbad)⟩
  · exact ⟨hrevoke (by simp) (State.carryRevoke_notFound (hgood.mpr hg) htarget),
      herase (by simp) (State.carryErase_notFound (hgood.mpr hg) htarget)⟩
  · exact hrevoke (by simp) (State.carryRevoke_notLoaded (hgood.mpr hg) htarget hl)
  · have hprot := State.isProtected_of_last ⟨hu, hs⟩ hlast
    exact ⟨hrevoke (by simp) (State.carryRevoke_protected (hgood.mpr hg) htarget hs hprot),
      herase (by simp) (State.carryErase_protected (hgood.mpr hg) htarget hprot)⟩

/-- Settles O34. -/
theorem inquireReaderAndLockAct : Obligations.InquireReaderAndLockAct := by
  refine ⟨fun s i hp hr hh hi => ?_, fun s v hp hr hh hi => ?_⟩
  · obtain ⟨hform, hindex⟩ := inquire_operand i
    have hrefuse := State.importRefusal_inquire hh hi hform
    refine ⟨_, congrArg Host.Outcome.next (State.importBeat_carried hr hp hrefuse), ?_⟩
    simp only [State.carryImport, State.carryInquire, hindex]
    refine ⟨⟨rfl, rfl, ?_, onlyRaised_of_raise s _ .importDone _ (by simp) rfl, countersKept_of_same _ _ _ rfl, rfl⟩, rfl⟩
    exact (State.causeSet_raise s .importDone .importDone).trans (by simp)
  intro placed ended transport
  refine ⟨fun hcycle => ?_, fun hcycle => ?_⟩
  · obtain ⟨hform, hoperand⟩ := setReader_operand v
    have hrefuse : s.importRefusal (some .setReader) (0#32 ++ v ++ 0#8) = none :=
      State.importRefusal_none_of (by rcases hcycle with e | e <;> simp [State.zeroing, e]) hh hi hform
        (by simpa [cyclesOf] using hcycle)
    refine ⟨fun hv => ⟨_, rfl, importBeat_endedAtOnce (by simp) hr hp hrefuse (?_ : s.carrySetReader _ = _)⟩,
      fun hv => ⟨_, rfl, importBeat_placedAdmin hr hp hrefuse (?_ : s.carrySetReader _ = _)⟩⟩
    · simp only [State.carrySetReader, hoperand, if_pos hv]
    · simp only [State.carrySetReader, hoperand, if_neg hv]
  · have hrefuse : s.importRefusal (some .fieldLock) 0#56 = none :=
      State.importRefusal_none_of (by simp [State.zeroing, hcycle]) hh hi rfl (by simp [cyclesOf, hcycle])
    refine ⟨fun h0 => ⟨_, rfl, importBeat_endedAtOnce (by simp) hr hp hrefuse (?_ : s.carryFieldLock = _)⟩,
      fun h0 ht => ⟨_, rfl, importBeat_endedAtOnce (by simp) hr hp hrefuse (?_ : s.carryFieldLock = _)⟩,
      fun h0 ht => ⟨_, rfl, importBeat_placedAdmin hr hp hrefuse (?_ : s.carryFieldLock = _)⟩⟩
    · simp only [State.carryFieldLock, if_pos h0]
    · have hno := Bool.eq_false_iff.mpr (mt s.any_loadedTransport.mp ht)
      simp [State.carryFieldLock, h0, hno]
    · simp [State.carryFieldLock, h0, s.any_loadedTransport.mpr ht]

/-- Settles O35: a refused command is `takeImportCommand_refused`, and each clause says which step refuses it. -/
theorem importCommandChecksInOrder : Obligations.ImportCommandChecksInOrder := by
  intro row cmd upper s hrow hr
  have hexec := exec_importRow_taken hrow hr
  refine ⟨fun hp => ?_, fun hp => ?_⟩
  · have hnothing : s.takeImportCommand (importCode cmd) upper = s := by simp [State.takeImportCommand, hp]
    rw [hexec, hnothing]
    rfl
  intro ended zeroing
  have hended : ∀ {code}, s.importRefusal (some cmd) upper = some code → ended code := fun hrefuse =>
    ⟨_, hexec.trans (by rw [State.takeImportCommand_refused hp hrefuse]), s.endAtOnce_forwarded _ _ _ _ _ (fullBeat 0#64)⟩
  have hzero : (s.zeroing && some cmd != some .inquire) = true ↔ zeroing := by
    rw [Bool.and_eq_true, bne_iff_ne, s.zeroing_iff, ne_eq, Option.some.injEq]
  refine ⟨fun hz => hended ?_, fun hz hh => hended ?_, fun hz hh hi => hended ?_, fun hz hh hi hform => hended ?_,
    fun hz hh hi hform hcycle => hended ?_⟩
  · rw [State.importRefusal, if_pos (hzero.mpr hz)]
  all_goals rw [State.importRefusal, if_neg (mt hzero.mp hz)]
  · rw [if_pos hh]
  all_goals rw [if_neg (by simp [hh])]
  · rw [if_pos (by simpa using hi)]
  all_goals rw [if_neg (by simp [hi])]
  · have hbad := Bool.eq_false_iff.mpr (mt (importFormGood_iff cmd upper).mp hform)
    simp [hbad]
  · have hrejected := Bool.eq_false_iff.mpr (mt (acceptedIn_iff cmd s.life.cycle).mp hcycle)
    simp [(importFormGood_iff cmd upper).mpr hform, hrejected]

end Sys2Proof.Proofs
end

