-- ==== Sys2Proof/Proofs/AdminEnds.lean ====
section
/-! SUPPORT. The ends of admin operations: what they leave in NV, and how they end their command: O36 and O37 (R89, R92
to R94, R104 to R106, R109, R110, R175). -/

namespace Sys2Proof.Machine

open Sys2Proof.Safety

/-! ### The NV array (R89, R92) -/

theorem State.record_setRecord_self (s : State) (i : Fin 64) (r : NvRecord) : (s.setRecord i r).record i = r := by
  simp [State.record, State.setRecord, Fin.getElem_fin]

theorem State.record_setRecord_of_ne (s : State) {i j : Fin 64} (r : NvRecord) (h : j ≠ i) :
    (s.setRecord i r).record j = s.record j := by
  have : i.val ≠ j.val := fun e => h (Fin.ext e.symm)
  simp [State.record, State.setRecord, Fin.getElem_fin, this]

/-- One record alone is written. -/
theorem onlyRecord_of_setRecord {s t : State} {i : Fin 64} {r : NvRecord} (h : t.nv = (s.setRecord i r).nv) :
    t.record i = r ∧ (∀ j, j ≠ i → t.record j = s.record j) ∧ t.nv = { s.nv with records := t.nv.records } := by
  have hrecord : ∀ j, t.record j = (s.setRecord i r).record j := fun j => by simp only [State.record, h]
  refine ⟨(hrecord i).trans (s.record_setRecord_self i r), fun j hj => (hrecord j).trans (s.record_setRecord_of_ne r hj),
    ?_⟩
  rw [h]
  rfl

/-- What an admin operation writes in NV as its verify passes (R92). -/
theorem State.adminInNv_written {s t : State} (op : AdminOp) (h : t.nv = (s.adminInNv op true).nv) :
    AdminWritten op s t := by
  cases op with
  | program i e plain => exact onlyRecord_of_setRecord h
  | markRevoked i => exact onlyRecord_of_setRecord h
  | eraseEntry i kept => exact onlyRecord_of_setRecord h
  | personalize i check => exact h
  | writeReader v => exact h
  | lockField => exact h

/-- A record left DAMAGED, its key bytes a free value (R89; log entry 8). -/
theorem onlyRecord_of_damageRecord {s t : State} {i : Fin 64} {r : NvRecord} (h : t.nv = (s.damageRecord i r).nv) :
    t.record i = { r with state := 3#8, key := (t.record i).key } ∧ (∀ j, j ≠ i → t.record j = s.record j) ∧
      t.nv = { s.nv with records := t.nv.records } := by
  obtain ⟨hself, hrest⟩ := onlyRecord_of_setRecord (s := s) (i := i)
    (r := { r with state := entryStateCode .damaged, key := Config.freeKey s.freeCount }) h
  exact ⟨by rw [hself]; rfl, hrest⟩

/-- What an admin operation leaves in NV as its verify fails (R89). -/
theorem State.adminInNv_failed {s t : State} (op : AdminOp) (h : t.nv = (s.adminInNv op false).nv) :
    AdminFailedInNv op s t := by
  cases op with
  | program i e plain => exact onlyRecord_of_damageRecord h
  | markRevoked i => exact onlyRecord_of_setRecord h
  | eraseEntry i kept => exact onlyRecord_of_damageRecord h
  | personalize i check => exact h
  | writeReader v => exact h
  | lockField => exact h

/-! ### The command in flight (R98, R101) -/

/-- The code, the index and the check value with which an admin operation ends its command (R98, R104 to R106, R109,
R110). -/
def adminReport (op : AdminOp) (passed : Bool) (s : State) : ImportCode × Fin 64 × BitVec 24 :=
  let code : ImportCode := if passed then .ok else .nvFault
  match op with
  | .program i e _ => (code, i, if passed then e.check else 0#24)
  | .personalize i check => (code, i, check)
  | .markRevoked i => (code, i, (s.entry i).check)
  | .eraseEntry i kept => (code, i, if passed then kept.check else 0#24)
  | .writeReader _ => (code, 0, 0#24)
  | .lockField => (code, 0, 0#24)

/-- A delivered outcome that no word follows ends the command in flight as `adminReport` says, and raises IMPORT_DONE. -/
theorem State.deliverAdmin_ended {op : AdminOp} {passed : Bool} (s : State) (hf : followUp op passed = none) :
    (s.deliverAdmin op passed).status = (s.raise .importDone).status ∧
      (s.deliverAdmin op passed).keys = { s.keys with
        dir := (s.deliverAdmin op passed).keys.dir, buffer := Vector.replicate 5 0#64, importState := .idle
        inFlight := 0#8
        result := {
          command := s.keys.inFlight, code := (adminReport op passed s).1, index := (adminReport op passed s).2.1
          check := (adminReport op passed s).2.2 } } := by
  cases op with
  | program i e plain =>
    cases plain <;> cases passed
    case true.true => cases hf
    all_goals exact ⟨rfl, rfl⟩
  | _ => cases passed <;> exact ⟨rfl, rfl⟩

/-! ### The ends (R92 to R94) -/

theorem State.zeroing_eq_false {s : State} (h1 : s.life.cycle ≠ .zeroizing) (h2 : s.life.cycle ≠ .zeroized) :
    s.zeroing = false := by
  simp [State.zeroing, h1, h2]

theorem State.noteVerify_adminInNv (op : AdminOp) (passed : Bool) (s : State) :
    (s.noteVerify passed).adminInNv op passed = { s with
      status := (s.noteVerify passed).status, nv := (s.adminInNv op passed).nv
      freeCount := (s.adminInNv op passed).freeCount } := by
  cases op <;> cases passed <;> rfl

/-- No key bytes are left free where the verify passes (R89; log entry 8). -/
theorem State.adminInNv_freeCount (op : AdminOp) (s : State) : (s.adminInNv op true).freeCount = s.freeCount := by
  cases op <;> rfl

/-- A failure leaves the life cycle and the reader number (R93). -/
theorem State.deliverAdmin_failed_life (op : AdminOp) (s : State) : (s.deliverAdmin op false).life = s.life := by
  cases op with
  | program i e plain => cases plain <;> rfl
  | _ => rfl

/-- Only the entry program of a LOAD_PLAIN is followed by another word, and only where it passes (R92, R104). -/
theorem program_of_followUp {op next : AdminOp} (h : followUp op true = some next) : ∃ i e, op = .program i e true := by
  unfold followUp at h
  split at h
  next i e _ => exact ⟨i, e, rfl⟩
  next => cases h

theorem followUp_failed (op : AdminOp) : followUp op false = none := by
  cases op with
  | program i e plain => cases plain <;> rfl
  | _ => rfl

/-- The outcome is disregarded (R94, R175). -/
theorem exec_adminEnd_zeroing {s : State} {op : AdminOp} {passed : Bool}
    (hrun : s.writer.running = some (.request (.admin op))) (hz : s.zeroing = true) :
    exec (.nvOperationEnd passed) s = .next ((s.noteVerify passed).adminInNv op passed).nvNext := by
  have hz' : (s.noteVerify passed).zeroing = true := hz
  show execNvOperationEnd passed s = _
  simp only [execNvOperationEnd, hrun, State.endAdmin, hz', if_true]

/-- The life-cycle word PERSONALIZED follows the entry program of a LOAD_PLAIN (R92, R104). -/
theorem exec_adminEnd_personalize {s : State} {i : Fin 64} {e : DirEntry}
    (hrun : s.writer.running = some (.request (.admin (.program i e true)))) (hz : s.zeroing = false) :
    exec (.nvOperationEnd true) s = .next { (s.setRecord i (recordOfEntry e)).setEntry i e with
      writer := { s.writer with running := some (.request (.admin (.personalize i e.check))) } } := by
  have hz' : (s.noteVerify true).zeroing = false := hz
  show execNvOperationEnd true s = _
  simp only [execNvOperationEnd, hrun, State.endAdmin, hz', Bool.false_eq_true, if_false]
  rfl

/-- The part after an admin operation whose outcome is delivered, with no word to follow (R92, R93). -/
def State.adminDelivered (op : AdminOp) (passed : Bool) (s : State) : State :=
  (((s.noteVerify passed).adminInNv op passed).deliverAdmin op passed).nvNext

/-- The outcome is delivered, and the writer goes on (R92, R93). -/
theorem exec_adminEnd_delivered {s : State} {op : AdminOp} {passed : Bool}
    (hrun : s.writer.running = some (.request (.admin op))) (hz : s.zeroing = false) (hf : followUp op passed = none) :
    exec (.nvOperationEnd passed) s = .next (s.adminDelivered op passed) := by
  have hz' : (s.noteVerify passed).zeroing = false := hz
  show execNvOperationEnd passed s = _
  simp only [execNvOperationEnd, hrun, State.endAdmin, hz', Bool.false_eq_true, if_false, hf]
  rfl

section
variable {op : AdminOp} {passed : Bool} (s : State) (hf : followUp op passed = none)
include hf

/-- What a delivered outcome makes of each field (R92, R93). -/
theorem State.adminDelivered_eq : s.adminDelivered op passed = { s with
    life := (s.deliverAdmin op passed).life, status := ((s.noteVerify passed).raise .importDone).status
    keys := (s.deliverAdmin op passed).keys, nv := (s.adminInNv op passed).nv, writer := s.writer.goOn
    freeCount := (s.adminInNv op passed).freeCount } := by
  rw [State.adminDelivered, State.noteVerify_adminInNv]
  cases op with
  | program i e plain =>
    cases plain <;> cases passed
    case true.true => cases hf
    all_goals rfl
  | _ => cases passed <;> rfl

/-- What every delivered outcome does, whatever its kind: the command ends, and the writer goes on (R90, R93, R98). -/
theorem State.adminDelivered_ended :
    let t := s.adminDelivered op passed
    CommandEnded (adminReport op passed s).1 (adminReport op passed s).2.1 (adminReport op passed s).2.2 s t ∧
      (∀ c, t.causeSet c = (s.causeSet c || (!passed && decide (Cause.nvFault = c)) || decide (Cause.importDone = c))) ∧
      t.status.enables = s.status.enables ∧ t.status.hold = s.status.hold ∧ CountersKept [] s t ∧
      t.keys.inquiry = s.keys.inquiry ∧ WriterWentOn s t := by
  obtain ⟨-, hkeys⟩ := s.deliverAdmin_ended hf
  obtain ⟨hcounters, henables, hhold⟩ := s.noteVerify_status passed
  have hset : ∀ c, ((s.noteVerify passed).raise .importDone).causeSet c =
      (s.causeSet c || (!passed && decide (Cause.nvFault = c)) || decide (Cause.importDone = c)) := fun c => by
    rw [State.causeSet_raise, State.causeSet_noteVerify]
  rw [s.adminDelivered_eq hf]
  exact ⟨⟨congrArg KeyStore.result hkeys, congrArg KeyStore.importState hkeys, congrArg KeyStore.buffer hkeys,
      (hset .importDone).trans (by simp)⟩, hset, henables, hhold, countersKept_of_same s _ [] hcounters,
    (congrArg KeyStore.inquiry hkeys).trans rfl, writerWentOn_of_goOn rfl⟩

end

end Sys2Proof.Machine

namespace Sys2Proof.Proofs

open Sys2Proof.Machine Sys2Proof.Safety

/-- Settles O36: what every delivered outcome does is `State.adminDelivered_ended`, and what is its kind's own is read off
the operation. -/
theorem adminSuccessReachesNvAndOwners : Obligations.AdminSuccessReachesNvAndOwners := by
  refine ⟨fun s op hrun h1 h2 => ?_, fun s op hrun hz => ?_⟩
  · have hz := State.zeroing_eq_false h1 h2
    cases hf : followUp op true with
    | some next =>
      obtain ⟨i, e, rfl⟩ := program_of_followUp hf
      exact ⟨_, exec_adminEnd_personalize hrun hz, countersKept_of_same _ _ _ rfl, onlyRaised_of_same _ _ _ rfl rfl rfl,
        rfl, State.adminInNv_written _ rfl, rfl, s.entry_setEntry_self i e, fun j hj => s.entry_setEntry_of_ne e hj, rfl,
        rfl, rfl, rfl⟩
    | none =>
      obtain ⟨hended, hset, henables, hhold, hkept, hinquiry, hwriter⟩ := s.adminDelivered_ended hf
      have hraised : OnlyRaised [.importDone] s (s.adminDelivered op true) :=
        ⟨fun c hc => by simpa [Ne.symm (show c ≠ .importDone by simpa using hc)] using hset c,
          fun c hc => by simp [hset, hc], henables, hhold⟩
      have hlife : (s.adminDelivered op true).life = (s.deliverAdmin op true).life := by rw [s.adminDelivered_eq hf]
      have hkeys : (s.adminDelivered op true).keys = (s.deliverAdmin op true).keys := by rw [s.adminDelivered_eq hf]
      refine ⟨_, exec_adminEnd_delivered hrun hz hf, hkept, hraised, hinquiry, State.adminInNv_written op ?_, ?_, ?_⟩
      · rw [s.adminDelivered_eq hf]
      · rw [s.adminDelivered_eq hf, State.adminInNv_freeCount]
      · simp only [State.entry, hkeys, hlife]
        cases op with
        | program i e plain =>
          cases plain with
          | true => cases hf
          | false => exact ⟨s.entry_setEntry_self i e, fun j hj => s.entry_setEntry_of_ne e hj, rfl, hended, hwriter⟩
        | _ => exact ⟨rfl, rfl, hended, hwriter⟩
  · have hexec := exec_adminEnd_zeroing (passed := true) hrun (s.zeroing_iff.mpr hz)
    exact ⟨_, hexec, State.adminInNv_written op rfl, writerWentOn_of_goOn (by cases op <;> rfl), by cases op <;> rfl⟩

/-- Settles O37, in the same way; a failure is never followed by another word. -/
theorem adminFailureDamagesEntry : Obligations.AdminFailureDamagesEntry := by
  refine ⟨fun s op hrun h1 h2 => ?_, fun s op hrun hz => ?_⟩
  · have hz := State.zeroing_eq_false h1 h2
    have hf := followUp_failed op
    obtain ⟨hended, hset, henables, hhold, hkept, hinquiry, hwriter⟩ := s.adminDelivered_ended hf
    have hraised : OnlyRaised [.importDone, .nvFault] s (s.adminDelivered op false) :=
      ⟨fun c hc => by
        obtain ⟨hdone, hfault⟩ : c ≠ .importDone ∧ c ≠ .nvFault := by simpa using hc
        simpa [hdone.symm, hfault.symm] using hset c, fun c hc => by simp [hset, hc], henables, hhold⟩
    have hlife : (s.adminDelivered op false).life = s.life := by
      rw [s.adminDelivered_eq hf]
      exact s.deliverAdmin_failed_life op
    have hkeys : (s.adminDelivered op false).keys = (s.deliverAdmin op false).keys := by rw [s.adminDelivered_eq hf]
    refine ⟨_, exec_adminEnd_delivered hrun hz hf, hkept, hraised, by simp [hset], hlife, hwriter, hinquiry,
      State.adminInNv_failed op ?_, ?_, ?_⟩
    · rw [s.adminDelivered_eq hf]
    · rw [s.adminDelivered_eq hf, s.deliverAdmin_failed_life op]
    · simp only [State.entry, hkeys]
      cases op with
      | program i e plain =>
        cases plain <;> exact ⟨s.entry_setEntry_self i _, fun j hj => s.entry_setEntry_of_ne _ hj, hended⟩
      | markRevoked i => exact ⟨s.entry_setEntry_self i _, fun j hj => s.entry_setEntry_of_ne _ hj, hended⟩
      | eraseEntry i kept => exact ⟨s.entry_setEntry_self i _, fun j hj => s.entry_setEntry_of_ne _ hj, hended⟩
      | _ => exact ⟨rfl, hended⟩
  · have hexec := exec_adminEnd_zeroing (passed := false) hrun (s.zeroing_iff.mpr hz)
    rw [s.noteVerify_adminInNv] at hexec
    refine ⟨_, hexec, State.adminInNv_failed op rfl, writerWentOn_of_goOn rfl, ?_,
      onlyRaised_of_raise s _ .nvFault _ (by simp) rfl, countersKept_of_same _ _ _ rfl, rfl⟩
    exact (State.causeSet_raise s .nvFault .nvFault).trans (by simp)

end Sys2Proof.Proofs
end

