-- ==== Sys2Proof/Proofs/NvRead.lean ====
section
/-! SUPPORT. The directory that NV_READ forms of the records in NV, and the ends of NV_READ: O39 (R87, R89, R167, R169,
R170, R172, R174, R175). -/

namespace Sys2Proof.Machine

open Sys2Proof.Safety

/-! ### Records (R87, R89) -/

/-- A key set in range is not cut by its five bits (R87). -/
theorem setWidth_keySet {k : Byte} (h : k ≤ 31#8) : (k.setWidth 5).setWidth 8 = k := by
  apply BitVec.eq_of_toNat_eq
  rw [BitVec.le_def, BitVec.toNat_ofNat] at h
  simp only [BitVec.toNat_setWidth]
  omega

/-- A version in range is not cut by its four bits (R87). -/
theorem setWidth_version {k : Byte} (h : k ≤ 15#8) : (k.setWidth 4).setWidth 8 = k := by
  apply BitVec.eq_of_toNat_eq
  rw [BitVec.le_def, BitVec.toNat_ofNat] at h
  simp only [BitVec.toNat_setWidth]
  omega

/-- A usage has one code (R65, R200). -/
theorem usageOf_injective {u u' : Byte} (h : usageOf u = usageOf u') (hu : usageOf u ≠ .none) : u = u' := by
  revert h hu
  unfold usageOf
  split_ifs <;> simp_all

/-- The code of a state (R200; log entry 7). -/
theorem entryStateOf_eq_some (code : Byte) (e : EntryState) :
    entryStateOf code = some e ↔ code = entryStateCode e := by
  refine ⟨fun h => (eq_of_beq (List.find?_some (p := fun e => entryStateCode e == code) h)).symm, ?_⟩
  rintro rfl
  cases e <;> rfl

theorem recordKeySetGood_iff (r : NvRecord) : recordKeySetGood r = true ↔ KeySetInRange r := by
  simp only [recordKeySetGood, Bool.and_eq_true, Bool.or_eq_true, bne_iff_ne, ne_eq, beq_iff_eq, decide_eq_true_eq,
    usageOf_eq_transport]

theorem recordFieldsGood_iff (r : NvRecord) :
    recordFieldsGood r = true ↔ r.usage ∈ [0x01#8, 0x02#8, 0x03#8] ∧ KeySetInRange r ∧ r.version ≤ 15#8 ∧
      (r.usage = 0x01#8 → r.validFrom = 0#16 ∧ r.validUntil = 0xFFFF#16) := by
  simp only [recordFieldsGood, Bool.and_eq_true, Bool.or_eq_true, bne_iff_ne, ne_eq, beq_iff_eq, decide_eq_true_eq,
    recordKeySetGood_iff, ← usageOf_ne_none, usageOf_eq_transport, and_assoc, imp_iff_not_or]

theorem recordFieldsZero_iff (r : NvRecord) :
    recordFieldsZero r = true ↔ r.usage = 0#8 ∧ r.keySet = 0#8 ∧ r.version = 0#8 ∧ r.validFrom = 0#16 ∧
      r.validUntil = 0#16 ∧ r.check = 0#24 := by
  simp only [recordFieldsZero, Bool.and_eq_true, beq_iff_eq, and_assoc]

/-! ### The entry of a record (R167) -/

theorem entryOfRecord_empty {r : NvRecord} (h : RecordEmpty r) : entryOfRecord r = DirEntry.emptied := by
  obtain ⟨hstate, hzero⟩ := h
  have hst : entryStateOf r.state = some .empty := (entryStateOf_eq_some _ _).mpr hstate
  simp only [entryOfRecord, hst, (recordFieldsZero_iff r).mpr hzero, if_true]

theorem entryOfRecord_inRange {r : NvRecord} (h : RecordInRange r) :
    entryOfRecord r = {
      state := if r.state = 1#8 then .loaded else if r.state = 2#8 then .revoked else .damaged
      usage := usageOf r.usage, keySet := r.keySet.setWidth 5, version := r.version.setWidth 4
      validFrom := r.validFrom, validUntil := r.validUntil, check := r.check, key := some r.key } := by
  obtain ⟨hstate, hfields⟩ := h
  have hgood := (recordFieldsGood_iff r).mpr hfields
  simp only [List.mem_cons, List.not_mem_nil, or_false] at hstate
  rcases hstate with e | e | e
  · simp only [entryOfRecord, (entryStateOf_eq_some r.state .loaded).mpr e, hgood, if_true, if_pos e]
  · simp only [entryOfRecord, (entryStateOf_eq_some r.state .revoked).mpr e, hgood, if_true, if_pos e,
      if_neg (show r.state ≠ 1#8 by rw [e]; decide)]
  · simp only [entryOfRecord, (entryStateOf_eq_some r.state .damaged).mpr e, hgood, if_true,
      if_neg (show r.state ≠ 1#8 by rw [e]; decide), if_neg (show r.state ≠ 2#8 by rw [e]; decide)]

/-- A record out of form gives a DAMAGED entry (R167). -/
theorem entryOfRecord_outOfForm {r : NvRecord} (he : ¬RecordEmpty r) (hr : ¬RecordInRange r) :
    entryOfRecord r = {
      state := .damaged, usage := usageOf r.usage, keySet := (keptKeySet r).setWidth 5
      version := (keptVersion r).setWidth 4, validFrom := r.validFrom, validUntil := r.validUntil, check := r.check
      key := none } := by
  have hdamaged : entryOfRecord r = damagedOfRecord r := by
    have hbad : ∀ st, entryStateOf r.state = some st → st ≠ .empty → recordFieldsGood r = false := fun st hst hne => by
      refine Bool.eq_false_iff.mpr fun hgood => hr ⟨?_, (recordFieldsGood_iff r).mp hgood⟩
      rw [(entryStateOf_eq_some _ _).mp hst]
      cases st <;> simp [entryStateCode] at hne ⊢
    unfold entryOfRecord
    split
    next => rfl
    next hst =>
      refine if_neg fun hzero => he ⟨(entryStateOf_eq_some _ _).mp hst, (recordFieldsZero_iff r).mp hzero⟩
    next st hne hst => rw [hbad st hst hne, if_neg (by simp)]
  rw [hdamaged]
  simp only [damagedOfRecord, keptKeySet, keptVersion, recordKeySetGood_iff]
  congr 1 <;> split <;> rfl

/-- What every record that is not EMPTY gives: a non-EMPTY entry with the usage, the key set and the version that are kept
of it, and its epochs and check value (R167). -/
theorem entryOfRecord_nonEmpty {r : NvRecord} (he : ¬RecordEmpty r) :
    (entryOfRecord r).state ≠ .empty ∧ (entryOfRecord r).usage = usageOf r.usage ∧
      (entryOfRecord r).keySet = (keptKeySet r).setWidth 5 ∧ (entryOfRecord r).version = (keptVersion r).setWidth 4 ∧
      (entryOfRecord r).validFrom = r.validFrom ∧ (entryOfRecord r).validUntil = r.validUntil ∧
      (entryOfRecord r).check = r.check := by
  by_cases hr : RecordInRange r
  · obtain ⟨-, -, hset, hversion, -⟩ := id hr
    rw [entryOfRecord_inRange hr, keptKeySet, if_pos hset, keptVersion, if_pos hversion]
    refine ⟨?_, rfl, rfl, rfl, rfl, rfl, rfl⟩
    show (if _ then _ else _) ≠ EntryState.empty
    split_ifs <;> simp
  · rw [entryOfRecord_outOfForm he hr]
    exact ⟨by simp, rfl, rfl, rfl, rfl, rfl, rfl⟩

theorem keptKeySet_le (r : NvRecord) : keptKeySet r ≤ 31#8 := by
  unfold keptKeySet
  split
  next h => exact h.1
  next => decide

theorem keptVersion_le (r : NvRecord) : keptVersion r ≤ 15#8 := by
  unfold keptVersion
  split
  next h => exact h
  next => decide

/-! ### Repeated triples (R167) -/

theorem hasTriple_iff (e : DirEntry) (u : Usage) (keySet version : Byte) :
    hasTriple e u keySet version = true ↔
      e.state ≠ .empty ∧ e.usage = u ∧ e.keySet.setWidth 8 = keySet ∧ e.version.setWidth 8 = version := by
  simp only [hasTriple, Bool.and_eq_true, bne_iff_ne, beq_iff_eq, and_assoc]

/-- Two records share a triple exactly where the entry of the one has the triple of the other's. -/
theorem sameTriple_iff {r r' : NvRecord} (hr' : ¬RecordEmpty r') :
    SameTriple r r' ↔ (entryOfRecord r').usage ≠ .none ∧
      hasTriple (entryOfRecord r) (entryOfRecord r').usage ((entryOfRecord r').keySet.setWidth 8)
        ((entryOfRecord r').version.setWidth 8) = true := by
  obtain ⟨-, hu', hk', hv', -⟩ := entryOfRecord_nonEmpty hr'
  by_cases hr : RecordEmpty r
  · simp [SameTriple, hr, hasTriple_iff, entryOfRecord_empty hr, DirEntry.emptied]
  · obtain ⟨hs, hu, hk, hv, -⟩ := entryOfRecord_nonEmpty hr
    rw [hasTriple_iff, hu', hk', hv', hu, hk, hv, setWidth_keySet (keptKeySet_le r), setWidth_keySet (keptKeySet_le r'),
      setWidth_version (keptVersion_le r), setWidth_version (keptVersion_le r'), SameTriple, ← usageOf_ne_none]
    refine ⟨fun ⟨_, _, h1, h2, h3, h4⟩ => ⟨h2 ▸ h1, hs, by rw [h2], h3, h4⟩,
      fun ⟨h1, _, h2, h3, h4⟩ => ⟨hr, hr', h2 ▸ h1, usageOf_injective h2 (h2 ▸ h1), h3, h4⟩⟩

theorem State.repeatsTriple_iff (s : State) (i : Fin 64) : s.repeatsTriple i = true ↔ RepeatsTriple s i := by
  have hany : s.repeatsTriple i = true ↔ (entryOfRecord (s.record i)).state ≠ .empty ∧ ∃ j, j < i ∧
      (entryOfRecord (s.record i)).usage ≠ .none ∧
      hasTriple (entryOfRecord (s.record j)) (entryOfRecord (s.record i)).usage
        ((entryOfRecord (s.record i)).keySet.setWidth 8) ((entryOfRecord (s.record i)).version.setWidth 8) = true := by
    simp only [State.repeatsTriple, Bool.and_eq_true, bne_iff_ne, List.any_eq_true, List.mem_finRange, true_and,
      decide_eq_true_eq]
    tauto
  rw [hany]
  by_cases he : RecordEmpty (s.record i)
  · refine iff_of_false (fun h => h.1 (by rw [entryOfRecord_empty he]; rfl)) fun ⟨j, _, h⟩ => ?_
    obtain ⟨-, h, -⟩ := h
    exact h he
  · simp only [RepeatsTriple, sameTriple_iff he]
    exact and_iff_right (entryOfRecord_nonEmpty he).1

theorem State.readEntry_of_not_repeats {s : State} {i : Fin 64} (h : ¬RepeatsTriple s i) :
    s.readEntry i = entryOfRecord (s.record i) := by
  rw [State.readEntry, if_neg (mt (s.repeatsTriple_iff i).mp h)]

theorem State.readEntry_of_repeats {s : State} {i : Fin 64} (h : RepeatsTriple s i) :
    s.readEntry i = damagedNameless (entryOfRecord (s.record i)) := by
  rw [State.readEntry, if_pos ((s.repeatsTriple_iff i).mpr h)]

/-- An EMPTY record repeats no triple. -/
theorem not_repeatsTriple_of_empty {s : State} {i : Fin 64} (h : RecordEmpty (s.record i)) : ¬RepeatsTriple s i :=
  fun ⟨_, _, hsame⟩ => by
    obtain ⟨-, hne, -⟩ := hsame
    exact hne h

/-! ### The ends of NV_READ (R167, R169, R174) -/

/-- NV_READ is left into KEY_CHECK, where no tamper event deferred is judged in FIELD (R169, R174). -/
theorem State.leaveNvRead_check {s : State} (h : s.life.deferred = false ∨ s.life.cycle ≠ .field) :
    s.leaveNvRead = { s with life := { s.life with phase := .keyCheck, deferred := false } }.continueCheck 0 := by
  have : (s.life.deferred && s.life.cycle == .field) = false := by
    rcases h with h | h <;> simp [h]
  simp only [State.leaveNvRead, this, Bool.false_eq_true, if_false]

/-- KEY_CHECK and RESERVE change the phase alone of the Life-cycle Unit (R169, R170). -/
theorem State.continueCheck_life (n : Nat) (s : State) :
    (s.continueCheck n).life = { s.life with phase := (s.continueCheck n).life.phase } := by
  simp only [State.continueCheck, State.beginReserve]
  repeat' split
  all_goals rfl

/-- The part as NV_READ leaves it where no zeroization was interrupted, but for the directory (R167). -/
def State.nvTaken (l : LifeCycle) (s : State) : State :=
  { s with
    life := { s.life with cycle := l, reader := s.nv.reader, phase := .keyCheck, deferred := false }
    time := { s.time with epoch := s.nv.epoch } }

/-- The part as NV_READ leaves it where no zeroization was interrupted, before KEY_CHECK (R167). -/
def State.directoryFormed (l : LifeCycle) (s : State) : State :=
  { s.nvTaken l with keys := { s.keys with dir := Vector.ofFn s.readEntry } }

theorem State.entry_directoryFormed (l : LifeCycle) (s : State) (i : Fin 64) :
    (s.directoryFormed l).entry i = s.readEntry i := by
  simp [State.entry, State.directoryFormed]

section
variable {s : State} (hp : s.life.phase = .nvRead) (hr : s.writer.running = none)
  (hl : lifeOfWord s.nv.lifeWord ≠ .zeroized)
include hp hr hl

theorem exec_nvReadEnd_check (hd : s.life.deferred = false ∨ lifeOfWord s.nv.lifeWord ≠ .field) :
    exec .nvReadEnd s = .next ((s.directoryFormed (lifeOfWord s.nv.lifeWord)).continueCheck 0) := by
  show execNvReadEnd s = _
  rw [execNvReadEnd, if_neg (by simp [hp, hr]), if_neg hl]
  exact congrArg Host.Outcome.next (State.leaveNvRead_check hd)

theorem exec_nvReadEnd_tamper (hd : s.life.deferred = true) (hf : lifeOfWord s.nv.lifeWord = .field) :
    exec .nvReadEnd s = .next (s.directoryFormed .field).startZeroization := by
  show execNvReadEnd s = _
  rw [execNvReadEnd, if_neg (by simp [hp, hr]), if_neg hl, hf]
  simp only [State.leaveNvRead, State.takeFromNv, hd]
  rfl

end

theorem State.endImportByZeroize_of_dir (s : State) (d : Vector DirEntry 64) :
    { s with keys := { s.keys with dir := d } }.endImportByZeroize =
      { s.endImportByZeroize with keys := { s.endImportByZeroize.keys with dir := d } } := by
  unfold State.endImportByZeroize
  split <;> rfl

/-- A zeroization leaves no trace of the directory that it clears (R175). -/
theorem State.stoppedForZeroize_of_dir (s : State) (d : Vector DirEntry 64) :
    { s with keys := { s.keys with dir := d } }.stoppedForZeroize = s.stoppedForZeroize := by
  rw [State.stoppedForZeroize, State.endImportByZeroize_of_dir]
  rfl

theorem onlyRaised_mono {s t : State} {raised more : List Cause} (h : OnlyRaised raised s t)
    (hsub : ∀ c ∈ raised, c ∈ more) : OnlyRaised more s t :=
  ⟨fun c hc => h.1 c fun hm => hc (hsub c hm), h.2⟩

/-- The life-cycle words that start no zeroization (R167, R202; log entry 7). -/
theorem lifeOfWord_of_mem {w : Byte} (h : w ∈ [0#8, 1#8, 2#8]) :
    lifeOfWord w ≠ .zeroized ∧
      lifeOfWord w = (if w = 0#8 then .blank else if w = 1#8 then .personalized else .field) ∧
      (w ≠ 2#8 → lifeOfWord w ≠ .field) := by
  simp only [List.mem_cons, List.not_mem_nil, or_false] at h
  rcases h with rfl | rfl | rfl <;> decide

theorem lifeOfWord_eq_zeroized {w : Byte} (h : w ∉ [0#8, 1#8, 2#8]) : lifeOfWord w = .zeroized := by
  simp only [List.mem_cons, List.not_mem_nil, or_false, not_or] at h
  simp [lifeOfWord, h]

end Sys2Proof.Machine

namespace Sys2Proof.Proofs

open Sys2Proof.Machine Sys2Proof.Safety

/-- Settles O39: the entry of each record is `State.readEntry`, KEY_CHECK goes on as `State.continueCheck_wentOn` says, and
a deferred tamper event starts its zeroization as any does. -/
theorem nvReadFormsDirectory : Obligations.NvReadFormsDirectory := by
  refine ⟨fun s hp hr hword hd => ?_, fun s hp hr hword hd => ?_⟩
  · obtain ⟨hl, hcycle, hfield⟩ := lifeOfWord_of_mem hword
    have hexec := exec_nvReadEnd_check hp hr hl (hd.imp_right hfield)
    generalize hu : s.directoryFormed (lifeOfWord s.nv.lifeWord) = u at hexec
    obtain ⟨htime, -, hkeys, hnv, -⟩ := u.continueCheck_frame 0
    have hlife := u.continueCheck_life 0
    have hentry : ∀ i, (u.continueCheck 0).entry i = s.readEntry i := fun i => by
      rw [State.entry, hkeys, ← hu]
      exact s.entry_directoryFormed _ i
    refine ⟨_, hexec, ?_, ?_, ?_, ?_, ?_, fun i he => ?_, fun i hin hrep => ?_, fun i he hout hrep => ?_,
      fun i hrep => ?_, ?_, ?_⟩
    · rw [hlife, ← hcycle, ← hu]; rfl
    · rw [hlife, ← hu]; rfl
    · rw [htime, ← hu]; rfl
    · rw [hlife, ← hu]; rfl
    · rw [hnv, ← hu]; rfl
    · rw [hentry, State.readEntry_of_not_repeats (not_repeatsTriple_of_empty he), entryOfRecord_empty he]
    · rw [hentry, State.readEntry_of_not_repeats hrep, entryOfRecord_inRange hin]
    · rw [hentry, State.readEntry_of_not_repeats hrep, entryOfRecord_outOfForm he hout]
    · have he : ¬RecordEmpty (s.record i) := fun he => not_repeatsTriple_of_empty he hrep
      obtain ⟨-, -, -, -, hfrom, huntil, hcheck⟩ := entryOfRecord_nonEmpty he
      rw [hentry, State.readEntry_of_repeats hrep, damagedNameless, hfrom, huntil, hcheck]
    · rw [hkeys, ← hu]; rfl
    · have hwent := u.continueCheck_wentOn 0
      have hbefore : { s with
          life := { s.life with
            cycle := (u.continueCheck 0).life.cycle, reader := s.nv.reader, phase := .keyCheck, deferred := false }
          time := { s.time with epoch := s.nv.epoch }, keys := (u.continueCheck 0).keys } = u := by
        rw [hkeys, hlife, ← hu]; rfl
      rw [hbefore]
      exact hwent
  · have hl : lifeOfWord s.nv.lifeWord = .field := by rw [hword]; rfl
    have hexec := exec_nvReadEnd_tamper hp hr (by simp [hl]) hd hl
    have hk : (s.directoryFormed .field).life.phase = .keyCheck := rfl
    have hstopped : (s.directoryFormed .field).stoppedForZeroize = (s.nvTaken .field).stoppedForZeroize :=
      State.stoppedForZeroize_of_dir (s.nvTaken .field) _
    rw [State.startZeroization_eq, if_pos hk, hstopped] at hexec
    have hwriter : (s.nvTaken .field).stoppedForZeroize.settleHolds.writer = startZeroizeOperation s.writer := rfl
    have hzero := (s.nvTaken .field).zeroizedByTamper
    generalize (s.nvTaken .field).stoppedForZeroize.settleHolds = u at hexec hzero hwriter
    obtain ⟨hbegan, hlife, hraised, -⟩ := id hzero
    obtain ⟨hcycle, hempty, -, -, -, -, hinquiry, -, -, -, -, -, hcounters, -, -, htime, hmap, hnv, -, -⟩ := hbegan
    have hz : u.zeroing = true := by simp [State.zeroing, hcycle]
    have hended := u.beginReserve_atOnce (.inr hz)
    obtain ⟨hslots, hlow, hraisedLow, hkeptLow, ⟨hload, -⟩, hframe⟩ := id hended
    obtain ⟨hwriterLow, hkeys⟩ : u.beginReserve.writer = u.writer ∧ u.beginReserve.keys = u.keys :=
      ⟨by rw [hframe], by rw [hframe]⟩
    refine ⟨_, hexec, NothingHeld.beginReserve hempty hz, ?_, ?_, ?_, ?_, ?_, ?_, ?_, ?_, ?_, fun c hc => ?_, hlow, ?_,
      u, hended, hzero⟩
    · rw [hframe, hlife]; rfl
    · rw [hframe, htime]; rfl
    · rw [hframe, hnv]; rfl
    · rw [hwriterLow, hwriter, startZeroizeOperation, hr]
    · rw [hslots, hnv]; rfl
    · rw [hslots, hnv]; rfl
    · rw [hslots]
    · rw [hkeys, hinquiry]
    · exact onlyRaised_trans (s := s) (onlyRaised_mono hraised (by simp)) (onlyRaised_mono hraisedLow (by simp))
    · exact (hkeptLow c hc).trans (hcounters c)
    · rw [hload, hmap]; rfl

end Sys2Proof.Proofs
end

