-- ==== Sys2Proof/Proofs/ZeroizeEnds.lean ====
section
/-! SUPPORT. The stages of the NV zeroize, its attempts and its completion, and a zeroization found at start-up: O40 (R94,
R168 to R170, R176, R178). -/

namespace Sys2Proof.Machine

open Sys2Proof.Safety

/-- A failed stage leaves the records of the other stages, and stage 1 its own word too (R178; log entry 20). -/
theorem failedStage_own (m : Fin 3) (draw : Nat) (nv : NvArray) :
    match m with
    | 0 => failedStage m.val draw nv = { nv with lifeWord := 4#8 }
    | 1 => failedStage m.val draw nv = { nv with records := (failedStage m.val draw nv).records }
    | 2 => failedStage m.val draw nv = { nv with epoch := (failedStage m.val draw nv).epoch } := by
  fin_cases m <;> rfl

/-- A failed stage other than stage 1 leaves the life-cycle word (R178; log entry 20). -/
theorem failedStage_lifeWord_of_later {m : Nat} (h : 1 ≤ m) (draw : Nat) (nv : NvArray) :
    (failedStage m draw nv).lifeWord = nv.lifeWord := by
  unfold failedStage
  split
  · contradiction
  · rfl
  · rfl

/-- After a failed attempt the life-cycle word is ZEROIZED, where the passed stages stand (R178). -/
theorem failedStage_lifeWord {s : State} (hs : ZeroizeStagesStand s) {n : Fin 4} {m : Nat} (hm : n.val = m)
    (hrun : s.writer.running = some (.nvZeroize n)) (draw : Nat) : (failedStage m draw s.nv).lifeWord = 4#8 := by
  rcases Nat.eq_zero_or_pos m with rfl | h
  · rw [failedStage_zero]
  · exact (failedStage_lifeWord_of_later h draw s.nv).trans ((hs n hrun).1 (.inl (hm ▸ h)))

section
variable {s : State} {n : Fin 4} (hrun : s.writer.running = some (.nvZeroize n))
include hrun

theorem exec_nvZeroizeStageEnd (hn : n ≠ 3) :
    exec .nvZeroizeStageEnd s = .next { s with
      nv := zeroizeStage n.val s.nv, writer := { s.writer with running := some (.nvZeroize (n + 1)) } } := by
  show execNvZeroizeStageEnd s = _
  simp only [execNvZeroizeStageEnd, hrun, if_neg hn]

theorem exec_nvZeroizeAttemptEnd_failed (hn : n ≠ 3) :
    exec (.nvZeroizeAttemptEnd false) s = .next ({ s with
      nv := failedStage n.val s.freeCount s.nv, writer := restartZeroize s.writer
      freeCount := s.freeCount + 1 }.raise .nvFault) := by
  show execNvZeroizeAttemptEnd false s = _
  simp only [execNvZeroizeAttemptEnd, hrun, Bool.false_eq_true, if_false, if_neg hn]

/-- An attempt that passes finds in NV what its stages have written, and leaves it (R176). -/
theorem exec_nvZeroizeAttemptEnd_passed (hlife : s.nv.lifeWord = 4#8)
    (hrecords : s.nv.records = Vector.replicate 64 NvRecord.erased) (hepoch : s.nv.epoch = 0#16) :
    exec (.nvZeroizeAttemptEnd true) s =
      if s.life.phase = .nvRead then .next { s with writer := { s.writer with running := some .blankWord } }
      else .next s.completeZeroize := by
  have hnv : zeroizeStage 2 (zeroizeStage 1 (zeroizeStage 0 s.nv)) = s.nv := by
    show { s.nv with lifeWord := 4#8, records := Vector.replicate 64 NvRecord.erased, epoch := 0#16 } = s.nv
    rw [← hlife, ← hrecords, ← hepoch]
  show execNvZeroizeAttemptEnd true s = _
  simp only [execNvZeroizeAttemptEnd, hrun, if_true, hnv]

end

theorem exec_nvReadEnd_zeroized {s : State} (hp : s.life.phase = .nvRead) (hr : s.writer.running = none)
    (hl : lifeOfWord s.nv.lifeWord = .zeroized) :
    exec .nvReadEnd s =
      .next { s with writer := { s.writer with running := some (.nvZeroize 0), attemptsFailed := 0#8 } } := by
  show execNvReadEnd s = _
  rw [execNvReadEnd, if_neg (by simp [hp, hr]), if_pos hl]

/-! ### The life-cycle word BLANK (R168) -/

/-- The part as the word BLANK leaves it, before KEY_CHECK (R168). -/
def State.blankTaken (s : State) : State :=
  { s.raise .zeroized with
    nv := { s.nv with lifeWord := 0#8 }, time := { s.time with epoch := s.nv.epoch }
    life := { s.life with cycle := .blank, reader := s.nv.reader, phase := .keyCheck, deferred := false }
    writer := { s.writer with running := none } }

theorem exec_blankWord_passed {s : State} (hrun : s.writer.running = some .blankWord) :
    exec (.nvOperationEnd true) s = .next (s.blankTaken.continueCheck 0) := by
  show execNvOperationEnd true s = _
  simp only [execNvOperationEnd, hrun]
  exact congrArg Host.Outcome.next (State.leaveNvRead_check (.inr (by simp [State.takeFromNv])))

theorem exec_blankWord_failed {s : State} (hrun : s.writer.running = some .blankWord) :
    exec (.nvOperationEnd false) s = .next (s.noteVerify false) := by
  show execNvOperationEnd false s = _
  simp only [execNvOperationEnd, hrun]
  rfl

/-- KEY_CHECK goes on to no earlier phase (R169, R170). -/
theorem State.continueCheck_phase {s : State} (n : Nat) (h : s.life.phase = .keyCheck) :
    (s.continueCheck n).life.phase ≠ .nvRead := by
  rcases s.continueCheck_cases n with ⟨i, e⟩ | e <;> rw [e]
  · simp [h]
  · rcases s.beginReserve_phase with ⟨e, -⟩ | ⟨e, -⟩ <;> simp [e]

/-- KEY_CHECK leaves the causes that are set (R54, R185). -/
theorem State.continueCheck_causeSet {s : State} (n : Nat) {c : Cause} (h : s.causeSet c = true) :
    (s.continueCheck n).causeSet c = true := by
  rcases s.continueCheck_cases n with ⟨i, e⟩ | e <;> rw [e]
  · exact h
  · by_cases hr : s.nv.highWater < 2 ^ 48 ∧ s.zeroing = false
    · rw [State.beginReserve_program s hr.1 hr.2]
      exact h
    · have hat : 2 ^ 48 ≤ s.nv.highWater ∨ s.zeroing = true := by
        simpa only [not_and_or, Nat.not_lt, Bool.not_eq_false] using hr
      obtain ⟨-, -, ⟨-, hset, -⟩, -⟩ := s.beginReserve_atOnce hat
      exact hset c h

end Sys2Proof.Machine

namespace Sys2Proof.Proofs

open Sys2Proof.Machine Sys2Proof.Safety

/-- Settles O40: the rows of an attempt stage by stage, and the word BLANK with what KEY_CHECK makes of the part that it
leaves. -/
theorem nvZeroizeRunsItsStages : Obligations.NvZeroizeRunsItsStages := by
  refine ⟨fun s n hrun => ⟨fun m hm => ?_, fun hn hlife hrecords hepoch => ?_⟩, fun s hp hr hword => ?_,
    fun s hp hrun => ⟨?_, ?_⟩⟩
  · have hn : n ≠ 3 := fun e => by have := m.isLt; simp [e] at hm; omega
    refine ⟨?_, _, exec_nvZeroizeAttemptEnd_failed hrun hn, ?_, onlyRaised_of_raise s _ .nvFault _ (by simp) rfl,
      countersKept_of_same _ _ _ rfl, ?_, fun hs => ?_, rfl⟩
    · refine (exec_nvZeroizeStageEnd hrun hn).trans ?_
      rw [hm]
      fin_cases m <;> rfl
    · exact (State.causeSet_raise s .nvFault .nvFault).trans (by simp)
    · rw [hm]
      exact failedStage_own m s.freeCount s.nv
    · rw [hm]
      exact failedStage_lifeWord hs hm hrun s.freeCount
  · have hexec := exec_nvZeroizeAttemptEnd_passed hrun hlife hrecords hepoch
    refine ⟨fun hp => ?_, fun hp => by rw [hexec, if_pos hp]⟩
    rw [if_neg hp] at hexec
    refine ⟨_, hexec, rfl, rfl, ?_, onlyRaised_of_raise s _ .zeroized _ (by simp) rfl, countersKept_of_same _ _ _ rfl,
      writerWentOn_of_goOn rfl, rfl⟩
    exact (State.causeSet_raise s .zeroized .zeroized).trans (by simp)
  · exact exec_nvReadEnd_zeroized hp hr (lifeOfWord_eq_zeroized hword)
  · obtain ⟨htime, -, hkeys, hnv, -⟩ := s.blankTaken.continueCheck_frame 0
    have hlife := s.blankTaken.continueCheck_life 0
    have hset : s.blankTaken.causeSet .zeroized = true := (State.causeSet_raise s .zeroized .zeroized).trans (by simp)
    refine ⟨_, exec_blankWord_passed hrun, by rw [hnv]; rfl, by rw [hlife]; rfl, by rw [hlife]; rfl, by rw [htime]; rfl,
      State.continueCheck_causeSet 0 hset, State.continueCheck_phase 0 rfl, by rw [hlife]; rfl, by rw [hkeys]; rfl,
      s.blankTaken, hset, onlyRaised_of_raise s _ .zeroized _ (by simp) rfl, countersKept_of_same _ _ _ rfl, rfl,
      s.blankTaken.continueCheck_wentOn 0⟩
  · exact ⟨_, exec_blankWord_failed hrun, (State.causeSet_raise s .nvFault .nvFault).trans (by simp),
      onlyRaised_of_raise s _ .nvFault _ (by simp) rfl, countersKept_of_same _ _ _ rfl, rfl⟩

end Sys2Proof.Proofs
end

