-- ==== Sys2Proof/Proofs/KeyTriples.lean ====
section
/-! SUPPORT. The form of an entry, the triples that something under way keeps, and how the invariant of the key directory
passes over the writing of one entry (R87, R102 to R106). -/

namespace Sys2Proof.Safety

open Sys2Proof.Machine

/-! ### Entries -/

/-- One entry as the directory holds it in form (R87). -/
structure EntryInForm (e : DirEntry) : Prop where
  empty : e.state = .empty → e = DirEntry.emptied
  keyed : e.state = .loaded ∨ e.state = .revoked → e.usage ≠ .none ∧ e.key.isSome = true
  transport : e.usage = .transport → e.keySet = 0#5

theorem directoryInForm_iff (s : State) : DirectoryInForm s ↔ ∀ i, EntryInForm (s.entry i) :=
  ⟨fun ⟨hempty, hkeyed, htransport⟩ i => ⟨hempty i, hkeyed i, htransport i⟩,
    fun h => ⟨fun i => (h i).empty, fun i => (h i).keyed, fun i => (h i).transport⟩⟩

theorem entryInForm_emptied : EntryInForm DirEntry.emptied :=
  ⟨fun _ => rfl, by simp [DirEntry.emptied], by simp [DirEntry.emptied]⟩

/-- A DAMAGED entry is in form with or without a key, where its key set is that of its usage (R87). -/
theorem entryInForm_damaged {e : DirEntry} (hd : e.state = .damaged) (h : e.usage = .transport → e.keySet = 0#5) :
    EntryInForm e :=
  ⟨by simp [hd], by simp [hd], h⟩

theorem not_hasTriple_emptied (x : Triple) : ¬HasTriple DirEntry.emptied x := fun h => h.1 rfl

/-- An entry that keeps the usage, the key set and the version of another, which is not EMPTY, has its triple alone. -/
theorem HasTriple.of_same {e e' : DirEntry} {x : Triple} (h : HasTriple e' x) (he : e.state ≠ .empty)
    (hu : e'.usage = e.usage) (hk : e'.keySet = e.keySet) (hv : e'.version = e.version) : HasTriple e x := by
  obtain ⟨-, hn, hx⟩ := h
  exact ⟨he, hu ▸ hn, by rw [hx, hu, hk, hv]⟩

/-! ### What is under way (R87, R104, R106) -/

/-- The triple that an admin operation keeps until it ends. -/
def tripleKeptBy : AdminOp → Option Triple
  | .program _ e _ => some (e.usage, e.keySet, e.version)
  | .eraseEntry _ kept => some (kept.usage, kept.keySet, kept.version)
  | _ => none

theorem keptTriples_eq (s : State) :
    keptTriples s = (importsUnderWay s).map headerTriple ++ (adminOps s.writer).filterMap tripleKeptBy := by
  unfold keptTriples
  exact congrArg (List.map headerTriple (importsUnderWay s) ++ ·) (List.filterMap_congr fun op _ => by cases op <;> rfl)

theorem mem_keptTriples {s : State} {x : Triple} :
    x ∈ keptTriples s ↔
      (∃ h ∈ importsUnderWay s, headerTriple h = x) ∨ ∃ op ∈ adminOps s.writer, tripleKeptBy op = some x := by
  rw [keptTriples_eq, List.mem_append, List.mem_map, List.mem_filterMap]

theorem mem_importsUnderWay {s : State} {h : Block} :
    h ∈ importsUnderWay s ↔
      (s.engine.importPlace.isSome = true ∧ h = importHeader s.keys) ∨ liveImport s.engine = some h := by
  unfold importsUnderWay
  by_cases hp : s.engine.importPlace.isSome = true <;> simp [hp, eq_comm]

theorem importsUnderWay_eq_nil {s : State} (hp : s.engine.importPlace = none) (hl : liveImport s.engine = none) :
    importsUnderWay s = [] := by simp [importsUnderWay, hp, hl]

theorem keptTriples_eq_nil {s : State} (hi : importsUnderWay s = [])
    (ha : ∀ op ∈ adminOps s.writer, tripleKeptBy op = none) : keptTriples s = [] := by
  rw [keptTriples_eq, hi, List.map_nil, List.nil_append]
  exact List.filterMap_eq_nil_iff.mpr ha

/-- Admin operations that keep a triple are those of before. -/
def NoNewKeeper (w w' : NvWriter) : Prop := ∀ op ∈ adminOps w', tripleKeptBy op ≠ none → op ∈ adminOps w

theorem NoNewKeeper.of_subset {w w' : NvWriter} (h : adminOps w' ⊆ adminOps w) : NoNewKeeper w w' :=
  fun _ hop _ => h hop

/-- The keys, the imports under way and what the NV writer keeps are those of before, or fewer. -/
structure KeyStoreKept (s t : State) : Prop where
  dir : t.keys.dir = s.keys.dir
  imports : importsUnderWay t ⊆ importsUnderWay s
  keepers : NoNewKeeper s.writer t.writer

theorem keptTriples_subset {s t : State} (hi : importsUnderWay t ⊆ importsUnderWay s)
    (ha : NoNewKeeper s.writer t.writer) : keptTriples t ⊆ keptTriples s := by
  intro x hx
  rw [mem_keptTriples] at hx ⊢
  rcases hx with ⟨h, hh, e⟩ | ⟨op, hop, e⟩
  · exact .inl ⟨h, hi hh, e⟩
  · exact .inr ⟨op, ha op hop (by simp [e]), e⟩

/-! ### The invariant over one change -/

section
variable {s t : State} (hs : TriplesUnique s)
include hs

/-- What something under way keeps is in range, and so is what an entry has (R87, R102). -/
theorem TriplesUnique.inRange {x : Triple} {i : Fin 64} (h : x ∈ keptTriples s ∨ HasTriple (s.entry i) x) :
    x.1 ≠ .none ∧ (x.1 = .transport → x.2.1 = 0#5) := by
  obtain ⟨hform, -, hkept, -⟩ := hs
  rcases h with h | ⟨-, hu, rfl⟩
  · exact ⟨(hkept x h).1, (hkept x h).2.1⟩
  · exact ⟨hu, ((directoryInForm_iff s).mp hform i).transport⟩

/-- The triple that an admin operation under way keeps is in range. -/
theorem TriplesUnique.keeper_inRange {op : AdminOp} {x : Triple} (hop : op ∈ adminOps s.writer)
    (hx : tripleKeptBy op = some x) : x.1 ≠ .none ∧ (x.1 = .transport → x.2.1 = 0#5) :=
  hs.inRange (i := 0) (.inl (mem_keptTriples.mpr (.inr ⟨op, hop, hx⟩)))

/-- The directory stays, and what is under way was under way, or a program of a triple kept already (R103, R104). -/
theorem TriplesUnique.of_dir (hd : t.keys.dir = s.keys.dir) (hi : importsUnderWay t ⊆ importsUnderWay s)
    (hk : keptTriples t ⊆ keptTriples s)
    (hp : ∀ i e plain, .program i e plain ∈ adminOps t.writer →
      e.state = .loaded ∧ e.key.isSome = true ∧ (s.entry i).state = .empty) : TriplesUnique t := by
  obtain ⟨hform, huniq, hkept, himports, -⟩ := hs
  have he : t.entry = s.entry := funext fun i => by simp only [State.entry, hd]
  exact ⟨by simpa only [DirectoryInForm, he] using hform, by simpa only [he] using huniq,
    fun x hx => by simpa only [he] using hkept x (hk hx), fun h hh => himports h (hi hh), by simpa only [he] using hp⟩

theorem TriplesUnique.kept (h : KeyStoreKept s t) : TriplesUnique t :=
  hs.of_dir h.dir h.imports (keptTriples_subset h.imports h.keepers) fun i e plain hmem =>
    hs.2.2.2.2 i e plain (h.keepers _ hmem (by simp [tripleKeptBy]))

/-- Every entry is emptied (R166, R175). -/
theorem TriplesUnique.emptied (hd : ∀ i, t.entry i = DirEntry.emptied) (hi : importsUnderWay t ⊆ importsUnderWay s)
    (hk : NoNewKeeper s.writer t.writer) : TriplesUnique t := by
  obtain ⟨-, -, hkept, himports, hprograms⟩ := hs
  refine ⟨(directoryInForm_iff t).mpr fun i => hd i ▸ entryInForm_emptied,
    fun i j x h => absurd (hd i ▸ h) (not_hasTriple_emptied x), fun x hx => ?_, fun h hh => himports h (hi hh),
    fun i e plain hmem => ?_⟩
  · obtain ⟨hu, ht, -⟩ := hkept x (keptTriples_subset hi hk hx)
    exact ⟨hu, ht, fun i => hd i ▸ not_hasTriple_emptied x⟩
  · obtain ⟨hl, hkey, -⟩ := hprograms i e plain (hk _ hmem (by simp [tripleKeptBy]))
    exact ⟨hl, hkey, by rw [hd]; rfl⟩

/-- One entry is written: it takes no triple but its own or one that was kept, and what is kept from now on was kept, or is
the triple that the entry had (R104 to R106). -/
theorem TriplesUnique.written {i : Fin 64} {e : DirEntry} (hd : t.keys.dir = (s.setEntry i e).keys.dir)
    (hform : EntryInForm e) (hheld : ∀ x, HasTriple e x → HasTriple (s.entry i) x ∨ x ∈ keptTriples s)
    (hkept : ∀ x ∈ keptTriples t, ¬HasTriple e x ∧ (x ∈ keptTriples s ∨ HasTriple (s.entry i) x))
    (himports : importsUnderWay t ⊆ importsUnderWay s)
    (hprograms : ∀ k e plain, .program k e plain ∉ adminOps t.writer) : TriplesUnique t := by
  obtain ⟨hforms, huniq, hunheld, hrange, -⟩ := id hs
  have hentry : ∀ j, t.entry j = (s.setEntry i e).entry j := fun j => by simp only [State.entry, hd]
  have hother : ∀ j, j ≠ i → t.entry j = s.entry j := fun j hj =>
    (hentry j).trans (State.entry_setEntry_of_ne _ _ hj)
  obtain rfl : t.entry i = e := (hentry i).trans (State.entry_setEntry_self _ _ _)
  have halone : ∀ j x, j ≠ i → HasTriple (t.entry i) x → ¬HasTriple (t.entry j) x := fun j x hj hx hjx => by
    rw [hother j hj] at hjx
    rcases hheld x hx with h | h
    · exact hj (huniq j i x hjx h)
    · exact (hunheld x h).2.2 j hjx
  refine ⟨(directoryInForm_iff t).mpr fun j => ?_, fun j k x hj hk => ?_, fun x hx => ?_,
    fun h hh => hrange h (himports hh), fun k e plain hmem => absurd hmem (hprograms k e plain)⟩
  · by_cases hj : j = i
    · exact hj ▸ hform
    · exact hother j hj ▸ (directoryInForm_iff s).mp hforms j
  · by_cases hji : j = i
    · subst hji
      by_contra hne
      exact halone k x (Ne.symm hne) hj hk
    · by_cases hki : k = i
      · subst hki
        exact absurd hj (halone j x hji hk)
      · rw [hother j hji] at hj
        rw [hother k hki] at hk
        exact huniq j k x hj hk
  · obtain ⟨hnot, hwas⟩ := hkept x hx
    obtain ⟨hu, ht⟩ := hs.inRange hwas
    refine ⟨hu, ht, fun j hj => ?_⟩
    by_cases hji : j = i
    · exact hnot (hji ▸ hj)
    · rw [hother j hji] at hj
      rcases hwas with h | h
      · exact (hunheld x h).2.2 j hj
      · exact hji (huniq j i x hj h)

/-- One entry is written, and nothing is under way any more. -/
theorem TriplesUnique.written_last {i : Fin 64} {e : DirEntry} (hd : t.keys.dir = (s.setEntry i e).keys.dir)
    (hform : EntryInForm e) (hheld : ∀ x, HasTriple e x → HasTriple (s.entry i) x ∨ x ∈ keptTriples s)
    (hi : importsUnderWay t = []) (ha : ∀ op ∈ adminOps t.writer, tripleKeptBy op = none) : TriplesUnique t := by
  refine hs.written hd hform hheld ?_ (by simp [hi]) fun k e' plain hmem => by simpa [tripleKeptBy] using ha _ hmem
  rw [keptTriples_eq_nil hi ha]
  exact fun x hx => absurd hx (by simp)

end

end Sys2Proof.Safety

namespace Sys2Proof.Machine

open Sys2Proof.Safety

/-! ### Lookups -/

/-- The executable test for a triple, in the words of the invariant. -/
theorem hasTriple_of_hasTriple {e : DirEntry} {u : Usage} (keySet : BitVec 5) (version : BitVec 4) (hu : u ≠ .none) :
    hasTriple e u (keySet.setWidth 8) (version.setWidth 8) = true ↔ HasTriple e (u, keySet, version) := by
  have hwide : ∀ a b : BitVec 5, a.setWidth 8 = b.setWidth 8 ↔ a = b := fun a b => by bv_omega
  have hwide' : ∀ a b : BitVec 4, a.setWidth 8 = b.setWidth 8 ↔ a = b := fun a b => by bv_omega
  rw [hasTriple_iff, HasTriple, Prod.mk.injEq, Prod.mk.injEq, hwide, hwide']
  constructor
  · rintro ⟨hs, rfl, rfl, rfl⟩
    exact ⟨hs, hu, rfl, rfl, rfl⟩
  · rintro ⟨hs, -, rfl, rfl, rfl⟩
    exact ⟨hs, rfl, rfl, rfl⟩

theorem State.findEntry_eq_some_iff (s : State) (u : Usage) (keySet version : Byte) (i : Fin 64) :
    s.findEntry u keySet version = some i ↔
      hasTriple (s.entry i) u keySet version = true ∧ ∀ j, j < i → ¬hasTriple (s.entry j) u keySet version = true := by
  rw [State.findEntry, List.find?_eq_some_iff_getElem]
  constructor
  · rintro ⟨h, k, hk, rfl, hlow⟩
    refine ⟨h, fun j hj => ?_⟩
    simpa using hlow j.val (by simpa [Fin.lt_def] using hj)
  · rintro ⟨h, hlow⟩
    exact ⟨h, i.val, by simp, by simp, fun j hj => by simpa using hlow ⟨j, by omega⟩ hj⟩

theorem State.findEntry_eq_none_iff (s : State) (u : Usage) (keySet version : Byte) :
    s.findEntry u keySet version = none ↔ ∀ i, ¬hasTriple (s.entry i) u keySet version = true := by
  rw [State.findEntry, List.find?_eq_none]
  exact ⟨fun h i => h i (List.mem_finRange i), fun h i _ => h i⟩

/-- The header of a triple in form, in the words of the invariant (R65). -/
theorem hasTriple_header {h : Block} (hg : headerTripleGood h = true) (e : DirEntry) :
    hasTriple e (usageOf (headerUsage h)) (headerKeySet h) (headerVersion h) = true ↔ HasTriple e (headerTriple h) := by
  obtain ⟨hu, hk, hv, -⟩ := (headerTripleGood_iff h).mp hg
  have h := hasTriple_of_hasTriple (e := e) ((headerKeySet h).setWidth 5) ((headerVersion h).setWidth 4)
    ((usageOf_ne_none _).mpr hu)
  rwa [setWidth_keySet hk, setWidth_version hv] at h

end Sys2Proof.Machine
end

