-- ==== Sys2Proof/Proofs/KeyOperations.lean ====
section
/-! SUPPORT. What each operation of the key store, of an import and of the NV writer does to the triples (R54, R87, R92 to
R94, R100 to R106, R166 to R168, R175). -/

namespace Sys2Proof.Safety

open Sys2Proof.Machine

/-! ### What leaves the key store -/

theorem importsUnderWay_congr {s t : State} (hb : t.keys.buffer = s.keys.buffer)
    (hp : t.engine.importPlace = s.engine.importPlace) (hl : liveImport t.engine = liveImport s.engine) :
    importsUnderWay t = importsUnderWay s := by
  simp only [importsUnderWay, importHeader, hb, hp, hl]

theorem NoNewKeeper.refl (w : NvWriter) : NoNewKeeper w w := .of_subset (List.Subset.refl _)

theorem KeyStoreKept.of_same {s t : State} (h : SamePart s t) : KeyStoreKept s t where
  dir := h.dir
  imports := by rw [importsUnderWay_congr h.buffer (by rw [h.engine]) (by rw [h.engine])]; exact List.Subset.refl _
  keepers := h.writer ▸ .refl _

theorem KeyStoreKept.refl (s : State) : KeyStoreKept s s := .of_same (.refl s)

theorem KeyStoreKept.trans {s t u : State} (h : KeyStoreKept s t) (h' : KeyStoreKept t u) : KeyStoreKept s u where
  dir := h'.dir.trans h.dir
  imports := List.Subset.trans h'.imports h.imports
  keepers op hop hx := h.keepers op (h'.keepers op hop hx) hx

/-- The keys and the NV writer stay, and no job of the engine becomes an import. -/
theorem KeyStoreKept.of_eq {s t : State} (hk : t.keys = s.keys) (hp : t.engine.importPlace = s.engine.importPlace)
    (hj : t.engine.job = s.engine.job) (hw : t.writer = s.writer) : KeyStoreKept s t where
  dir := by rw [hk]
  imports := by
    rw [importsUnderWay_congr (s := s) (by rw [hk]) hp (by simp only [liveImport, hj])]
    exact List.Subset.refl _
  keepers := hw ▸ .refl _

/-- No import job waits, and the one in work, if any, goes on: the buffer may change. -/
theorem KeyStoreKept.of_noPlace {s t : State} (hd : t.keys.dir = s.keys.dir) (hp : s.engine.importPlace = none)
    (he : t.engine = s.engine) (hw : t.writer = s.writer) : KeyStoreKept s t where
  dir := hd
  imports := by simp [importsUnderWay, he, hp]
  keepers := hw ▸ .refl _

/-- The job of the engine goes, or another job than an import starts. -/
theorem KeyStoreKept.of_noImport {s t : State} (hk : t.keys = s.keys) (hp : t.engine.importPlace = s.engine.importPlace)
    (hl : liveImport t.engine = none) (hw : t.writer = s.writer) : KeyStoreKept s t where
  dir := by rw [hk]
  imports := by
    intro h hh
    rw [mem_importsUnderWay, hl, hp, hk] at hh
    exact mem_importsUnderWay.mpr (.inl (hh.resolve_right (by simp)))
  keepers := hw ▸ .refl _

theorem KeyStoreKept.idleEngine (s : State) : KeyStoreKept s s.idleEngine := .of_noImport rfl rfl rfl rfl

/-! ### The NV writer -/

/-- An operation of the writer that is no request holds only what waits. -/
theorem adminOps_of_waiting {w w' : NvWriter} (hw : w'.waiting = w.waiting) (hr : ∀ r, w'.running ≠ some (.request r)) :
    adminOps w' ⊆ adminOps w := by
  have hheld : heldRequests w' = w.waiting := by
    unfold heldRequests
    rw [hw]
    split
    next r h => exact absurd h (hr r)
    next => rfl
  rw [adminOps_eq, adminOps_eq, hheld]
  exact ((waiting_sublist_heldRequests w).filterMap _).subset

/-- A request is taken, or none in a zeroization (R90, R94). -/
theorem mem_adminOps_nvRequest {s : State} {r : NvRequest} {op : AdminOp} (h : op ∈ adminOps (s.nvRequest r).writer) :
    op ∈ adminOps s.writer ∨ adminOpOf r = some op := by
  simp only [State.nvRequest] at h
  split at h
  · exact .inl h
  · simpa using (adminOps_take r s.writer).subset h

/-- A request that keeps no triple is taken. -/
theorem KeyStoreKept.nvRequest {r : NvRequest} (hr : ∀ op, adminOpOf r = some op → tripleKeptBy op = none) (s : State) :
    KeyStoreKept s (s.nvRequest r) where
  dir := rfl
  imports := List.Subset.refl _
  keepers op hop hx := (mem_adminOps_nvRequest hop).resolve_right fun h => hx (hr op h)

theorem KeyStoreKept.reserveWhen (go : Bool) (s : State) : KeyStoreKept s (s.reserveWhen go) where
  dir := rfl
  imports := List.Subset.refl _
  keepers := by
    cases go with
    | false => exact .refl _
    | true => exact .of_subset fun op h => by simpa [adminOpOf] using (adminOps_take _ s.writer).subset h

theorem KeyStoreKept.switchEpoch (e : BitVec 16) (s : State) : KeyStoreKept s (s.switchEpoch e) := by
  refine KeyStoreKept.trans ?_ (.nvRequest (r := .epochRecord e) (by simp [adminOpOf]) _)
  exact .of_eq rfl rfl rfl rfl

/-- An operation of the writer ends, and the writer goes on (R90). -/
theorem KeyStoreKept.of_goOn {s t : State} (hk : t.keys = s.keys) (he : t.engine = s.engine)
    (hw : t.writer = s.writer.goOn) : KeyStoreKept s t where
  dir := by rw [hk]
  imports := by rw [importsUnderWay_congr (s := s) (by rw [hk]) (by rw [he]) (by rw [he])]; exact List.Subset.refl _
  keepers := hw ▸ .of_subset (adminOps_goOn s.writer).subset

/-- The operation that runs changes to one that is no request (R168, R170, R176). -/
theorem KeyStoreKept.of_running {s t : State} (hk : t.keys = s.keys) (he : t.engine = s.engine)
    (hw : t.writer.waiting = s.writer.waiting) (hr : ∀ r, t.writer.running ≠ some (.request r)) : KeyStoreKept s t where
  dir := by rw [hk]
  imports := by rw [importsUnderWay_congr (s := s) (by rw [hk]) (by rw [he]) (by rw [he])]; exact List.Subset.refl _
  keepers := .of_subset (adminOps_of_waiting hw hr)

/-! ### Start-up (R54, R167 to R170) -/

theorem KeyStoreKept.beginReserve (s : State) : KeyStoreKept s s.beginReserve := by
  rcases s.beginReserve_phase with ⟨-, e⟩ | ⟨-, -, -, e⟩
  · exact .of_eq (by simp) (by simp) (by simp) e
  · exact .of_running (by simp) (by simp) (by rw [e]) (by simp [e])

theorem KeyStoreKept.continueCheck (n : Nat) (s : State) : KeyStoreKept s (s.continueCheck n) := by
  rcases s.continueCheck_cases n with ⟨i, e⟩ | e <;> rw [e]
  · exact .of_noImport rfl rfl rfl rfl
  · exact .beginReserve s

/-- Outside RUNNING nothing is under way (R166). -/
theorem StartUpOrder.nothing_underWay {s : State} (hst : StartUpOrder s) (hp : s.life.phase ≠ .running) :
    importsUnderWay s = [] ∧ adminOps s.writer = [] := by
  obtain ⟨-, hplace, hlive, hwait, hrun⟩ := hst.quiet hp
  exact ⟨importsUnderWay_eq_nil hplace hlive, by rw [adminOps_eq, heldRequests_eq_nil hwait hrun]; rfl⟩

/-- The end of a CHECK job keeps the triple of its entry (R54). -/
theorem checkedEntry_cases (e : DirEntry) (key : Option Block) :
    checkedEntry e key = e ∨ (e.state ≠ .empty ∧ checkedEntry e key = { e with state := .damaged }) := by
  unfold checkedEntry
  split
  next h => split <;> simp [h]
  next h => split <;> simp [h]
  next => exact .inl rfl

/-- A CHECK job ends, and nothing is under way. -/
theorem TriplesUnique.checked {s : State} (hs : TriplesUnique s) (hi : importsUnderWay s = [])
    (ha : adminOps s.writer = []) (i : Fin 64) (key : Option Block) :
    TriplesUnique ((s.idleEngine.setEntry i (checkedEntry (s.entry i) key)).continueCheck (i.val + 1)) := by
  have hform := (directoryInForm_iff s).mp hs.1 i
  have hnone : importsUnderWay s.idleEngine = [] :=
    List.eq_nil_of_subset_nil (hi ▸ (KeyStoreKept.idleEngine s).imports)
  refine TriplesUnique.kept ?_ (.continueCheck _ _)
  refine hs.written_last (i := i) (e := checkedEntry (s.entry i) key) rfl ?_ (fun x hx => .inl ?_) hnone
    fun op hop => absurd (show op ∈ adminOps s.writer from hop) (by simp [ha])
  · rcases checkedEntry_cases (s.entry i) key with e | ⟨-, e⟩ <;> rw [e]
    · exact hform
    · exact entryInForm_damaged rfl hform.transport
  · rcases checkedEntry_cases (s.entry i) key with e | ⟨hne, e⟩ <;> rw [e] at hx
    · exact hx
    · exact hx.of_same hne rfl rfl rfl

/-- The entry that NV_READ places is in form (R87, R167). -/
theorem entryInForm_entryOfRecord (r : NvRecord) : EntryInForm (entryOfRecord r) := by
  by_cases he : RecordEmpty r
  · rw [entryOfRecord_empty he]
    exact entryInForm_emptied
  obtain ⟨hne, hu, hk, -⟩ := entryOfRecord_nonEmpty he
  refine ⟨fun h => absurd h hne, fun h => ?_, fun h => ?_⟩
  · by_cases hr : RecordInRange r
    · refine ⟨?_, by rw [entryOfRecord_inRange hr]; rfl⟩
      obtain ⟨-, husage, -⟩ := hr
      rw [hu, usageOf_ne_none]
      exact husage
    · rw [entryOfRecord_outOfForm he hr] at h
      simp at h
  · have hset : keptKeySet r = 0#8 := by
      have husage : r.usage = 0x01#8 := (usageOf_eq_transport _).mp (hu ▸ h)
      unfold keptKeySet
      split
      next hin => exact hin.2.resolve_left (not_not.mpr husage)
      next => rfl
    rw [hk, hset]
    rfl

/-- NV_READ forms the directory: a record that repeats a triple gives an entry without one (R167). -/
theorem TriplesUnique.directoryFormed {s t : State} (hd : ∀ i, t.entry i = s.readEntry i) (hi : importsUnderWay t = [])
    (ha : adminOps t.writer = []) : TriplesUnique t := by
  have hnameless : ∀ i x, RepeatsTriple s i → ¬HasTriple (s.readEntry i) x := fun i x hr h => by
    rw [State.readEntry_of_repeats hr] at h
    exact h.2.1 rfl
  have hlower : ∀ i j x, i < j → HasTriple (s.readEntry i) x → ¬HasTriple (s.readEntry j) x := fun i j x hij hx hy => by
    by_cases hri : RepeatsTriple s i
    · exact hnameless i x hri hx
    by_cases hrj : RepeatsTriple s j
    · exact hnameless j x hrj hy
    rw [State.readEntry_of_not_repeats hri] at hx
    rw [State.readEntry_of_not_repeats hrj] at hy
    have hj : ¬RecordEmpty (s.record j) := fun h => not_hasTriple_emptied x (entryOfRecord_empty h ▸ hy)
    obtain ⟨-, hu, rfl⟩ := hy
    exact hrj ⟨i, hij, (sameTriple_iff hj).mpr ⟨hu, (hasTriple_of_hasTriple _ _ hu).mpr hx⟩⟩
  refine ⟨(directoryInForm_iff t).mpr fun i => ?_, fun i j x hx hy => ?_, ?_, by simp [hi], by simp [ha]⟩
  · rw [hd, State.readEntry]
    split
    · exact entryInForm_damaged rfl (by simp [damagedNameless])
    · exact entryInForm_entryOfRecord _
  · rw [hd] at hx hy
    rcases lt_trichotomy i j with h | h | h
    · exact absurd hy (hlower i j x h hx)
    · exact h
    · exact absurd hx (hlower j i x h hy)
  · rw [keptTriples_eq_nil hi (by simp [ha])]
    simp

/-- A zeroization starts (R175). -/
theorem TriplesUnique.zeroization {s t : State} (hs : TriplesUnique s) (h : ZeroizationFields s t) : TriplesUnique t :=
  hs.emptied (fun i => by simp [State.entry, h.dir]) (by simp [importsUnderWay, liveImport, h.engine])
    (h.writer ▸ .of_subset (adminOps_startZeroize s.writer).subset)

/-- NV_READ is left (R169, R174). -/
theorem TriplesUnique.leaveNvRead {s : State} (hs : TriplesUnique s) : TriplesUnique s.leaveNvRead := by
  have hleft : TriplesUnique { s with life := { s.life with phase := .keyCheck, deferred := false } } :=
    hs.kept (.of_eq rfl rfl rfl rfl)
  rcases s.leaveNvRead_cases with ⟨e, -⟩ | e <;> rw [e]
  · exact hleft.zeroization (State.startZeroization_fields _)
  · exact hleft.kept (.continueCheck 0 _)

/-! ### The ends of admin operations (R92 to R94, R104 to R106) -/

/-- The admin operation that runs is the only one (R90). -/
theorem ImportAndWriter.adminOps_running {s : State} (hs : ImportAndWriter s) {op : AdminOp}
    (hr : s.writer.running = some (.request (.admin op))) :
    adminOps s.writer = [op] ∧ s.writer.waiting.filterMap adminOpOf = [] := by
  have hops : adminOps s.writer = op :: s.writer.waiting.filterMap adminOpOf := by
    simp [adminOps_eq, heldRequests, hr, adminOpOf]
  have hlen := hs.2.1
  have hrest : s.writer.waiting.filterMap adminOpOf = [] := by
    rw [hops] at hlen
    exact List.length_eq_zero_iff.mp (by simpa using hlen)
  exact ⟨hrest ▸ hops, hrest⟩

/-- While an admin operation runs before any zeroization, no import is under way (R101). -/
theorem ImportAndWriter.no_import {s : State} (hs : ImportAndWriter s) {op : AdminOp} (hop : op ∈ adminOps s.writer)
    (hz : s.zeroing = false) : s.engine.importPlace = none ∧ liveImport s.engine = none := by
  have hshown := ((importAndWriter_iff s).mp hs).2
  have hi : s.keys.importState = .nvWriting := hshown.2.2.1.mpr ⟨List.ne_nil_of_mem hop, hz⟩
  exact hshown.noJob (by simp [hi])

/-- What the outcome of an admin operation makes of the directory (R92, R93, R104 to R106). -/
theorem deliverAdmin_dir (op : AdminOp) (passed : Bool) (s : State) :
    (s.deliverAdmin op passed).keys.dir = s.keys.dir ∨
    ∃ i e, (s.deliverAdmin op passed).keys.dir = (s.setEntry i e).keys.dir ∧
      ((∃ placed plain, op = .program i placed plain ∧ (e = placed ∨ e = damagedWithoutKey placed)) ∨
        (∃ kept, op = .eraseEntry i kept ∧ e = damagedWithoutKey kept) ∨
        e = { s.entry i with state := .damaged }) := by
  cases op with
  | program i placed plain =>
    refine .inr ⟨i, if passed then placed else damagedWithoutKey placed, ?_, .inl ⟨placed, plain, rfl, ?_⟩⟩
    · cases plain <;> cases passed <;> rfl
    · cases passed <;> simp
  | eraseEntry i kept =>
    cases passed with
    | true => exact .inl rfl
    | false => exact .inr ⟨i, _, rfl, .inr (.inl ⟨kept, rfl, rfl⟩)⟩
  | markRevoked i =>
    cases passed with
    | true => exact .inl rfl
    | false => exact .inr ⟨i, _, rfl, .inr (.inr rfl)⟩
  | _ => cases passed <;> exact .inl rfl

/-- The entry that the outcome of an admin operation places is in form, and takes no triple but its own or the one that the
operation has kept (R104 to R106). -/
theorem TriplesUnique.delivered {s t : State} (hs : TriplesUnique s) {op : AdminOp} (hop : op ∈ adminOps s.writer)
    {passed : Bool} (hd : t.keys.dir = (s.deliverAdmin op passed).keys.dir) (hi : importsUnderWay t = [])
    (ha : ∀ op ∈ adminOps t.writer, tripleKeptBy op = none) : TriplesUnique t := by
  have hkeeps : ∀ {x}, tripleKeptBy op = some x → x ∈ keptTriples s := fun h => mem_keptTriples.mpr (.inr ⟨op, hop, h⟩)
  rcases deliverAdmin_dir op passed s with e | ⟨i, e, hdir, ⟨placed, plain, rfl, he⟩ | ⟨kept, rfl, rfl⟩ | rfl⟩
  · refine hs.of_dir (hd.trans e) (by simp [hi]) (by simp [keptTriples_eq_nil hi ha]) fun k e' plain hmem => ?_
    simpa [tripleKeptBy] using ha _ hmem
  · obtain ⟨hu, ht⟩ := hs.keeper_inRange hop rfl
    obtain ⟨hl, hkey, -⟩ := hs.2.2.2.2 i placed plain hop
    refine hs.written_last (hd.trans hdir) ?_ (fun x hx => .inr (hkeeps ?_)) hi ha
    · rcases he with rfl | rfl
      · exact ⟨fun h => by simp [hl] at h, fun _ => ⟨hu, hkey⟩, ht⟩
      · exact entryInForm_damaged rfl ht
    · rcases he with rfl | rfl <;> exact congrArg some hx.2.2.symm
  · obtain ⟨-, ht⟩ := hs.keeper_inRange hop rfl
    exact hs.written_last (hd.trans hdir) (entryInForm_damaged rfl ht)
      (fun x hx => .inr (hkeeps (congrArg some hx.2.2.symm))) hi ha
  · have hform := (directoryInForm_iff s).mp hs.1 i
    refine hs.written_last (hd.trans hdir) (entryInForm_damaged rfl hform.transport) (fun x hx => .inl ?_) hi ha
    refine hx.of_same (fun hempty => hx.2.1 ?_) rfl rfl rfl
    show (s.entry i).usage = .none
    rw [hform.empty hempty]
    rfl

/-- An admin operation ends (R92 to R94). -/
theorem TriplesUnique.endAdmin {s : State} (hs : TriplesUnique s) (himp : ImportAndWriter s) {op : AdminOp}
    (passed : Bool) (hr : s.writer.running = some (.request (.admin op))) : TriplesUnique (s.endAdmin op passed) := by
  obtain ⟨hops, hrest⟩ := himp.adminOps_running hr
  have hop : op ∈ adminOps s.writer := by simp [hops]
  have hnv : TriplesUnique (s.adminInNv op passed) := hs.kept (.of_eq (by simp) (by simp) (by simp) (by simp))
  have hopnv : op ∈ adminOps (s.adminInNv op passed).writer := by simpa using hop
  have hgo : adminOps s.writer.goOn = [] := by rw [adminOps_eq, heldRequests_goOn_eq, hrest]
  have himports : s.zeroing = false → ∀ t : State, t.engine = s.engine → importsUnderWay t = [] := fun hz t he => by
    obtain ⟨hp, hl⟩ := himp.no_import hop hz
    exact importsUnderWay_eq_nil (he ▸ hp) (he ▸ hl)
  rcases s.endAdmin_cases op passed with ⟨hz, e⟩ | ⟨hz, i, e', rfl, rfl, e⟩ | ⟨hz, hf, e⟩ <;> rw [e]
  · exact hnv.kept (.of_goOn rfl rfl rfl)
  · refine hnv.delivered hopnv (passed := true) rfl (himports hz _ (by simp)) ?_
    rw [adminOps_eq]
    simp [heldRequests, adminOpOf, hrest, tripleKeptBy]
  · refine hnv.delivered hopnv (passed := passed) rfl (himports hz _ (by simp)) fun o ho => ?_
    simp [State.nvNext, hgo] at ho

end Sys2Proof.Safety
end

