-- ==== Sys2Proof/Proofs/ImportTriples.lean ====
section
/-! SUPPORT. What the import commands, the import job, the hold and a map load do to the triples (R49, R53, R96, R100 to
R111, R158, R192). -/

namespace Sys2Proof.Safety

open Sys2Proof.Machine

/-! ### Commands that end as they are taken (R97, R100) -/

theorem ImportAndWriter.no_place {s : State} (hs : ImportAndWriter s) (hi : s.keys.importState ≠ .queued) :
    s.engine.importPlace = none := by
  have := hs.2.2.2.2.1
  simpa using mt this.mpr hi

/-- A command that ends at once leaves what is under way: only BUSY can find an import job waiting, and it leaves the
buffer (R97). -/
theorem KeyStoreKept.endAtOnce {s : State} {code : ImportCode} (h : code = .busy ∨ s.engine.importPlace = none)
    (command : Byte) (index : Fin 64) (check : BitVec 24) : KeyStoreKept s (s.endAtOnce command code index check) := by
  rcases h with rfl | h
  · exact ⟨rfl, List.Subset.refl _, .refl _⟩
  · exact .of_noPlace rfl h rfl rfl

/-- While an import job waits, every command is refused with BUSY (R100, R114). -/
theorem ImportAndWriter.refusal_busy {s : State} (hs : ImportAndWriter s) {cmd : Option ImportCmd} {upper : BitVec 56}
    {code : ImportCode} (h : s.importRefusal cmd upper = some code) : code = .busy ∨ s.engine.importPlace = none := by
  by_cases hi : s.keys.importState = .queued
  · obtain ⟨-, -, -, -, -, -, -, hfree⟩ := hs
    obtain ⟨hh, hz, -⟩ := hfree (.inl hi)
    simp [State.importRefusal, hi, hh, hz] at h
    exact .inl h.symm
  · exact .inr (hs.no_place hi)

/-- A beat of the blob is captured only while no import is under way (R96). -/
theorem KeyStoreKept.captureBlob {s : State} (hs : ImportAndWriter s) (w : Nat) (b : WriteBeat) :
    KeyStoreKept s (s.captureBlob w b) := by
  simp only [State.captureBlob]
  repeat' split
  next hc =>
    obtain ⟨-, hi, -⟩ := s.capturing_iff.mp hc
    exact .of_noPlace rfl (hs.no_place (by simp [hi])) rfl rfl
  all_goals exact .refl s

/-- Nothing is under way while the import state is IDLE, before any zeroization. -/
theorem ImportAndWriter.idle_nothing {s : State} (himp : ImportAndWriter s) (hi : s.keys.importState = .idle)
    (hz : s.zeroing = false) : importsUnderWay s = [] ∧ adminOps s.writer = [] := by
  have hshown := ((importAndWriter_iff s).mp himp).2
  obtain ⟨hp, hl⟩ := hshown.noJob (by simp [hi])
  exact ⟨importsUnderWay_eq_nil hp hl, hshown.noAdmin hz (by simp [hi])⟩

/-! ### Commands that are carried out (R101 to R111) -/

section
variable {s : State} (hs : TriplesUnique s) (himp : ImportAndWriter s) (hi : s.keys.importState = .idle)
include hs himp hi

/-- A command that finds the import state IDLE ends at once. -/
theorem TriplesUnique.endAtOnce (command : Byte) (code : ImportCode) (index : Fin 64) (check : BitVec 24) :
    TriplesUnique (s.endAtOnce command code index check) :=
  hs.kept (.endAtOnce (.inr (himp.no_place (by simp [hi]))) command index check)

/-- An INQUIRE writes its record and ends (R108). -/
theorem TriplesUnique.carryInquire (upper : BitVec 56) : TriplesUnique (s.carryInquire upper) :=
  hs.kept (.of_noPlace rfl (himp.no_place (by simp [hi])) rfl rfl)

/-- SET_READER, FIELD_LOCK: a request that keeps no triple (R109, R110). -/
theorem TriplesUnique.placeAdmin (cmd : ImportCmd) {op : AdminOp} (hop : tripleKeptBy op = none) :
    TriplesUnique (s.placeAdmin cmd op) := by
  refine hs.kept (KeyStoreKept.trans (t := s.startImport cmd .nvWriting) ?_ (.nvRequest ?_ _))
  · exact .of_noPlace rfl (himp.no_place (by simp [hi])) rfl rfl
  · intro op' h
    obtain rfl : op = op' := by simpa [adminOpOf] using h
    exact hop

theorem TriplesUnique.carrySetReader (upper : BitVec 56) : TriplesUnique (s.carrySetReader upper) := by
  simp only [State.carrySetReader]
  split
  · exact hs.endAtOnce himp hi _ _ _ _
  · exact hs.placeAdmin himp hi _ rfl

theorem TriplesUnique.carryFieldLock : TriplesUnique s.carryFieldLock := by
  simp only [State.carryFieldLock]
  repeat' split
  · exact hs.endAtOnce himp hi _ _ _ _
  · exact hs.endAtOnce himp hi _ _ _ _
  · exact hs.placeAdmin himp hi _ rfl

section
variable (hz : s.zeroing = false)
include hz

/-- LOAD_PLAIN or LOAD places its job: the header's triple is kept from now on, and no entry has it (R102, R103). -/
theorem TriplesUnique.placeUnlessTaken (cmd : ImportCmd) (kind : ImportKind)
    (hg : headerTripleGood (importHeader s.keys) = true) :
    TriplesUnique (s.placeUnlessTaken cmd kind (importHeader s.keys)) := by
  simp only [State.placeUnlessTaken]
  split
  · exact hs.endAtOnce himp hi _ _ _ _
  next hnone =>
    split
    · exact hs.endAtOnce himp hi _ _ _ _
    · obtain ⟨himports, hops⟩ := himp.idle_nothing hi hz
      obtain ⟨hu, hk, hv, ht⟩ := (headerTripleGood_iff _).mp hg
      obtain ⟨-, hlive⟩ := ((importAndWriter_iff s).mp himp).2.noJob (by simp [hi])
      have hunder : importsUnderWay (s.placeImportJob cmd kind) = [importHeader s.keys] := by
        simp only [importsUnderWay]
        rw [show liveImport (s.placeImportJob cmd kind).engine = none from hlive]
        rfl
      have hwriter : adminOps (s.placeImportJob cmd kind).writer = [] := hops
      obtain ⟨hform, huniq, -⟩ := hs
      refine ⟨hform, huniq, fun x hx => ?_, fun h hh => ?_, by simp [hwriter]⟩
      · obtain rfl : headerTriple (importHeader s.keys) = x := by
          simpa [mem_keptTriples, hunder, hwriter] using hx
        refine ⟨(usageOf_ne_none _).mpr hu, fun h => ?_, fun i hx => ?_⟩
        · exact congrArg (BitVec.setWidth 5) (ht ((usageOf_eq_transport _).mp h))
        · exact (State.findEntry_eq_none_iff _ _ _ _).mp hnone i ((hasTriple_header hg _).mpr hx)
      · obtain rfl : h = importHeader s.keys := by simpa [hunder] using hh
        exact ⟨hk, hv⟩

theorem TriplesUnique.carryLoadPlain : TriplesUnique s.carryLoadPlain := by
  simp only [State.carryLoadPlain]
  split
  · exact hs.endAtOnce himp hi _ _ _ _
  next hg =>
    refine hs.placeUnlessTaken himp hi hz _ _ ?_
    simp only [headerGoodPlain, Bool.not_eq_true', Bool.not_eq_false, Bool.and_eq_true, beq_iff_eq, decide_eq_true_eq,
      and_assoc] at hg
    obtain ⟨hu, hk, hv, -⟩ := hg
    simp [headerTripleGood, hu, hk, hv]

theorem TriplesUnique.carryLoad : TriplesUnique s.carryLoad := by
  simp only [State.carryLoad]
  repeat' split
  · exact hs.endAtOnce himp hi _ _ _ _
  · exact hs.endAtOnce himp hi _ _ _ _
  next hg _ =>
    refine hs.placeUnlessTaken himp hi hz _ _ ?_
    simp only [headerGoodLoad, Bool.not_eq_true', Bool.not_eq_false, Bool.and_eq_true] at hg
    exact hg.1.1.1

/-- REVOKE and ERASE write the entry that they name, withdraw it and place their request: what the request keeps is the
entry's triple, or nothing (R105, R106). -/
theorem TriplesUnique.withdrawn (cmd : ImportCmd) {i : Fin 64} {e : DirEntry} {op : AdminOp} (hform : EntryInForm e)
    (hheld : ∀ x, HasTriple e x → HasTriple (s.entry i) x)
    (hkeeps : ∀ x, tripleKeptBy op = some x → HasTriple (s.entry i) x ∧ ¬HasTriple e x)
    (hop : ∀ k e' plain, op ≠ .program k e' plain) :
    TriplesUnique (((s.setEntry i e).withdraw i).placeAdmin cmd op) := by
  obtain ⟨himports, hops⟩ := himp.idle_nothing hi hz
  have hunder : importsUnderWay (((s.setEntry i e).withdraw i).placeAdmin cmd op) = [] := himports
  have hmem : ∀ o ∈ adminOps (((s.setEntry i e).withdraw i).placeAdmin cmd op).writer, o = op := fun o ho => by
    rcases mem_adminOps_nvRequest ho with h | h
    · exact absurd (show o ∈ adminOps s.writer from h) (by simp [hops])
    · simpa [adminOpOf, eq_comm] using h
  refine hs.written rfl hform (fun x hx => .inl (hheld x hx)) (fun x hx => ?_) (by simp [hunder])
    fun k e' plain h => hop k e' plain (hmem _ h).symm
  obtain ⟨o, ho, hx⟩ : ∃ o ∈ adminOps (((s.setEntry i e).withdraw i).placeAdmin cmd op).writer,
      tripleKeptBy o = some x := by simpa [mem_keptTriples, hunder] using hx
  obtain ⟨hhas, hnot⟩ := hkeeps x (hmem o ho ▸ hx)
  exact ⟨hnot, .inr hhas⟩

theorem TriplesUnique.carryRevoke : TriplesUnique s.carryRevoke := by
  simp only [State.carryRevoke]
  repeat' split
  · exact hs.endAtOnce himp hi _ _ _ _
  · exact hs.endAtOnce himp hi _ _ _ _
  · exact hs.endAtOnce himp hi _ _ _ _
  · exact hs.endAtOnce himp hi _ _ _ _
  next i hnamed hl hp =>
    have hloaded : (s.entry i).state = .loaded := by simpa using hl
    obtain ⟨-, hkeyed, ht⟩ := (directoryInForm_iff s).mp hs.1 i
    refine hs.withdrawn himp hi hz .revoke ⟨by simp, fun _ => hkeyed (.inl hloaded), ht⟩
      (fun x hx => hx.of_same (by simp [hloaded]) rfl rfl rfl) (by simp [tripleKeptBy]) (by simp)

theorem TriplesUnique.carryErase : TriplesUnique s.carryErase := by
  simp only [State.carryErase]
  repeat' split
  · exact hs.endAtOnce himp hi _ _ _ _
  · exact hs.endAtOnce himp hi _ _ _ _
  · exact hs.endAtOnce himp hi _ _ _ _
  next hg _ i hnamed hp =>
    have hhas : HasTriple (s.entry i) (headerTriple (importHeader s.keys)) :=
      (hasTriple_header (by simpa using hg) _).mp ((State.findEntry_eq_some_iff _ _ _ _ _).mp hnamed).1
    refine hs.withdrawn himp hi hz .erase entryInForm_emptied (fun x hx => absurd hx (not_hasTriple_emptied x))
      (fun x hx => ⟨?_, not_hasTriple_emptied x⟩) (by simp)
    obtain ⟨hne, hu, -⟩ := hhas
    exact ⟨hne, hu, by simpa [tripleKeptBy, keptWithRequest, eq_comm] using hx⟩

end

end

/-- A command that no check refuses is carried out (R101 to R111). -/
theorem TriplesUnique.carryImport {s : State} (hs : TriplesUnique s) (himp : ImportAndWriter s) {cmd : ImportCmd}
    {upper : BitVec 56} (h : s.importRefusal (some cmd) upper = none) : TriplesUnique (s.carryImport cmd upper) := by
  obtain ⟨hzero, -, hi, -⟩ := State.importRefusal_none h
  have hz : cmd ≠ .inquire → s.zeroing = false := fun hc => Bool.eq_false_iff.mpr fun he => hc (hzero he)
  cases cmd with
  | loadPlain => exact hs.carryLoadPlain himp hi (hz (by simp))
  | load => exact hs.carryLoad himp hi (hz (by simp))
  | revoke => exact hs.carryRevoke himp hi (hz (by simp))
  | erase => exact hs.carryErase himp hi (hz (by simp))
  | inquire => exact hs.carryInquire himp hi upper
  | setReader => exact hs.carrySetReader himp hi upper
  | fieldLock => exact hs.carryFieldLock himp hi
  | zeroize => exact (hs.endAtOnce himp hi _ _ _ _).zeroization (State.startZeroization_fields _)

theorem TriplesUnique.takeImportCommand {s : State} (hs : TriplesUnique s) (himp : ImportAndWriter s) (code : Byte)
    (upper : BitVec 56) : TriplesUnique (s.takeImportCommand code upper) := by
  simp only [State.takeImportCommand]
  split
  · exact hs
  · split
    next hr => exact hs.kept (.endAtOnce (himp.refusal_busy hr) _ _ _)
    next hr hc => exact hs.carryImport himp (hc ▸ hr)
    next => exact hs

/-! ### The import job (R42, R49, R53) -/

/-- The engine takes the import job that waits: its header is that of the buffer (R42). -/
theorem KeyStoreKept.takeImportJob {s : State} {kind : ImportKind} (hp : s.engine.importPlace = some kind) :
    KeyStoreKept s (s.takeImportJob kind) where
  dir := rfl
  imports h hh := by
    obtain rfl : importHeader s.keys = h := by
      simpa [mem_importsUnderWay, State.takeImportJob, State.startJob, liveImport] using hh
    exact mem_importsUnderWay.mpr (.inl ⟨by simp [hp], rfl⟩)
  keepers := .refl _

/-- The result of an import job is handed over: its program keeps the triple that the job has kept (R53, R104). -/
theorem TriplesUnique.handOver {s : State} (hs : TriplesUnique s) (himp : ImportAndWriter s) {h : Block}
    (hl : liveImport s.engine = some h) (kind : ImportKind) (res : Sum ImportCode (Block × BitVec 24)) :
    TriplesUnique (s.idleEngine.handOver kind h res) := by
  have hshown := ((importAndWriter_iff s).mp himp).2
  have hw : s.keys.importState = .working := hshown.2.1.mpr (by simp [hl])
  obtain ⟨-, hz, -⟩ := hshown.2.2.2 (.inr hw)
  have hp := himp.no_place (by simp [hw])
  have hops := hshown.noAdmin hz (by simp [hw])
  simp only [State.handOver]
  repeat' split
  · exact (hs.kept (.idleEngine s)).kept (.of_noPlace rfl hp rfl rfl)
  · exact hs.kept (.idleEngine s)
  next key check _ i hempty =>
    have hstate : (s.idleEngine.entry i).state = .empty := by simpa using List.find?_some hempty
    have hkept : headerTriple h ∈ keptTriples s :=
      mem_keptTriples.mpr (.inl ⟨h, mem_importsUnderWay.mpr (.inr hl), rfl⟩)
    have hprogram : ∀ op ∈ adminOps ({ s.idleEngine with keys := { s.idleEngine.keys with
        importState := .nvWriting } }.nvRequest (.admin (.program i (entryOfHeader h key check)
          (kind == ImportKind.loadPlain)))).writer,
        op = .program i (entryOfHeader h key check) (kind == ImportKind.loadPlain) := fun op hop => by
      rcases mem_adminOps_nvRequest hop with hmem | hmem
      · exact absurd (show op ∈ adminOps s.writer from hmem) (by simp [hops])
      · simpa [adminOpOf, eq_comm] using hmem
    refine hs.of_dir rfl ?_ (fun x hx => ?_) fun k e plain hmem => ?_
    · show importsUnderWay s.idleEngine ⊆ importsUnderWay s
      exact (KeyStoreKept.idleEngine s).imports
    · rcases mem_keptTriples.mp hx with ⟨h', hh, -⟩ | ⟨op, hop, hx⟩
      · have hnone : importsUnderWay s.idleEngine = [] := importsUnderWay_eq_nil hp rfl
        exact absurd (show h' ∈ importsUnderWay s.idleEngine from hh) (by simp [hnone])
      · obtain rfl := hprogram op hop
        obtain rfl : headerTriple h = x := Option.some.inj hx
        exact hkept
    · obtain ⟨rfl, rfl, -⟩ := AdminOp.program.inj (hprogram _ hmem)
      exact ⟨rfl, rfl, hstate⟩

/-! ### The hold and a map load (R49, R158, R192) -/

theorem liveImport_holdEngine (e : Engine) : liveImport (holdEngine e) = none := by
  cases h : e.job <;> simp [liveImport, holdEngine, h]

/-- The hold ends the import under way (R49, R192). -/
theorem KeyStoreKept.setHold (s : State) : KeyStoreKept s s.setHold where
  dir := by
    rw [State.setHold_eq]
    show s.endImportByHold.keys.dir = s.keys.dir
    unfold State.endImportByHold
    split <;> rfl
  imports := by
    have hnone : importsUnderWay s.setHold = [] := importsUnderWay_eq_nil rfl (liveImport_holdEngine _)
    simp [hnone]
  keepers := by
    rw [State.setHold_eq]
    exact .refl s.writer

theorem KeyStoreKept.installMap (new : Vector Descriptor 16) (s : State) : KeyStoreKept s (s.installMap new) where
  dir := rfl
  imports := by
    have hlive : liveImport (s.installMap new).engine = liveImport s.engine := liveImport_discardDropped s.engine _
    rw [importsUnderWay_congr (s := s) (t := s.installMap new) rfl rfl hlive]
    exact List.Subset.refl _
  keepers := .refl _

end Sys2Proof.Safety
end

