-- ==== Sys2Proof/Proofs/KeyTripleRows.lean ====
section
/-! SUPPORT. What every row does to the key directory and to the triples that are kept, operation by operation, and O56
(R87). -/

namespace Sys2Proof.Safety

open Sys2Proof.Machine

/-! ### Slot commands and shadows -/

theorem KeyStoreKept.carryOpen (r : SlotRef) (c : SlotCtx) (s : State) : KeyStoreKept s (s.carryOpen r c) := by
  refine KeyStoreKept.trans (t := (s.setCtx r (openedCtx s r c)).issueChallenge) (.of_eq rfl rfl rfl rfl) ?_
  exact (KeyStoreKept.reserveWhen _ _).trans (.of_same (.raiseLow _ _))

theorem KeyStoreKept.carrySlot (cmd : SlotCmd) (r : SlotRef) (c : SlotCtx) (s : State) :
    KeyStoreKept s (s.carrySlot cmd r c) := by
  cases cmd with
  | open' => exact .carryOpen r c s
  | arm => refine .of_eq ?_ ?_ ?_ ?_ <;> simp only [State.carrySlot, State.carryArm] <;> split <;> rfl
  | abort =>
    refine .of_eq ?_ ?_ ?_ ?_ <;> simp only [State.carrySlot, State.carryAbort, State.carryRelease] <;>
      repeat' split
    all_goals rfl
  | _ => exact .of_eq rfl rfl rfl rfl

theorem KeyStoreKept.refuseSlot (res : SlotResult) (r : SlotRef) (c : SlotCtx) (s : State) :
    KeyStoreKept s (s.refuseSlot res r c) := by
  have hset : KeyStoreKept s (s.setCtx r { c with lastResult := res }) := .of_eq rfl rfl rfl rfl
  simp only [State.refuseSlot]
  split
  · exact hset.trans (.reserveWhen _ _)
  · exact hset

theorem KeyStoreKept.takeSlotCommand (i : Initiator) (r : SlotRef) (cmd : Option SlotCmd) (upper : BitVec 56)
    (s : State) : KeyStoreKept s (s.takeSlotCommand i r cmd upper) := by
  simp only [State.takeSlotCommand]
  split
  · exact .refl s
  · split
    · exact .refuseSlot _ _ _ s
    · exact .carrySlot _ _ _ s
    · exact .refl s

theorem KeyStoreKept.shadowInbound (r : SlotRef) (w : Fin 4) (b : WriteBeat) (s : State) :
    KeyStoreKept s (s.shadowInbound r w b) := by
  simp only [State.shadowInbound]
  repeat' split
  all_goals exact .of_eq rfl rfl rfl rfl

theorem KeyStoreKept.shadowPayload (r : SlotRef) (w : Fin 4) (b : WriteBeat) (s : State) :
    KeyStoreKept s (s.shadowPayload r w b) := by
  simp only [State.shadowPayload]
  repeat' split
  all_goals exact .of_eq rfl rfl rfl rfl

theorem KeyStoreKept.deadline (r : SlotRef) (c : SlotCtx) (s : State) : KeyStoreKept s (s.deadline r c) := by
  simp only [State.deadline]
  repeat' split
  all_goals exact .of_eq (by simp) rfl rfl (by simp)

/-! ### The settings -/

theorem KeyStoreKept.writeHold (w : Word) (s : State) : KeyStoreKept s (s.writeHold w) := by
  simp only [State.writeHold]
  repeat' split
  · exact .refl s
  · exact .setHold s
  · exact .of_eq rfl rfl rfl rfl

theorem KeyStoreKept.writeEpochControl (w : Word) (s : State) : KeyStoreKept s (s.writeEpochControl w) := by
  simp only [State.writeEpochControl, State.switchNow]
  repeat' split
  · exact .switchEpoch _ s
  all_goals exact .of_eq rfl rfl rfl rfl

theorem KeyStoreKept.applySetting (word : StatusWord) (w : Word) (s : State) :
    KeyStoreKept s (s.applySetting word w) := by
  cases word with
  | hold => exact .writeHold w s
  | epoch =>
    simp only [State.applySetting, State.writeSchedule]
    split <;> exact .of_eq rfl rfl rfl rfl
  | epochControl => exact .writeEpochControl w s
  | causes =>
    simp only [State.applySetting, State.clearCauses]
    split <;> exact .of_eq rfl rfl rfl rfl
  | _ => exact .of_eq rfl rfl rfl rfl

theorem KeyStoreKept.writeStatus (word : StatusWord) (w : Word) (s : State) :
    KeyStoreKept s (s.writeStatus word w) := by
  simp only [State.writeStatus]
  split
  · exact .applySetting word w s
  · exact .refl s

/-! ### Beats, and the rows that are one beat -/

/-- The invariants that the beats of one write hand on to each other. -/
structure KeysInOrder (s : State) : Prop where
  startUp : StartUpOrder s
  imports : ImportAndWriter s
  triples : TriplesUnique s

theorem TriplesUnique.applyBeat {s : State} (hs : TriplesUnique s) (himp : ImportAndWriter s) (i : Initiator)
    (p : Place) (b : WriteBeat) : TriplesUnique (s.applyBeat i p b) := by
  cases p with
  | memory => exact hs
  | slot r word =>
    simp only [State.applyBeat]
    repeat' split
    · exact hs.kept (.shadowInbound r _ b s)
    · exact hs.kept (.shadowPayload r _ b s)
    · exact hs.kept (.takeSlotCommand i r _ _ s)
    · exact hs
  | status word => exact hs.kept (.writeStatus word b.data s)
  | importArea word =>
    simp only [State.applyBeat]
    split
    · exact hs.takeImportCommand himp _ _
    · exact hs.kept (.captureBlob himp _ b)

theorem KeysInOrder.applyBeats {s : State} (hs : KeysInOrder s) (i : Initiator) (l : List (Place × WriteBeat)) :
    KeysInOrder (State.applyBeats i l s) := by
  induction l generalizing s with
  | nil => exact hs
  | cons pb l ih =>
    have he := BeatEvent.applyBeat i pb.1 pb.2 s
    exact ih ⟨StartUpOrder.beat he hs.startUp, ImportAndWriter.beat he hs.imports,
      hs.triples.applyBeat hs.imports i pb.1 pb.2⟩

theorem TriplesUnique.slotBeat {s : State} (hs : TriplesUnique s) {r : SlotRef} {offset : Nat} {b : WriteBeat}
    {act : State → State} (h : KeyStoreKept s (act s)) : TriplesUnique (s.slotBeat r offset b act) := by
  simp only [State.slotBeat]
  split
  · exact hs
  · exact (hs.kept h).kept (.of_same (.forwardBeat _ _ _))

theorem TriplesUnique.controlBeat {s : State} (hs : TriplesUnique s) {offset : Nat} {b : WriteBeat}
    {act : State → State} (h : TriplesUnique (act s)) : TriplesUnique (s.controlBeat offset b act) := by
  simp only [State.controlBeat]
  split
  · exact hs
  · exact h.kept (.of_same (.forwardBeat _ _ _))

theorem TriplesUnique.writeTaken {s t : State} (hs : KeysInOrder s) {i : Initiator} {beats : List WriteBeat}
    (h : execWriteTaken i beats s = .next t) : TriplesUnique t := by
  simp only [execWriteTaken] at h
  repeat' split at h
  all_goals cases h
  · exact hs.triples
  · exact hs.triples
  · exact hs.triples.kept (.of_same (.refuse _ _ _ s))
  · exact (hs.applyBeats i _).triples.kept ((KeyStoreKept.of_same (.setQueue _ _ _)).trans (.of_same (.memOut _ _)))

/-! ### The engine -/

theorem KeyStoreKept.enterEnd (r : SlotRef) (c : SlotCtx) (s : State) : KeyStoreKept s (s.enterEnd r c) :=
  KeyStoreKept.trans (t := s.setCtx r c) (.of_eq rfl rfl rfl rfl) (.of_same (.enterEnd r c s))

theorem KeyStoreKept.deliverVerify (r : SlotRef) (g : BitVec 8) (res : VerifyResult) (c : SlotCtx) (s : State) :
    KeyStoreKept s (s.deliverVerify r g res c) := by
  cases res with
  | authenticated =>
    simp only [State.deliverVerify]
    generalize s.filter.classify (readingOf r g c s.time.lt) = out
    obtain ⟨f, cls⟩ := out
    cases cls with
    | accept evicted => cases evicted <;> exact .of_eq rfl rfl rfl rfl
    | duplicate info => exact .of_eq rfl rfl rfl rfl
    | replay => exact .of_eq rfl rfl rfl rfl
  | badMac => exact .of_eq rfl rfl rfl rfl
  | keyReason reason => exact .of_eq rfl rfl rfl rfl

theorem KeyStoreKept.deliverSeal (r : SlotRef) (key : Option Block) (c : SlotCtx) (s : State) :
    KeyStoreKept s (s.deliverSeal r key c) := by
  cases key <;> exact .of_eq rfl rfl rfl rfl

/-- A slot job that completes does what its delivery does, or less (R45). -/
theorem KeyStoreKept.completeSlotJob {r : SlotRef} {discard : Bool} {deliver : SlotCtx → State → State}
    (hd : ∀ c t, KeyStoreKept t (deliver c t)) (s : State) : KeyStoreKept s (s.completeSlotJob r discard deliver) := by
  have hidle := KeyStoreKept.idleEngine s
  simp only [State.completeSlotJob]
  repeat' split
  · exact hidle
  · exact hidle
  · exact hidle.trans (.of_eq rfl rfl rfl rfl)
  · exact (hidle.trans (.enterEnd r _ _)).trans (.of_same (.settleHolds _))
  · exact (hidle.trans (hd _ _)).trans (.of_same (.settleHolds _))
  · exact hidle

theorem KeyStoreKept.takeSlotJob (r : SlotRef) (rest : List SlotRef) (s : State) :
    KeyStoreKept s (s.takeSlotJob r rest) := by
  simp only [State.takeSlotJob]
  split
  · exact .refl s
  · split
    · exact .refl s
    · split
      · exact KeyStoreKept.trans (t := (s.popFifo rest).setCtx r _) (.of_eq rfl rfl rfl rfl)
          (.completeSlotJob (fun c t => .deliverVerify r _ _ c t) _)
      · exact .of_noImport rfl rfl rfl rfl
    · split
      · exact KeyStoreKept.trans (t := (s.popFifo rest).setCtx r _) (.of_eq rfl rfl rfl rfl)
          (.completeSlotJob (fun c t => .deliverSeal r none c t) _)
      · exact .of_noImport rfl rfl rfl rfl

theorem KeyStoreKept.engineTakeJob {s t : State} (h : execEngineTakeJob s = .next t) : KeyStoreKept s t := by
  simp only [execEngineTakeJob] at h
  split at h <;> cases h
  · simp only [State.arbitrate]
    repeat' split
    · exact .refl s
    · exact .takeImportJob ‹_›
    · exact .takeSlotJob _ _ s
    · exact .takeSlotJob _ _ s
    · exact .takeImportJob ‹_›
  · exact .refl s

theorem KeyStoreKept.verifyComplete {s t : State} (h : execVerifyComplete s = .next t) : KeyStoreKept s t := by
  simp only [execVerifyComplete] at h
  split at h <;> cases h
  · exact .completeSlotJob (fun c t => .deliverVerify _ _ _ c t) s
  · exact .refl s

theorem KeyStoreKept.sealComplete {s t : State} (h : execSealComplete s = .next t) : KeyStoreKept s t := by
  simp only [execSealComplete] at h
  split at h <;> cases h
  · exact .completeSlotJob (fun c t => .deliverSeal _ _ c t) s
  · exact .refl s

theorem TriplesUnique.importComplete {s t : State} (hs : TriplesUnique s) (himp : ImportAndWriter s)
    (h : execImportComplete s = .next t) : TriplesUnique t := by
  simp only [execImportComplete] at h
  split at h
  next kind header w mac transport discard hjob =>
    cases discard with
    | true => cases h; exact hs.kept (.idleEngine s)
    | false => cases h; exact hs.handOver himp (by simp [liveImport, hjob]) _ _
  next => cases h; exact hs

theorem TriplesUnique.checkComplete {s t : State} (hs : TriplesUnique s) (hst : StartUpOrder s)
    (h : execCheckComplete s = .next t) : TriplesUnique t := by
  simp only [execCheckComplete] at h
  split at h
  next i key discard hjob =>
    cases h
    have hp : s.life.phase = .keyCheck := by simpa [isServiceJob] using hst.2.2.1 _ hjob
    obtain ⟨hi, ha⟩ := hst.nothing_underWay (by simp [hp])
    exact hs.checked hi ha i key
  next => cases h; exact hs

/-! ### Clocks and pins -/

theorem KeyStoreKept.syncEdge {s t : State} (h : execSyncEdge s = .next t) : KeyStoreKept s t := by
  simp only [execSyncEdge] at h
  split at h <;> cases h
  · refine KeyStoreKept.trans (t := { s with time := { s.time with
      capture := some s.time.lt, pulses := s.time.pulses + 1#16 } }) (.of_eq rfl rfl rfl rfl) ?_
    simp only [State.countDown]
    repeat' split
    · exact .refl _
    · exact .switchEpoch _ _
    · exact .of_eq rfl rfl rfl rfl
  · exact .of_same (.bump _ _ s)

theorem KeyStoreKept.deadlineReached {r : SlotRef} {s t : State} (h : execDeadlineReached r s = .next t) :
    KeyStoreKept s t := by
  simp only [execDeadlineReached] at h
  repeat' split at h
  all_goals cases h
  · exact .deadline r _ s
  · exact .refl s
  · exact .refl s

theorem TriplesUnique.tamperEvent {s : State} (hs : TriplesUnique s) : TriplesUnique s.tamperEvent := by
  have hseen : TriplesUnique ({ s with life := { s.life with tamperSeen := true } }.raise .tamper) :=
    hs.kept (.of_eq rfl rfl rfl rfl)
  simp only [State.tamperEvent]
  repeat' split
  · exact hseen.kept (.of_eq rfl rfl rfl rfl)
  · exact hseen.zeroization (State.startZeroization_fields _)
  · exact hseen

theorem TriplesUnique.tamperSample {asserted : Bool} {s t : State} (hs : TriplesUnique s)
    (h : execTamperSample asserted s = .next t) : TriplesUnique t := by
  simp only [execTamperSample] at h
  repeat' split at h
  all_goals cases h
  · exact hs
  · exact TriplesUnique.tamperEvent (s := s.setSampler 0#4 false) (hs.kept (.of_eq rfl rfl rfl rfl))
  · exact hs.kept (.of_eq rfl rfl rfl rfl)
  · exact hs
  · exact hs.kept (.of_eq rfl rfl rfl rfl)

/-! ### The NV writer and start-up -/

/-- The word BLANK ends NV_READ, which has formed no directory (R168). -/
theorem TriplesUnique.endBlankWord {s : State} (hs : TriplesUnique s) (passed : Bool) :
    TriplesUnique (s.endBlankWord passed) := by
  cases passed with
  | false => exact hs
  | true => exact (hs.kept (.of_running (by rfl) (by rfl) (by rfl) (by simp))).leaveNvRead

theorem TriplesUnique.nvOperationEnd {passed : Bool} {s t : State} (hs : TriplesUnique s) (himp : ImportAndWriter s)
    (h : execNvOperationEnd passed s = .next t) : TriplesUnique t := by
  have hnote : KeyStoreKept s (s.noteVerify passed) := .of_same (.noteVerify passed s)
  have hnoted := hs.kept hnote
  simp only [execNvOperationEnd] at h
  split at h <;> cases h
  next op hrun => exact hnoted.endAdmin (ImportAndWriter.same (.noteVerify passed s) himp) passed hrun
  next v hrun => exact hnoted.kept (by cases passed <;> exact .of_goOn rfl rfl rfl)
  next v hrun => exact hnoted.kept (by cases passed <;> exact .of_goOn rfl rfl rfl)
  next v hrun => exact hnoted.kept (by cases passed <;> exact .of_goOn rfl rfl rfl)
  next hrun => exact hnoted.endBlankWord passed
  next => exact hs
  next => exact hs

theorem KeyStoreKept.nvZeroizeStageEnd {s t : State} (h : execNvZeroizeStageEnd s = .next t) : KeyStoreKept s t := by
  simp only [execNvZeroizeStageEnd] at h
  repeat' split at h
  all_goals cases h
  · exact .refl s
  · exact .of_running rfl rfl rfl (by simp)
  · exact .refl s

theorem KeyStoreKept.nvZeroizeAttemptEnd {passed : Bool} {s t : State}
    (h : execNvZeroizeAttemptEnd passed s = .next t) : KeyStoreKept s t := by
  simp only [execNvZeroizeAttemptEnd] at h
  repeat' split at h
  all_goals cases h
  · exact .of_running rfl rfl rfl (by simp)
  · exact .of_goOn rfl rfl rfl
  · exact .refl s
  · exact .of_running rfl rfl rfl (by simp)
  · exact .refl s

theorem TriplesUnique.nvReadEnd {s t : State} (hs : TriplesUnique s) (hst : StartUpOrder s)
    (h : execNvReadEnd s = .next t) : TriplesUnique t := by
  simp only [execNvReadEnd] at h
  repeat' split at h
  all_goals cases h
  · exact hs
  · exact hs.kept (.of_running rfl rfl rfl (by simp))
  next hn _ =>
    have hp : s.life.phase ≠ .running := by
      intro e
      simp [e] at hn
    obtain ⟨hi, ha⟩ := hst.nothing_underWay hp
    refine TriplesUnique.leaveNvRead (TriplesUnique.directoryFormed (s := s) (fun i => ?_) ?_ ha)
    · simp [State.entry]
    · rw [← hi]
      exact importsUnderWay_congr rfl rfl rfl

/-! ### The ports and the map -/

theorem KeyStoreKept.readTaken {i : Initiator} {s t : State} (h : execReadTaken i s = .next t) : KeyStoreKept s t := by
  simp only [execReadTaken] at h
  repeat' split at h
  all_goals cases h
  · exact .refl s
  · exact .refl s
  · exact .of_same (.refuse _ _ _ s)
  · simp only [State.admitRead]
    split <;> exact .of_eq rfl rfl rfl rfl

theorem KeyStoreKept.judgeTable (beats : List ReadBeat) (s : State) : KeyStoreKept s (s.judgeTable beats) := by
  simp only [State.judgeTable]
  split
  · exact .of_eq rfl rfl rfl rfl
  · exact .installMap _ s

theorem KeyStoreKept.mapTableReadEnd {first second : List ReadBeat} {s t : State}
    (h : execMapTableReadEnd first second s = .next t) : KeyStoreKept s t := by
  simp only [execMapTableReadEnd] at h
  repeat' split at h
  all_goals cases h
  · exact .refl s
  · exact .of_eq rfl rfl rfl rfl
  · exact .refl s
  · exact .of_eq rfl rfl rfl rfl
  · exact (KeyStoreKept.of_same (.memOut _ s)).trans (.judgeTable _ _)

/-! ### Every row -/

theorem TriplesUnique.exec {row : Instr} {s t : State} (hs : KeysInOrder s) (h : exec row s = .next t) :
    TriplesUnique t := by
  obtain ⟨hst, himp, htriples⟩ := id hs
  cases row with
  | writeTaken i beats => exact .writeTaken hs h
  | powerOnReset straps =>
    cases h
    exact htriples.emptied (fun i => by simp [State.entry, State.powerOn])
      (by simp [importsUnderWay, State.powerOn, liveImport])
      fun op hop => by simp [State.powerOn, adminOps, heldRequests] at hop
  | tick =>
    simp only [Machine.exec, execTick] at h
    split at h <;> cases h
    · exact htriples
    · exact htriples.kept (.of_eq rfl rfl rfl rfl)
  | syncEdge => exact htriples.kept (.syncEdge h)
  | tamperSample asserted => exact htriples.tamperSample h
  | deadlineReached r => exact htriples.kept (.deadlineReached h)
  | readHoldLimit i => cases h; exact htriples.kept (.of_same (.endAtLimit i s))
  | requestAccept r =>
    simp only [Machine.exec, execRequestAccept] at h
    split at h <;> cases h
    · exact htriples.kept (.of_same (.setQueue _ _ s))
    · exact htriples
  | readTaken i => exact htriples.kept (.readTaken h)
  | memoryReadResponse i place beats =>
    simp only [Machine.exec, execMemoryReadResponse] at h
    repeat' split at h
    all_goals cases h
    all_goals exact htriples.kept (.of_eq rfl rfl rfl rfl)
  | memoryWriteResponse i place resp =>
    simp only [Machine.exec, execMemoryWriteResponse] at h
    repeat' split at h
    all_goals cases h
    all_goals exact htriples.kept (.of_eq rfl rfl rfl rfl)
  | inboundShadowWrite r w b => cases h; exact htriples.slotBeat (.shadowInbound r w b s)
  | payloadShadowWrite r w b => cases h; exact htriples.slotBeat (.shadowPayload r w b s)
  | openSlot i r cw upper | arm i r cw upper | sealSlot i r cw upper | release i r cw upper | abort i r cw upper =>
    cases h; exact htriples.slotBeat (.takeSlotCommand i r _ upper s)
  | engineTakeJob => exact htriples.kept (.engineTakeJob h)
  | verifyComplete => exact htriples.kept (.verifyComplete h)
  | sealComplete => exact htriples.kept (.sealComplete h)
  | importComplete => exact htriples.importComplete himp h
  | checkComplete => exact htriples.checkComplete hst h
  | blobWrite w b => cases h; exact htriples.controlBeat (htriples.kept (.captureBlob himp w.val b))
  | loadPlain upper | load upper | revoke upper | erase upper | inquire upper | setReader upper | fieldLock upper
  | zeroize upper => cases h; exact htriples.controlBeat (htriples.takeImportCommand himp _ upper)
  | nvOperationEnd passed => exact htriples.nvOperationEnd himp h
  | nvZeroizeAttemptEnd passed => exact htriples.kept (.nvZeroizeAttemptEnd h)
  | nvReadEnd => exact htriples.nvReadEnd hst h
  | mapTableReadStart =>
    simp only [Machine.exec, execMapTableReadStart] at h
    split at h <;> cases h
    all_goals exact htriples.kept (.of_eq rfl rfl rfl rfl)
  | mapTableReadEnd first second => exact htriples.kept (.mapTableReadEnd h)
  | mapWordWrite w | preWrite w | epochScheduleWrite w | attentionCausesWrite w | attentionEnablesWrite w
  | unmappedRightsWrite w | duplicateIntervalWrite w | holdTimeWrite w | counterClear w =>
    cases h; exact htriples.controlBeat (htriples.kept (.writeStatus _ w s))
  | switchNow | cancel => cases h; exact htriples.controlBeat (htriples.kept (.writeStatus _ _ s))
  | holdSet upper | holdClear upper => cases h; exact htriples.controlBeat (htriples.kept (.writeStatus _ _ s))
  | resetNRelease =>
    simp only [Machine.exec, execResetNRelease] at h
    split at h <;> cases h
    all_goals exact htriples.kept (.of_eq rfl rfl rfl rfl)
  | nvZeroizeStageEnd => exact htriples.kept (.nvZeroizeStageEnd h)

theorem TriplesUnique.step {s t : State} (hs : KeysInOrder s) (h : step s = .next t) : TriplesUnique t := by
  simp only [Machine.step] at h
  split at h
  next => cases h; exact hs.triples
  next rest _ =>
    have hsame := SamePart.pending rest s
    exact TriplesUnique.exec (s := { s with pending := rest })
      ⟨StartUpOrder.same hsame hs.startUp, ImportAndWriter.same hsame hs.imports, hs.triples.kept (.of_same hsame)⟩ h

end Sys2Proof.Safety

namespace Sys2Proof.Proofs

open Sys2Proof.Machine Sys2Proof.Safety

/-- Settles O56: each row keeps the triples unique, and a lookup finds the entry of its triple, which on such a directory is
the only one. -/
theorem stepKeepsTriplesUnique : Obligations.StepKeepsTriplesUnique := by
  refine ⟨fun s t hst himp hs => TriplesUnique.step ⟨hst, himp, hs⟩, fun s hs u keySet version hu i => ?_,
    fun s u keySet version i => ?_⟩
  · rw [State.findEntry_eq_some_iff, hasTriple_of_hasTriple _ _ hu]
    refine and_iff_left_of_imp fun hi j hj h => ?_
    rw [hasTriple_of_hasTriple _ _ hu] at h
    exact absurd (hs.2.1 i j _ hi h) hj.ne'
  · simp only [State.findEntry_eq_some_iff, hasTriple_iff]

end Sys2Proof.Proofs
end

