-- ==== Sys2Proof/Proofs/ActiveEpoch.lean ====
section
/-! SUPPORT. What every row does to the active epoch and the pending schedule, operation by operation, and O58 (R121, R124
to R128, R166 to R168, R176). -/

namespace Sys2Proof.Safety

open Sys2Proof.Machine

/-- A schedule is pending in RUNNING alone (R131). -/
theorem StartUpOrder.schedule_none {s : State} (hs : StartUpOrder s) (hp : s.life.phase ≠ .running) :
    s.time.schedule = none := by
  obtain ⟨-, -, -, -, h, -⟩ := hs.noService hp
  exact h

end Sys2Proof.Safety

namespace Sys2Proof.Machine

open Sys2Proof.Safety

/-! ### The events of the active epoch -/

/-- What one event of the part does to the active epoch and the pending schedule, where it takes no epoch anew. -/
inductive EpochEvent (t : TimeUnit) : TimeUnit → Prop
  /-- Nothing. -/
  | kept {u} : u.epoch = t.epoch → u.schedule = t.schedule → EpochEvent t u
  /-- A schedule above the active epoch is accepted (R125). -/
  | scheduled {u} (p : Schedule) : t.epoch < p.epoch → p.countdown ≠ 0#16 → u.epoch = t.epoch → u.schedule = some p →
      EpochEvent t u
  /-- The pending schedule is counted down, and not to 0 (R121, R126). -/
  | counted {u} (p : Schedule) : t.schedule = some p → 1#16 < p.countdown → u.epoch = t.epoch →
      u.schedule = some { p with countdown := p.countdown - 1#16 } → EpochEvent t u
  /-- The pending schedule is cancelled (R128). -/
  | cancelled {u} : u.epoch = t.epoch → u.schedule = none → EpochEvent t u
  /-- The pending epoch becomes the active one (R127, R128). -/
  | switched {u} (p : Schedule) : t.schedule = some p → u.epoch = p.epoch → u.schedule = none → EpochEvent t u

theorem EpochEvent.of_eq {t u : TimeUnit} (h : u = t) : EpochEvent t u := h ▸ .kept rfl rfl

/-- What `ScheduleAhead` says, of the Time Unit alone (R125). -/
def TimeUnit.Ahead (t : TimeUnit) : Prop := ∀ p, t.schedule = some p → t.epoch < p.epoch ∧ p.countdown ≠ 0#16

theorem scheduleAhead_iff (s : State) : ScheduleAhead s ↔ s.time.Ahead := .rfl

theorem TimeUnit.Ahead.of_none {t : TimeUnit} (h : t.schedule = none) : t.Ahead := fun p hp => by simp [h] at hp

/-- A schedule ahead of the active epoch stays ahead, and the epoch never falls. -/
theorem TimeUnit.Ahead.event {t u : TimeUnit} (h : EpochEvent t u) (ht : t.Ahead) : u.Ahead ∧ t.epoch ≤ u.epoch := by
  cases h with
  | kept he hs => exact ⟨fun p hp => he ▸ ht p (hs ▸ hp), he ▸ BitVec.le_refl _⟩
  | scheduled p hlt hne he hs =>
    refine ⟨fun q hq => ?_, he ▸ BitVec.le_refl _⟩
    cases hs.symm.trans hq
    exact ⟨he ▸ hlt, hne⟩
  | counted p hp hgt he hs =>
    refine ⟨fun q hq => ?_, he ▸ BitVec.le_refl _⟩
    cases hs.symm.trans hq
    refine ⟨he ▸ (ht p hp).1, ?_⟩
    show p.countdown - 1#16 ≠ 0#16
    bv_omega
  | cancelled he hs => exact ⟨.of_none hs, he ▸ BitVec.le_refl _⟩
  | switched p hp he hs => exact ⟨.of_none hs, he ▸ BitVec.le_of_lt (ht p hp).1⟩

/-- Events of the active epoch one after another, as the beats of one write cause them (R142). -/
abbrev EpochRun : TimeUnit → TimeUnit → Prop := Relation.ReflTransGen EpochEvent

theorem TimeUnit.Ahead.run {t u : TimeUnit} (h : EpochRun t u) (ht : t.Ahead) : u.Ahead ∧ t.epoch ≤ u.epoch := by
  induction h with
  | refl => exact ⟨ht, BitVec.le_refl _⟩
  | tail _ he ih =>
    obtain ⟨hu, hle⟩ := ih
    obtain ⟨hv, hle'⟩ := hu.event he
    exact ⟨hv, BitVec.le_trans hle hle'⟩

/-! ### Slot commands and shadows -/

theorem State.carrySlot_time (cmd : SlotCmd) (r : SlotRef) (c : SlotCtx) (s : State) :
    (s.carrySlot cmd r c).time = s.time := by
  cases cmd with
  | arm => simp only [State.carrySlot, State.carryArm]; split <;> rfl
  | abort => simp only [State.carrySlot, State.carryAbort]; (repeat' split) <;> rfl
  | _ => rfl

theorem State.takeSlotCommand_time (i : Initiator) (r : SlotRef) (cmd : Option SlotCmd) (upper : BitVec 56)
    (s : State) : (s.takeSlotCommand i r cmd upper).time = s.time := by
  simp only [State.takeSlotCommand]
  split
  · rfl
  · split
    · simp only [State.refuseSlot]; split <;> rfl
    · exact s.carrySlot_time _ _ _
    · rfl

theorem State.shadowInbound_time (r : SlotRef) (w : Fin 4) (b : WriteBeat) (s : State) :
    (s.shadowInbound r w b).time = s.time := by
  simp only [State.shadowInbound]; (repeat' split) <;> rfl

theorem State.shadowPayload_time (r : SlotRef) (w : Fin 4) (b : WriteBeat) (s : State) :
    (s.shadowPayload r w b).time = s.time := by
  simp only [State.shadowPayload]; (repeat' split) <;> rfl

theorem State.deadline_time (r : SlotRef) (c : SlotCtx) (s : State) : (s.deadline r c).time = s.time := by
  simp only [State.deadline]; (repeat' split) <;> rfl

/-! ### The import area -/

theorem State.captureBlob_time (w : Nat) (b : WriteBeat) (s : State) : (s.captureBlob w b).time = s.time := by
  simp only [State.captureBlob]; (repeat' split) <;> rfl

theorem State.placeUnlessTaken_time (cmd : ImportCmd) (kind : ImportKind) (h : Block) (s : State) :
    (s.placeUnlessTaken cmd kind h).time = s.time := by
  simp only [State.placeUnlessTaken]; (repeat' split) <;> rfl

theorem State.carryImport_time (cmd : ImportCmd) (upper : BitVec 56) (s : State) :
    (s.carryImport cmd upper).time = s.time := by
  cases cmd with
  | loadPlain =>
    simp only [State.carryImport, State.carryLoadPlain]
    split
    · rfl
    · exact s.placeUnlessTaken_time _ _ _
  | load =>
    simp only [State.carryImport, State.carryLoad]
    repeat' split
    · rfl
    · rfl
    · exact s.placeUnlessTaken_time _ _ _
  | revoke => simp only [State.carryImport, State.carryRevoke]; (repeat' split) <;> rfl
  | erase => simp only [State.carryImport, State.carryErase]; (repeat' split) <;> rfl
  | inquire => rfl
  | setReader => simp only [State.carryImport, State.carrySetReader]; split <;> rfl
  | fieldLock => simp only [State.carryImport, State.carryFieldLock]; (repeat' split) <;> rfl
  | zeroize => simp [State.carryImport, State.carryZeroize]

theorem State.takeImportCommand_time (code : Byte) (upper : BitVec 56) (s : State) :
    (s.takeImportCommand code upper).time = s.time := by
  simp only [State.takeImportCommand]
  split
  · rfl
  · split
    · rfl
    · exact s.carryImport_time _ upper
    · rfl

/-! ### The settings -/

theorem State.writeHold_time (w : Word) (s : State) : (s.writeHold w).time = s.time := by
  simp only [State.writeHold]
  repeat' split
  · rfl
  · simp [State.setHold]
  · rfl

/-- A countdown of 0 is taken as 1 (R125). -/
theorem scheduleOf_countdown_ne (w : Word) : (scheduleOf w).countdown ≠ 0#16 := by
  simp only [scheduleOf]
  split
  · decide
  next h => exact h

theorem EpochEvent.writeSchedule (w : Word) (s : State) : EpochEvent s.time (s.writeSchedule w).time := by
  simp only [State.writeSchedule]
  split
  next h => exact .scheduled (scheduleOf w) h (scheduleOf_countdown_ne w) rfl rfl
  next => exact .kept rfl rfl

theorem EpochEvent.writeEpochControl (w : Word) (s : State) : EpochEvent s.time (s.writeEpochControl w).time := by
  simp only [State.writeEpochControl, State.switchNow]
  repeat' split
  next p hp => exact .switched p hp rfl rfl
  · exact .of_eq rfl
  · exact .cancelled rfl rfl
  · exact .of_eq rfl

theorem EpochEvent.writeStatus (word : StatusWord) (w : Word) (s : State) :
    EpochEvent s.time (s.writeStatus word w).time := by
  simp only [State.writeStatus]
  split
  · cases word with
    | epoch => exact .writeSchedule w s
    | epochControl => exact .writeEpochControl w s
    | hold => exact .of_eq (s.writeHold_time w)
    | causes => refine .of_eq ?_; simp only [State.applySetting, State.clearCauses]; split <;> rfl
    | _ => exact .kept rfl rfl
  · exact .of_eq rfl

/-! ### Beats, and the rows that are one beat -/

theorem EpochEvent.applyBeat (i : Initiator) (p : Place) (b : WriteBeat) (s : State) :
    EpochEvent s.time (s.applyBeat i p b).time := by
  cases p with
  | memory => exact .of_eq rfl
  | slot r word =>
    simp only [State.applyBeat]
    repeat' split
    · exact .of_eq (s.shadowInbound_time r _ b)
    · exact .of_eq (s.shadowPayload_time r _ b)
    · exact .of_eq (s.takeSlotCommand_time i r _ _)
    · exact .of_eq rfl
  | status word => exact .writeStatus word b.data s
  | importArea word =>
    simp only [State.applyBeat]
    split
    · exact .of_eq (s.takeImportCommand_time _ _)
    · exact .of_eq (s.captureBlob_time _ b)

theorem EpochRun.applyBeats (i : Initiator) (l : List (Place × WriteBeat)) (s : State) :
    EpochRun s.time (State.applyBeats i l s).time := by
  induction l generalizing s with
  | nil => exact .refl
  | cons pb l ih => exact .head (.applyBeat i pb.1 pb.2 s) (ih _)

theorem EpochEvent.slotBeat {r : SlotRef} {offset : Nat} {b : WriteBeat} {act : State → State} {s : State}
    (h : (act s).time = s.time) : EpochEvent s.time (s.slotBeat r offset b act).time := by
  simp only [State.slotBeat]
  split
  · exact .of_eq rfl
  · exact .of_eq h

theorem EpochEvent.controlBeat {offset : Nat} {b : WriteBeat} {act : State → State} {s : State}
    (h : EpochEvent s.time (act s).time) : EpochEvent s.time (s.controlBeat offset b act).time := by
  simp only [State.controlBeat]
  split
  · exact .of_eq rfl
  · exact h

/-! ### The engine -/

theorem State.deliverVerify_time (r : SlotRef) (g : BitVec 8) (res : VerifyResult) (c : SlotCtx) (s : State) :
    (s.deliverVerify r g res c).time = s.time := by
  cases res with
  | authenticated =>
    simp only [State.deliverVerify, State.deliverClass]
    repeat' split
    all_goals rfl
  | badMac => rfl
  | keyReason reason => rfl

theorem State.deliverSeal_time (r : SlotRef) (key : Option Block) (c : SlotCtx) (s : State) :
    (s.deliverSeal r key c).time = s.time := by cases key <;> rfl

/-- The completion of a slot job leaves the Time Unit where its delivery does (R45). -/
theorem State.completeSlotJob_time {r : SlotRef} {discard : Bool} {deliver : SlotCtx → State → State} {s : State}
    (hd : ∀ c t, (deliver c t).time = t.time) : (s.completeSlotJob r discard deliver).time = s.time := by
  simp only [State.completeSlotJob]
  repeat' split
  · rfl
  · rfl
  · rfl
  · rfl
  · exact hd _ s.idleEngine
  · rfl

theorem State.takeSlotJob_time (r : SlotRef) (rest : List SlotRef) (s : State) :
    (s.takeSlotJob r rest).time = s.time := by
  simp only [State.takeSlotJob]
  split
  · rfl
  · split
    · rfl
    · split
      · exact State.completeSlotJob_time fun c t => t.deliverVerify_time r _ _ c
      · rfl
    · split
      · exact State.completeSlotJob_time fun c t => t.deliverSeal_time r none c
      · rfl

theorem State.arbitrate_time (s : State) : s.arbitrate.time = s.time := by
  simp only [State.arbitrate]
  repeat' split
  · rfl
  · rfl
  · exact s.takeSlotJob_time _ _
  · exact s.takeSlotJob_time _ _
  · rfl

theorem execEngineTakeJob_time {s t : State} (h : execEngineTakeJob s = .next t) : t.time = s.time := by
  simp only [execEngineTakeJob] at h
  split at h <;> cases h
  · exact s.arbitrate_time
  · rfl

theorem execVerifyComplete_time {s t : State} (h : execVerifyComplete s = .next t) : t.time = s.time := by
  simp only [execVerifyComplete] at h
  split at h <;> cases h
  · exact State.completeSlotJob_time fun c t => t.deliverVerify_time _ _ _ c
  · rfl

theorem execSealComplete_time {s t : State} (h : execSealComplete s = .next t) : t.time = s.time := by
  simp only [execSealComplete] at h
  split at h <;> cases h
  · exact State.completeSlotJob_time fun c t => t.deliverSeal_time _ _ c
  · rfl

theorem State.handOver_time (kind : ImportKind) (h : Block) (res : Sum ImportCode (Block × BitVec 24)) (s : State) :
    (s.handOver kind h res).time = s.time := by
  simp only [State.handOver]; (repeat' split) <;> rfl

theorem execImportComplete_time {s t : State} (h : execImportComplete s = .next t) : t.time = s.time := by
  simp only [execImportComplete] at h
  repeat' split at h
  all_goals cases h
  · rfl
  · exact State.handOver_time _ _ _ s.idleEngine
  · rfl

theorem execCheckComplete_time {s t : State} (h : execCheckComplete s = .next t) : t.time = s.time := by
  simp only [execCheckComplete] at h
  split at h <;> cases h
  · simp
  · rfl

/-! ### Clocks and pins -/

/-- An accepted edge counts the pending schedule down, and switches at 0 (R121, R126). -/
theorem EpochEvent.countDown (s : State) : EpochEvent s.time s.countDown.time := by
  cases hs : s.time.schedule with
  | none => rw [State.countDown_none hs]; exact .of_eq rfl
  | some p =>
    by_cases hp : p.countdown ≤ 1#16
    · rw [State.countDown_switches hs hp]; exact .switched p hs rfl rfl
    · have hgt := BitVec.not_le.mp hp
      rw [State.countDown_goesOn hs hgt]; exact .counted p hs hgt rfl rfl

theorem EpochRun.syncEdge {s t : State} (h : execSyncEdge s = .next t) : EpochRun s.time t.time := by
  simp only [execSyncEdge] at h
  split at h <;> cases h
  · exact .head (b := s.captured.time) (.kept rfl rfl) (.single (.countDown s.captured))
  · exact .refl

theorem EpochEvent.tick {s t : State} (h : execTick s = .next t) : EpochEvent s.time t.time := by
  simp only [execTick] at h
  split at h <;> cases h <;> exact .kept rfl rfl

theorem EpochEvent.resetNRelease {s t : State} (h : execResetNRelease s = .next t) : EpochEvent s.time t.time := by
  simp only [execResetNRelease] at h
  split at h <;> cases h <;> exact .kept rfl rfl

theorem State.tamperEvent_time (s : State) : s.tamperEvent.time = s.time := by
  simp only [State.tamperEvent]; (repeat' split) <;> simp

theorem execTamperSample_time {asserted : Bool} {s t : State} (h : execTamperSample asserted s = .next t) :
    t.time = s.time := by
  simp only [execTamperSample] at h
  repeat' split at h
  all_goals cases h
  · rfl
  · exact State.tamperEvent_time (s.setSampler 0#4 false)
  all_goals rfl

theorem execDeadlineReached_time {r : SlotRef} {s t : State} (h : execDeadlineReached r s = .next t) :
    t.time = s.time := by
  simp only [execDeadlineReached] at h
  repeat' split at h
  all_goals cases h
  · exact s.deadline_time r _
  · rfl
  · rfl

/-! ### The ports and the map -/

/-- A read that latches the high half of LT leaves the epoch and the schedule (R119). -/
theorem EpochEvent.readTaken {i : Initiator} {s t : State} (h : execReadTaken i s = .next t) :
    EpochEvent s.time t.time := by
  simp only [execReadTaken] at h
  repeat' split at h
  all_goals cases h
  · exact .of_eq rfl
  · exact .of_eq rfl
  · exact .of_eq rfl
  · simp only [State.admitRead]
    split <;> exact .kept rfl rfl

theorem EpochRun.writeTaken {i : Initiator} {beats : List WriteBeat} {s t : State}
    (h : execWriteTaken i beats s = .next t) : EpochRun s.time t.time := by
  simp only [execWriteTaken] at h
  repeat' split at h
  all_goals cases h
  · exact .refl
  · exact .refl
  · exact .refl
  · exact .applyBeats i _ s

theorem execRequestAccept_time {r : Request} {s t : State} (h : execRequestAccept r s = .next t) :
    t.time = s.time := by
  simp only [execRequestAccept] at h
  split at h <;> cases h <;> rfl

theorem execMemoryReadResponse_time {i : Initiator} {place : Fin 8} {beats : List ReadBeat} {s t : State}
    (h : execMemoryReadResponse i place beats s = .next t) : t.time = s.time := by
  simp only [execMemoryReadResponse] at h
  repeat' split at h
  all_goals cases h; rfl

theorem execMemoryWriteResponse_time {i : Initiator} {place : Fin 8} {resp : Resp} {s t : State}
    (h : execMemoryWriteResponse i place resp s = .next t) : t.time = s.time := by
  simp only [execMemoryWriteResponse] at h
  repeat' split at h
  all_goals cases h; rfl

theorem execMapTableReadStart_time {s t : State} (h : execMapTableReadStart s = .next t) : t.time = s.time := by
  simp only [execMapTableReadStart] at h
  split at h <;> cases h <;> rfl

theorem State.judgeTable_time (beats : List ReadBeat) (s : State) : (s.judgeTable beats).time = s.time := by
  simp only [State.judgeTable]; split <;> rfl

theorem execMapTableReadEnd_time {first second : List ReadBeat} {s t : State}
    (h : execMapTableReadEnd first second s = .next t) : t.time = s.time := by
  simp only [execMapTableReadEnd] at h
  repeat' split at h
  all_goals cases h
  · rfl
  · rfl
  · rfl
  · rfl
  · exact State.judgeTable_time _ _

/-! ### The NV writer and start-up -/

/-- The rows that take the active epoch anew, with what they make of it; nothing else may lower it (R166 to R168, R176). -/
inductive EpochTaken (s t : State) : Instr → Prop
  /-- Power-on (R166). -/
  | powerOn (straps) : t.time.epoch = 0#16 → EpochTaken s t (.powerOnReset straps)
  /-- NV_READ ends with its reads (R167). -/
  | read : s.life.phase = .nvRead → t.life.phase ≠ .nvRead → t.time.epoch = s.nv.epoch → EpochTaken s t .nvReadEnd
  /-- NV_READ ends with the word BLANK that follows an interrupted zeroization (R168). -/
  | blank : s.writer.running = some .blankWord → s.life.phase = .nvRead → t.life.phase ≠ .nvRead →
      t.time.epoch = s.nv.epoch → EpochTaken s t (.nvOperationEnd true)
  /-- A zeroization completes (R176). -/
  | zeroized : s.life.cycle = .zeroizing → t.life.cycle = .zeroized → t.time.epoch = 0#16 →
      EpochTaken s t (.nvZeroizeAttemptEnd true)

/-- What a row does to the active epoch: events that never lower it, or it takes the epoch anew and leaves no schedule. -/
def EpochDoes (s t : State) (row : Instr) : Prop :=
  EpochRun s.time t.time ∨ (t.time.schedule = none ∧ EpochTaken s t row)

theorem EpochDoes.event {s t : State} {row : Instr} (h : EpochEvent s.time t.time) : EpochDoes s t row :=
  .inl (.single h)

theorem EpochDoes.kept {s t : State} {row : Instr} (h : t.time = s.time) : EpochDoes s t row := .event (.of_eq h)

theorem State.leaveNvRead_time (s : State) : s.leaveNvRead.time = s.time := by
  rcases s.leaveNvRead_cases with ⟨e, -⟩ | e <;> rw [e] <;> simp

/-- A zeroization that starts in KEY_CHECK ends it (R169, R172). -/
theorem State.startZeroization_phase {s : State} (h : s.life.phase = .keyCheck) :
    s.startZeroization.life.phase = .mapLoad := by
  rcases s.startZeroization_fields.counter with ⟨-, hp, -⟩ | ⟨hp, -⟩
  · exact hp
  · exact absurd h hp

theorem State.leaveNvRead_phase (s : State) : s.leaveNvRead.life.phase ≠ .nvRead := by
  rcases s.leaveNvRead_cases with ⟨e, -⟩ | e <;> rw [e]
  · rw [State.startZeroization_phase rfl]; simp
  · exact State.continueCheck_phase 0 rfl

theorem State.endReservation_time (v : Nat) (passed : Bool) (s : State) :
    (s.endReservation v passed).time = s.time := by cases passed <;> rfl

theorem State.endReserveProgram_time (v : Nat) (passed : Bool) (s : State) :
    (s.endReserveProgram v passed).time = s.time := by cases passed <;> rfl

theorem State.endEpochRecord_time (v : BitVec 16) (passed : Bool) (s : State) :
    (s.endEpochRecord v passed).time = s.time := by cases passed <;> rfl

/-- The word BLANK runs in NV_READ, where no schedule is pending. -/
theorem EpochDoes.nvOperationEnd {passed : Bool} {s t : State} (hst : StartUpOrder s)
    (h : execNvOperationEnd passed s = .next t) : EpochDoes s t (.nvOperationEnd passed) := by
  simp only [execNvOperationEnd] at h
  split at h <;> cases h
  · exact .kept (by simp)
  · exact .kept (State.endEpochRecord_time _ passed _)
  · exact .kept (State.endReservation_time _ passed _)
  · exact .kept (State.endReserveProgram_time _ passed _)
  next hr =>
    cases passed with
    | true =>
      obtain ⟨hp, -⟩ := hst.writerInPhase.1 _ hr
      have hnone := hst.schedule_none (by simp [hp])
      refine .inr ⟨?_, .blank hr hp (State.leaveNvRead_phase _) ?_⟩
      · rw [State.endBlankWord, if_pos rfl, State.leaveNvRead_time]; exact hnone
      · rw [State.endBlankWord, if_pos rfl, State.leaveNvRead_time]; rfl
    | false => exact .kept rfl
  · exact .kept rfl
  · exact .kept rfl

theorem EpochDoes.nvReadEnd {s t : State} (hst : StartUpOrder s) (h : execNvReadEnd s = .next t) :
    EpochDoes s t .nvReadEnd := by
  simp only [execNvReadEnd] at h
  repeat' split at h
  all_goals cases h
  · exact .kept rfl
  · exact .kept rfl
  next hn _ =>
    have hp : s.life.phase = .nvRead := by
      by_contra hp
      exact hn (.inl hp)
    have hnone := hst.schedule_none (by simp [hp])
    exact .inr ⟨by rw [State.leaveNvRead_time]; exact hnone,
      .read hp (State.leaveNvRead_phase _) (by rw [State.leaveNvRead_time]; rfl)⟩

/-- Outside NV_READ the NV zeroize runs in ZEROIZING alone (R176). -/
theorem EpochDoes.nvZeroizeAttemptEnd {passed : Bool} {s t : State} (hst : StartUpOrder s)
    (h : execNvZeroizeAttemptEnd passed s = .next t) : EpochDoes s t (.nvZeroizeAttemptEnd passed) := by
  simp only [execNvZeroizeAttemptEnd] at h
  split at h
  next n hr =>
    cases passed with
    | true =>
      simp only [if_true] at h
      split at h <;> cases h
      next => exact .kept rfl
      next hp =>
        have hop := hst.writerInPhase.1 _ hr
        exact .inr ⟨rfl, .zeroized (hop.1.resolve_right hp) rfl rfl⟩
    | false =>
      simp only [Bool.false_eq_true, if_false] at h
      split at h <;> cases h <;> exact .kept rfl
  next => cases h; exact .kept rfl

theorem execNvZeroizeStageEnd_time {s t : State} (h : execNvZeroizeStageEnd s = .next t) : t.time = s.time := by
  simp only [execNvZeroizeStageEnd] at h
  repeat' split at h
  all_goals cases h; rfl

/-! ### Every row -/

/-- Every row does events of the active epoch, WRITE_TAKEN one for each of its beats, or it is one of the four that take
the epoch anew. -/
theorem exec_epoch {row : Instr} {s t : State} (hst : StartUpOrder s) (h : exec row s = .next t) :
    EpochDoes s t row := by
  cases row with
  | powerOnReset straps => cases h; exact .inr ⟨rfl, .powerOn straps rfl⟩
  | nvReadEnd => exact .nvReadEnd hst h
  | nvOperationEnd passed => exact .nvOperationEnd hst h
  | nvZeroizeAttemptEnd passed => exact .nvZeroizeAttemptEnd hst h
  | writeTaken i beats => exact .inl (.writeTaken h)
  | syncEdge => exact .inl (.syncEdge h)
  | tick => exact .event (.tick h)
  | resetNRelease => exact .event (.resetNRelease h)
  | readTaken i => exact .event (.readTaken h)
  | tamperSample asserted => exact .kept (execTamperSample_time h)
  | deadlineReached r => exact .kept (execDeadlineReached_time h)
  | readHoldLimit i => cases h; exact .kept rfl
  | requestAccept r => exact .kept (execRequestAccept_time h)
  | memoryReadResponse i place beats => exact .kept (execMemoryReadResponse_time h)
  | memoryWriteResponse i place resp => exact .kept (execMemoryWriteResponse_time h)
  | inboundShadowWrite r w b => cases h; exact .event (.slotBeat (s.shadowInbound_time r w b))
  | payloadShadowWrite r w b => cases h; exact .event (.slotBeat (s.shadowPayload_time r w b))
  | openSlot i r cw upper | arm i r cw upper | sealSlot i r cw upper | release i r cw upper | abort i r cw upper =>
    cases h; exact .event (.slotBeat (s.takeSlotCommand_time i r _ upper))
  | engineTakeJob => exact .kept (execEngineTakeJob_time h)
  | verifyComplete => exact .kept (execVerifyComplete_time h)
  | sealComplete => exact .kept (execSealComplete_time h)
  | importComplete => exact .kept (execImportComplete_time h)
  | checkComplete => exact .kept (execCheckComplete_time h)
  | blobWrite w b => cases h; exact .event (.controlBeat (.of_eq (s.captureBlob_time w.val b)))
  | loadPlain upper | load upper | revoke upper | erase upper | inquire upper | setReader upper | fieldLock upper
  | zeroize upper => cases h; exact .event (.controlBeat (.of_eq (s.takeImportCommand_time _ upper)))
  | mapTableReadStart => exact .kept (execMapTableReadStart_time h)
  | mapTableReadEnd first second => exact .kept (execMapTableReadEnd_time h)
  | mapWordWrite w | preWrite w | epochScheduleWrite w | attentionCausesWrite w | attentionEnablesWrite w
  | unmappedRightsWrite w | duplicateIntervalWrite w | holdTimeWrite w | counterClear w =>
    cases h; exact .event (.controlBeat (.writeStatus _ w s))
  | switchNow | cancel => cases h; exact .event (.controlBeat (.writeStatus _ _ s))
  | holdSet upper | holdClear upper => cases h; exact .event (.controlBeat (.writeStatus _ _ s))
  | nvZeroizeStageEnd => exact .kept (execNvZeroizeStageEnd_time h)

/-- A step never lowers the active epoch, or its command takes it anew. -/
theorem step_epoch {s t : State} (hst : StartUpOrder s) (h : step s = .next t) :
    EpochRun s.time t.time ∨
      t.time.schedule = none ∧ ∃ row, s.pending.head? = some row ∧ EpochTaken s t row := by
  simp only [step] at h
  split at h
  next => cases h; exact .inl .refl
  next row rest hpend =>
    refine (exec_epoch (StartUpOrder.same (.pending rest s) hst) h).imp_right fun ⟨hnone, htaken⟩ =>
      ⟨hnone, row, by rw [hpend]; rfl, ?_⟩
    cases htaken with
    | powerOn straps he => exact .powerOn straps he
    | read hp hq he => exact .read hp hq he
    | blank hr hp hq he => exact .blank hr hp hq he
    | zeroized hc hd he => exact .zeroized hc hd he

end Sys2Proof.Machine

namespace Sys2Proof.Proofs

open Sys2Proof.Machine Sys2Proof.Safety

/-- Settles O58: the events of the active epoch keep a schedule ahead of it and never lower it, and a row that takes the
epoch anew is one of the four. -/
theorem stepNeverLowersActiveEpoch : Obligations.StepNeverLowersActiveEpoch := by
  intro s t hst hs h
  rcases step_epoch hst h with hrun | ⟨hnone, row, hhead, htaken⟩
  · obtain ⟨ht, hle⟩ := ((scheduleAhead_iff s).mp hs).run hrun
    exact ⟨(scheduleAhead_iff t).mpr ht, fun hlt => absurd hlt (BitVec.not_lt.mpr hle)⟩
  · refine ⟨(scheduleAhead_iff t).mpr (.of_none hnone), fun _ => ?_⟩
    cases htaken with
    | powerOn straps he => exact .inl ⟨straps, hhead, he⟩
    | read hp hq he => exact .inr (.inl ⟨hhead, hp, hq, he⟩)
    | blank hr hp hq he => exact .inr (.inr (.inl ⟨hhead, hr, hp, hq, he⟩))
    | zeroized hc hd he => exact .inr (.inr (.inr ⟨hhead, hc, hd, he⟩))

end Sys2Proof.Proofs
end

