-- ==== Sys2Proof/Proofs/OrderQueues.lean ====
section
/-! SUPPORT. An order queue as its entries move to other stages, and the responses that are given from its head: what
an event may do to a queue so that responses stay in the order of the requests (R136, R137, R143). -/

namespace Sys2Proof.Machine

open Sys2Proof.Safety

/-! ### One queue -/

/-- What `QueuesInOrder` asks of the queue of initiator `i`, but for its head, whose response may wait to be given. -/
structure QueueInForm (i : Initiator) (q : List QueueEntry) : Prop where
  own : ∀ e ∈ q, e.req.initiator = i
  length : q.length ≤ 8
  held : (q.filter isHeld).length ≤ 1
  untaken : q.Pairwise fun e e' => isUntaken e = true → isUntaken e' = true

/-- No response waits at the head of a queue (R137). -/
def HeadNotReady (q : List QueueEntry) : Prop := ∀ e, q.head? = some e → ∀ reply, e.stage ≠ .ready reply

theorem queuesInOrder_iff (s : State) :
    QueuesInOrder s ↔ ∀ i, QueueInForm i (s.queue i) ∧ HeadNotReady (s.queue i) :=
  forall_congr' fun _ => ⟨fun ⟨own, length, held, untaken, head⟩ => ⟨⟨own, length, held, untaken⟩, head⟩,
    fun ⟨form, head⟩ => ⟨form.own, form.length, form.held, form.untaken, head⟩⟩

theorem QueueInForm.sublist {i : Initiator} {q q' : List QueueEntry} (h : QueueInForm i q) (hsub : q'.Sublist q) :
    QueueInForm i q' where
  own e he := h.own e (hsub.subset he)
  length := hsub.length_le.trans h.length
  held := (hsub.filter isHeld).length_le.trans h.held
  untaken := h.untaken.sublist hsub

/-! ### The ready responses at the head -/

theorem drain_sublist (q : List QueueEntry) : (drain q).2.Sublist q := by
  induction q with
  | nil => exact .slnil
  | cons e q ih =>
    unfold drain
    split
    · exact ih.cons e
    · exact .refl _

theorem headNotReady_drain (q : List QueueEntry) : HeadNotReady (drain q).2 := by
  induction q with
  | nil => intro e he; cases he
  | cons e q ih =>
    unfold drain
    split
    · exact ih
    next hne =>
      intro e' he reply hr
      cases he
      exact hne reply hr

/-- Each request of a queue is answered or still waits, the answered ones first (R137). -/
theorem map_req_drain (q : List QueueEntry) : (drain q).1.map (·.req) ++ (drain q).2.map (·.req) = q.map (·.req) := by
  induction q with
  | nil => rfl
  | cons e q ih =>
    unfold drain
    split
    · simpa using ih
    · rfl

/-! ### Entries that move to another stage -/

/-- The queue `q'` is `q` with taken entries moved to other stages, none of them newly held. -/
structure Restaged (q q' : List QueueEntry) : Prop where
  requests : q'.map (·.req) = q.map (·.req)
  untaken : q'.map isUntaken = q.map isUntaken
  held : q'.countP isHeld ≤ q.countP isHeld

/-- A queue of the same requests holds as many, of the same initiator. -/
theorem QueueInForm.same_requests {i : Initiator} {q q' : List QueueEntry} (h : QueueInForm i q)
    (hreq : q'.map (·.req) = q.map (·.req)) : (∀ e ∈ q', e.req.initiator = i) ∧ q'.length ≤ 8 := by
  have hown : ∀ r ∈ q.map (·.req), r.initiator = i := List.forall_mem_map.mpr h.own
  have hlen := congrArg List.length hreq
  simp only [List.length_map] at hlen
  rw [← hreq] at hown
  exact ⟨List.forall_mem_map.mp hown, hlen ▸ h.length⟩

theorem QueueInForm.restaged {i : Initiator} {q q' : List QueueEntry} (h : QueueInForm i q) (hr : Restaged q q') :
    QueueInForm i q' where
  own := (h.same_requests hr.requests).1
  length := (h.same_requests hr.requests).2
  held := by
    have hheld := h.held
    rw [← List.countP_eq_length_filter] at hheld ⊢
    exact hr.held.trans hheld
  untaken := by
    have huntaken : (q.map isUntaken).Pairwise fun a b => a = true → b = true := List.pairwise_map.mpr h.untaken
    rw [← hr.untaken] at huntaken
    exact List.pairwise_map.mp huntaken

/-- Each entry moves to a stage by itself. -/
theorem Restaged.map {f : QueueEntry → QueueEntry} (hreq : ∀ e, (f e).req = e.req)
    (huntaken : ∀ e, isUntaken (f e) = isUntaken e) (hheld : ∀ e, isHeld (f e) = true → isHeld e = true)
    (q : List QueueEntry) : Restaged q (q.map f) where
  requests := by rw [List.map_map]; exact List.map_congr_left fun e _ => hreq e
  untaken := by rw [List.map_map]; exact List.map_congr_left fun e _ => huntaken e
  held := by rw [List.countP_map]; exact List.countP_mono_left fun e _ => hheld e

/-- A forwarded request has its response ready (R143, R144). -/
theorem Restaged.answered {pre post : List QueueEntry} {r : Request} {answers : List (Option Word)} {awaited : Bool}
    (reply : Reply) :
    Restaged (pre ++ { req := r, stage := .forwarded answers awaited } :: post)
      (pre ++ { req := r, stage := .ready reply } :: post) where
  requests := by simp
  untaken := by simp [isUntaken]
  held := by simp [List.countP_append, isHeld]

/-- Taking changes the first untaken entry, or there is none. -/
theorem takeHead_cases (st : Stage) (q : List QueueEntry) : takeHead st q = q ∨
    ∃ front r back, q = front ++ { req := r, stage := .untaken } :: back ∧ (∀ e ∈ front, isUntaken e = false) ∧
      takeHead st q = front ++ { req := r, stage := st } :: back := by
  induction q with
  | nil => exact .inl rfl
  | cons e q ih =>
    cases he : isUntaken e with
    | true =>
      obtain ⟨r, stage⟩ := e
      obtain rfl : stage = .untaken := by simpa [isUntaken] using he
      exact .inr ⟨[], r, q, rfl, by simp, rfl⟩
    | false =>
      simp only [takeHead, he, Bool.false_eq_true, if_false]
      rcases ih with ih | ⟨front, r, back, rfl, hfront, ih⟩
      · exact .inl (by rw [ih])
      · exact .inr ⟨e :: front, r, back, rfl, List.forall_mem_cons.mpr ⟨he, hfront⟩, by rw [ih]; rfl⟩

/-- The head of the untaken part is taken; it may be held where no other entry is (R136, R143). -/
theorem QueueInForm.takeHead {i : Initiator} {q : List QueueEntry} {st : Stage} (h : QueueInForm i q)
    (htaken : st ≠ .untaken) (hheld : (∀ r, isHeld { req := r, stage := st } = false) ∨ ∀ e ∈ q, isHeld e = false) :
    QueueInForm i (takeHead st q) := by
  obtain ⟨hown, hlen⟩ := h.same_requests (map_req_takeHead st q)
  refine ⟨hown, hlen, ?_, ?_⟩ <;> rcases takeHead_cases st q with e | ⟨front, r, back, rfl, hfront, e⟩ <;> rw [e]
  · exact h.held
  · have hone := h.held
    rw [← List.countP_eq_length_filter, List.countP_append, List.countP_cons] at hone ⊢
    rcases hheld with hst | hnone
    · have hfirst : isHeld { req := r, stage := .untaken } = false := rfl
      simpa only [hst, hfirst] using hone
    · have hfree : ∀ l : List QueueEntry, (∀ x ∈ l, isHeld x = false) → l.countP isHeld = 0 := fun l hl =>
        List.countP_eq_zero.mpr fun x hx => by simp [hl x hx]
      rw [hfree front fun x hx => hnone x (by simp [hx]), hfree back fun x hx => hnone x (by simp [hx])]
      split <;> omega
  · exact h.untaken
  · obtain ⟨hpre, hpost, -⟩ := List.pairwise_append.mp h.untaken
    have hback := (List.pairwise_cons.mp hpost).2
    refine List.pairwise_append.mpr ⟨hpre, List.pairwise_cons.mpr ⟨fun _ _ hu => ?_, hback⟩, fun x hx _ _ hu => ?_⟩
    · simp [isUntaken, htaken] at hu
    · simp [hfront x hx] at hu

/-! ### The events of the queues -/

/-- `t` is `s` after an event that gives responses in the order of the requests and loses none (R136, R137). -/
structure GrowsInOrder (s t : State) : Prop where
  inOrder : QueuesInOrder t
  requests : ∀ i, answeredRequests s i ++ waitingRequests s i <+: answeredRequests t i ++ waitingRequests t i
  answered : ∀ i, answeredRequests s i <+: answeredRequests t i

/-- From queues in order, an event keeps them so and gives responses in their order. -/
def KeepsOrder (s t : State) : Prop := QueuesInOrder s → GrowsInOrder s t

theorem KeepsOrder.refl (s : State) : KeepsOrder s s := fun h =>
  ⟨h, fun _ => List.prefix_rfl, fun _ => List.prefix_rfl⟩

theorem KeepsOrder.trans {s t u : State} (a : KeepsOrder s t) (b : KeepsOrder t u) : KeepsOrder s u := fun h =>
  have ha := a h
  have hb := b ha.inOrder
  ⟨hb.inOrder, fun i => (ha.requests i).trans (hb.requests i), fun i => (ha.answered i).trans (hb.answered i)⟩

/-- An event that touches neither a queue nor the responses. -/
theorem KeepsOrder.of_same {s t : State} (hq : t.path.queues = s.path.queues) (hs : t.sysOut = s.sysOut) :
    KeepsOrder s t := fun hord => by
  have hqueue : t.queue = s.queue := funext fun i => by simp only [State.queue, hq]
  refine ⟨by simpa only [QueuesInOrder, hqueue] using hord, fun i => ?_, fun i => ?_⟩ <;>
    simp only [answeredRequests, waitingRequests, hqueue, hs]
  · exact List.prefix_rfl
  · exact List.prefix_rfl

/-- The queues become `q`, whose ready responses at the head are given (R137). -/
theorem KeepsOrder.of_drain {s t : State} (q : Initiator → List QueueEntry)
    (hform : QueuesInOrder s → ∀ i, QueueInForm i (q i)) (hreq : ∀ i, (q i).map (·.req) = waitingRequests s i)
    (hq : ∀ i, t.queue i = (drain (q i)).2)
    (hs : t.sysOut = s.sysOut ++ (List.finRange 4).flatMap fun i => (drain (q i)).1) : KeepsOrder s t := by
  intro hord
  have hgiven : ∀ i, answeredRequests t i = answeredRequests s i ++ (drain (q i)).1.map (·.req) := fun i =>
    (congrArg (List.map SysOut.req) (given_append_drain q (fun j => (hform hord j).own) hs i)).trans List.map_append
  refine ⟨(queuesInOrder_iff t).mpr fun i => ?_, fun i => ?_, fun i => ?_⟩
  · rw [hq]
    exact ⟨(hform hord i).sublist (drain_sublist _), headNotReady_drain _⟩
  · rw [hgiven, ← hreq, ← map_req_drain, ← hq, List.append_assoc]
    exact List.prefix_rfl
  · rw [hgiven]
    exact List.prefix_append ..

/-- Responses are given after the queues of `s` have changed to those of `u` (R137). -/
theorem KeepsOrder.giveResponses {s u : State} (hform : QueuesInOrder s → ∀ i, QueueInForm i (u.queue i))
    (hreq : ∀ i, waitingRequests u i = waitingRequests s i) (hs : u.sysOut = s.sysOut) :
    KeepsOrder s u.giveResponses :=
  .of_drain u.queue hform hreq u.queue_giveResponses
    (congrArg (· ++ (List.finRange 4).flatMap fun i => (drain (u.queue i)).1) hs)

/-- The queues of `s` change to those of `u`, and no response is given. -/
theorem KeepsOrder.of_form {s u : State}
    (hform : QueuesInOrder s → ∀ i, QueueInForm i (u.queue i) ∧ HeadNotReady (u.queue i))
    (hreq : ∀ i, waitingRequests u i = waitingRequests s i) (hs : u.sysOut = s.sysOut) : KeepsOrder s u := by
  intro hord
  have hdrain : ∀ i, drain (u.queue i) = ([], u.queue i) := fun i => drain_of_head _ (hform hord i).2
  refine KeepsOrder.of_drain u.queue (fun _ i => (hform hord i).1) hreq (fun i => by rw [hdrain]) ?_ hord
  simp [hdrain, hs]

end Sys2Proof.Machine
end

