-- ==== Sys2Proof/Proofs/OrderEvents.lean ====
section
/-! SUPPORT. Each shared operation on the order queues keeps them in order (R136, R137): taking, holding, forwarding and
refusing a request, memory's responses, the end of holds, and the marks of a load. -/

namespace Sys2Proof.Machine

open Sys2Proof.Safety

/-! ### Entries that move by themselves -/

theorem KeepsOrder.restaged {s u : State} (hr : ∀ i, Restaged (s.queue i) (u.queue i)) (hs : u.sysOut = s.sysOut) :
    KeepsOrder s u.giveResponses :=
  .giveResponses (fun hord i => ((queuesInOrder_iff s).mp hord i).1.restaged (hr i)) (fun i => (hr i).requests) hs

/-- The entry stands as before: untaken, held or with its response ready where it was. -/
structure SameStanding (e e' : QueueEntry) : Prop where
  req : e'.req = e.req
  untaken : isUntaken e' = isUntaken e
  held : isHeld e' = isHeld e
  ready : ∀ reply, e'.stage = .ready reply → e.stage = .ready reply

theorem SameStanding.refl (e : QueueEntry) : SameStanding e e := ⟨rfl, rfl, rfl, fun _ h => h⟩

/-- A change of each entry that leaves it standing as before. -/
theorem KeepsOrder.map {s u : State} {f : QueueEntry → QueueEntry} (hq : ∀ i, u.queue i = (s.queue i).map f)
    (hs : u.sysOut = s.sysOut) (hf : ∀ e, SameStanding e (f e)) : KeepsOrder s u := by
  have hr := Restaged.map (fun e => (hf e).req) (fun e => (hf e).untaken) fun e he => (hf e).held ▸ he
  refine .of_form (fun hord i => ?_) (fun i => ?_) hs
  · obtain ⟨hform, hhead⟩ := (queuesInOrder_iff s).mp hord i
    rw [hq]
    refine ⟨hform.restaged (hr _), fun e he reply hready => ?_⟩
    rw [List.head?_map] at he
    obtain ⟨e0, he0, rfl⟩ := Option.map_eq_some_iff.mp he
    exact hhead e0 he0 reply ((hf e0).ready reply hready)
  · rw [waitingRequests, hq]
    exact (hr _).requests

/-- A read that is no longer held is neither held nor untaken. -/
theorem State.finishRead_stage (s : State) (r : Request) (places : List Place) (r' : Request) :
    isHeld { req := r', stage := (s.finishRead r places).1 } = false ∧ (s.finishRead r places).1 ≠ .untaken := by
  simp only [State.finishRead]
  split <;> exact ⟨rfl, by simp⟩

theorem State.restaged_settleEntry (s : State) (q : List QueueEntry) :
    Restaged q (q.map fun e => (s.settleEntry e).1) := by
  refine .map s.settleEntry_req (isUntaken_settleEntry s) (fun e he => ?_) q
  by_contra h
  have hnot : isHeld e = false := by simpa using h
  have hsame := s.settleEntry_of_not_held (fun _ => true) hnot
  rw [dropWaits_all] at hsame
  rw [hsame] at he
  exact h he

theorem State.restaged_limitEntry (s : State) (q : List QueueEntry) :
    Restaged q (q.map fun e => (s.limitEntry e).1) := by
  have hcases : ∀ e, (s.limitEntry e).1 = e ∨ isHeld e = true ∧ (s.limitEntry e).1.req = e.req ∧
      isUntaken (s.limitEntry e).1 = isUntaken e := fun e => by
    obtain ⟨r, stage⟩ := e
    cases stage with
    | held endsAt places waits =>
      simp only [State.limitEntry]
      split
      · exact .inr ⟨rfl, rfl, by simpa [isUntaken] using (s.finishRead_stage r places r).2⟩
      · exact .inl rfl
    | _ => exact .inl rfl
  refine .map (fun e => ?_) (fun e => ?_) (fun e he => ?_) q
  · rcases hcases e with h | ⟨-, h, -⟩ <;> rw [h]
  · rcases hcases e with h | ⟨-, -, h⟩ <;> rw [h]
  · rcases hcases e with h | ⟨h, -⟩
    · rwa [h] at he
    · exact h

/-- Marking a forwarded write changes its mark alone (R146). -/
theorem sameStanding_markEntry (e : QueueEntry) : SameStanding e (markEntry e) := by
  obtain ⟨r, stage⟩ := e
  cases stage with
  | forwarded a m =>
    simp only [markEntry]
    split
    · exact ⟨rfl, rfl, rfl, fun _ h => by cases h⟩
    · exact .refl _
  | _ => exact .refl _

/-- A held read of a dropped group stays held until it is settled (R28). -/
theorem sameStanding_dropEntry (kept : Fin 16 → Bool) (e : QueueEntry) : SameStanding e (dropEntry kept e) := by
  obtain ⟨r, stage⟩ := e
  cases stage with
  | held endsAt places waits => exact ⟨rfl, rfl, rfl, fun _ h => by cases h⟩
  | _ => exact .refl _

/-! ### Whole queues that change -/

theorem KeepsOrder.settleHolds (s : State) : KeepsOrder s s.settleHolds := by
  refine .restaged (fun i => ?_) rfl
  simp only [State.queue, Vector.getElem_ofFn, Fin.getElem_fin]
  exact s.restaged_settleEntry _

theorem KeepsOrder.endAtLimit (i : Initiator) (s : State) : KeepsOrder s (s.endAtLimit i) := by
  refine .restaged (fun j => ?_) rfl
  show Restaged _ ((s.setQueue i ((s.queue i).map fun e => (s.limitEntry e).1)).queue j)
  rw [State.queue_setQueue]
  split
  next e => exact e ▸ s.restaged_limitEntry _
  next => exact ⟨rfl, rfl, le_rfl⟩

/-- A load that begins marks forwarded writes (R146). -/
theorem KeepsOrder.beginLoad (s : State) : KeepsOrder s s.beginLoad :=
  .map (fun i => by simp [State.beginLoad, State.queue, Fin.getElem_fin]) rfl sameStanding_markEntry

/-- An installation lets go of the slots of dropped groups, and settles what they held (R28, R159). -/
theorem KeepsOrder.installMap (new : Vector Descriptor 16) (s : State) : KeepsOrder s (s.installMap new) := by
  have hdropped : KeepsOrder s (installed s new) :=
    .map (fun i => by simp [installed, State.queue, Fin.getElem_fin]) rfl
      (sameStanding_dropEntry (groupKept s.map.table new))
  exact hdropped.trans ((settleHolds (installed s new)).trans (.of_same rfl rfl))

/-! ### One queue that changes -/

section
variable {s u : State} {i : Initiator} {q : List QueueEntry}

theorem waitingRequests_of_queue (hq : ∀ j, u.queue j = if j = i then q else s.queue j)
    (hreq : q.map (·.req) = (s.queue i).map (·.req)) (j : Initiator) : waitingRequests u j = waitingRequests s j := by
  rw [waitingRequests, hq]
  split
  next e => rw [e]; exact hreq
  next => rfl

theorem queueInForm_of_queue (hord : QueuesInOrder s) (hq : ∀ j, u.queue j = if j = i then q else s.queue j)
    (h : QueueInForm i q) (j : Initiator) : QueueInForm j (u.queue j) := by
  rw [hq]
  split
  next e => rw [e]; exact h
  next => exact ((queuesInOrder_iff s).mp hord j).1

/-- One queue changes, and its responses are given. -/
theorem KeepsOrder.give (hq : ∀ j, u.queue j = if j = i then q else s.queue j) (hs : u.sysOut = s.sysOut)
    (hreq : q.map (·.req) = (s.queue i).map (·.req)) (h : QueueInForm i (s.queue i) → QueueInForm i q) :
    KeepsOrder s u.giveResponses :=
  .giveResponses (fun hord => queueInForm_of_queue hord hq (h ((queuesInOrder_iff s).mp hord i).1))
    (waitingRequests_of_queue hq hreq) hs

/-- The first untaken request is taken, and not answered. -/
theorem KeepsOrder.take {st : Stage} (hq : ∀ j, u.queue j = if j = i then takeHead st (s.queue i) else s.queue j)
    (hs : u.sysOut = s.sysOut) (htaken : st ≠ .untaken) (hready : ∀ reply, st ≠ .ready reply)
    (hheld : (∀ r, isHeld { req := r, stage := st } = false) ∨ ∀ e ∈ s.queue i, isHeld e = false) :
    KeepsOrder s u := by
  refine .of_form (fun hord j => ?_) (waitingRequests_of_queue hq (map_req_takeHead st _)) hs
  obtain ⟨hform, hhead⟩ := (queuesInOrder_iff s).mp hord i
  refine ⟨queueInForm_of_queue hord hq (hform.takeHead htaken hheld) j, ?_⟩
  rw [hq]
  split
  · rcases takeHead_cases st (s.queue i) with e | ⟨front, r, back, hsplit, -, e⟩ <;> rw [e]
    · exact hhead
    · rw [hsplit] at hhead
      exact head_not_ready hhead hready
  · exact ((queuesInOrder_iff s).mp hord j).2

end

/-! ### The ports -/

/-- An address phase joins its queue at the end (R136). -/
theorem KeepsOrder.requestAccept {r : Request} {s t : State} (h : execRequestAccept r s = .next t) :
    KeepsOrder s t := by
  simp only [execRequestAccept] at h
  split at h <;> cases h
  next hlen =>
    intro hord
    have hqueue := s.queue_setQueue r.initiator
    refine ⟨(queuesInOrder_iff _).mpr fun i => ?_, fun i => ?_, fun i => List.prefix_rfl⟩
    · obtain ⟨hform, hhead⟩ := (queuesInOrder_iff s).mp hord i
      rw [hqueue]
      split
      next e =>
        subst e
        refine ⟨⟨fun e he => ?_, ?_, ?_, ?_⟩, fun e he => ?_⟩
        · rcases List.mem_append.mp he with he | he
          · exact hform.own e he
          · rw [List.mem_singleton.mp he]
        · rw [List.length_append]; exact hlen
        · rw [List.filter_append]
          simpa [isHeld] using hform.held
        · refine List.pairwise_append.mpr ⟨hform.untaken, List.pairwise_singleton .., fun _ _ e he _ => ?_⟩
          rw [List.mem_singleton.mp he]; rfl
        · cases hq : s.queue r.initiator with
          | nil => rw [hq] at he; cases he; simp
          | cons e0 l => rw [hq] at he hhead; exact hhead e he
      next => exact ⟨hform, hhead⟩
    · rw [waitingRequests, waitingRequests, hqueue]
      split
      next e => subst e; rw [List.map_append, ← List.append_assoc]; exact List.prefix_append ..
      next => exact List.prefix_rfl
  next => exact .refl s

/-- A refused request is answered in its place (R137, R141). -/
theorem KeepsOrder.refuse (i : Initiator) (r : Request) (reason : RefusalReason) (s : State) :
    KeepsOrder s (s.refuse i r reason) :=
  .give (fun j => State.queue_setQueue _ i j _) rfl (map_req_takeHead _ _)
    fun h => h.takeHead (by simp) (.inl fun _ => rfl)

theorem KeepsOrder.readTaken {i : Initiator} {s t : State} (h : execReadTaken i s = .next t) : KeepsOrder s t := by
  simp only [execReadTaken] at h
  split at h
  · cases h; exact .refl s
  next r hnext =>
    have hnone : ∀ e ∈ s.queue i, isHeld e = false := by
      simp only [State.nextRequest] at hnext
      split at hnext
      · cases hnext
      next hfree =>
        rw [Bool.or_eq_true, not_or] at hfree
        simpa using hfree.2
    repeat' split at h
    all_goals cases h
    · exact .refl s
    · exact .refuse i r _ s
    · simp only [State.admitRead]
      split
      · have hstage := (s.latchLt (s.requestPlaces r)).finishRead_stage r (s.requestPlaces r)
        exact .give (fun j => State.queue_setQueue _ i j _) rfl (map_req_takeHead _ _)
          fun h => h.takeHead (hstage r).2 (.inl fun r' => (hstage r').1)
      · exact .take (fun j => State.queue_setQueue s i j _) rfl (by simp) (by simp) (.inr hnone)

/-- The entry behind `pre` is at its place in the queue, and moves to a stage there. -/
theorem State.setStage_of_split {s : State} {i : Initiator} {pre post : List QueueEntry} {e : QueueEntry} {place : Nat}
    (hq : s.queue i = pre ++ e :: post) (hplace : place = pre.length) (st : Stage) :
    (s.queue i)[place]? = some e ∧ s.setStage i place st = s.setQueue i (pre ++ { e with stage := st } :: post) := by
  subst hplace
  refine ⟨by rw [hq]; simp, ?_⟩
  rw [State.setStage, hq, List.modify_eq_take_cons_drop (by simp)]
  simp

/-- Memory's response makes an entry ready in its place (R137, R144). -/
theorem KeepsOrder.setStage {i : Initiator} {place : Nat} {s : State} {r : Request} {answers : List (Option Word)}
    {awaited : Bool} (h : (s.queue i)[place]? = some { req := r, stage := .forwarded answers awaited })
    (reply : Reply) : KeepsOrder s (s.setStage i place (.ready reply)).giveResponses := by
  obtain ⟨hlt, hget⟩ := List.getElem?_eq_some_iff.mp h
  have hsplit : s.queue i = (s.queue i).take place ++
      { req := r, stage := .forwarded answers awaited } :: (s.queue i).drop (place + 1) := by
    rw [← hget, List.getElem_cons_drop, List.take_append_drop]
  have hr := Restaged.answered (pre := (s.queue i).take place) (post := (s.queue i).drop (place + 1)) (r := r)
    (answers := answers) (awaited := awaited) reply
  rw [← hsplit] at hr
  rw [(State.setStage_of_split hsplit (List.length_take_of_le hlt.le).symm _).2]
  exact .give (fun j => State.queue_setQueue s i j _) rfl hr.requests fun h => h.restaged hr

theorem KeepsOrder.memoryReadResponse {i : Initiator} {place : Fin 8} {beats : List ReadBeat} {s t : State}
    (h : execMemoryReadResponse i place beats s = .next t) : KeepsOrder s t := by
  simp only [execMemoryReadResponse] at h
  repeat' split at h
  all_goals cases h
  next => exact .refl s
  next hq _ => exact .setStage hq _
  next => exact .refl s

theorem KeepsOrder.memoryWriteResponse {i : Initiator} {place : Fin 8} {resp : Resp} {s t : State}
    (h : execMemoryWriteResponse i place resp s = .next t) : KeepsOrder s t := by
  simp only [execMemoryWriteResponse] at h
  repeat' split at h
  all_goals cases h
  next => exact .refl s
  next hq _ => exact .setStage hq _
  next => exact .refl s

end Sys2Proof.Machine
end

