-- ==== Sys2Proof/Proofs/ResponsesInOrder.lean ====
section
/-! SUPPORT. Every row keeps the order queues in order and gives responses in the order of the requests: O60 (R136,
R137). -/

namespace Sys2Proof.Machine

open Sys2Proof.Safety

/-- What touches neither a queue nor the responses may come before. -/
theorem KeepsOrder.after_same {s u t : State} (h : KeepsOrder u t) (hq : u.path.queues = s.path.queues)
    (hs : u.sysOut = s.sysOut) : KeepsOrder s t := (KeepsOrder.of_same hq hs).trans h

/-- Slots change, and the reads that they held are settled (R25). -/
theorem KeepsOrder.settled {s u : State} (hq : u.path.queues = s.path.queues) (hs : u.sysOut = s.sysOut) :
    KeepsOrder s u.settleHolds := .after_same (.settleHolds u) hq hs

/-! ### Start-up and zeroization -/

theorem KeepsOrder.endReserve (s : State) : KeepsOrder s s.endReserve := by
  simp only [State.endReserve]
  exact .after_same (.beginLoad _) rfl rfl

theorem KeepsOrder.beginReserve (s : State) : KeepsOrder s s.beginReserve := by
  simp only [State.beginReserve]
  repeat' split
  · exact .after_same (.endReserve _) rfl rfl
  · exact .after_same (.endReserve _) rfl rfl
  · exact .of_same rfl rfl

theorem KeepsOrder.continueCheck (n : Nat) (s : State) : KeepsOrder s (s.continueCheck n) := by
  simp only [State.continueCheck]
  split
  · exact .of_same rfl rfl
  · exact .beginReserve s

theorem KeepsOrder.startZeroization (s : State) : KeepsOrder s s.startZeroization := by
  have hsettled : KeepsOrder s s.stoppedForZeroize.settleHolds := .settled rfl rfl
  rw [State.startZeroization_eq]
  split
  · exact hsettled.trans (.beginReserve _)
  · exact hsettled

theorem KeepsOrder.leaveNvRead (s : State) : KeepsOrder s s.leaveNvRead := by
  rcases s.leaveNvRead_cases with ⟨e, -⟩ | e <;> rw [e]
  · exact .after_same (.startZeroization _) rfl rfl
  · exact .after_same (.continueCheck 0 _) rfl rfl

/-! ### Slot commands and shadows -/

theorem KeepsOrder.carrySlot (cmd : SlotCmd) (r : SlotRef) (c : SlotCtx) (s : State) :
    KeepsOrder s (s.carrySlot cmd r c) := by
  cases cmd with
  | arm => simp only [State.carrySlot, State.carryArm]; split <;> exact .of_same rfl rfl
  | abort =>
    simp only [State.carrySlot, State.carryAbort]
    repeat' split
    · exact .of_same rfl rfl
    · exact .settled rfl rfl
    · exact .of_same rfl rfl
  | _ => exact .of_same rfl rfl

theorem KeepsOrder.takeSlotCommand (i : Initiator) (r : SlotRef) (cmd : Option SlotCmd) (upper : BitVec 56)
    (s : State) : KeepsOrder s (s.takeSlotCommand i r cmd upper) := by
  simp only [State.takeSlotCommand]
  split
  · exact .refl s
  · split
    · simp only [State.refuseSlot]; split <;> exact .of_same rfl rfl
    · exact .carrySlot _ _ _ s
    · exact .refl s

theorem KeepsOrder.shadowInbound (r : SlotRef) (w : Fin 4) (b : WriteBeat) (s : State) :
    KeepsOrder s (s.shadowInbound r w b) := by
  simp only [State.shadowInbound]; (repeat' split) <;> exact .of_same rfl rfl

theorem KeepsOrder.shadowPayload (r : SlotRef) (w : Fin 4) (b : WriteBeat) (s : State) :
    KeepsOrder s (s.shadowPayload r w b) := by
  simp only [State.shadowPayload]; (repeat' split) <;> exact .of_same rfl rfl

theorem KeepsOrder.deadline (r : SlotRef) (c : SlotCtx) (s : State) : KeepsOrder s (s.deadline r c) := by
  simp only [State.deadline]
  repeat' split
  · exact .settled rfl rfl
  · exact .of_same rfl rfl
  · exact .refl s

/-! ### The import area -/

theorem KeepsOrder.captureBlob (w : Nat) (b : WriteBeat) (s : State) : KeepsOrder s (s.captureBlob w b) := by
  simp only [State.captureBlob]; (repeat' split) <;> exact .of_same rfl rfl

theorem KeepsOrder.placeUnlessTaken (cmd : ImportCmd) (kind : ImportKind) (h : Block) (s : State) :
    KeepsOrder s (s.placeUnlessTaken cmd kind h) := by
  simp only [State.placeUnlessTaken]; (repeat' split) <;> exact .of_same rfl rfl

/-- REVOKE and ERASE withdraw the key, which ends the holds of the slots that it faults (R27, R112). -/
theorem KeepsOrder.withdrawn (cmd : ImportCmd) (k : Fin 64) (e : DirEntry) (op : AdminOp) (s : State) :
    KeepsOrder s (((s.setEntry k e).withdraw k).placeAdmin cmd op) :=
  KeepsOrder.trans (t := (s.setEntry k e).withdraw k) (.settled (u := (s.setEntry k e).withdrawing k) rfl rfl)
    (.of_same rfl rfl)

theorem KeepsOrder.carryImport (cmd : ImportCmd) (upper : BitVec 56) (s : State) :
    KeepsOrder s (s.carryImport cmd upper) := by
  cases cmd with
  | loadPlain =>
    simp only [State.carryImport, State.carryLoadPlain]
    split
    · exact .of_same rfl rfl
    · exact .placeUnlessTaken _ _ _ s
  | load =>
    simp only [State.carryImport, State.carryLoad]
    repeat' split
    · exact .of_same rfl rfl
    · exact .of_same rfl rfl
    · exact .placeUnlessTaken _ _ _ s
  | revoke =>
    simp only [State.carryImport, State.carryRevoke]
    repeat' split
    · exact .of_same rfl rfl
    · exact .of_same rfl rfl
    · exact .of_same rfl rfl
    · exact .of_same rfl rfl
    · exact .withdrawn _ _ _ _ s
  | erase =>
    simp only [State.carryImport, State.carryErase]
    repeat' split
    · exact .of_same rfl rfl
    · exact .of_same rfl rfl
    · exact .of_same rfl rfl
    · exact .withdrawn _ _ _ _ s
  | inquire => exact .of_same rfl rfl
  | setReader => simp only [State.carryImport, State.carrySetReader]; split <;> exact .of_same rfl rfl
  | fieldLock => simp only [State.carryImport, State.carryFieldLock]; (repeat' split) <;> exact .of_same rfl rfl
  | zeroize => exact .after_same (.startZeroization (s.endAtOnce 0x08#8 .ok 0 0#24)) rfl rfl

theorem KeepsOrder.takeImportCommand (code : Byte) (upper : BitVec 56) (s : State) :
    KeepsOrder s (s.takeImportCommand code upper) := by
  simp only [State.takeImportCommand]
  split
  · exact .refl s
  · split
    · exact .of_same rfl rfl
    · exact .carryImport _ upper s
    · exact .refl s

/-! ### The settings -/

theorem KeepsOrder.writeStatus (word : StatusWord) (w : Word) (s : State) : KeepsOrder s (s.writeStatus word w) := by
  simp only [State.writeStatus]
  split
  · cases word with
    | epoch => simp only [State.applySetting, State.writeSchedule]; split <;> exact .of_same rfl rfl
    | epochControl =>
      simp only [State.applySetting, State.writeEpochControl, State.switchNow]
      (repeat' split) <;> exact .of_same rfl rfl
    | causes => simp only [State.applySetting, State.clearCauses]; split <;> exact .of_same rfl rfl
    | mapWord =>
      exact .after_same (.beginLoad { s with map := { s.map with requested := w.extractLsb' 0 16 } }) rfl rfl
    | hold =>
      simp only [State.applySetting, State.writeHold, State.setHold_eq]
      repeat' split
      · exact .refl s
      · exact .settled rfl rfl
      · exact .of_same rfl rfl
    | _ => exact .of_same rfl rfl
  · exact .refl s

/-! ### Beats, and the rows that are one beat -/

theorem KeepsOrder.applyBeat (i : Initiator) (p : Place) (b : WriteBeat) (s : State) :
    KeepsOrder s (s.applyBeat i p b) := by
  cases p with
  | memory => exact .refl s
  | slot r word =>
    simp only [State.applyBeat]
    repeat' split
    · exact .shadowInbound r _ b s
    · exact .shadowPayload r _ b s
    · exact .takeSlotCommand i r _ _ s
    · exact .refl s
  | status word => exact .writeStatus word b.data s
  | importArea word =>
    simp only [State.applyBeat]
    split
    · exact .takeImportCommand _ _ s
    · exact .captureBlob _ b s

theorem KeepsOrder.applyBeats (i : Initiator) (l : List (Place × WriteBeat)) (s : State) :
    KeepsOrder s (State.applyBeats i l s) := by
  induction l generalizing s with
  | nil => exact .refl s
  | cons pb l ih => exact (KeepsOrder.applyBeat i pb.1 pb.2 s).trans (ih _)

theorem KeepsOrder.slotBeat {r : SlotRef} {offset : Nat} {b : WriteBeat} {act : State → State} {s : State}
    (h : KeepsOrder s (act s)) : KeepsOrder s (s.slotBeat r offset b act) := by
  simp only [State.slotBeat]
  split
  · exact .refl s
  · exact h.trans (.of_same rfl rfl)

theorem KeepsOrder.controlBeat {offset : Nat} {b : WriteBeat} {act : State → State} {s : State}
    (h : KeepsOrder s (act s)) : KeepsOrder s (s.controlBeat offset b act) := by
  simp only [State.controlBeat]
  split
  · exact .refl s
  · exact h.trans (.of_same rfl rfl)

/-- The beats of a write act, and then it is taken from its queue as it then stands (R136, R142). -/
theorem KeepsOrder.writeTaken {i : Initiator} {beats : List WriteBeat} {s t : State}
    (h : execWriteTaken i beats s = .next t) : KeepsOrder s t := by
  simp only [execWriteTaken] at h
  repeat' split at h
  all_goals cases h
  · exact .refl s
  · exact .refl s
  · exact .refuse i _ _ s
  · exact (KeepsOrder.applyBeats i _ s).trans
      (.take (fun j => State.queue_setQueue _ i j _) rfl (by simp) (by simp) (.inl fun _ => rfl))

/-! ### The engine -/

/-- The delivery of a result touches no queue. -/
theorem KeepsOrder.deliverVerify (r : SlotRef) (g : BitVec 8) (res : VerifyResult) (c : SlotCtx) (s : State) :
    KeepsOrder s (s.deliverVerify r g res c) := by
  cases res with
  | authenticated =>
    simp only [State.deliverVerify, State.deliverClass]
    (repeat' split) <;> exact .of_same rfl rfl
  | badMac => exact .of_same rfl rfl
  | keyReason reason => exact .of_same rfl rfl

theorem KeepsOrder.deliverSeal (r : SlotRef) (key : Option Block) (c : SlotCtx) (s : State) :
    KeepsOrder s (s.deliverSeal r key c) := by cases key <;> exact .of_same rfl rfl

theorem KeepsOrder.completeSlotJob {r : SlotRef} {discard : Bool} {deliver : SlotCtx → State → State} {s : State}
    (hd : ∀ c t, KeepsOrder t (deliver c t)) : KeepsOrder s (s.completeSlotJob r discard deliver) := by
  have hidle : KeepsOrder s s.idleEngine := .of_same rfl rfl
  simp only [State.completeSlotJob]
  repeat' split
  · exact hidle
  · exact hidle
  · exact .settled rfl rfl
  · exact .settled rfl rfl
  · exact (hidle.trans (hd _ _)).trans (.settleHolds _)
  · exact hidle

theorem KeepsOrder.takeSlotJob (r : SlotRef) (rest : List SlotRef) (s : State) :
    KeepsOrder s (s.takeSlotJob r rest) := by
  simp only [State.takeSlotJob]
  split
  · exact .refl s
  · split
    · exact .refl s
    · split
      · exact .after_same (u := (s.popFifo rest).setCtx r _) (.completeSlotJob fun c t => .deliverVerify r _ _ c t)
          rfl rfl
      · exact .of_same rfl rfl
    · split
      · exact .after_same (u := (s.popFifo rest).setCtx r _) (.completeSlotJob fun c t => .deliverSeal r none c t)
          rfl rfl
      · exact .of_same rfl rfl

theorem KeepsOrder.engineTakeJob {s t : State} (h : execEngineTakeJob s = .next t) : KeepsOrder s t := by
  simp only [execEngineTakeJob] at h
  split at h <;> cases h
  · simp only [State.arbitrate]
    repeat' split
    · exact .refl s
    · exact .of_same rfl rfl
    · exact .takeSlotJob _ _ s
    · exact .takeSlotJob _ _ s
    · exact .of_same rfl rfl
  · exact .refl s

theorem KeepsOrder.verifyComplete {s t : State} (h : execVerifyComplete s = .next t) : KeepsOrder s t := by
  simp only [execVerifyComplete] at h
  split at h <;> cases h
  · exact .completeSlotJob fun c t => .deliverVerify _ _ _ c t
  · exact .refl s

theorem KeepsOrder.sealComplete {s t : State} (h : execSealComplete s = .next t) : KeepsOrder s t := by
  simp only [execSealComplete] at h
  split at h <;> cases h
  · exact .completeSlotJob fun c t => .deliverSeal _ _ c t
  · exact .refl s

theorem KeepsOrder.importComplete {s t : State} (h : execImportComplete s = .next t) : KeepsOrder s t := by
  simp only [execImportComplete] at h
  repeat' split at h
  all_goals cases h
  · exact .of_same rfl rfl
  · simp only [State.handOver]; (repeat' split) <;> exact .of_same rfl rfl
  · exact .refl s

theorem KeepsOrder.checkComplete {s t : State} (h : execCheckComplete s = .next t) : KeepsOrder s t := by
  simp only [execCheckComplete] at h
  split at h <;> cases h
  next i key _ _ =>
    exact .after_same (.continueCheck _ (s.idleEngine.setEntry i (checkedEntry (s.entry i) key))) rfl rfl
  next => exact .refl s

/-! ### Clocks and pins -/

theorem KeepsOrder.syncEdge {s t : State} (h : execSyncEdge s = .next t) : KeepsOrder s t := by
  simp only [execSyncEdge] at h
  split at h <;> cases h
  · exact .of_same (by simp) (by simp)
  · exact .of_same rfl rfl

theorem KeepsOrder.tamperSample {asserted : Bool} {s t : State} (h : execTamperSample asserted s = .next t) :
    KeepsOrder s t := by
  simp only [execTamperSample] at h
  repeat' split at h
  all_goals cases h
  · exact .refl s
  · simp only [State.tamperEvent]
    repeat' split
    · exact .of_same rfl rfl
    · exact .after_same (.startZeroization _) rfl rfl
    · exact .of_same rfl rfl
  all_goals exact .of_same rfl rfl

theorem KeepsOrder.deadlineReached {r : SlotRef} {s t : State} (h : execDeadlineReached r s = .next t) :
    KeepsOrder s t := by
  simp only [execDeadlineReached] at h
  repeat' split at h
  all_goals cases h
  · exact .deadline r _ s
  · exact .refl s
  · exact .refl s

/-! ### The NV writer -/

theorem KeepsOrder.nvOperationEnd {passed : Bool} {s t : State} (h : execNvOperationEnd passed s = .next t) :
    KeepsOrder s t := by
  have hnoted : KeepsOrder s (s.noteVerify passed) := .of_same rfl rfl
  simp only [execNvOperationEnd] at h
  split at h <;> cases h
  next op _ => exact .of_same (by simp) (by simp)
  next v _ => cases passed <;> exact .of_same rfl rfl
  next v _ => cases passed <;> exact .of_same rfl rfl
  next v _ =>
    simp only [State.endReserveProgram]
    cases passed <;> exact .after_same (.endReserve _) rfl rfl
  next =>
    cases passed with
    | false => exact hnoted
    | true =>
      simp only [State.endBlankWord, if_true]
      exact .after_same (.leaveNvRead _) rfl rfl
  next => exact .refl s
  next => exact .refl s

theorem KeepsOrder.nvZeroizeStageEnd {s t : State} (h : execNvZeroizeStageEnd s = .next t) : KeepsOrder s t := by
  simp only [execNvZeroizeStageEnd] at h
  repeat' split at h
  all_goals cases h; exact .of_same rfl rfl

theorem KeepsOrder.nvZeroizeAttemptEnd {passed : Bool} {s t : State}
    (h : execNvZeroizeAttemptEnd passed s = .next t) : KeepsOrder s t := by
  simp only [execNvZeroizeAttemptEnd] at h
  repeat' split at h
  all_goals cases h; exact .of_same rfl rfl

theorem KeepsOrder.nvReadEnd {s t : State} (h : execNvReadEnd s = .next t) : KeepsOrder s t := by
  simp only [execNvReadEnd] at h
  repeat' split at h
  all_goals cases h
  · exact .refl s
  · exact .of_same rfl rfl
  · exact .after_same (.leaveNvRead _) rfl rfl

/-! ### The map -/

theorem KeepsOrder.mapTableReadStart {s t : State} (h : execMapTableReadStart s = .next t) : KeepsOrder s t := by
  simp only [execMapTableReadStart] at h
  split at h <;> cases h <;> exact .of_same rfl rfl

theorem KeepsOrder.mapTableReadEnd {first second : List ReadBeat} {s t : State}
    (h : execMapTableReadEnd first second s = .next t) : KeepsOrder s t := by
  simp only [execMapTableReadEnd] at h
  repeat' split at h
  all_goals cases h
  · exact .refl s
  · exact .of_same rfl rfl
  · exact .refl s
  · exact .of_same rfl rfl
  · simp only [State.judgeTable]
    split
    · exact .of_same rfl rfl
    · exact .after_same (.installMap _ _) rfl rfl

/-! ### Every row -/

/-- Every row but POWER_ON_RESET gives responses in the order of the requests (R136, R137). -/
theorem KeepsOrder.exec {row : Instr} {s t : State} (hrow : ∀ straps, row ≠ .powerOnReset straps)
    (h : exec row s = .next t) : KeepsOrder s t := by
  cases row with
  | powerOnReset straps => exact absurd rfl (hrow straps)
  | tick =>
    simp only [Machine.exec, execTick] at h
    split at h <;> cases h <;> exact .of_same rfl rfl
  | syncEdge => exact .syncEdge h
  | tamperSample asserted => exact .tamperSample h
  | deadlineReached r => exact .deadlineReached h
  | readHoldLimit i => cases h; exact .endAtLimit i s
  | requestAccept r => exact .requestAccept h
  | readTaken i => exact .readTaken h
  | writeTaken i beats => exact .writeTaken h
  | memoryReadResponse i place beats => exact .memoryReadResponse h
  | memoryWriteResponse i place resp => exact .memoryWriteResponse h
  | inboundShadowWrite r w b => cases h; exact .slotBeat (.shadowInbound r w b s)
  | payloadShadowWrite r w b => cases h; exact .slotBeat (.shadowPayload r w b s)
  | openSlot i r cw upper | arm i r cw upper | sealSlot i r cw upper | release i r cw upper | abort i r cw upper =>
    cases h; exact .slotBeat (.takeSlotCommand i r _ upper s)
  | engineTakeJob => exact .engineTakeJob h
  | verifyComplete => exact .verifyComplete h
  | sealComplete => exact .sealComplete h
  | importComplete => exact .importComplete h
  | checkComplete => exact .checkComplete h
  | blobWrite w b => cases h; exact .controlBeat (.captureBlob w.val b s)
  | loadPlain upper | load upper | revoke upper | erase upper | inquire upper | setReader upper | fieldLock upper
  | zeroize upper => cases h; exact .controlBeat (.takeImportCommand _ upper s)
  | nvOperationEnd passed => exact .nvOperationEnd h
  | nvZeroizeAttemptEnd passed => exact .nvZeroizeAttemptEnd h
  | nvReadEnd => exact .nvReadEnd h
  | mapTableReadStart => exact .mapTableReadStart h
  | mapTableReadEnd first second => exact .mapTableReadEnd h
  | mapWordWrite w | preWrite w | epochScheduleWrite w | attentionCausesWrite w | attentionEnablesWrite w
  | unmappedRightsWrite w | duplicateIntervalWrite w | holdTimeWrite w | counterClear w =>
    cases h; exact .controlBeat (.writeStatus _ w s)
  | switchNow | cancel => cases h; exact .controlBeat (.writeStatus _ _ s)
  | holdSet upper | holdClear upper => cases h; exact .controlBeat (.writeStatus _ _ s)
  | resetNRelease =>
    simp only [Machine.exec, execResetNRelease] at h
    split at h <;> cases h <;> exact .of_same rfl rfl
  | nvZeroizeStageEnd => exact .nvZeroizeStageEnd h

/-- Power-on empties the queues (R166). -/
theorem queuesInOrder_powerOn {straps : BitVec 2} {s t : State} (h : exec (.powerOnReset straps) s = .next t) :
    QueuesInOrder t := by
  cases h
  have hempty : ∀ i, (State.powerOn s.nv straps).queue i = [] := fun i => by simp [State.queue, State.powerOn]
  refine (queuesInOrder_iff _).mpr fun i => ?_
  show QueueInForm i ((State.powerOn s.nv straps).queue i) ∧ HeadNotReady ((State.powerOn s.nv straps).queue i)
  rw [hempty]
  exact ⟨⟨by simp, by simp, by simp, .nil⟩, fun e he => by cases he⟩

end Sys2Proof.Machine

namespace Sys2Proof.Proofs

open Sys2Proof.Machine Sys2Proof.Safety

/-- Settles O60: every row but power-on keeps the queues in order and gives responses from their heads, and power-on
empties them. -/
theorem stepAnswersRequestsInOrder : Obligations.StepAnswersRequestsInOrder := by
  intro s t hord h
  simp only [step] at h
  split at h
  next =>
    cases h
    exact ⟨hord, fun _ _ => ⟨List.prefix_rfl, List.prefix_rfl⟩⟩
  next row rest hpend =>
    by_cases hrow : ∃ straps, row = .powerOnReset straps
    · obtain ⟨straps, rfl⟩ := hrow
      exact ⟨queuesInOrder_powerOn h, fun _ hno => absurd (by rw [hpend]; rfl) (hno straps)⟩
    · have hgrows := KeepsOrder.exec (fun straps e => hrow ⟨straps, e⟩) h hord
      exact ⟨hgrows.inOrder, fun i _ => ⟨hgrows.requests i, hgrows.answered i⟩⟩

end Sys2Proof.Proofs
end

