-- ==== Sys2Proof/Proofs/Attention.lean ====
section
/-! SUPPORT. The attention words: what clearing causes leaves, and ATTN as the causes and their enables make it: O7
(R181, R185 to R187, R202). -/

namespace Sys2Proof.Machine

open Sys2Proof.Safety

theorem causePlace_eq (c : Cause) : causePlace c = causeBit c := by cases c <;> rfl

/-- Each of the 26 bits is the bit of a cause (R202). -/
theorem exists_causePlace {k : Nat} (h : k < 26) : ∃ c, causePlace c = k := by
  by_cases hg : k < 16
  · exact ⟨.slotDone ⟨k, hg⟩, rfl⟩
  · interval_cases k
    exacts [⟨.importDone, rfl⟩, ⟨.epochSwitched, rfl⟩, ⟨.scheduleRejected, rfl⟩, ⟨.mapLoaded, rfl⟩, ⟨.mapFault, rfl⟩,
      ⟨.refusal, rfl⟩, ⟨.tamper, rfl⟩, ⟨.nvFault, rfl⟩, ⟨.challengeLow, rfl⟩, ⟨.zeroized, rfl⟩]

/-- ATTN is asserted where a cause is set with its enable (R187). -/
theorem State.attn_iff {s : State} (h : s.life.resetAsserted = false) :
    s.attn = true ↔ ∃ c, s.causeSet c = true ∧ s.status.enables.getLsbD (causePlace c) = true := by
  have hbits : s.attn = true ↔ s.status.causes &&& s.status.enables ≠ 0#26 := by simp [State.attn, h]
  have hset : ∀ c, s.causeSet c = s.status.causes.getLsbD (causePlace c) := fun c => by
    rw [causePlace_eq]; rfl
  simp only [hbits, hset]
  refine ⟨fun hne => ?_, fun ⟨c, hc, he⟩ hzero => ?_⟩
  · by_contra hnone
    refine hne (BitVec.eq_of_getLsbD_eq fun k hk => ?_)
    obtain ⟨c, rfl⟩ := exists_causePlace hk
    rw [BitVec.getLsbD_and, BitVec.getLsbD_zero, Bool.eq_false_iff, ne_eq, Bool.and_eq_true]
    exact fun hboth => hnone ⟨c, hboth⟩
  · have hbit := congrArg (fun v => v.getLsbD (causePlace c)) hzero
    simp [hc, he] at hbit

/-- The causes word clears exactly the causes that it names (R186). -/
theorem State.causeSet_clearCauses (w : Word) (s : State) (c : Cause) :
    (s.clearCauses w).causeSet c = (s.causeSet c && !w.getLsbD (causePlace c)) := by
  have hcauses : (s.clearCauses w).status.causes = s.status.causes &&& ~~~(w.extractLsb' 0 26) := by
    simp only [State.clearCauses]; split <;> rfl
  have hlt := causeBit_lt c
  simp [State.causeSet, hcauses, causePlace_eq, hlt]

/-- The first-refusal record is cleared with its cause (R186, log entry 26). -/
theorem State.clearCauses_refusal (w : Word) (s : State) : (s.clearCauses w).path.refusal =
    if w.getLsbD 21 && s.causeSet .refusal then { s.path.refusal with valid := false } else s.path.refusal := by
  have hbit : (w.extractLsb' 0 26).getLsbD 21 = w.getLsbD 21 := by simp
  simp only [State.clearCauses, hbit]
  split <;> rfl

/-- Clearing causes reaches nothing but the causes and the first-refusal record (R186). -/
theorem State.clearCauses_frame (w : Word) (s : State) :
    (s.clearCauses w).status = { s.status with causes := (s.clearCauses w).status.causes } ∧
    s.clearCauses w = { s with
      status := (s.clearCauses w).status
      path := { s.path with refusal := (s.clearCauses w).path.refusal } } := by
  simp only [State.clearCauses]
  split <;> exact ⟨rfl, rfl⟩

/-- A setting that the hold does not shut out is taken in RUNNING, whether the hold is set or not (R181). -/
theorem exec_settingRow_underHold {row : Instr} {word : StatusWord} {offset : Nat} {w : Word}
    (h : settingRow row = some (word, offset, w)) (ht : takenUnderHold word = true) {s : State}
    (hp : s.life.phase = .running) (hr : s.reloading = false) :
    exec row s = .next ((s.applySetting word w).forwardBeat (s.base + offset) (fullBeat w)) := by
  have htaken : s.settingTaken word = true := by simp [State.settingTaken, hp, ht, hr]
  rw [exec_settingRow_taken h hr, State.writeStatus, if_pos htaken]

end Sys2Proof.Machine

namespace Sys2Proof.Proofs

open Sys2Proof.Machine Sys2Proof.Safety

/-- Settles O7: both words are taken under the hold too, and ATTN is read off the causes and enables that they leave. -/
theorem attentionWordsAct : Obligations.AttentionWordsAct := by
  intro s w hp hr
  refine ⟨⟨_, exec_settingRow_underHold (row := .attentionCausesWrite w) rfl rfl hp hr, s.causeSet_clearCauses w,
    (s.clearCauses_frame w).1, s.clearCauses_refusal w, ?_, fun hreset => ?_⟩,
    ⟨_, exec_settingRow_underHold (row := .attentionEnablesWrite w) rfl rfl hp hr, rfl, fun hreset => ?_⟩⟩
  · exact congrArg (fun t => t.forwardBeat (s.base + 0x040) (fullBeat w)) (s.clearCauses_frame w).2
  · have hlife := congrArg (fun t => t.life.resetAsserted) (s.clearCauses_frame w).2
    exact State.attn_iff (s := (s.clearCauses w).forwardBeat _ _) (hlife.trans hreset)
  · refine (State.attn_iff (s := (s.writeEnables w).forwardBeat _ _) hreset).trans
      (exists_congr fun c => and_congr_right fun _ => ?_)
    have hlt : causePlace c < 26 := causePlace_eq c ▸ causeBit_lt c
    simp [State.forwardBeat, State.writeEnables, hlt]

end Sys2Proof.Proofs
end

