-- ==== Sys2Proof/Proofs/Ports.lean ====
section
/-! SUPPORT. The ports: an address phase that joins its queue, a refused request, memory's responses, and the reload
that a map word begins: O41, O44, O47 and O49 (R136, R137, R141 to R146, R155). -/

namespace Sys2Proof.Machine

open Sys2Proof.Safety

/-! ### A refused request (R141, R145) -/

/-- A request that fails a check is refused, a read as READ_TAKEN and a write with its beats as WRITE_TAKEN. -/
theorem exec_refused {s : State} {i : Initiator} {pre post : List QueueEntry} {r : Request} {row : Instr}
    {beats : List WriteBeat} {reason : RefusalReason} (hnext : NextIs s i pre r post)
    (hrow : row = .readTaken i ∧ r.dir = .read ∧ beats = [] ∨
      row = .writeTaken i beats ∧ r.dir = .write ∧ beats.length = r.len.toNat + 1)
    (hreason : s.refusalReason r beats = some reason) : exec row s = .next (s.refuse i r reason) := by
  have hhead := s.nextRequest_of_next i pre r post hnext
  rcases hrow with ⟨rfl, hd, rfl⟩ | ⟨rfl, hd, hlen⟩
  · show execReadTaken i s = _
    simp [execReadTaken, hhead, hd, hreason]
  · have hform : ¬(r.dir = .read ∨ beats.length ≠ beatCount r) := by simp [hd, hlen, beatCount]
    show execWriteTaken i beats s = _
    simp only [execWriteTaken, hhead, if_neg hform, hreason]

/-- What a refusal counts and raises (R145). -/
theorem State.refuse_status (i : Initiator) (r : Request) (reason : RefusalReason) (s : State) :
    (s.refuse i r reason).counter .refusals = counted (s.counter .refusals) ∧
      CountersKept [.refusals] s (s.refuse i r reason) ∧ (s.refuse i r reason).causeSet .refusal = true ∧
      OnlyRaised [.refusal] s (s.refuse i r reason) := by
  refine ⟨?_, fun c hc => s.counter_bump_of_ne .refusals c 1 (by simpa using hc), ?_, ?_⟩
  · exact (s.counter_bump_self .refusals 1).trans (saturate_one _)
  · exact ((s.bump .refusals 1).causeSet_raise .refusal .refusal).trans (by simp)
  · exact onlyRaised_trans (onlyRaised_of_same s (s.bump .refusals 1) _ rfl rfl rfl)
      (onlyRaised_of_raise (s.bump .refusals 1) _ .refusal _ (by simp) rfl)

/-! ### Memory's responses (R142 to R144) -/

/-- One word of a read that memory answers: the part's own where it has one (R144). -/
def substituted (answered : Option Word) (b : ReadBeat) : ReadBeat :=
  match answered with
  | some w => { data := w, resp := .okay }
  | none => b

theorem substitute_eq_zipWith {answers : List (Option Word)} {beats : List ReadBeat}
    (h : answers.length = beats.length) : substitute answers beats = List.zipWith substituted answers beats := by
  induction answers generalizing beats with
  | nil => rw [List.length_eq_zero_iff.mp h.symm]; rfl
  | cons a answers ih =>
    cases beats with
    | nil => cases h
    | cons b beats =>
      have htail := ih (Nat.succ.inj h)
      cases a <;> simp only [substitute, htail] <;> rfl

/-! ### The load of the table (R146) -/

/-- The forwarded writes have drained where none is awaited (R146). -/
theorem State.drained_iff (s : State) :
    s.drained = true ↔ ∀ i, ∀ e ∈ s.queue i, ∀ a, e.stage ≠ .forwarded a true := by
  have hawaited : ∀ e, isAwaited e = true ↔ ∃ a, e.stage = .forwarded a true := fun e => by
    obtain ⟨r, stage⟩ := e
    cases stage <;> simp [isAwaited]
  have hany : s.drained = true ↔ ∀ i, ∀ e ∈ s.queue i, ¬isAwaited e = true := by simp [State.drained]
  simp only [hany, hawaited, not_exists, ne_eq]

end Sys2Proof.Machine

namespace Sys2Proof.Proofs

open Sys2Proof.Machine Sys2Proof.Safety

/-- Settles O41: the length of the queue decides. -/
theorem requestJoinsItsOrderQueue : Obligations.RequestJoinsItsOrderQueue := by
  intro r s
  have hexec : exec (.requestAccept r) s = execRequestAccept r s := rfl
  refine ⟨fun hlt => ?_, fun hle => ?_⟩
  · have hjoins : (s.queue r.initiator).length < Config.queueLimit := hlt
    refine ⟨_, by rw [hexec, execRequestAccept, if_pos hjoins], ?_, fun j hj => ?_, rfl⟩
    · rw [State.queue_setQueue, if_pos rfl]
    · rw [State.queue_setQueue, if_neg hj]
  · have hfull : ¬(s.queue r.initiator).length < Config.queueLimit := Nat.not_lt.mpr hle
    rw [hexec, execRequestAccept, if_neg hfull]

/-- Settles O44: `refuse` records the refusal, makes the refusing reply ready in its place, and leaves the rest. -/
theorem refusedRequestIsOnlyRecorded : Obligations.RefusedRequestIsOnlyRecorded := by
  intro s i pre r post row beats reason hord hnext hrow hreason
  obtain ⟨-, hq, hpre, -⟩ := id hnext
  obtain ⟨hcount, hcounters, hcause, hraised⟩ := s.refuse_status i r reason
  have hready : ReplyReady s (s.refuse i r reason) i pre r (refusedReply r) post := by
    refine replyReady_of_giveResponses
      (u := (s.recordRefusal r reason).setQueue i (takeHead (.ready (refusedReply r)) (s.queue i))) hord hq
      (fun j => ?_) rfl rfl
    rw [State.queue_setQueue, hq, takeHead_of_next _ pre r post hpre]
    rfl
  refine ⟨_, exec_refused hnext hrow hreason, ?_, hcount, hcounters, hcause, hraised, rfl, rfl⟩
  rcases hrow with ⟨-, hd, -⟩ | ⟨-, hd, -⟩ <;> simpa only [refusedReply, hd, beatCount] using hready

/-- Settles O47: the reply is made ready at its place in the queue, the answered words put into memory's beats. -/
theorem memoryResponsesAreGivenInOrder : Obligations.MemoryResponsesAreGivenInOrder := by
  intro s i pre r answers awaited post place hord hq hplace
  have hready : ∀ reply, ReplyReady s (s.setStage i place.val (.ready reply)).giveResponses i pre r reply post :=
    fun reply => by
      rw [(State.setStage_of_split hq hplace _).2]
      exact replyReady_of_giveResponses hord hq (fun j => State.queue_setQueue s i j _) rfl rfl
  have hentry := (State.setStage_of_split hq hplace .untaken).1
  refine ⟨fun beats hd hlen hwords => ?_, fun resp hd => ?_⟩
  · have hform : ¬(r.dir = .write ∨ beats.length ≠ beatCount r) := by simp [hd, hlen, beatCount]
    have hexec : exec (.memoryReadResponse i place beats) s =
        .next (s.setStage i place.val (.ready (.read (substitute answers beats)))).giveResponses := by
      show execMemoryReadResponse i place beats s = _
      simp only [execMemoryReadResponse, hentry, if_neg hform]
    refine ⟨_, _, hexec, hready _, ?_, fun k w hw => ?_, fun k hk => ?_, rfl⟩
    · rw [substitute_eq_zipWith hwords, List.length_zipWith, hwords, Nat.min_self]
    · obtain ⟨hlt, -⟩ := List.getElem?_eq_some_iff.mp hw
      rw [substitute_eq_zipWith hwords, List.getElem?_zipWith, hw, List.getElem?_eq_getElem (hwords ▸ hlt)]
      rfl
    · rw [substitute_eq_zipWith hwords, List.getElem?_zipWith, hk]
      cases beats[k]? <;> rfl
  · have hform : ¬r.dir = .read := by simp [hd]
    refine ⟨_, ?_, hready (.write resp), rfl⟩
    show execMemoryWriteResponse i place resp s = _
    simp only [execMemoryWriteResponse, hentry, if_neg hform]

/-- Settles O49: a map word is `beginLoad` with the generation stored, and the table is read where every awaited
write is answered. -/
theorem mapWordStartsReloadAfterDrain : Obligations.MapWordStartsReloadAfterDrain := by
  refine ⟨fun s w hp hh hr => ?_, fun s hl => ?_⟩
  · obtain ⟨hmap, -, hqueue⟩ := State.beginLoad_began { s with map := { s.map with requested := w.extractLsb' 0 16 } }
    exact ⟨_, exec_settingRow_applied (row := .mapWordWrite w) rfl hp hh hr, hmap, hqueue, rfl⟩
  · have hexec : exec .mapTableReadStart s = execMapTableReadStart s := rfl
    refine ⟨fun hnone => ?_, fun ⟨i, e, he, a, ha⟩ => ?_⟩
    · rw [hexec, execMapTableReadStart, if_pos ⟨hl, s.drained_iff.mpr hnone⟩]
      rfl
    · have hnot : ¬(s.map.load = some .draining ∧ s.drained = true) := fun h => s.drained_iff.mp h.2 i e he a ha
      rw [hexec, execMapTableReadStart, if_neg hnot]

end Sys2Proof.Proofs
end
